-- ==== Sys2Proof/Word.lean ====
section
/-!
DEFINITION. The word types of the block (spec/00_scope.md R8, R10): every value the block moves is an unsigned
bit vector of one of these widths. Bit 0 is the least significant bit.
-/
namespace Sys2Proof.Config

/-- `IOADDR_W`: the width of an I/O port address (R8, D2). -/
abbrev ioAddrWidth : Nat := 16

/-- `PHYS_W`: the width of a physical address held in a translation pair (R8, D16). -/
abbrev physWidth : Nat := 64

/-- `LBA_W`: the width of a sector address (R8). -/
abbrev lbaWidth : Nat := 48

end Sys2Proof.Config

namespace Sys2Proof

/-- A byte: one register access through the multiplexer (R26), one cell of memory (R64). -/
abbrev Byte := BitVec 8

/-- A 16-bit word: one access to DATA (R32), a sector count (R8). -/
abbrev Word := BitVec 16

/-- A 32-bit value: the PRDT address (R35), and the widest value a port access moves (R60). -/
abbrev Dword := BitVec 32

/-- An I/O port address, `IOADDR_W` bits (R8, D2). -/
abbrev IoAddr := BitVec Config.ioAddrWidth

/-- A physical address held in a translation pair, `PHYS_W` bits (R8, D16). -/
abbrev PhysAddr := BitVec Config.physWidth

/-- A sector address, `LBA_W` bits (R8). -/
abbrev Lba := BitVec Config.lbaWidth

end Sys2Proof
end

