-- ==== Sys2Proof/Machine/Parameters.lean ====
section
/-!
DEFINITION. The parameters of spec/00_scope.md R8 and the values of spec/92_eei_decisions.md, each under its own name so
that a claim can name it (R9). The three widths stand with the word types (`Config.ioAddrWidth`, `physWidth`,
`lbaWidth`); the parameters the spec leaves open are in Config.
-/
namespace Sys2Proof.Config

/-! ## Sizes and bounds (R8) -/

/-- `DEVICES_PER_CHANNEL` (R8). -/
def devicesPerChannel : Nat := 2

/-- `CHANNELS` (R8). -/
def channels : Nat := 2

/-- Bytes per sector, `SECTOR_BYTES` (R8). -/
def sectorBytes : Nat := 512

/-- 16-bit words per sector, `SECTOR_WORDS` (R8). -/
def sectorWords : Nat := 256

/-- `SECTOR_COUNT_MIN` (R8). -/
def sectorCountMin : Nat := 1

/-- `SECTOR_COUNT_MAX` (R8). -/
def sectorCountMax : Nat := 65535

/-- The alignment of a pair's address and length, `PAIR_ALIGN` (R8). -/
def pairAlign : Nat := 2

/-- The physical boundary no PRD entry may cross, `BOUNDARY` (R8). -/
def boundary : Nat := 65536

/-- `MAX_PHYS_ADDR` (R8, D16). -/
def maxPhysAddr : Nat := 0xFFFFFFFF

/-- `MAX_PAIR_SPAN` (R8, D16). -/
def maxPairSpan : Nat := 65536

/-- `PRD_ENTRY_BYTES` (R8, D15). -/
def prdEntryBytes : Nat := 8

/-- The offset of the count field in a PRD entry (R95, D15). -/
@[simp] def prdCountOffset : Nat := 4

/-- The offset of the flags field in a PRD entry (R95, D15). -/
@[simp] def prdFlagsOffset : Nat := 6

/-- The bytes an entry moves whose count field is 0 (R96, D15). -/
@[simp] def prdZeroCountBytes : Nat := 65536

/-- The end of the physical addresses an entry can name: no pair may end above it (R207, D17, U8). -/
@[simp] def prdAddrLimit : Nat := 2 ^ 32

/-- `PRDT_MAX_ADDR` (R8). -/
def prdtMaxAddr : Nat := 0xFFFFFFFF

/-- `TSM_RESET_ON_CLEANUP` (R8, R233, D21). The operation takes the value as an argument, so both readings are in
the model. -/
def tsmResetOnCleanup : Bool := true

/-! ## Logical offsets (R92, R93, D1) -/

/-- The logical offset of DATA (R93, D1). -/
@[simp] def dataOffset : Nat := 0x00

/-- The logical offset of ERROR / FEATURES (R93, D1). -/
@[simp] def errorOffset : Nat := 0x01

/-- The logical offset of SECCOUNT0 (R93, D1). -/
@[simp] def seccount0Offset : Nat := 0x02

/-- The logical offset of LBA0 (R93, D1). -/
@[simp] def lba0Offset : Nat := 0x03

/-- The logical offset of LBA1 (R93, D1). -/
@[simp] def lba1Offset : Nat := 0x04

/-- The logical offset of LBA2 (R93, D1). -/
@[simp] def lba2Offset : Nat := 0x05

/-- The logical offset of DEVICE (R93, D1). -/
@[simp] def deviceOffset : Nat := 0x06

/-- The logical offset of STATUS / COMMAND (R93, D1). -/
@[simp] def statusOffset : Nat := 0x07

/-- The logical offset of SECCOUNT1 (R93, D1). -/
@[simp] def seccount1Offset : Nat := 0x08

/-- The logical offset of LBA3 (R93, D1). -/
@[simp] def lba3Offset : Nat := 0x09

/-- The logical offset of LBA4 (R93, D1). -/
@[simp] def lba4Offset : Nat := 0x0A

/-- The logical offset of LBA5 (R93, D1). -/
@[simp] def lba5Offset : Nat := 0x0B

/-- The logical offset of ALTSTATUS / DEVCTL (R93, D1). -/
@[simp] def devctlOffset : Nat := 0x0C

/-- The logical offset of CTL1, reserved (R93, D1). -/
@[simp] def ctl1Offset : Nat := 0x0D

/-- The logical offset of BUSCMD (R93, D1). -/
@[simp] def buscmdOffset : Nat := 0x0E

/-- The logical offset of BM1, reserved (R93, D1). -/
@[simp] def bm1Offset : Nat := 0x0F

/-- The logical offset of BUSSTATUS (R93, D1). -/
@[simp] def busstatusOffset : Nat := 0x10

/-- The logical offset of BM3, reserved (R93, D1). -/
@[simp] def bm3Offset : Nat := 0x11

/-- The logical offset of PRDTADDR0 (R93, D1). -/
@[simp] def prdtaddr0Offset : Nat := 0x12

/-- The logical offset of PRDTADDR1 (R93, D1). -/
@[simp] def prdtaddr1Offset : Nat := 0x13

/-- The logical offset of PRDTADDR2 (R93, D1). -/
@[simp] def prdtaddr2Offset : Nat := 0x14

/-- The logical offset of PRDTADDR3 (R93, D1). -/
@[simp] def prdtaddr3Offset : Nat := 0x15

/-- The last offset of range 1 (R92, D1). -/
@[simp] def range1Last : Nat := 0x07

/-- The last offset of range 2 (R92, D1). -/
@[simp] def range2Last : Nat := 0x0B

/-- The last offset of range 3 (R92, D1). -/
@[simp] def range3Last : Nat := 0x0D

/-- The last offset of range 4 (R92, D1). -/
@[simp] def range4Last : Nat := 0x15

/-- `FIFO_OFFSET_DELTA` (R93, D1). -/
@[simp] def fifoOffsetDelta : Nat := 0x06

/-- `CONTROL_OFFSET_BASE` (R93, D1). -/
@[simp] def controlOffsetBase : Nat := 0x0C

/-- `BUS_OFFSET_BASE` (R93, D1). -/
@[simp] def busOffsetBase : Nat := 0x0E

/-! ## Bit positions (D3 to D6) -/

/-- STATUS bit: busy (R27, D3). -/
def busyBit : Nat := 7

/-- STATUS bit: device ready (R27, D3). -/
def drdyBit : Nat := 6

/-- STATUS bit: device fault (R27, D3). -/
def dfBit : Nat := 5

/-- STATUS bit: data request (R27, D3). -/
def drqBit : Nat := 3

/-- STATUS bit: command error (R27, D3). -/
def errBit : Nat := 0

/-- DEVCTL bit: high-order-byte latch (R29, D4). -/
def hobBit : Nat := 7

/-- DEVCTL bit: suppress the interrupt line (R29, D4). -/
def nienBit : Nat := 1

/-- DEVICE bit: LBA addressing (R30, D5). -/
def lbaBit : Nat := 6

/-- DEVICE bit: device select (R30, D5). -/
def devBit : Nat := 4

/-- BUSCMD bit: read direction (R33, D6). -/
def dmaReadBit : Nat := 3

/-- BUSCMD bit: start (R33, D6). -/
def startBit : Nat := 0

/-- BUSSTATUS bit: interrupt (R34, D6). -/
def irqBit : Nat := 2

/-- flags bit of a PRD entry: last entry (R95). -/
def lastEntryBit : Nat := 15

/-! ## Bytes written (D4, D5, D7, D25, D26) -/

/-- The DEVCTL byte with NIEN alone set (R22, D4). -/
@[simp] def nienMask : Byte := 0x02#8

/-- The DEVCTL byte with HOB alone set (R29, D4). -/
@[simp] def hobMask : Byte := 0x80#8

/-- `DevSelByte` of a first device: LBA mode, DEV clear (R30, D5). -/
@[simp] def devSelMaster : Byte := 0x40#8

/-- `DevSelByte` of a second device: LBA mode, DEV set (R30, D5). -/
@[simp] def devSelSlave : Byte := 0x50#8

/-- The BUSCMD byte that starts a device read (R285, D25). -/
@[simp] def startReadByte : Byte := 0x09#8

/-- The BUSCMD byte that starts a device write (R285, D25). -/
@[simp] def startWriteByte : Byte := 0x01#8

/-- The BUSCMD byte that stops the engine (R187, D25). -/
@[simp] def stopByte : Byte := 0x00#8

/-- The BUSSTATUS acknowledge byte (R310, D26). -/
@[simp] def ackByte : Byte := 0x04#8

/-- The command byte of IDENTIFY (R98, D7). -/
@[simp] def identifyByte : Byte := 0xEC#8

/-- The command byte of READ SECTORS EXT (R98, D7). -/
@[simp] def readSectorsExtByte : Byte := 0x24#8

/-- The command byte of WRITE SECTORS EXT (R98, D7). -/
@[simp] def writeSectorsExtByte : Byte := 0x34#8

/-- The command byte of READ DMA EXT (R98, D7). -/
@[simp] def readDmaExtByte : Byte := 0x25#8

/-- The command byte of WRITE DMA EXT (R98, D7). -/
@[simp] def writeDmaExtByte : Byte := 0x35#8

/-! ## Fields of the ACC format (R91, D12) -/

/-- The width of an ACC word (R91, D12). -/
@[simp] def accBits : Nat := 11

/-- The bit of an ACC word that tells a write, `w`; the offset is below it (R91, D12). -/
@[simp] def accWriteBit : Nat := 8

/-- The low bit of the two-bit field `size` of an ACC word (R91, D12). -/
@[simp] def accSizeBit : Nat := 9

/-- `size` of an 8-bit access (R91, D12). -/
@[simp] def accSizeByte : Nat := 0

/-- `size` of a 16-bit access (R91, D12). -/
@[simp] def accSizeWord : Nat := 1

/-- `size` of a 32-bit access (R91, D12). -/
@[simp] def accSizeDword : Nat := 2

/-! ## Fields of the REQ format (R99, D12) -/

/-- The bit of the flag `f0` of a REQ word; the operation code is below it (R99, D12). -/
@[simp] def reqFlag0Bit : Nat := 4

/-- The bit of the flag `f1` of a REQ word (R99, D12). -/
@[simp] def reqFlag1Bit : Nat := 5

/-- The bits of a REQ word that may be set: those from here on are zero (R99, D12). -/
@[simp] def reqBits : Nat := 6

/-! ## Operation codes of the REQ format (R99, D12) -/

/-- The REQ code of INIT_DEVICE (R99, D12). -/
@[simp] def opInitDevice : Nat := 0x1

/-- The REQ code of TRANSFER_SECTORS (R99, D12). -/
@[simp] def opTransferSectors : Nat := 0x2

/-- The REQ code of WAIT_IDLE (R99, D12). -/
@[simp] def opWaitIdle : Nat := 0x3

/-- The REQ code of WAIT_DRQ (R99, D12). -/
@[simp] def opWaitDrq : Nat := 0x4

/-- The REQ code of WAIT_READY (R99, D12). -/
@[simp] def opWaitReady : Nat := 0x5

/-- The REQ code of SELECT_DEVICE (R99, D12). -/
@[simp] def opSelectDevice : Nat := 0x6

/-- The REQ code of PROGRAM_NIEN (R99, D12). -/
@[simp] def opProgramNien : Nat := 0x7

/-- The REQ code of PIO_BUFFER (R99, D12). -/
@[simp] def opPioBuffer : Nat := 0x8

/-- The REQ code of BUILD_PRDT (R99, D12). -/
@[simp] def opBuildPrdt : Nat := 0x9

/-- The REQ code of TSM_SUBMIT (R99, D12). -/
@[simp] def opTsmSubmit : Nat := 0xA

/-- The REQ code of TSM_COMPLETE (R99, D12). -/
@[simp] def opTsmComplete : Nat := 0xB

/-- The REQ code of TSM_CONSUME (R99, D12). -/
@[simp] def opTsmConsume : Nat := 0xC

/-- The REQ code of IRQ_HANDLER (R99, D12). -/
@[simp] def opIrqHandler : Nat := 0xD

/-- The REQ code of STOP_DMA (R99, D12). -/
@[simp] def opStopDma : Nat := 0xE

/-! ## IDENTIFY data (R259, D8) -/

/-- `IDENT_CAP_WORD` (R259, D8). -/
def identCapWord : Nat := 83

/-- `IDENT_CAP_BIT` (R259, D8). -/
def identCapBit : Nat := 10

/-- `IDENT_SECTORS_WORD` (R259, D8). -/
def identSectorsWord : Nat := 100

/-! ## Legacy values (R73, D9) -/

/-- `LEGACY_BASE[ch]` (R73, D9). -/
def legacyBase (secondary : Bool) : IoAddr := if secondary then 0x0170#16 else 0x01F0#16

/-- `LEGACY_CTRL[ch]` (R73, D9). -/
def legacyCtrl (secondary : Bool) : IoAddr := if secondary then 0x0376#16 else 0x03F6#16

/-- `LEGACY_IRQ[ch]` (R73, D9). -/
def legacyIrq (secondary : Bool) : Nat := if secondary then 15 else 14

end Sys2Proof.Config
end

