-- ==== Sys2Proof/Syntax.lean ====
section
/-!
DEFINITION. The operations of the block (spec/30_encoding.md R100: the closed set, 67 rows) and what travels
beside an operation's word at the request port (R91, R99): the operands, the calling context and the slice of
the processor the caller's agent is given.
-/
namespace Sys2Proof

/-- The operations, one constructor per row of spec/opcode_table.json. The arguments are the flag bits the row's
word holds (R99); every other operand travels beside the word (`Operands`). -/
inductive Instr where
  /-- `RD_DATA`, ACC 0x000, R130. -/
  | rdData
  /-- `WR_DATA`, ACC 0x100, R131. -/
  | wrData
  /-- `RD_ERROR`, ACC 0x001, R132. -/
  | rdError
  /-- `WR_FEATURES`, ACC 0x101, R133. -/
  | wrFeatures
  /-- `RD_SECCOUNT0`, ACC 0x002, R134. -/
  | rdSeccount0
  /-- `WR_SECCOUNT0`, ACC 0x102, R135. -/
  | wrSeccount0
  /-- `RD_LBA0`, ACC 0x003, R136. -/
  | rdLba0
  /-- `WR_LBA0`, ACC 0x103, R137. -/
  | wrLba0
  /-- `RD_LBA1`, ACC 0x004, R138. -/
  | rdLba1
  /-- `WR_LBA1`, ACC 0x104, R139. -/
  | wrLba1
  /-- `RD_LBA2`, ACC 0x005, R140. -/
  | rdLba2
  /-- `WR_LBA2`, ACC 0x105, R141. -/
  | wrLba2
  /-- `RD_DEVICE`, ACC 0x006, R142. -/
  | rdDevice
  /-- `WR_DEVICE`, ACC 0x106, R143. -/
  | wrDevice
  /-- `RD_STATUS`, ACC 0x007, R144. -/
  | rdStatus
  /-- `WR_COMMAND`, ACC 0x107, R145. -/
  | wrCommand
  /-- `RD_SECCOUNT1`, ACC 0x008, R146. -/
  | rdSeccount1
  /-- `WR_SECCOUNT1`, ACC 0x108, R147. -/
  | wrSeccount1
  /-- `RD_LBA3`, ACC 0x009, R148. -/
  | rdLba3
  /-- `WR_LBA3`, ACC 0x109, R149. -/
  | wrLba3
  /-- `RD_LBA4`, ACC 0x00A, R150. -/
  | rdLba4
  /-- `WR_LBA4`, ACC 0x10A, R151. -/
  | wrLba4
  /-- `RD_LBA5`, ACC 0x00B, R152. -/
  | rdLba5
  /-- `WR_LBA5`, ACC 0x10B, R153. -/
  | wrLba5
  /-- `RD_ALTSTATUS`, ACC 0x00C, R154. -/
  | rdAltstatus
  /-- `WR_DEVCTL`, ACC 0x10C, R155. -/
  | wrDevctl
  /-- `RD_CTL1`, ACC 0x00D, R156. -/
  | rdCtl1
  /-- `WR_CTL1`, ACC 0x10D, R157. -/
  | wrCtl1
  /-- `RD_BUSCMD`, ACC 0x00E, R158. -/
  | rdBuscmd
  /-- `WR_BUSCMD`, ACC 0x10E, R159. -/
  | wrBuscmd
  /-- `RD_BM1`, ACC 0x00F, R160. -/
  | rdBm1
  /-- `WR_BM1`, ACC 0x10F, R161. -/
  | wrBm1
  /-- `RD_BUSSTATUS`, ACC 0x010, R162. -/
  | rdBusstatus
  /-- `WR_BUSSTATUS`, ACC 0x110, R163. -/
  | wrBusstatus
  /-- `RD_BM3`, ACC 0x011, R164. -/
  | rdBm3
  /-- `WR_BM3`, ACC 0x111, R165. -/
  | wrBm3
  /-- `RD_PRDTADDR0`, ACC 0x012, R166. -/
  | rdPrdtaddr0
  /-- `WR_PRDTADDR0`, ACC 0x112, R167. -/
  | wrPrdtaddr0
  /-- `RD_PRDTADDR1`, ACC 0x013, R168. -/
  | rdPrdtaddr1
  /-- `WR_PRDTADDR1`, ACC 0x113, R169. -/
  | wrPrdtaddr1
  /-- `RD_PRDTADDR2`, ACC 0x014, R170. -/
  | rdPrdtaddr2
  /-- `WR_PRDTADDR2`, ACC 0x114, R171. -/
  | wrPrdtaddr2
  /-- `RD_PRDTADDR3`, ACC 0x015, R172. -/
  | rdPrdtaddr3
  /-- `WR_PRDTADDR3`, ACC 0x115, R173. -/
  | wrPrdtaddr3
  /-- `RD16_DATA`, ACC 0x200, R128. -/
  | rd16Data
  /-- `WR16_DATA`, ACC 0x300, R128. -/
  | wr16Data
  /-- `WR32_PRDTADDR`, ACC 0x512, R129. -/
  | wr32Prdtaddr
  /-- `IDENTIFY`, CMD 0xEC, R254. -/
  | identify
  /-- `READ_SECTORS_EXT`, CMD 0x24, R284. -/
  | readSectorsExt
  /-- `WRITE_SECTORS_EXT`, CMD 0x34, R284. -/
  | writeSectorsExt
  /-- `READ_DMA_EXT`, CMD 0x25, R284. -/
  | readDmaExt
  /-- `WRITE_DMA_EXT`, CMD 0x35, R284. -/
  | writeDmaExt
  /-- `INIT_DEVICE`, REQ 0x01, R250. -/
  | initDevice (secondary slave : Bool)
  /-- `TRANSFER_SECTORS`, REQ 0x02, R270. -/
  | transferSectors (async isWrite : Bool)
  /-- `WAIT_IDLE`, REQ 0x03, R180. -/
  | waitIdle
  /-- `WAIT_DRQ`, REQ 0x04, R181. -/
  | waitDrq
  /-- `WAIT_READY`, REQ 0x05, R182. -/
  | waitReady
  /-- `SELECT_DEVICE`, REQ 0x06, R183. -/
  | selectDevice
  /-- `PROGRAM_NIEN`, REQ 0x07, R184. -/
  | programNien (suppress : Bool)
  /-- `PIO_BUFFER__read`, REQ 0x08, R185. -/
  | pioBufferRead
  /-- `PIO_BUFFER__write`, REQ 0x28, R186. -/
  | pioBufferWrite
  /-- `BUILD_PRDT`, REQ 0x09, R200. -/
  | buildPrdt
  /-- `TSM_SUBMIT`, REQ 0x0A, R231. -/
  | tsmSubmit
  /-- `TSM_COMPLETE`, REQ 0x0B, R232. -/
  | tsmComplete
  /-- `TSM_CONSUME`, REQ 0x0C, R233. -/
  | tsmConsume
  /-- `IRQ_HANDLER`, REQ 0x0D, R300. -/
  | irqHandler
  /-- `STOP_DMA`, REQ 0x0E, R187. -/
  | stopDma
  deriving DecidableEq, Repr

/-- The four logical devices: up to `CHANNELS x DEVICES_PER_CHANNEL` of them (R8, R344). A handle names the
records a request works on (R250); which channel and position the device has is in the records. -/
inductive Handle where
  | d0 | d1 | d2 | d3
  deriving DecidableEq, Repr

/-- The two execution contexts that stand in for privilege modes (R340). -/
inductive Context where
  | thread | interrupt
  deriving DecidableEq, Repr

/-- A translation pair: a contiguous physical run of the caller's buffer (R49). The length is a natural (R200). -/
structure Pair where
  addr : PhysAddr
  len : Nat
  deriving DecidableEq, Repr

/-- `pciInfo`, the input of bring-up (R55). The spec gives `irqRoute` no width: a natural (DESIGN CHOICE, log
entry 26). -/
structure PciInfo where
  usePci : Bool
  cmdBase : IoAddr
  ctrlBase : IoAddr
  bmBase : IoAddr
  irqRoute : Nat
  deriving DecidableEq, Repr

/-- What travels beside an operation's word (R91, R99): each operation reads the fields its rule names. -/
structure Operands where
  /-- the device the operation is invoked on -/
  dev : Handle
  /-- the three valid bits of a transfer request (R270, D41) -/
  devValid : Bool
  bufValid : Bool
  outValid : Bool
  /-- the data operand of a write; an access of `n` bits takes the low `n` bits (R91) -/
  data : Dword
  startSector : Lba
  sectorCount : Word
  /-- the address of the caller's buffer in the caller's virtual address space (R66) -/
  buffer : Nat
  /-- which output slot receives `sectorsTransferred` (R270) -/
  outSlot : Nat
  /-- the word count of PIO_BUFFER (R185) -/
  words : Nat
  /-- the operands of BUILD_PRDT (R200) -/
  pairs : List Pair
  totalBytes : Nat
  /-- the operand of INIT_DEVICE (R250) -/
  pci : PciInfo
  deriving DecidableEq, Repr

/-- Operands of all zeros. -/
def Operands.zero : Operands :=
  { dev := .d0, devValid := false, bufValid := false, outValid := false, data := 0#32, startSector := 0#48
    sectorCount := 0#16, buffer := 0, outSlot := 0, words := 0, pairs := [], totalBytes := 0
    pci := { usePci := false, cmdBase := 0#16, ctrlBase := 0#16, bmBase := 0#16, irqRoute := 0 } }

/-- The formats of the words a request can carry (R90; PRD is a format of memory, not of the port). -/
inductive Format where
  /-- one register access (R91) -/
  | acc
  /-- one ATA command (R98) -/
  | cmd
  /-- one sequenced operation (R99) -/
  | req
  deriving DecidableEq, Repr

/-- An operation's word with the format it is presented in (R90). The spec gives a word no tag: the format stands beside the
word, and the bytes are laid out low byte first (DESIGN CHOICE, log entry 8). -/
structure PortWord where
  format : Format
  bytes : List Byte
  deriving DecidableEq, Repr

/-- One request at the request port: an operation's word, its operands, the context it is made from
(R341: thread context, or the interrupt context of a delivery), and how many of its steps the operation may
take before another agent may move (R330: an agent may be interrupted between any two of its steps). -/
structure Request where
  word : PortWord
  ops : Operands
  ctx : Context
  slice : Nat
  deriving DecidableEq, Repr

end Sys2Proof
end

