-- ==== Sys2Proof/WellFormed.lean ====
section
/-!
DEFINITION. What a well-formed request is. An `Instr` holds flag bits only, so every `Instr` is well formed; the
checks are on what stands beside it: the width of its word (spec/30_encoding.md R90, R91, R102) and the operand
contracts its rule states (spec/41_primitives.md R185). A request that fails a check still decodes or is
refused by name by the decoder; no meaning assumes a check.
-/
namespace Sys2Proof

/-- The word has the width of its format: one byte (CMD, REQ), or two bytes whose upper five bits are clear (ACC,
11 bits). -/
def Request.widthOk (r : Request) : Bool :=
  match r.word.format, r.word.bytes with
  | .acc, [_, hi] => decide (hi.toNat < 8)
  | .cmd, [_] => true
  | .req, [_] => true
  | _, _ => false

/-- Is the instruction one whose rule takes a word count (R185, R186)? -/
def Instr.takesWords : Instr → Bool
  | .pioBufferRead => true
  | .pioBufferWrite => true
  | _ => false

/-- The operand contract of an instruction: PIO_BUFFER takes a word count of at least 1 (R185, R186). -/
def Instr.operandsOk (i : Instr) (o : Operands) : Bool :=
  !i.takesWords || decide (1 ≤ o.words)

/-- A well-formed request for the instruction `i`. -/
def Request.WellFormed (r : Request) (i : Instr) : Bool :=
  r.widthOk && i.operandsOk r.ops

end Sys2Proof
end

