-- ==== Sys2Proof/Decode.lean ====
section
/-!
DEFINITION. The decoder of the request port, total on any word, and after it the encoder (spec/30_encoding.md
R91 to R101). A word is presented in its format: a CMD or a REQ word is one byte, an ACC word of 11 bits two bytes, the low
byte first (DESIGN CHOICE, log entry 8: the spec states neither the layout nor how the port is told the format).
-/
namespace Sys2Proof

/-- Why the request port refuses a word: each is a case of R94 and R101 (U21: refuse). -/
inductive IllegalWord where
  /-- not the width of its format (R90, R102) -/
  | badLength
  /-- an ACC word with a bit above bit 10 set (R91) -/
  | accUpperBits
  /-- ACC `size` = 11 (R91, R101) -/
  | accReservedSize
  /-- ACC `size` = 01 with an offset other than DATA (R94, R101) -/
  | accWordNotData
  /-- ACC `size` = 10 that is not the write of PRDTADDR0 (R94, R101) -/
  | accDwordNotPrdtaddr
  /-- a CMD word that is none of the five commands (R98, U6) -/
  | unknownCommand
  /-- a REQ word with `op` 0 or 15, with bits 7:6 nonzero, or with a flag bit set where R99 shows 0 (R101) -/
  | reservedByte
  deriving DecidableEq, Repr

/-- What the request port makes of a word. -/
inductive Decoded where
  /-- an operation of the table -/
  | instr (i : Instr)
  /-- a byte-sized ACC word with `off >= 0x16`: decoded, and it faults (R94, R101, R126) -/
  | outOfRange (write : Bool) (off : Byte)
  /-- the word selects no operation and is refused -/
  | illegal (why : IllegalWord)
  deriving DecidableEq, Repr

/-- The value a table of numbered rows gives a number. -/
def rowOf (rows : List (Nat × Instr)) (n : Nat) : Option Instr := rows.lookup n

/-- The byte-wide reads by logical offset (R93, R94). -/
def readRows : List (Nat × Instr) :=
  [(Config.dataOffset, .rdData), (Config.errorOffset, .rdError), (Config.seccount0Offset, .rdSeccount0),
    (Config.lba0Offset, .rdLba0), (Config.lba1Offset, .rdLba1), (Config.lba2Offset, .rdLba2),
    (Config.deviceOffset, .rdDevice), (Config.statusOffset, .rdStatus), (Config.seccount1Offset, .rdSeccount1),
    (Config.lba3Offset, .rdLba3), (Config.lba4Offset, .rdLba4), (Config.lba5Offset, .rdLba5),
    (Config.devctlOffset, .rdAltstatus), (Config.ctl1Offset, .rdCtl1), (Config.buscmdOffset, .rdBuscmd),
    (Config.bm1Offset, .rdBm1), (Config.busstatusOffset, .rdBusstatus), (Config.bm3Offset, .rdBm3),
    (Config.prdtaddr0Offset, .rdPrdtaddr0), (Config.prdtaddr1Offset, .rdPrdtaddr1),
    (Config.prdtaddr2Offset, .rdPrdtaddr2), (Config.prdtaddr3Offset, .rdPrdtaddr3)]

/-- The byte-wide writes by logical offset (R93, R94). -/
def writeRows : List (Nat × Instr) :=
  [(Config.dataOffset, .wrData), (Config.errorOffset, .wrFeatures), (Config.seccount0Offset, .wrSeccount0),
    (Config.lba0Offset, .wrLba0), (Config.lba1Offset, .wrLba1), (Config.lba2Offset, .wrLba2),
    (Config.deviceOffset, .wrDevice), (Config.statusOffset, .wrCommand),
    (Config.seccount1Offset, .wrSeccount1), (Config.lba3Offset, .wrLba3), (Config.lba4Offset, .wrLba4),
    (Config.lba5Offset, .wrLba5), (Config.devctlOffset, .wrDevctl), (Config.ctl1Offset, .wrCtl1),
    (Config.buscmdOffset, .wrBuscmd), (Config.bm1Offset, .wrBm1), (Config.busstatusOffset, .wrBusstatus),
    (Config.bm3Offset, .wrBm3), (Config.prdtaddr0Offset, .wrPrdtaddr0), (Config.prdtaddr1Offset, .wrPrdtaddr1),
    (Config.prdtaddr2Offset, .wrPrdtaddr2), (Config.prdtaddr3Offset, .wrPrdtaddr3)]

/-- The byte-wide read of a logical offset. -/
def readAt (off : Nat) : Option Instr := rowOf readRows off

/-- The byte-wide write of a logical offset. -/
def writeAt (off : Nat) : Option Instr := rowOf writeRows off

/-- An ACC word of size 00: bit 8 is the direction, bits 7:0 the logical offset (R91). -/
def decodeAccByte (write : Bool) (off : Byte) : Decoded :=
  match (if write then writeAt off.toNat else readAt off.toNat) with
  | some i => .instr i
  | none => .outOfRange write off

/-- An ACC word of size 01: DATA alone has a 16-bit access (R94, R128). -/
def decodeAccWord (write : Bool) (off : Byte) : Decoded :=
  if off.toNat = Config.dataOffset then .instr (if write then .wr16Data else .rd16Data) else .illegal .accWordNotData

/-- An ACC word of size 10: PRDTADDR alone has a 32-bit access, and it is a write (R94, R129). -/
def decodeAccDword (write : Bool) (off : Byte) : Decoded :=
  if write ∧ off.toNat = Config.prdtaddr0Offset then .instr .wr32Prdtaddr else .illegal .accDwordNotPrdtaddr

/-- An ACC word given as its low byte, the offset, and its high byte, which holds the fields from bit 8 on (R91, R94). -/
def decodeAcc (off hi : Byte) : Decoded :=
  let above := fun bit : Nat => hi.toNat / 2 ^ (bit - 8)
  let write := above Config.accWriteBit % 2 == 1
  let size := above Config.accSizeBit % 4
  if above Config.accBits ≠ 0 then .illegal .accUpperBits
  else if size = Config.accSizeByte then decodeAccByte write off
  else if size = Config.accSizeWord then decodeAccWord write off
  else if size = Config.accSizeDword then decodeAccDword write off
  else .illegal .accReservedSize

/-- The five commands by their byte (R98). -/
def commandRows : List (Nat × Instr) :=
  [(Config.identifyByte.toNat, .identify), (Config.readSectorsExtByte.toNat, .readSectorsExt),
    (Config.writeSectorsExtByte.toNat, .writeSectorsExt), (Config.readDmaExtByte.toNat, .readDmaExt),
    (Config.writeDmaExtByte.toNat, .writeDmaExt)]

/-- The REQ operations without a flag, by their code (R99). -/
def plainRows : List (Nat × Instr) :=
  [(Config.opWaitIdle, .waitIdle), (Config.opWaitDrq, .waitDrq), (Config.opWaitReady, .waitReady),
    (Config.opSelectDevice, .selectDevice), (Config.opBuildPrdt, .buildPrdt), (Config.opTsmSubmit, .tsmSubmit),
    (Config.opTsmComplete, .tsmComplete), (Config.opTsmConsume, .tsmConsume), (Config.opIrqHandler, .irqHandler),
    (Config.opStopDma, .stopDma)]

/-- The operation of a REQ word: its code and its flags `f0` and `f1`; a flag set where R99 shows 0 selects none. -/
def reqInstr (op : Nat) (f0 f1 : Bool) : Option Instr :=
  if op = Config.opInitDevice then some (.initDevice f0 f1)
  else if op = Config.opTransferSectors then some (.transferSectors f0 f1)
  else if op = Config.opProgramNien then if f1 then none else some (.programNien f0)
  else if op = Config.opPioBuffer then
    if f0 then none else some (if f1 then .pioBufferWrite else .pioBufferRead)
  else if f0 || f1 then none
  else rowOf plainRows op

/-- A CMD word: one of the five commands (R98). Another byte can be written by WR COMMAND; as a CMD word it is refused
(U6). -/
def decodeCmd (b : Byte) : Decoded :=
  match rowOf commandRows b.toNat with
  | some i => .instr i
  | none => .illegal .unknownCommand

/-- A REQ word: `op` below bit 4, `f0` in bit 4, `f1` in bit 5, bits 7:6 clear (R99, R101). -/
def decodeReq (b : Byte) : Decoded :=
  match reqInstr (b.toNat % 2 ^ Config.reqFlag0Bit) (b.toNat / 2 ^ Config.reqFlag0Bit % 2 == 1)
      (b.toNat / 2 ^ Config.reqFlag1Bit % 2 == 1) with
  | some i => if b.toNat < 2 ^ Config.reqBits then .instr i else .illegal .reservedByte
  | none => .illegal .reservedByte

/-- The decoder: total on any word. Each format has one width (R102). -/
def decode (w : PortWord) : Decoded :=
  match w.format, w.bytes with
  | .acc, [lo, hi] => decodeAcc lo hi
  | .cmd, [b] => decodeCmd b
  | .req, [b] => decodeReq b
  | _, _ => .illegal .badLength

/-- The ACC word `size<<9 | w<<8 | off`, low byte first (R91). -/
def accWord (size : Nat) (write : Bool) (off : Nat) : PortWord :=
  ⟨.acc, [BitVec.ofNat 8 off,
    BitVec.ofNat 8 (size * 2 ^ (Config.accSizeBit - 8) + write.toNat * 2 ^ (Config.accWriteBit - 8))]⟩

/-- The REQ word `f1<<5 | f0<<4 | op` (R99). -/
def reqWord (op : Nat) (f0 f1 : Bool) : PortWord :=
  ⟨.req, [BitVec.ofNat 8 (f1.toNat * 2 ^ Config.reqFlag1Bit + f0.toNat * 2 ^ Config.reqFlag0Bit + op)]⟩

/-- The CMD word of a command's byte (R98). -/
def cmdWord (b : Byte) : PortWord := ⟨.cmd, [b]⟩

/-- The encoder: the word of each operation, from the tables of R93, R94, R98 and R99. -/
def encode : Instr → PortWord
  | .rdData => accWord Config.accSizeByte false Config.dataOffset
  | .wrData => accWord Config.accSizeByte true Config.dataOffset
  | .rdError => accWord Config.accSizeByte false Config.errorOffset
  | .wrFeatures => accWord Config.accSizeByte true Config.errorOffset
  | .rdSeccount0 => accWord Config.accSizeByte false Config.seccount0Offset
  | .wrSeccount0 => accWord Config.accSizeByte true Config.seccount0Offset
  | .rdLba0 => accWord Config.accSizeByte false Config.lba0Offset
  | .wrLba0 => accWord Config.accSizeByte true Config.lba0Offset
  | .rdLba1 => accWord Config.accSizeByte false Config.lba1Offset
  | .wrLba1 => accWord Config.accSizeByte true Config.lba1Offset
  | .rdLba2 => accWord Config.accSizeByte false Config.lba2Offset
  | .wrLba2 => accWord Config.accSizeByte true Config.lba2Offset
  | .rdDevice => accWord Config.accSizeByte false Config.deviceOffset
  | .wrDevice => accWord Config.accSizeByte true Config.deviceOffset
  | .rdStatus => accWord Config.accSizeByte false Config.statusOffset
  | .wrCommand => accWord Config.accSizeByte true Config.statusOffset
  | .rdSeccount1 => accWord Config.accSizeByte false Config.seccount1Offset
  | .wrSeccount1 => accWord Config.accSizeByte true Config.seccount1Offset
  | .rdLba3 => accWord Config.accSizeByte false Config.lba3Offset
  | .wrLba3 => accWord Config.accSizeByte true Config.lba3Offset
  | .rdLba4 => accWord Config.accSizeByte false Config.lba4Offset
  | .wrLba4 => accWord Config.accSizeByte true Config.lba4Offset
  | .rdLba5 => accWord Config.accSizeByte false Config.lba5Offset
  | .wrLba5 => accWord Config.accSizeByte true Config.lba5Offset
  | .rdAltstatus => accWord Config.accSizeByte false Config.devctlOffset
  | .wrDevctl => accWord Config.accSizeByte true Config.devctlOffset
  | .rdCtl1 => accWord Config.accSizeByte false Config.ctl1Offset
  | .wrCtl1 => accWord Config.accSizeByte true Config.ctl1Offset
  | .rdBuscmd => accWord Config.accSizeByte false Config.buscmdOffset
  | .wrBuscmd => accWord Config.accSizeByte true Config.buscmdOffset
  | .rdBm1 => accWord Config.accSizeByte false Config.bm1Offset
  | .wrBm1 => accWord Config.accSizeByte true Config.bm1Offset
  | .rdBusstatus => accWord Config.accSizeByte false Config.busstatusOffset
  | .wrBusstatus => accWord Config.accSizeByte true Config.busstatusOffset
  | .rdBm3 => accWord Config.accSizeByte false Config.bm3Offset
  | .wrBm3 => accWord Config.accSizeByte true Config.bm3Offset
  | .rdPrdtaddr0 => accWord Config.accSizeByte false Config.prdtaddr0Offset
  | .wrPrdtaddr0 => accWord Config.accSizeByte true Config.prdtaddr0Offset
  | .rdPrdtaddr1 => accWord Config.accSizeByte false Config.prdtaddr1Offset
  | .wrPrdtaddr1 => accWord Config.accSizeByte true Config.prdtaddr1Offset
  | .rdPrdtaddr2 => accWord Config.accSizeByte false Config.prdtaddr2Offset
  | .wrPrdtaddr2 => accWord Config.accSizeByte true Config.prdtaddr2Offset
  | .rdPrdtaddr3 => accWord Config.accSizeByte false Config.prdtaddr3Offset
  | .wrPrdtaddr3 => accWord Config.accSizeByte true Config.prdtaddr3Offset
  | .rd16Data => accWord Config.accSizeWord false Config.dataOffset
  | .wr16Data => accWord Config.accSizeWord true Config.dataOffset
  | .wr32Prdtaddr => accWord Config.accSizeDword true Config.prdtaddr0Offset
  | .identify => cmdWord Config.identifyByte
  | .readSectorsExt => cmdWord Config.readSectorsExtByte
  | .writeSectorsExt => cmdWord Config.writeSectorsExtByte
  | .readDmaExt => cmdWord Config.readDmaExtByte
  | .writeDmaExt => cmdWord Config.writeDmaExtByte
  | .initDevice secondary slave => reqWord Config.opInitDevice secondary slave
  | .transferSectors async isWrite => reqWord Config.opTransferSectors async isWrite
  | .waitIdle => reqWord Config.opWaitIdle false false
  | .waitDrq => reqWord Config.opWaitDrq false false
  | .waitReady => reqWord Config.opWaitReady false false
  | .selectDevice => reqWord Config.opSelectDevice false false
  | .programNien suppress => reqWord Config.opProgramNien suppress false
  | .pioBufferRead => reqWord Config.opPioBuffer false false
  | .pioBufferWrite => reqWord Config.opPioBuffer false true
  | .buildPrdt => reqWord Config.opBuildPrdt false false
  | .tsmSubmit => reqWord Config.opTsmSubmit false false
  | .tsmComplete => reqWord Config.opTsmComplete false false
  | .tsmConsume => reqWord Config.opTsmConsume false false
  | .irqHandler => reqWord Config.opIrqHandler false false
  | .stopDma => reqWord Config.opStopDma false false

/-- The low `n` bytes of a number, the least significant first. -/
def leBytes : Nat → Nat → List Byte
  | 0, _ => []
  | n + 1, v => BitVec.ofNat 8 v :: leBytes n (v / 256)

/-- The word of bytes given without a format, in the one format that can take them: one of the five bytes of R98 as CMD,
another byte as REQ, anything else as ACC. The host's words have no format, and no byte is a legal word of two (log
entry 8). -/
def tableWord (bytes : List Byte) : PortWord :=
  match bytes with
  | [b] => ⟨if (rowOf commandRows b.toNat).isSome then .cmd else .req, [b]⟩
  | _ => ⟨.acc, bytes⟩

/-- The instruction the decoder reads from a table row's bits: `nbits` bits of `w`, in whole bytes, the low byte
first (the host's name and numbering). -/
def decodeTableWord (nbits w : Nat) : Option Instr :=
  match decode (tableWord (leBytes ((nbits + 7) / 8) w)) with
  | .instr i => some i
  | _ => none

end Sys2Proof
end

