-- ==== Sys2Proof/Config.lean ====
section
/-!
DEFINITION. What the spec leaves to an implementation or to the environment: the parameters of spec/00_scope.md R8 that are
OPEN, and the free values, opaque constants that nothing in Lean can evaluate. The parameters that have a value
are in Machine/Parameters.
-/
namespace Sys2Proof.Config

/-- The two readings of the two-deep register FIFO (R40, D35). -/
inductive FifoModel where
  /-- HOB selects the half an access reads or writes -/
  | select
  /-- every write pushes the current byte into the high-order half; HOB selects only what a read returns -/
  | push
  deriving DecidableEq, Repr, Inhabited

/-- `DEVICE_FIFO_MODEL`: OPEN (R8, R40). No body: a statement holds for both readings. -/
opaque fifoModel : FifoModel

/-- `PRDT_ALLOC_ALIGN`: OPEN (R8, R201, D19). -/
opaque prdtAllocAlign : Nat

/-- The answer of a port read for which the state lists none (R7: a draw). -/
opaque portDraw : Nat → Dword

/-- The list `Translate` returns when the state lists no answer (R50). -/
opaque translateDraw : Nat → List Pair

/-- What `Alloc` answers when the state lists no answer: the physical address of the allocation, or failure
(R51). -/
opaque allocDraw : Nat → Option PhysAddr

/-- Whether `RegisterInterrupt` succeeds when the state lists no answer (R52). -/
opaque registerDraw : Nat → Bool

/-- The value of a byte of a caller's buffer that nothing in the model has written: the caller's data (R66). -/
opaque bufferByte : Nat → Byte

/-- The value of a byte of physical memory that holds no stated value, as the DMA engine fetches it (R48, U8). -/
opaque memoryByte : Nat → Byte

/-- The bits of the records of a device whose bring-up has failed: unspecified (R58, R264). -/
opaque unspecifiedBits : Nat → BitVec 64

end Sys2Proof.Config
end

