-- ==== Sys2Proof/Machine/State.lean ====
section
/-!
DEFINITION. The state of the machine as plain data: the four logical devices' records (spec/10_state.md R20 to R25), the
registers on the environment's side of the three port windows and the DMA engine's progress (R27 to R35, R40 to R45),
physical memory and the callers' buffers with the physical runs that back them (R39, R48, R49), the running agents
with the steps they have still to take (R36), what the block has put out (port events, collaborator calls, log,
results, faults), the request port, and the inputs still to come.
-/
namespace Sys2Proof.Machine

/-! ## Statuses, faults, refusals -/

/-- The tri-state field of CurrentTransfer (R23; the type has three values, U19). -/
inductive TsmState where
  | free | inProgress | finished
  deriving DecidableEq, Repr

/-- The statuses an operation can return (R320). -/
inductive Status where
  | success
  | invalidParameter
  | deviceDoesNotExist
  | deviceNotSupported
  | physicalAddressOutOfRange
  | misaligned
  | spanTooLarge
  | tableAddressOutOfRange
  | allocationFailure
  | interruptRegistrationFailed
  deriving DecidableEq, Repr

/-- The fatal faults F1 to F8 with the information each records (R322). A fault is recorded in the state by the
operation that raises it (a next state). The outcome `fault` with the same value is answered afterwards, when the
environment calls on a handler agent that this fault has ended (R323): safe, the machine stops where the
spec gives the agent no step. -/
inductive Fault where
  /-- F1, raised by the multiplexer for `off >= 0x16` (R126) -/
  | unreachableOffset (off : Byte)
  /-- F2, raised by TSM_COMPLETE: the state found was not InProgress (R232) -/
  | casFailed (found : TsmState)
  /-- F3, raised by BUILD_PRDT: bytes left over, or an empty pair list (R201, R211) -/
  | remainingNonzero (remaining : Nat)
  /-- F4, raised by the handler: DF in STATUS (R305) -/
  | deviceFault (status : Byte)
  /-- F5, raised by the handler: ERR in STATUS (R306) -/
  | runtimeDeviceError (status error : Byte)
  /-- F6, raised by BUILD_PRDT: a pair that clips to nothing (R206) -/
  | emptyEntry (index : Nat)
  /-- F7, raised by TSM_CONSUME: the state found was not Finished (R233) -/
  | consumeNotFinished (found : TsmState)
  /-- F8, raised by BUILD_PRDT: a pair that ends above 4 GB (R207) -/
  | addressTruncation (index : Nat)
  deriving DecidableEq, Repr

/-- Why a request or a turn of the scheduler has no step: the request port or the context rule refuses it. Each is
safe: the spec gives no step there. -/
inductive Refusal where
  /-- raised by an arm of `exec` whose instruction has no meaning yet; safe -/
  | notModelled (mnemonic : String)
  /-- raised for an operation other than INIT_DEVICE on a device that is not brought up (R56, U17), and for a delivery to
  a device no handler is registered for (R327); safe -/
  | notBroughtUp
  /-- raised for INIT_DEVICE on a device whose transfer is InProgress (R362); safe -/
  | transferInProgress
  /-- raised for an operation invoked from the wrong context (R341); safe -/
  | wrongContext
  /-- raised for a call, or a thread's turn, while an interrupt activation is unfinished (R331); safe -/
  | interruptRunning
  /-- raised for a turn given to an agent that is not there, for a completion signal that cannot come (R44, R326), and
  for a DMA access the engine cannot make (R44); safe -/
  | notEnabled
  /-- raised for a word that has not the width of its format (R90, R102); safe -/
  | badLength
  /-- raised for an ACC word with bits above bit 10 (R91); safe -/
  | accUpperBits
  /-- raised for an ACC word of size 11 (R101); safe -/
  | accReservedSize
  /-- raised for a 16-bit ACC word that does not address DATA (R94); safe -/
  | accWordNotData
  /-- raised for a 32-bit ACC word that is not the write of PRDTADDR0 (R94); safe -/
  | accDwordNotPrdtaddr
  /-- raised for a CMD word that is none of the five commands (R98, U6); safe -/
  | unknownCommand
  /-- raised for a REQ word that selects no operation (R101, U21); safe -/
  | reservedByte
  deriving DecidableEq, Repr

/-! ## The block's own records -/

/-- The interrupt line a handler is registered on: a legacy number or a PCI route (R52, R262), of no bounded width
(DESIGN CHOICE, log entry 26). -/
inductive IrqLine where
  | legacy (number : Nat)
  | pci (route : Nat)
  deriving DecidableEq, Repr

/-- DeviceRegisters (R20). -/
structure DeviceRegs where
  base : IoAddr
  ctrl : IoAddr
  bm : IoAddr
  nien : Bool
  secondary : Bool
  slave : Bool
  totalSectors : Lba
  irq : IrqLine
  deriving DecidableEq, Repr

/-- The owning pointer to a descriptor table: its handle, physical address and entry count (R23, R212). -/
structure PrdTable where
  handle : Nat
  phys : PhysAddr
  entries : Nat
  deriving DecidableEq, Repr

/-- CurrentTransfer (R23). -/
structure CurrentTransfer where
  state : TsmState
  event : Bool
  prdt : Option PrdTable
  deriving DecidableEq, Repr

/-- Where the bring-up of a device stands (R56 to R58, R264). -/
inductive Phase where
  /-- not brought up: only INIT_DEVICE is accepted -/
  | down
  /-- INIT_DEVICE is running -/
  | starting
  /-- INIT_DEVICE has returned Success -/
  | up
  deriving DecidableEq, Repr

/-- One logical device: its records, its phase, whether a handler is registered for it (R52; nothing unregisters one,
R327), and the fault that has ended its handler agent, if any (R323). -/
structure Device where
  dr : DeviceRegs
  ct : CurrentTransfer
  phase : Phase
  registered : Bool
  handlerFault : Option Fault
  deriving DecidableEq, Repr

/-- The four logical devices (R8). -/
structure Devices where
  d0 : Device
  d1 : Device
  d2 : Device
  d3 : Device
  deriving DecidableEq, Repr

/-! ## Ports -/

/-- The three port windows (R61). -/
inductive Window where
  | command | control | busMaster
  deriving DecidableEq, Repr

/-- A port of the block: a window and the displacement inside it (R72). -/
structure Port where
  window : Window
  delta : Nat
  deriving DecidableEq, Repr

/-- The width of a port access (R60). -/
inductive Width where
  | w8 | w16 | w32
  deriving DecidableEq, Repr

/-- One event on the I/O port bus (R60): the port address it was made at and the value it moved. -/
inductive PortEvent where
  | read (w : Width) (addr : IoAddr) (v : Dword)
  | write (w : Width) (addr : IoAddr) (v : Dword)
  deriving DecidableEq, Repr

/-! ## The environment's side of the windows -/

/-- One two-deep register of the FIFO: its high-order and its low-order byte (R40). -/
structure Fifo where
  hi : Byte
  lo : Byte
  deriving DecidableEq, Repr

/-- What one device position of a command block holds (R28, R31, R40, R45), and the command it is running. -/
structure Taskfile where
  features : Byte
  command : Byte
  seccount : Fifo
  lba0 : Fifo
  lba1 : Fifo
  lba2 : Fifo
  /-- no device at this position: STATUS reads 0x00 (R45) -/
  absent : Bool
  /-- a command has been written to the device and it has not signalled completion (R70, R326) -/
  running : Bool
  /-- that command was written with NIEN = 0: its completion may raise the interrupt (R326) -/
  mayInterrupt : Bool
  deriving DecidableEq, Repr

/-- A command block: the DEVICE latch, which selects one of the two positions (R30, R42), and the positions. -/
structure CmdBlock where
  device : Byte
  master : Taskfile
  slave : Taskfile
  deriving DecidableEq, Repr

/-- How far a started DMA engine has come (R44): the number of the next entry it will fetch, the address of the next byte
of the entry it is processing, the bytes of that entry still to move, and whether that entry is the last. -/
structure DmaProgress where
  next : Nat
  addr : Nat
  left : Nat
  last : Bool
  deriving DecidableEq, Repr

/-- A bus-master block: BUSCMD as last written, the IRQ bit of BUSSTATUS, PRDTADDR (R33 to R35, R43), and the progress of
its engine while START is set (R44). -/
structure BusMaster where
  buscmd : Byte
  irq : Bool
  prdtaddr : Dword
  dma : Option DmaProgress
  deriving DecidableEq, Repr

/-- The environment: its registers, each block kept under the port address of its window (a list with strictly
rising addresses and no entry equal to the block's reset value), and the answers it has already chosen for the
calls to come, oldest first; `drawn` counts the answers taken from the free values of Config instead. -/
structure Env where
  cmd : List (Nat × CmdBlock)
  ctl : List (Nat × Byte)
  bm : List (Nat × BusMaster)
  answers : List Dword
  translations : List (List Pair)
  allocations : List (Option PhysAddr)
  registrations : List Bool
  drawn : Nat
  deriving DecidableEq, Repr

/-- A byte memory: (address, byte) pairs with strictly rising addresses; an unlisted address holds no value the
spec states. -/
abbrev Memory := List Host.Cell

/-- One access of the DMA engine to physical memory (R44, R79): the fetch of the table entry at an address, a byte stored,
a byte loaded for the device. -/
inductive DmaEvent where
  | fetch (addr : Nat)
  | store (addr : Nat) (b : Byte)
  | load (addr : Nat) (b : Byte)
  deriving DecidableEq, Repr

/-- A call of a collaborator, with the operands the block passes (R50 to R52). -/
inductive Call where
  | translate (buffer length : Nat)
  | alloc (bytes align : Nat)
  | free (handle : Nat)
  | registerInterrupt (line : IrqLine) (dev : Handle)
  deriving DecidableEq, Repr

/-- A live allocation of the collaborator Alloc: handle, physical address, size and the alignment asked (R51, R201). -/
structure Allocation where
  handle : Nat
  phys : PhysAddr
  bytes : Nat
  align : Nat
  deriving DecidableEq, Repr

/-! ## Running sequences -/

/-- Which step of the polled buffer loop comes next (R185, R186): S1, S2, then S3, which takes the word from DATA or from
the buffer, and S4, which puts it into the buffer or into DATA. -/
inductive PioPhase where
  | idle | drq | take | put
  deriving DecidableEq, Repr

/-- Where a polled read puts its words: the caller's buffer, or the private identification buffer (R257). -/
inductive PioTarget where
  | caller | identify
  deriving DecidableEq, Repr

/-- What an operation returns at its end. -/
inductive Ret where
  | done | byte | word | table | handled
  deriving DecidableEq, Repr

/-- Why the builder stops without a table: a returned status or a raised fault (R200). -/
inductive BuildStop where
  | status (st : Status)
  | fault (k : Fault)
  deriving DecidableEq, Repr

/-- The steps sequences are made of (R36). Each makes at most one port event (R60), one memory access or one collaborator
call, and is one atomic transition (R79). -/
inductive Micro where
  /-- `dr.nien <- b` (R184 S1) -/
  | setNien (b : Bool)
  /-- `PortWrite(8, DEVCTL, NienByte(dev))` (R184 S2; R123, closing the HOB bracket) -/
  | outNien
  /-- `PortWrite(8, DEVCTL, 0x80 | NienByte(dev))` (R123, opening the HOB bracket) -/
  | outHob
  /-- `x[DEVICE] <- DevSelByte(dev)` (R183) -/
  | outSelect
  /-- `PortWrite(n, port, v)` -/
  | out (w : Width) (p : Port) (v : Dword)
  /-- `WR32 PRDTADDR, r.phys` (R282) -/
  | outPrdt
  /-- `PortRead(n, port)` into the frame -/
  | inp (w : Width) (p : Port)
  /-- one pass of a wait loop: read STATUS, go on when `bit` reads `want` (R180 to R182) -/
  | waitStatus (bit : Nat) (want : Bool)
  /-- the polled buffer loop at word `i` of `words` (R185, R186) -/
  | pio (stage : PioPhase) (isWrite : Bool) (target : PioTarget) (i words : Nat)
  /-- bring-up S1 (R251) -/
  | resolve (secondary slave : Bool)
  /-- bring-up S5, the test of the byte read (R255) -/
  | absentCheck
  /-- one pass of the bring-up poll (R256) -/
  | identPoll
  /-- bring-up S8 (R258) -/
  | check48
  /-- bring-up S9 (R260) -/
  | recordSectors
  /-- bring-up S10 (R261) -/
  | openTransfer
  /-- bring-up S11 (R262) -/
  | registerIrq (secondary : Bool)
  /-- bring-up S13 (R263) -/
  | initSucceed
  /-- orchestrator S0 (R271) -/
  | paramCheck
  /-- orchestrator S7: `Translate(buffer, length)` (R279) -/
  | translate (length : Nat)
  /-- BUILD_PRDT's first step: the empty list, then `Alloc` (R201) -/
  | buildAlloc (totalBytes : Nat)
  /-- BUILD_PRDT at pair `i` with `remaining` bytes to cover: its checks, clip and split (R203 to R208); after the last
  pair the closing check (R211 S1) -/
  | buildPair (i remaining : Nat)
  /-- `MemWrite(addr, n, v)` of BUILD_PRDT (R210, R211 S2) -/
  | memWrite (addr n v : Nat)
  /-- BUILD_PRDT's table address check (R212) -/
  | buildCheck
  /-- `Free(handle)` of BUILD_PRDT's failure path (R213) -/
  | buildFree
  /-- BUILD_PRDT's `return` of a status or `raise` (R203 to R212) -/
  | buildStop (b : BuildStop)
  /-- orchestrator S9 (R281) -/
  | setPrdt
  /-- TSM_SUBMIT S1 (R231) -/
  | submit
  /-- `EventWait()` (R53, R286) -/
  | eventWait
  /-- TSM_CONSUME S1 to S4 (R233) -/
  | consumeCheck | consumeFree | consumeClear
  | consumeReset (resetOnCleanup : Bool)
  /-- orchestrator S16 (R289) -/
  | reportCount
  /-- handler S2, the test (R303) -/
  | irqTest
  /-- handler S4a and the test of S4b (R305, R306) -/
  | statusTest
  /-- handler S4b after the ERROR read (R306) -/
  | logAndHalt
  /-- TSM_COMPLETE (R232) -/
  | complete
  /-- `EventSignal()` (R309) -/
  | signal
  /-- `raise` of a fault known when the sequence is written (R126) -/
  | halt (k : Fault)
  /-- end of the sequence -/
  | ret (r : Ret)
  deriving DecidableEq, Repr

/-- A running sequence: `pc = (operation, step)` (R36) as the operation and the list of steps still to take, with
the operands it was started with and the values it has read so far. -/
structure Frame where
  op : Instr
  ops : Operands
  ctx : Context
  prog : List Micro
  /-- the value of the last port read -/
  acc : Dword
  /-- STATUS as the handler read it (R304) -/
  status : Byte
  /-- the identification words read so far, in order (R257) -/
  idbuf : List Word
  /-- the pair list (R279, R200) -/
  pairs : List Pair
  /-- the table BUILD_PRDT is filling, and then the one it has returned (R212, R280) -/
  table : Option PrdTable
  deriving DecidableEq, Repr

/-- What an operation hands back to its caller. -/
inductive Result where
  | done
  | byte (v : Byte)
  | word (v : Word)
  | status (st : Status)
  | handled (yes : Bool)
  | table (t : PrdTable)
  deriving DecidableEq, Repr

/-- A returned result: the device and operation it belongs to. -/
structure Return where
  dev : Handle
  op : Instr
  result : Result
  deriving DecidableEq, Repr

/-- A recorded fault: which agent raised it (device and context) and the fault (R322). -/
structure FaultRecord where
  dev : Handle
  ctx : Context
  fault : Fault
  deriving DecidableEq, Repr

/-- A record of the log sink: STATUS and ERROR (R306). -/
structure LogRecord where
  status : Byte
  error : Byte
  deriving DecidableEq, Repr

/-! ## Inputs -/

/-- One turn of the environment: which agent moves next, and with what. -/
inductive Turn where
  /-- a request at the request port, or a delivery of the interrupt line to a device (word 0x0D, interrupt context) -/
  | call (r : Request)
  /-- the suspended thread `tid` gets the processor for `slice` steps (R330) -/
  | resume (tid slice : Nat)
  /-- the unfinished interrupt activation goes on for `slice` steps -/
  | resumeHandler (slice : Nat)
  /-- device `h` signals the completion of its command: the IRQ bit of its bus-master block is set (R43, R326) -/
  | signal (h : Handle)
  /-- the device changes the bytes of one of its FIFO registers (R47: the block may not rely on them staying) -/
  | fifo (base : IoAddr) (slave : Bool) (delta : Nat) (v : Fifo)
  /-- the DMA engine of device `h` fetches the next table entry (R44, R79) -/
  | dmaFetch (h : Handle)
  /-- the DMA engine of device `h` stores the device's next bytes (R44, R79) -/
  | dmaStore (h : Handle) (bytes : List Byte)
  /-- the DMA engine of device `h` loads the next `n` bytes for the device (R44, R79) -/
  | dmaLoad (h : Handle) (n : Nat)
  /-- the caller stores a byte of its own buffer -/
  | bufStore (addr : Nat) (b : Byte)
  /-- the buffer bytes from virtual address `addr` on are backed by a physical run from now on (R49) -/
  | back (addr : Nat) (run : Pair)
  deriving DecidableEq, Repr

/-! ## The state -/

/-- The machine. -/
structure State where
  devs : Devices
  env : Env
  /-- physical memory (R64) -/
  mem : Memory
  /-- the callers' virtual buffers, where no physical run backs them (R66) -/
  buf : Memory
  /-- the physical runs that back the callers' buffers, by the virtual address they start at (R49) -/
  backing : List (Nat × Pair)
  /-- the output slots that have been written (R289) -/
  outs : List (Nat × Word)
  /-- live allocations (R51) -/
  allocs : List Allocation
  nextHandle : Nat
  /-- the port events so far, oldest first (R60) -/
  trace : List PortEvent
  /-- the DMA engine's accesses to memory so far, oldest first (R79) -/
  dmaTrace : List DmaEvent
  /-- the calls of the collaborators so far, oldest first (R50 to R52) -/
  calls : List Call
  /-- the log sink, oldest first (R54) -/
  log : List LogRecord
  /-- the results handed back, oldest first -/
  returns : List Return
  /-- the recorded faults, oldest first; never cleared (R323) -/
  faults : List FaultRecord
  /-- the suspended threads, by thread number -/
  threads : List (Nat × Frame)
  nextTid : Nat
  /-- the unfinished interrupt activation (R331) -/
  activation : Option Frame
  /-- the request being run -/
  port : Request
  /-- the turns to come -/
  inputs : List Turn
  deriving DecidableEq, Repr

/-! ## Reset -/

/-- DeviceRegisters before any bring-up: R56 states no value; zeros (DESIGN CHOICE, unsafe, log entry 2). -/
def DeviceRegs.reset : DeviceRegs :=
  { base := 0#16, ctrl := 0#16, bm := 0#16, nien := false, secondary := false, slave := false
    totalSectors := 0#48, irq := .legacy 0 }

/-- CurrentTransfer before any bring-up: R56 states no value (DESIGN CHOICE, unsafe, log entry 2). -/
def CurrentTransfer.reset : CurrentTransfer := { state := .free, event := false, prdt := none }

/-- A device before any bring-up (R56): down, no handler registered (R327), no fault recorded. -/
def Device.reset : Device :=
  { dr := DeviceRegs.reset, ct := CurrentTransfer.reset, phase := .down, registered := false, handlerFault := none }

/-- Register bytes of the environment before anything is written: the spec states none (DESIGN CHOICE, unsafe,
log entry 3). -/
def Fifo.reset : Fifo := { hi := 0#8, lo := 0#8 }

/-- See `Fifo.reset`; a device is taken to be there and to run no command (log entry 16). -/
def Taskfile.reset : Taskfile :=
  { features := 0#8, command := 0#8, seccount := Fifo.reset, lba0 := Fifo.reset, lba1 := Fifo.reset
    lba2 := Fifo.reset, absent := false, running := false, mayInterrupt := false }

/-- See `Fifo.reset`. -/
def CmdBlock.reset : CmdBlock := { device := 0#8, master := Taskfile.reset, slave := Taskfile.reset }

/-- See `Fifo.reset`. -/
def BusMaster.reset : BusMaster := { buscmd := 0#8, irq := false, prdtaddr := 0#32, dma := none }

/-- DEVCTL before anything is written: see `Fifo.reset`. -/
def devctlReset : Byte := 0#8

/-- The environment with every register at its reset value and no answer chosen. -/
def Env.reset : Env :=
  { cmd := [], ctl := [], bm := [], answers := [], translations := [], allocations := [], registrations := []
    drawn := 0 }

/-- An empty request port. -/
def emptyRequest : Request := { word := ⟨.acc, []⟩, ops := Operands.zero, ctx := .thread, slice := 0 }

/-- The machine right after reset: no device brought up (R56), no sequence running (R361), nothing put out, no
input. -/
def State.reset : State :=
  { devs := { d0 := Device.reset, d1 := Device.reset, d2 := Device.reset, d3 := Device.reset }
    env := Env.reset, mem := [], buf := [], backing := [], outs := [], allocs := [], nextHandle := 0, trace := []
    dmaTrace := [], calls := [], log := [], returns := [], faults := [], threads := [], nextTid := 0
    activation := none, port := emptyRequest, inputs := [] }

end Sys2Proof.Machine
end

