-- ==== Sys2Proof/Machine/Flags.lean ====
section
/-!
DEFINITION. Testing and replacing one bit of a register (spec/10_state.md R10, R37; the positions are in
Machine/Parameters), and the numeric codes of the statuses, faults and results (spec/60_exceptions.md R320, R322; R23,
R300).
-/
namespace Sys2Proof.Machine

/-- One bit of a value (R10). -/
def flag {n : Nat} (v : BitVec n) (bit : Nat) : Bool := v.getLsbD bit

/-- The byte with one bit replaced. -/
def withFlag (v : Byte) (bit : Nat) (b : Bool) : Byte :=
  (v &&& ~~~(1#8 <<< bit)) ||| (if b then 1#8 <<< bit else 0#8)

/-- The encoding of `ct.state` (R23, D10). -/
def TsmState.code : TsmState → Nat
  | .free => 0
  | .inProgress => 1
  | .finished => 2

/-- The status codes (R320). -/
def Status.code : Status → Nat
  | .success => 0
  | .invalidParameter => 1
  | .deviceDoesNotExist => 2
  | .deviceNotSupported => 3
  | .physicalAddressOutOfRange => 4
  | .misaligned => 5
  | .spanTooLarge => 6
  | .tableAddressOutOfRange => 7
  | .allocationFailure => 8
  | .interruptRegistrationFailed => 9

/-- The fault codes F1 to F8 (R322). -/
def Fault.code : Fault → Nat
  | .unreachableOffset _ => 1
  | .casFailed _ => 2
  | .remainingNonzero _ => 3
  | .deviceFault _ => 4
  | .runtimeDeviceError _ _ => 5
  | .emptyEntry _ => 6
  | .consumeNotFinished _ => 7
  | .addressTruncation _ => 8

/-- `Handled = 1`, `NotHandled = 0` (R300, D27). -/
def handledCode (yes : Bool) : Nat := yes.toNat

end Sys2Proof.Machine
end

