-- ==== Sys2Proof/Machine/Operands.lean ====
section
/-!
DEFINITION. Operand assembly: the route of a logical offset to its port (spec/30_encoding.md R92, R93), the bytes the
sequences write (R96 to R98, spec/10_state.md R22, R29, R30), and the register accesses as lists of steps
(spec/40_register_access.md R120 to R126).
-/
namespace Sys2Proof.Machine

/-- The record of a device. -/
def Devices.get (ds : Devices) : Handle → Device
  | .d0 => ds.d0
  | .d1 => ds.d1
  | .d2 => ds.d2
  | .d3 => ds.d3

/-- Replace the record of a device. -/
def Devices.set (ds : Devices) (h : Handle) (d : Device) : Devices :=
  match h with
  | .d0 => { ds with d0 := d }
  | .d1 => { ds with d1 := d }
  | .d2 => { ds with d2 := d }
  | .d3 => { ds with d3 := d }

/-- The low bits of a value, as many as the access moves (R91). -/
def Width.trim : Width → Dword → Dword
  | .w8, v => (v.setWidth 8).setWidth 32
  | .w16, v => (v.setWidth 16).setWidth 32
  | .w32, v => v

/-- The base address of a window (R61). -/
def windowBase (dr : DeviceRegs) : Window → IoAddr
  | .command => dr.base
  | .control => dr.ctrl
  | .busMaster => dr.bm

/-- The port address of an access: the sum wraps modulo 2^16 (R62). -/
def portAddr (dr : DeviceRegs) (p : Port) : IoAddr := windowBase dr p.window + BitVec.ofNat 16 p.delta

/-- Where a logical offset leads: a port, and whether the access stands inside a HOB bracket. -/
structure Route where
  port : Port
  bracketed : Bool
  deriving DecidableEq, Repr

/-- The four ranges of logical offsets (R92, R122 to R125); none from 0x16 on (R126). -/
def route (off : Nat) : Option Route :=
  if off ≤ Config.range1Last then some ⟨⟨.command, off⟩, false⟩
  else if off ≤ Config.range2Last then some ⟨⟨.command, off - Config.fifoOffsetDelta⟩, true⟩
  else if off ≤ Config.range3Last then some ⟨⟨.control, off - Config.controlOffsetBase⟩, false⟩
  else if off ≤ Config.range4Last then some ⟨⟨.busMaster, off - Config.busOffsetBase⟩, false⟩
  else none

/-! ## Ports the sequences name (R72) -/

/-- DATA (R32). -/
def dataPort : Port := ⟨.command, Config.dataOffset⟩
/-- ERROR / FEATURES (R28). -/
def errorPort : Port := ⟨.command, Config.errorOffset⟩
/-- DEVICE (R30). -/
def devicePort : Port := ⟨.command, Config.deviceOffset⟩
/-- STATUS / COMMAND (R27). -/
def statusPort : Port := ⟨.command, Config.statusOffset⟩
/-- ALTSTATUS / DEVCTL (R29). -/
def devctlPort : Port := ⟨.control, Config.devctlOffset - Config.controlOffsetBase⟩
/-- BUSSTATUS (R34). -/
def busStatusPort : Port := ⟨.busMaster, Config.busstatusOffset - Config.busOffsetBase⟩
/-- PRDTADDR (R35, R129). -/
def prdtPort : Port := ⟨.busMaster, Config.prdtaddr0Offset - Config.busOffsetBase⟩

/-! ## Bytes -/

/-- `NienByte(dev) = dr.nien << 1` (R22). -/
def nienByte (nien : Bool) : Byte := if nien then Config.nienMask else 0x00#8

/-- The byte that opens a HOB bracket: `0x80 | NienByte(dev)` (R22, R123). -/
def hobByte (nien : Bool) : Byte := Config.hobMask ||| nienByte nien

/-- `DevSelByte(dev) = 0x40 | (dr.slave << 4)` (R30). -/
def devSelByte (slave : Bool) : Byte := if slave then Config.devSelSlave else Config.devSelMaster

/-- The 2 x 2 table of commands keyed by (isWrite, async) (R98). -/
def cmdByte (isWrite async : Bool) : Byte :=
  match isWrite, async with
  | false, false => Config.readSectorsExtByte
  | true, false => Config.writeSectorsExtByte
  | false, true => Config.readDmaExtByte
  | true, true => Config.writeDmaExtByte

/-- The BUSCMD byte that starts the engine: READ is set only when not writing (R285). -/
def startByte (isWrite : Bool) : Byte := if isWrite then Config.startWriteByte else Config.startReadByte

/-- Byte `i` of a value, the least significant first. -/
def byteAt {n : Nat} (v : BitVec n) (i : Nat) : Byte := v.extractLsb' (8 * i) 8

/-- A value with byte lane `i` replaced (R167 to R173). -/
def withLane (v : Dword) (i : Nat) (b : Byte) : Dword :=
  (v &&& ~~~(0xFF#32 <<< (8 * i))) ||| (b.setWidth 32 <<< (8 * i))

/-! ## Register accesses as steps -/

/-- `WriteRegister(dev, off, b)` (R120, R122 to R126). -/
def writeRegister (off : Nat) (b : Byte) : List Micro :=
  match route off with
  | none => [.halt (.unreachableOffset (BitVec.ofNat 8 off))]
  | some ⟨p, false⟩ => [.out .w8 p (b.setWidth 32)]
  | some ⟨p, true⟩ => [.outHob, .out .w8 p (b.setWidth 32), .outNien]

/-- `ReadRegister(dev, off)` (R121 to R126): the byte is left in the frame. -/
def readRegister (off : Nat) : List Micro :=
  match route off with
  | none => [.halt (.unreachableOffset (BitVec.ofNat 8 off))]
  | some ⟨p, false⟩ => [.inp .w8 p]
  | some ⟨p, true⟩ => [.outHob, .inp .w8 p, .outNien]

/-- The eight writes of the transfer parameters, high-order halves first (R276, R97). -/
def programParameters (start : Lba) (count : Word) : List Micro :=
  writeRegister Config.seccount1Offset (byteAt count 1) ++ writeRegister Config.lba3Offset (byteAt start 3) ++
  writeRegister Config.lba4Offset (byteAt start 4) ++ writeRegister Config.lba5Offset (byteAt start 5) ++
  writeRegister Config.seccount0Offset (byteAt count 0) ++ writeRegister Config.lba0Offset (byteAt start 0) ++
  writeRegister Config.lba1Offset (byteAt start 1) ++ writeRegister Config.lba2Offset (byteAt start 2)

/-! ## Contexts -/

/-- What the interrupt context may call (R341). -/
def interruptMay : Instr → Bool
  | .irqHandler => true
  | .selectDevice => true
  | .rdBusstatus => true
  | .rdStatus => true
  | .rdError => true
  | .stopDma => true
  | .tsmComplete => true
  | .wrBusstatus => true
  | _ => false

/-- What the thread context may call: everything but TSM_COMPLETE, and but IRQ_HANDLER, which a delivery alone
starts (R300, R340, R341). -/
def threadMay : Instr → Bool
  | .irqHandler => false
  | .tsmComplete => false
  | _ => true

/-- May an operation be invoked from a context (R341)? -/
def contextAllows : Context → Instr → Bool
  | .thread, i => threadMay i
  | .interrupt, i => interruptMay i

end Sys2Proof.Machine
end

