-- ==== Sys2Proof/Machine/Table.lean ====
section
/-!
DEFINITION. Sparse data by key, in one canonical form (strictly rising keys), and the two byte memories built on it.
Byte order is decided here, once: little-endian (spec/20_memory.md R63, R64).
-/
namespace Sys2Proof.Machine

/-- The value listed under a key. -/
def Table.lookup {α : Type} : List (Nat × α) → Nat → Option α
  | [], _ => none
  | (a, v) :: rest, k => if a = k then some v else Table.lookup rest k

/-- List a value under a key, in place of any value listed there. -/
def Table.insert {α : Type} : List (Nat × α) → Nat → α → List (Nat × α)
  | [], k, v => [(k, v)]
  | (a, w) :: rest, k, v =>
    if k < a then (k, v) :: (a, w) :: rest
    else if k = a then (k, v) :: rest
    else (a, w) :: Table.insert rest k v

/-- List nothing under a key. -/
def Table.erase {α : Type} (t : List (Nat × α)) (k : Nat) : List (Nat × α) :=
  t.filter (fun c => c.1 != k)

/-- List nothing under the `n` keys from `a` on. -/
def Table.eraseRange {α : Type} (t : List (Nat × α)) (a n : Nat) : List (Nat × α) :=
  t.filter (fun c => !(decide (a ≤ c.1) && decide (c.1 < a + n)))

/-- The canonical form: strictly rising keys. -/
abbrev Table.Sorted {α : Type} (t : List (Nat × α)) : Prop := t.Pairwise (fun x y => x.1 < y.1)

/-- The value under a key where every unlisted key reads as `d`. -/
def Table.getD {α : Type} (d : α) (t : List (Nat × α)) (k : Nat) : α := (Table.lookup t k).getD d

/-- Store a value where every unlisted key reads as `d`: storing `d` lists nothing. -/
def Table.put {α : Type} [DecidableEq α] (d : α) (t : List (Nat × α)) (k : Nat) (v : α) : List (Nat × α) :=
  if v = d then Table.erase t k else Table.insert t k v

/-- The canonical form of a table with a default: strictly rising keys and no default listed. -/
abbrev Table.Canonical {α : Type} [DecidableEq α] (d : α) (t : List (Nat × α)) : Prop :=
  Table.Sorted t ∧ ∀ c ∈ t, c.2 ≠ d

/-- One byte of a memory; an unlisted address holds no value the spec states (R48, R213; log entry 4). -/
def Memory.read (m : Memory) (a : Nat) : Option Byte := Table.lookup m a

/-- Store one byte. -/
def Memory.write (m : Memory) (a : Nat) (b : Byte) : Memory := Table.insert m a b

/-- The `n` bytes from `a` on hold no stated value any more. -/
def Memory.forget (m : Memory) (a n : Nat) : Memory := Table.eraseRange m a n

/-- The canonical form of a memory. -/
abbrev Memory.wf (m : Memory) : Prop := Table.Sorted m

/-- `MemWrite(addr, n, v)`: byte `i` of `v` at `addr + i` (R64). -/
def Memory.writeLE (m : Memory) (a : Nat) : Nat → Nat → Memory
  | 0, _ => m
  | n + 1, v => Memory.writeLE (Memory.write m a (BitVec.ofNat 8 v)) (a + 1) n (v / 256)

/-- `MemRead(addr, n)`, the inverse (R64); none when one of the bytes holds no stated value. -/
def Memory.readLE (m : Memory) (a : Nat) : Nat → Option Nat
  | 0 => some 0
  | n + 1 =>
    match Memory.read m a, Memory.readLE m (a + 1) n with
    | some b, some v => some (b.toNat + 256 * v)
    | _, _ => none

end Sys2Proof.Machine
end

