-- ==== Sys2Proof/Machine/Ops.lean ====
section
/-!
DEFINITION. The named operations over registers, ports, memory and collaborators that the steps of every sequence
share; and RAISING A FAULT, the block's exception entry, as one operation (spec/60_exceptions.md R322 to R324).
-/
namespace Sys2Proof.Machine

/-! ## The block's records -/

/-- The record of a device. -/
def State.dev (s : State) (h : Handle) : Device := s.devs.get h

/-- Replace the record of a device. -/
def State.setDev (s : State) (h : Handle) (d : Device) : State := { s with devs := s.devs.set h d }

/-- Replace a device's DeviceRegisters. -/
def State.setDr (s : State) (h : Handle) (dr : DeviceRegs) : State := s.setDev h { s.dev h with dr := dr }

/-- Replace a device's CurrentTransfer. -/
def State.setCt (s : State) (h : Handle) (ct : CurrentTransfer) : State := s.setDev h { s.dev h with ct := ct }

/-- A handler has been registered for a device (R52, R262). One registered a second time, on whatever line, counts once: the
spec says nothing of double registration (R362; DESIGN CHOICE, unsafe, log entry 42). -/
def State.setRegistered (s : State) (h : Handle) : State := s.setDev h { s.dev h with registered := true }

/-- Replace a device's phase. -/
def State.setPhase (s : State) (h : Handle) (p : Phase) : State := s.setDev h { s.dev h with phase := p }

/-! ## The environment's registers -/

/-- The command block at a base address. Blocks of one kind share their registers exactly where they share their base;
blocks of two kinds are kept apart even where their bases are equal, and windows that overlap in part even of one kind:
the spec has no rule for either (DESIGN CHOICE, unsafe, log entry 27). Two devices of one channel that were brought up with
different bases have a block each (log entry 35). -/
def State.cmdBlock (s : State) (base : IoAddr) : CmdBlock := Table.getD CmdBlock.reset s.env.cmd base.toNat

/-- Replace the command block at a base address. -/
def State.setCmdBlock (s : State) (base : IoAddr) (b : CmdBlock) : State :=
  { s with env := { s.env with cmd := Table.put CmdBlock.reset s.env.cmd base.toNat b } }

/-- The device's copy of DEVCTL at a control address (R41), kept apart from a window of another kind at that address
(DESIGN CHOICE, log entry 27). -/
def State.devctl (s : State) (ctrl : IoAddr) : Byte := Table.getD devctlReset s.env.ctl ctrl.toNat

/-- Replace the device's copy of DEVCTL. -/
def State.setDevctl (s : State) (ctrl : IoAddr) (b : Byte) : State :=
  { s with env := { s.env with ctl := Table.put devctlReset s.env.ctl ctrl.toNat b } }

/-- The bus-master block at a base address, kept apart from a window of another kind at that address (DESIGN CHOICE, log
entry 27). -/
def State.busMaster (s : State) (bm : IoAddr) : BusMaster := Table.getD BusMaster.reset s.env.bm bm.toNat

/-- Replace the bus-master block at a base address. -/
def State.setBusMaster (s : State) (bm : IoAddr) (b : BusMaster) : State :=
  { s with env := { s.env with bm := Table.put BusMaster.reset s.env.bm bm.toNat b } }

/-- Which position of a command block is selected: the DEV bit of the DEVICE latch (R42). -/
def CmdBlock.selectsSlave (c : CmdBlock) : Bool := flag c.device Config.devBit

/-- What the position `slave` of a command block holds. -/
def CmdBlock.position (c : CmdBlock) (slave : Bool) : Taskfile := if slave then c.slave else c.master

/-- Replace what the position `slave` of a command block holds. -/
def CmdBlock.setPosition (c : CmdBlock) (slave : Bool) (t : Taskfile) : CmdBlock :=
  if slave then { c with slave := t } else { c with master := t }

/-- What the selected position holds (R42). -/
def CmdBlock.current (c : CmdBlock) : Taskfile := c.position c.selectsSlave

/-- Replace what the selected position holds. -/
def CmdBlock.setCurrent (c : CmdBlock) (t : Taskfile) : CmdBlock := c.setPosition c.selectsSlave t

/-- The two-deep register behind the port `+delta` (R40); the ports are those of SECCOUNT0 and LBA0 to LBA2. -/
def Taskfile.fifo (t : Taskfile) (delta : Nat) : Fifo :=
  if delta = Config.seccount0Offset then t.seccount
  else if delta = Config.lba0Offset then t.lba0
  else if delta = Config.lba1Offset then t.lba1
  else t.lba2

/-- Replace the two-deep register behind the port `+delta`. -/
def Taskfile.setFifo (t : Taskfile) (delta : Nat) (v : Fifo) : Taskfile :=
  if delta = Config.seccount0Offset then { t with seccount := v }
  else if delta = Config.lba0Offset then { t with lba0 := v }
  else if delta = Config.lba1Offset then { t with lba1 := v }
  else { t with lba2 := v }

/-- A write to a two-deep register (R40): `select` writes the half HOB selects; `push` moves the current byte into
the high-order half and stores the new one in the low-order half. -/
def Fifo.write (model : Config.FifoModel) (hob : Bool) (f : Fifo) (b : Byte) : Fifo :=
  match model with
  | .select => if hob then { f with hi := b } else { f with lo := b }
  | .push => { hi := f.lo, lo := b }

/-- A read of a two-deep register: HOB selects the half, under both readings (R40). -/
def Fifo.read (hob : Bool) (f : Fifo) : Byte := if hob then f.hi else f.lo

/-- The HOB bit of the device's DEVCTL. -/
def State.hob (s : State) (dr : DeviceRegs) : Bool := flag (s.devctl dr.ctrl) Config.hobBit

/-- The NIEN bit of the device's DEVCTL (R41). -/
def State.masked (s : State) (dr : DeviceRegs) : Bool := flag (s.devctl dr.ctrl) Config.nienBit

/-- Is the interrupt line of a device raised: its IRQ bit set and its NIEN bit clear (R41, R327)? -/
def State.lineRaised (s : State) (dr : DeviceRegs) : Bool := (s.busMaster dr.bm).irq && !s.masked dr

/-- A write of a byte to the two-deep register behind the port `+delta` of the selected position (R40). -/
def fifoWrite (dr : DeviceRegs) (delta : Nat) (b : Byte) (s : State) : State :=
  let c := s.cmdBlock dr.base
  s.setCmdBlock dr.base
    (c.setCurrent (c.current.setFifo delta ((c.current.fifo delta).write Config.fifoModel (s.hob dr) b)))

/-- A command byte written to a device: a device that is there starts to run it, and may interrupt at its end only if
NIEN is clear now (R70, R326). A command the device is still running is replaced, and with it what it was allowed to
signal; the DMA engine's progress stays (DESIGN CHOICE, unsafe, log entry 36). -/
def Taskfile.takeCommand (t : Taskfile) (b : Byte) (nien : Bool) : Taskfile :=
  { t with command := b, running := !t.absent, mayInterrupt := !nien }

/-- What the environment does with a write to a port of the command block: FEATURES, the FIFO registers and
COMMAND of the selected position, the DEVICE latch; a word written to DATA goes to the device and is in the trace
alone (R28, R31, R32, R42). Of DEVICE only DEV and, when it is read, LBA are looked at: the other bits, and a clear LBA, are
kept and change nothing in how a command runs (DESIGN CHOICE, unsafe, log entry 15). -/
def commandWrite (dr : DeviceRegs) (delta : Nat) (v : Dword) (s : State) : State :=
  let c := s.cmdBlock dr.base
  let b := byteAt v 0
  if delta = Config.dataOffset then s
  else if delta = Config.errorOffset then s.setCmdBlock dr.base (c.setCurrent { c.current with features := b })
  else if delta = Config.deviceOffset then s.setCmdBlock dr.base { c with device := b }
  else if delta = Config.statusOffset then s.setCmdBlock dr.base (c.setCurrent (c.current.takeCommand b (s.masked dr)))
  else fifoWrite dr delta b s

/-- What the environment does with a write to a port of the control block: DEVCTL (R41), whose bits other than HOB and NIEN
are kept and do nothing (D4; DESIGN CHOICE, unsafe, log entry 15); CTL1 is reserved, its
write has no effect on anything modelled (U4). -/
def controlWrite (dr : DeviceRegs) (delta : Nat) (v : Dword) (s : State) : State :=
  if Config.controlOffsetBase + delta = Config.devctlOffset then s.setDevctl dr.ctrl (byteAt v 0) else s

/-- A started engine that has fetched nothing yet (R44). -/
def DmaProgress.start : DmaProgress := { next := 0, addr := 0, left := 0, last := false }

/-- A byte written to BUSCMD: with START set the engine starts from the first entry of the table, with START clear it
stops (R44, R70, R187; log entry 21). Either way it forgets that it was done: a device whose engine has processed the last
entry and that has not signalled yet does not signal until an engine is done again (DESIGN CHOICE, unsafe, log entry 40).
The bits other than START and READ are kept and do nothing (R33; DESIGN CHOICE, unsafe, log entry 15). -/
def BusMaster.takeCommand (b : BusMaster) (v : Byte) : BusMaster :=
  { b with buscmd := v, dma := if flag v Config.startBit then some DmaProgress.start else none }

/-- A value written to PRDTADDR: the whole register by a 32-bit write, one byte lane by a byte write (R129, R167 to
R173). -/
def BusMaster.writeAddr (b : BusMaster) (w : Width) (lane : Nat) (v : Dword) : BusMaster :=
  { b with prdtaddr := if w = .w32 then v else withLane b.prdtaddr lane (byteAt v 0) }

/-- What the environment does with a write to a port of the bus-master block: BUSCMD; BUSSTATUS clears the IRQ bit
where a 1 is written (R34, R163); PRDTADDR whole or by byte lane (R129, R167 to R173); BM1 and BM3 are
reserved (U4). -/
def busMasterWrite (dr : DeviceRegs) (w : Width) (delta : Nat) (v : Dword) (s : State) : State :=
  let b := s.busMaster dr.bm
  let off := Config.busOffsetBase + delta
  if off = Config.buscmdOffset then s.setBusMaster dr.bm (b.takeCommand (byteAt v 0))
  else if off = Config.busstatusOffset then s.setBusMaster dr.bm { b with irq := b.irq && !flag v Config.irqBit }
  else if Config.prdtaddr0Offset ≤ off then
    s.setBusMaster dr.bm (b.writeAddr w (off - Config.prdtaddr0Offset) v)
  else s

/-- What the environment does with a port write. -/
def deviceWrite (dr : DeviceRegs) (w : Width) (p : Port) (v : Dword) (s : State) : State :=
  match p.window with
  | .command => commandWrite dr p.delta v s
  | .control => controlWrite dr p.delta v s
  | .busMaster => busMasterWrite dr w p.delta v s

/-- What the environment answers to a read of the command block whose draw is `raw`. The FIFO registers answer the half
HOB selects (R40, R134); DEVICE answers the LBA and DEV bits last written (R142); STATUS answers 0x00 where no device
is (R45); every other bit is the draw (R7, R70). At a position without a device the FIFO registers and DEVICE are
written and read as at any other: the spec states what STATUS reads there and nothing else (DESIGN CHOICE, log
entry 16). -/
def commandAnswer (dr : DeviceRegs) (delta : Nat) (raw : Dword) (s : State) : Dword :=
  let c := s.cmdBlock dr.base
  if delta = Config.dataOffset ∨ delta = Config.errorOffset then raw
  else if delta = Config.deviceOffset then
    (withFlag (withFlag (byteAt raw 0) Config.lbaBit (flag c.device Config.lbaBit)) Config.devBit
      (flag c.device Config.devBit)).setWidth 32
  else if delta = Config.statusOffset then if c.current.absent then 0#32 else raw
  else ((c.current.fifo delta).read (s.hob dr)).setWidth 32

/-- What the environment answers to a read of the bus-master block whose draw is `raw`: BUSSTATUS its IRQ bit (R43, R162),
PRDTADDR its byte lanes (R166 to R172); every other bit is the draw (R7, R70). -/
def busMasterAnswer (dr : DeviceRegs) (delta : Nat) (raw : Dword) (s : State) : Dword :=
  let b := s.busMaster dr.bm
  let off := Config.busOffsetBase + delta
  if off = Config.busstatusOffset then (withFlag (byteAt raw 0) Config.irqBit b.irq).setWidth 32
  else if Config.prdtaddr0Offset ≤ off then (byteAt b.prdtaddr (off - Config.prdtaddr0Offset)).setWidth 32
  else raw

/-- What the environment answers to a port read whose draw is `raw`; a read of the control block is a draw (R154, R156),
of ALTSTATUS also at a position without a device (log entry 33; for the command block there, log entry 16). -/
def deviceAnswer (dr : DeviceRegs) (p : Port) (raw : Dword) (s : State) : Dword :=
  match p.window with
  | .command => commandAnswer dr p.delta raw s
  | .control => raw
  | .busMaster => busMasterAnswer dr p.delta raw s

/-! ## The environment's answers -/

/-- The draw of the next port read: the oldest answer listed, or a free value (R7; log entry 1). -/
def State.nextAnswer (s : State) : Dword :=
  match s.env.answers with
  | a :: _ => a
  | [] => Config.portDraw s.env.drawn

/-- The state after that draw. -/
def State.tookAnswer (s : State) : State :=
  match s.env.answers with
  | _ :: rest => { s with env := { s.env with answers := rest } }
  | [] => { s with env := { s.env with drawn := s.env.drawn + 1 } }

/-- The physical runs that back the `n` bytes of a buffer from virtual address `a` on, in order (R49, R50). Where a run passes
the end of the 64-bit physical space its addresses wrap (DESIGN CHOICE, unsafe, log entry 39). -/
def runsFrom : List (Nat × Pair) → Nat → Nat → List Pair
  | [], _, _ => []
  | (v, r) :: rest, a, n =>
    if v ≤ a ∧ a < v + r.len ∧ n ≠ 0 then
      let c := min (v + r.len - a) n
      { addr := r.addr + BitVec.ofNat Config.physWidth (a - v), len := c } :: runsFrom rest (a + c) (n - c)
    else runsFrom rest a n

/-- Do the runs back the whole of the `n` bytes at `a`? -/
def State.backed (s : State) (a n : Nat) : Bool := decide (((runsFrom s.backing a n).map (·.len)).sum = n)

/-- The pair list of the call `Translate(a, n)` (R50): the oldest answer listed; where none is listed, the runs that back
the buffer; where they do not back all of it, a free value. The block checks what comes (R75). -/
def State.nextTranslation (s : State) (a n : Nat) : List Pair :=
  match s.env.translations with
  | ps :: _ => ps
  | [] => if s.backed a n then runsFrom s.backing a n else Config.translateDraw s.env.drawn

/-- Record one call of a collaborator. -/
def State.called (s : State) (c : Call) : State := { s with calls := s.calls ++ [c] }

/-- The state after that call. -/
def State.tookTranslation (s : State) (a n : Nat) : State :=
  match s.env.translations with
  | _ :: rest => { s with env := { s.env with translations := rest } }
  | [] => if s.backed a n then s else { s with env := { s.env with drawn := s.env.drawn + 1 } }

/-- The answer of the next `Alloc` call: a physical address, or failure (R51). -/
def State.nextAllocation (s : State) : Option PhysAddr :=
  match s.env.allocations with
  | a :: _ => a
  | [] => Config.allocDraw s.env.drawn

/-- The state after that call. -/
def State.tookAllocation (s : State) : State :=
  match s.env.allocations with
  | _ :: rest => { s with env := { s.env with allocations := rest } }
  | [] => { s with env := { s.env with drawn := s.env.drawn + 1 } }

/-- The answer of the next `RegisterInterrupt` call (R52). -/
def State.nextRegistration (s : State) : Bool :=
  match s.env.registrations with
  | a :: _ => a
  | [] => Config.registerDraw s.env.drawn

/-- The state after that call. -/
def State.tookRegistration (s : State) : State :=
  match s.env.registrations with
  | _ :: rest => { s with env := { s.env with registrations := rest } }
  | [] => { s with env := { s.env with drawn := s.env.drawn + 1 } }

/-! ## Port accesses -/

/-- Record one event of the port bus (R60). -/
def State.record (s : State) (e : PortEvent) : State := { s with trace := s.trace ++ [e] }

/-- `PortWrite(n, port, v)` by the agent of device `h` (R60). -/
def portWrite (h : Handle) (w : Width) (p : Port) (v : Dword) (s : State) : State :=
  (deviceWrite (s.dev h).dr w p (w.trim v) s).record (.write w (portAddr (s.dev h).dr p) (w.trim v))

/-- The value a `PortRead(n, port)` by the agent of device `h` returns (R7, R60). -/
def portValue (h : Handle) (w : Width) (p : Port) (s : State) : Dword :=
  w.trim (deviceAnswer (s.dev h).dr p s.nextAnswer s)

/-- The state after that read: an answer taken, an event recorded. A read changes no register the model keeps; of STATUS
too, where the spec states no effect (R47, R70, R144; DESIGN CHOICE, unsafe, log entry 34). -/
def portRead (h : Handle) (w : Width) (p : Port) (s : State) : State :=
  s.tookAnswer.record (.read w (portAddr (s.dev h).dr p) (portValue h w p s))

/-! ## Memory and allocations -/

/-- `MemWrite(addr, n, v)` (R64). -/
def memWrite (addr n v : Nat) (s : State) : State := { s with mem := s.mem.writeLE addr n v }

/-- Where a byte of a caller's buffer lives: in the physical run that backs it (R49, R83), or, where none does, in the
buffer's own store. -/
inductive Place where
  | virtual (a : Nat)
  | physical (a : Nat)
  deriving DecidableEq, Repr

/-- The place of the buffer byte at virtual address `a`. All callers share one virtual address space (DESIGN CHOICE, unsafe,
log entry 37), and a run that passes the end of the 64-bit physical space wraps (DESIGN CHOICE, unsafe, log entry 39). -/
def State.place (s : State) (a : Nat) : Place :=
  match s.backing.find? (fun r => decide (r.1 ≤ a) && decide (a < r.1 + r.2.len)) with
  | some r => .physical (r.2.addr + BitVec.ofNat Config.physWidth (a - r.1)).toNat
  | none => .virtual a

/-- The byte a place holds, if the model holds one. -/
def State.readPlace (s : State) : Place → Option Byte
  | .virtual a => Memory.read s.buf a
  | .physical a => Memory.read s.mem a

/-- Store a byte at a place. -/
def State.writePlace (s : State) (p : Place) (b : Byte) : State :=
  match p with
  | .virtual a => { s with buf := s.buf.write a b }
  | .physical a => { s with mem := s.mem.write a b }

/-- The value of a place that holds no stated value: the caller's data, or what physical memory happens to hold (log
entry 5). -/
def freePlace : Place → Byte
  | .virtual a => Config.bufferByte a
  | .physical a => Config.memoryByte a

/-- One byte of a caller's buffer (R66). -/
def State.callerByte (s : State) (a : Nat) : Byte := (s.readPlace (s.place a)).getD (freePlace (s.place a))

/-- Store one byte of a caller's buffer (R66, R364). -/
def State.storeCaller (s : State) (a : Nat) (b : Byte) : State := s.writePlace (s.place a) b

/-- `BufRead16(buf, i)`: bytes `2i` (low) and `2i + 1` (high) (R66). -/
def bufRead16 (s : State) (buffer i : Nat) : Word :=
  s.callerByte (buffer + 2 * i + 1) ++ s.callerByte (buffer + 2 * i)

/-- `BufWrite16(buf, i, v)` (R66). -/
def bufWrite16 (s : State) (buffer i : Nat) (v : Word) : State :=
  (s.storeCaller (buffer + 2 * i) (byteAt v 0)).storeCaller (buffer + 2 * i + 1) (byteAt v 1)

/-- `Alloc(bytes, align)` answered with an address: a fresh handle, and the bytes hold no stated value (R51, R48). -/
def allocate (phys : PhysAddr) (bytes : Nat) (s : State) : State :=
  { s with
    allocs := s.allocs ++ [{ handle := s.nextHandle, phys := phys, bytes := bytes, align := Config.prdtAllocAlign }]
    nextHandle := s.nextHandle + 1
    mem := s.mem.forget phys.toNat bytes }

/-- What `Free(handle)` gives back: the allocation, whose bytes hold no stated value any more (R51, R213, U26). -/
def giveBack (handle : Nat) (s : State) : State :=
  match s.allocs.find? (fun a => a.handle == handle) with
  | some a =>
    { s with
      allocs := s.allocs.filter (fun b => b.handle != handle)
      mem := s.mem.forget a.phys.toNat a.bytes }
  | none => s

/-- `Free(handle)` (R51). -/
def release (handle : Nat) (s : State) : State := (giveBack handle s).called (.free handle)

/-- `Free` of an owning pointer: null owns nothing (R233; vector T-12). -/
def releaseTable (t : Option PrdTable) (s : State) : State :=
  match t with
  | some t => release t.handle s
  | none => s

/-! ## Bring-up's failure -/

/-- A transfer state from free bits. -/
def tsmOfNat (n : Nat) : TsmState :=
  if n % 3 = 0 then .free else if n % 3 = 1 then .inProgress else .finished

/-- The records of a device whose bring-up has failed: every field of DeviceRegisters and CurrentTransfer a free value
(R58, R264; log entry 17); a handler registered before stays registered (R327). -/
def unspecifiedDevice (n : Nat) (old : Device) : Device :=
  let u := fun i => Config.unspecifiedBits (n + i)
  { dr :=
      { base := (u 0).setWidth 16, ctrl := (u 1).setWidth 16, bm := (u 2).setWidth 16, nien := (u 3).getLsbD 0
        secondary := (u 3).getLsbD 1, slave := (u 3).getLsbD 2, totalSectors := (u 4).setWidth 48
        irq := if (u 3).getLsbD 3 then .legacy (u 5).toNat else .pci (u 5).toNat }
    ct :=
      { state := tsmOfNat (u 6).toNat, event := (u 3).getLsbD 4
        prdt := if (u 3).getLsbD 5 then some { handle := (u 7).toNat, phys := u 8, entries := (u 9).toNat }
          else none }
    phase := .down
    registered := old.registered
    handlerFault := old.handlerFault }

/-- Bring-up has failed: no partial state retained (R58, R264). -/
def failBringUp (h : Handle) (s : State) : State :=
  { s.setDev h (unspecifiedDevice s.env.drawn (s.dev h)) with
    env := { s.env with drawn := s.env.drawn + 10 } }

/-! ## Raising a fault -/

/-- `raise X(info)` (R322, R323): the fault is recorded for good, and a handler agent that raised it is ended. A
thread's agent ends because its frame is dropped: nothing resumes it. Everything else stays as the steps before
left it (R324). -/
def raise (h : Handle) (ctx : Context) (k : Fault) (s : State) : State :=
  let s1 := { s with faults := s.faults ++ [{ dev := h, ctx := ctx, fault := k }] }
  match ctx with
  | .thread => s1
  | .interrupt => s1.setDev h { s1.dev h with handlerFault := some k }

/-- `return` of a result to the caller (R321). -/
def handBack (h : Handle) (op : Instr) (r : Result) (s : State) : State :=
  { s with returns := s.returns ++ [{ dev := h, op := op, result := r }] }

/-- `EventCreate`, `EventSignal` and the consuming half of `EventWait` (R53). -/
def setEvent (h : Handle) (b : Bool) (s : State) : State := s.setCt h { (s.dev h).ct with event := b }

/-- A store to `ct.state` (R231, R233). -/
def storeTsm (h : Handle) (t : TsmState) (s : State) : State := s.setCt h { (s.dev h).ct with state := t }

/-- The compare-and-swap of `ct.state` from InProgress to Finished, one indivisible step (R81, R232). -/
def casFinished (h : Handle) (s : State) : State :=
  if (s.dev h).ct.state = .inProgress then storeTsm h .finished s else s

end Sys2Proof.Machine
end

