-- ==== Sys2Proof/Machine/Builder.lean ====
section
/-!
DEFINITION. The Descriptor-Table Builder (spec/42_descriptor_builder.md R200 to R217): the checks of a pair, the split
at the 64 KB boundary, the stores of an entry, and what one turn of the loop puts ahead of the sequence. Lengths and
addresses are naturals that never wrap (R216).
-/
namespace Sys2Proof.Machine

/-- An emitted PRD entry: address and length (R210). -/
structure Entry where
  addr : Nat
  len : Nat
  deriving DecidableEq, Repr

/-- The clipped length of a pair (R206). -/
def clip (p : Pair) (remaining : Nat) : Nat := min p.len remaining

/-- The checks of pair `i`, the first that fails deciding (R203 to R207, R325). -/
def pairStop (i : Nat) (p : Pair) (remaining : Nat) : Option BuildStop :=
  if Config.maxPhysAddr < p.addr.toNat then some (.status .physicalAddressOutOfRange)
  else if p.addr.toNat % Config.pairAlign ≠ 0 ∨ p.len % Config.pairAlign ≠ 0 then some (.status .misaligned)
  else if Config.maxPairSpan < p.len then some (.status .spanTooLarge)
  else if clip p remaining = 0 then some (.fault (.emptyEntry i))
  else if Config.prdAddrLimit < p.addr.toNat + clip p remaining then some (.fault (.addressTruncation i))
  else none

/-- Does the interval of `c` bytes at `a` cross the boundary (R208)? -/
def crosses (a c : Nat) : Bool := decide (Config.boundary < a % Config.boundary + c)

/-- The entries of a checked pair: one, or two split at the boundary (R208). -/
def splitPair (a c : Nat) : List Entry :=
  if crosses a c then
    let first := Config.boundary - a % Config.boundary
    [{ addr := a, len := first }, { addr := a + first, len := c - first }]
  else [{ addr := a, len := c }]

/-- The flags field of an entry: bit 15 is the last-entry flag (R95). -/
def entryFlags (last : Bool) : Nat := if last then 2 ^ Config.lastEntryBit else 0

/-- The entry as a 64-bit number, `flags ++ count ++ address` (R96). -/
def encodeEntry (e : Entry) (last : Bool) : Nat :=
  e.addr % 2 ^ 32 + 2 ^ (8 * Config.prdCountOffset) * (e.len % 2 ^ 16) + 2 ^ (8 * Config.prdFlagsOffset) * entryFlags last

/-- The three stores that emit an entry at `a`, its flag clear (R210). -/
def entryStores (a : Nat) (e : Entry) : List Micro :=
  [.memWrite a 4 (e.addr % 2 ^ 32), .memWrite (a + Config.prdCountOffset) 2 (e.len % 2 ^ 16),
    .memWrite (a + Config.prdFlagsOffset) 2 (entryFlags false)]

/-- The stores of a list of entries, the first at `a` (R210: entry `k` at `T + 8k`). -/
def tableStores (a : Nat) : List Entry → List Micro
  | [] => []
  | e :: es => entryStores a e ++ tableStores (a + Config.prdEntryBytes) es

/-- The store that marks entry `k - 1` of the table at `t` as the last (R211 S2). -/
def markStore (t k : Nat) : Micro :=
  .memWrite (t + Config.prdEntryBytes * (k - 1) + Config.prdFlagsOffset) 2 (entryFlags true)

/-- A stop after the allocation: the allocation is given back first (R213). -/
def buildAbort (b : BuildStop) : List Micro := [.buildFree, .buildStop b]

/-- What the loop does at pair `i` with `remaining` bytes to cover, the table so far being `t`: the table after the
pair's entries, and the steps that come next. A pair that fails a check stops the operation; an accepted one emits
its entries (R202 to R210); after the last pair come the closing check and the mark, or the fault (R211). -/
def buildTurn (pairs : List Pair) (t : PrdTable) (i remaining : Nat) : PrdTable × List Micro :=
  match pairs[i]? with
  | some p =>
    match pairStop i p remaining with
    | some b => (t, buildAbort b)
    | none =>
      let es := splitPair p.addr.toNat (clip p remaining)
      ({ t with entries := t.entries + es.length },
        tableStores (t.phys.toNat + Config.prdEntryBytes * t.entries) es ++ [.buildPair (i + 1) (remaining - clip p remaining)])
  | none =>
    if remaining ≠ 0 then (t, buildAbort (.fault (.remainingNonzero remaining)))
    else (t, [markStore t.phys.toNat t.entries, .buildCheck])

/-- The table a frame's builder is filling; there is one from the allocation on (R201). -/
def Frame.building (f : Frame) : PrdTable := f.table.getD { handle := 0, phys := 0#Config.physWidth, entries := 0 }

/-- The steps of BUILD_PRDT (R215); each puts those after it in its place. -/
def buildSteps (totalBytes : Nat) : List Micro := [.buildAlloc totalBytes]

end Sys2Proof.Machine
end

