-- ==== Sys2Proof/Machine/Sequence.lean ====
section
/-!
DEFINITION. What one step of a running sequence does, and how a sequence runs (spec/10_state.md R36, spec/20_memory.md
R79): a step may go on, stay where it is (a wait, R188), return a result, or raise a fault. `issue` is what every
operation's meaning is: the acceptance checks (R56, R341, R362), then the operation's list of steps run for the
slice the request gives it; a sequence that has not ended by then is a suspended thread, or the unfinished
interrupt activation.
-/
namespace Sys2Proof.Machine

/-- Where a step leaves its sequence. -/
inductive Progress where
  /-- the frame with the steps still to take -/
  | running (f : Frame)
  /-- ended by `return` -/
  | returned (r : Result)
  /-- ended by `raise` -/
  | raised (k : Fault)
  deriving DecidableEq, Repr

/-- The step whose execution leaves `prog` unchanged: it will be taken again (R36: a wait step leaves `pc` where it
is). -/
def stay (m : Micro) (f : Frame) : Progress := .running { f with prog := m :: f.prog }

/-! ## Bring-up's steps (spec/44_bringup.md) -/

/-- S1: resolve the addresses (R251). Those of another device on the channel are not looked at: the two may differ (DESIGN
CHOICE, unsafe, log entry 35). -/
def resolveRegs (dr : DeviceRegs) (pci : PciInfo) (secondary slave : Bool) : DeviceRegs :=
  { dr with
    secondary := secondary
    slave := slave
    base := if pci.usePci then pci.cmdBase else Config.legacyBase secondary
    ctrl := if pci.usePci then pci.ctrlBase else Config.legacyCtrl secondary
    bm := pci.bmBase }

/-- Word `n` of the identification data (R257). -/
def identWord (id : List Word) (n : Nat) : Word := id.getD n 0#16

/-- The 48-bit capability bit (R258, R259). -/
def supports48 (id : List Word) : Bool := flag (identWord id Config.identCapWord) Config.identCapBit

/-- The total sector count: the low 48 bits of four words, least significant first (R259). -/
def identSectors (id : List Word) : Lba :=
  (identWord id (Config.identSectorsWord + 3) ++ identWord id (Config.identSectorsWord + 2) ++
    identWord id (Config.identSectorsWord + 1) ++ identWord id Config.identSectorsWord).setWidth 48

/-- The line a device is registered on (R262, R328). -/
def irqLine (pci : PciInfo) (secondary : Bool) : IrqLine :=
  if pci.usePci then .pci pci.irqRoute else .legacy (Config.legacyIrq secondary)

/-! ## The polled buffer loop (spec/41_primitives.md R185, R186) -/

/-- One step of the loop at word `i` of `words`: S1, a pass of WAIT_IDLE; S2, a pass of WAIT_DRQ; S3, the word taken from
DATA or from the buffer into the frame; S4, the word put into the buffer or into DATA. -/
def pioStep (stage : PioPhase) (isWrite : Bool) (target : PioTarget) (i words : Nat) (f : Frame) (s : State) :
    Progress × State :=
  let h := f.ops.dev
  let status := portRead h .w8 statusPort s
  let v := portValue h .w8 statusPort s
  let w : Word := f.acc.setWidth 16
  match stage with
  | .idle =>
    if words ≤ i then (.running f, s)
    else if flag v Config.busyBit then (stay (.pio .idle isWrite target i words) f, status)
    else (stay (.pio .drq isWrite target i words) f, status)
  | .drq =>
    if flag v Config.drqBit then (stay (.pio .take isWrite target i words) f, status)
    else (stay (.pio .drq isWrite target i words) f, status)
  | .take =>
    if isWrite then
      (stay (.pio .put isWrite target i words) { f with acc := (bufRead16 s f.ops.buffer i).setWidth 32 }, s)
    else
      (stay (.pio .put isWrite target i words) { f with acc := portValue h .w16 dataPort s },
        portRead h .w16 dataPort s)
  | .put =>
    if isWrite then
      (stay (.pio .idle isWrite target (i + 1) words) f, portWrite h .w16 dataPort f.acc s)
    else
      match target with
      | .caller => (stay (.pio .idle isWrite target (i + 1) words) f, bufWrite16 s f.ops.buffer i w)
      | .identify => (stay (.pio .idle isWrite target (i + 1) words) { f with idbuf := f.idbuf ++ [w] }, s)

/-! ## One step -/

/-- The value a sequence returns at its end. -/
def retValue (r : Ret) (f : Frame) : Result :=
  match r with
  | .done => .done
  | .byte => .byte (f.acc.setWidth 8)
  | .word => .word (f.acc.setWidth 16)
  | .handled => .handled true
  | .table =>
    match f.table with
    | some t => .table t
    | none => .done

/-- Bring-up returns a status other than Success (R58, R264). -/
def bringUpFails (st : Status) (f : Frame) (s : State) : Progress × State :=
  (.returned (.status st), failBringUp f.ops.dev s)

/-- Is a sector count legal (R8, R271)? -/
def countOk (n : Word) : Bool := decide (Config.sectorCountMin ≤ n.toNat) && decide (n.toNat ≤ Config.sectorCountMax)

/-- One step of a sequence; `f.prog` holds the steps after it. Each arm cites its rule at the step's constructor. A
handler registered again by `registerIrq`, on whatever line, counts once (R362; DESIGN CHOICE, unsafe, log entry 42). -/
def microStep (m : Micro) (f : Frame) (s : State) : Progress × State :=
  let h := f.ops.dev
  let d := s.dev h
  let acc : Byte := f.acc.setWidth 8
  match m with
  | .setNien b => (.running f, s.setDr h { d.dr with nien := b })
  | .outNien => (.running f, portWrite h .w8 devctlPort ((nienByte d.dr.nien).setWidth 32) s)
  | .outHob => (.running f, portWrite h .w8 devctlPort ((hobByte d.dr.nien).setWidth 32) s)
  | .outSelect => (.running f, portWrite h .w8 devicePort ((devSelByte d.dr.slave).setWidth 32) s)
  | .out w p v => (.running f, portWrite h w p v s)
  | .outPrdt =>
    (.running f, portWrite h .w32 prdtPort (((f.table.map (·.phys)).getD 0#64).setWidth 32) s)
  | .inp w p => (.running { f with acc := portValue h w p s }, portRead h w p s)
  | .waitStatus bit want =>
    if flag (portValue h .w8 statusPort s) bit = want then (.running f, portRead h .w8 statusPort s)
    else (stay (.waitStatus bit want) f, portRead h .w8 statusPort s)
  | .pio stage isWrite target i words => pioStep stage isWrite target i words f s
  | .resolve secondary slave =>
    (.running f, s.setDev h
      { d with dr := resolveRegs d.dr f.ops.pci secondary slave, phase := .starting })
  | .absentCheck => if acc = 0x00#8 then bringUpFails .deviceDoesNotExist f s else (.running f, s)
  | .identPoll =>
    if flag acc Config.errBit then bringUpFails .deviceNotSupported f s
    else if !flag acc Config.busyBit && flag acc Config.drqBit then (.running f, s)
    else (stay .identPoll { f with acc := portValue h .w8 statusPort s }, portRead h .w8 statusPort s)
  | .check48 => if supports48 f.idbuf then (.running f, s) else bringUpFails .deviceNotSupported f s
  | .recordSectors => (.running f, s.setDr h { d.dr with totalSectors := identSectors f.idbuf })
  | .openTransfer => (.running f, s.setCt h { state := .free, event := false, prdt := none })
  | .registerIrq secondary =>
    let line := irqLine f.ops.pci secondary
    let s1 := (s.tookRegistration.called (.registerInterrupt line h)).setDr h { d.dr with irq := line }
    if s.nextRegistration then (.running f, s1.setRegistered h)
    else bringUpFails .interruptRegistrationFailed f s1
  | .initSucceed => (.returned (.status .success), s.setPhase h .up)
  | .paramCheck =>
    if !f.ops.devValid || !f.ops.bufValid || !f.ops.outValid || !countOk f.ops.sectorCount then
      (.returned (.status .invalidParameter), s)
    else (.running f, s)
  | .translate length =>
    let a := f.ops.buffer
    (.running { f with pairs := s.nextTranslation a length }, (s.tookTranslation a length).called (.translate a length))
  | .buildAlloc totalBytes =>
    if f.pairs = [] then (.raised (.remainingNonzero totalBytes), s)
    else
      let bytes := 2 * f.pairs.length * Config.prdEntryBytes
      let s1 := s.tookAllocation.called (.alloc bytes Config.prdtAllocAlign)
      match s.nextAllocation with
      | none => (.returned (.status .allocationFailure), s1)
      | some phys =>
        (.running { f with
            table := some { handle := s.nextHandle, phys := phys, entries := 0 }
            prog := .buildPair 0 totalBytes :: f.prog },
          allocate phys bytes s1)
  | .buildPair i remaining =>
    let r := buildTurn f.pairs f.building i remaining
    (.running { f with table := some r.1, prog := r.2 ++ f.prog }, s)
  | .memWrite addr n v => (.running f, memWrite addr n v s)
  | .buildCheck =>
    if Config.prdtMaxAddr < f.building.phys.toNat then
      (.running { f with prog := buildAbort (.status .tableAddressOutOfRange) ++ f.prog }, s)
    else (.running f, s)
  | .buildFree => (.running f, release f.building.handle s)
  | .buildStop (.status st) => (.returned (.status st), s)
  | .buildStop (.fault k) => (.raised k, s)
  | .setPrdt => (.running f, s.setCt h { d.ct with prdt := f.table })
  | .submit => (.running f, storeTsm h .inProgress s)
  | .eventWait => if d.ct.event then (.running f, setEvent h false s) else (stay .eventWait f, s)
  | .consumeCheck =>
    if d.ct.state = .finished then (.running f, s) else (.raised (.consumeNotFinished d.ct.state), s)
  | .consumeFree => (.running f, releaseTable d.ct.prdt s)
  | .consumeClear => (.running f, s.setCt h { d.ct with prdt := none })
  | .consumeReset resetOnCleanup => (.running f, if resetOnCleanup then storeTsm h .free s else s)
  | .reportCount =>
    (.returned (.status .success), { s with outs := Table.insert s.outs f.ops.outSlot f.ops.sectorCount })
  | .irqTest => if flag acc Config.irqBit then (.running f, s) else (.returned (.handled false), s)
  | .statusTest =>
    if flag acc Config.dfBit then (.raised (.deviceFault acc), s)
    else if flag acc Config.errBit then
      (.running { f with status := acc, prog := [.inp .w8 errorPort, .logAndHalt] }, s)
    else (.running { f with status := acc }, s)
  | .logAndHalt =>
    (.raised (.runtimeDeviceError f.status acc), { s with log := s.log ++ [{ status := f.status, error := acc }] })
  | .complete =>
    if d.ct.state = .inProgress then (.running f, casFinished h s)
    else (.raised (.casFailed d.ct.state), casFinished h s)
  | .signal => (.running f, setEvent h true s)
  | .halt k => (.raised k, s)
  | .ret r => (.returned (retValue r f), s)

/-- The next step of a frame; a frame with no step left returns. -/
def frameStep (f : Frame) (s : State) : Progress × State :=
  match f.prog with
  | [] => (.returned .done, s)
  | m :: rest => microStep m { f with prog := rest } s

/-- A frame taking up to `n` steps with no other agent between them. -/
def runFrame : Nat → Frame → State → Progress × State
  | 0, f, s => (.running f, s)
  | n + 1, f, s =>
    match frameStep f s with
    | (.running f1, s1) => runFrame n f1 s1
    | r => r

/-! ## Starting, suspending and ending -/

/-- Suspend an unfinished sequence: a thread under its number (a new one for a first suspension), or the interrupt
activation. -/
def suspend (tid : Option Nat) (f : Frame) (s : State) : State :=
  match f.ctx with
  | .interrupt => { s with activation := some f }
  | .thread =>
    match tid with
    | some t => { s with threads := Table.insert s.threads t f }
    | none => { s with threads := Table.insert s.threads s.nextTid f, nextTid := s.nextTid + 1 }

/-- What becomes of a sequence after its turn: `f0` names its device, operation and context. -/
def settle (tid : Option Nat) (f0 : Frame) (r : Progress × State) : State :=
  match r.1 with
  | .running f => suspend tid f r.2
  | .returned v => handBack f0.ops.dev f0.op v r.2
  | .raised k => raise f0.ops.dev f0.ctx k r.2

/-- The frame a request starts. -/
def startFrame (i : Instr) (prog : List Micro) (r : Request) : Frame :=
  { op := i, ops := r.ops, ctx := r.ctx, prog := prog, acc := 0#32, status := 0#8, idbuf := [], pairs := r.ops.pairs
    table := none }

/-- Is the operation's device in a phase that admits it? INIT_DEVICE is refused only during a transfer (R362);
BUILD_PRDT takes no device (R200); a transfer request whose device is null is answered by its parameter check
(R271); a delivery starts the handler of any device one is registered for (R327, R329), whatever has become of a
bring-up since; everything else needs a bring-up that has returned Success (R56). Which channel and position another
device has been brought up at, and with which bases, is not looked at: two devices may share a position, and two of one
channel may have different windows (DESIGN CHOICE, unsafe, log entry 35). -/
def phaseAllows (i : Instr) (r : Request) (d : Device) : Option Refusal :=
  match i with
  | .initDevice _ _ => if d.phase ≠ .down ∧ d.ct.state = .inProgress then some .transferInProgress else none
  | .buildPrdt => none
  | .transferSectors _ _ => if r.ops.devValid && d.phase != .up then some .notBroughtUp else none
  | .irqHandler => if d.registered then none else some .notBroughtUp
  | _ => if d.phase = .up then none else some .notBroughtUp

/-- Is the request refused, and why? -/
def refusal (i : Instr) (s : State) : Option Refusal :=
  if !contextAllows s.port.ctx i then some .wrongContext
  else phaseAllows i s.port (s.dev s.port.ops.dev)

/-- The fault that has ended the agent called on, if any: a device's handler agent (R323). -/
def endedAgent (s : State) : Option Fault :=
  match s.port.ctx with
  | .thread => none
  | .interrupt => (s.dev s.port.ops.dev).handlerFault

/-- Run a request's list of steps for its slice. -/
def runRequest (i : Instr) (prog : List Micro) (s : State) : State :=
  settle none (startFrame i prog s.port) (runFrame s.port.slice (startFrame i prog s.port) s)

/-- What the meaning of every operation is: the acceptance checks, then its steps. -/
def issue (i : Instr) (prog : List Micro) (s : State) : Host.Outcome State Fault Refusal :=
  match refusal i s with
  | some r => .refused r
  | none =>
    match endedAgent s with
    | some k => .fault k
    | none => .next (runRequest i prog s)

end Sys2Proof.Machine
end

