-- ==== Sys2Proof/Machine/Primitives.lean ====
section
/-!
DEFINITION. The derived primitives (spec/41_primitives.md R180 to R189): the three busy-waits, device selection, the
interrupt-suppression flag, the polled buffer transfer in both directions, stopping DMA.
-/
namespace Sys2Proof.Machine

/-- WAIT_IDLE's loop (R180). -/
def waitIdle : Micro := .waitStatus Config.busyBit false

/-- WAIT_DRQ's loop (R181). -/
def waitDrq : Micro := .waitStatus Config.drqBit true

/-- WAIT_READY's loop (R182). -/
def waitReady : Micro := .waitStatus Config.drdyBit true

/-- PROGRAM_NIEN's two steps (R184). -/
def programNien (suppress : Bool) : List Micro := [.setNien suppress, .outNien]

/-- STOP_DMA's step (R187). -/
def stopDma : List Micro := writeRegister Config.buscmdOffset Config.stopByte

/-- `WAIT_IDLE` (R180). -/
def execWaitIdle (s : State) : Host.Outcome State Fault Refusal := issue .waitIdle [waitIdle, .ret .done] s

/-- `WAIT_DRQ` (R181). -/
def execWaitDrq (s : State) : Host.Outcome State Fault Refusal := issue .waitDrq [waitDrq, .ret .done] s

/-- `WAIT_READY` (R182). -/
def execWaitReady (s : State) : Host.Outcome State Fault Refusal := issue .waitReady [waitReady, .ret .done] s

/-- `SELECT_DEVICE` (R183). -/
def execSelectDevice (s : State) : Host.Outcome State Fault Refusal := issue .selectDevice [.outSelect, .ret .done] s

/-- `PROGRAM_NIEN suppress` (R184). -/
def execProgramNien (suppress : Bool) (s : State) : Host.Outcome State Fault Refusal :=
  issue (.programNien suppress) (programNien suppress ++ [.ret .done]) s

/-- `PIO_BUFFER isWrite=0` (R185). -/
def execPioBufferRead (s : State) : Host.Outcome State Fault Refusal :=
  issue .pioBufferRead [.pio .idle false .caller 0 s.port.ops.words, .ret .done] s

/-- `PIO_BUFFER isWrite=1` (R186). -/
def execPioBufferWrite (s : State) : Host.Outcome State Fault Refusal :=
  issue .pioBufferWrite [.pio .idle true .caller 0 s.port.ops.words, .ret .done] s

/-- `STOP_DMA` (R187). -/
def execStopDma (s : State) : Host.Outcome State Fault Refusal := issue .stopDma (stopDma ++ [.ret .done]) s

end Sys2Proof.Machine
end

