-- ==== Sys2Proof/Machine/BringUp.lean ====
section
/-!
DEFINITION. Identification and bring-up (spec/44_bringup.md R250 to R265), the reset of one logical device.
-/
namespace Sys2Proof.Machine

/-- The steps S1 to S13 of INIT_DEVICE (R251 to R263). -/
def bringUpSteps (secondary slave : Bool) : List Micro :=
  [.resolve secondary slave] ++
  programNien true ++
  [.outSelect] ++
  writeRegister Config.statusOffset Config.identifyByte ++
  readRegister Config.statusOffset ++ [.absentCheck] ++
  [.identPoll] ++
  [.pio .idle false .identify 0 Config.sectorWords] ++
  [.check48, .recordSectors, .openTransfer, .registerIrq secondary] ++
  stopDma ++ [.initSucceed]

/-- `INIT_DEVICE isSecondaryChannel isSlave` (R250). -/
def execInitDevice (secondary slave : Bool) (s : State) : Host.Outcome State Fault Refusal :=
  issue (.initDevice secondary slave) (bringUpSteps secondary slave) s

end Sys2Proof.Machine
end

