-- ==== Sys2Proof/Machine/Commands.lean ====
section
/-!
DEFINITION. The five commands (spec/30_encoding.md R98; spec/44_bringup.md R254, spec/45_orchestrator.md R284): each is
the write of its byte to COMMAND (R103).
-/
namespace Sys2Proof.Machine

/-- `CMD c`: `WR COMMAND, c` (R103, R145). -/
def commandSteps (c : Byte) : List Micro := writeRegister Config.statusOffset c ++ [.ret .done]

/-- `IDENTIFY`, 0xEC (R254). -/
def execIdentify (s : State) : Host.Outcome State Fault Refusal :=
  issue .identify (commandSteps Config.identifyByte) s

/-- `READ_SECTORS_EXT`, 0x24 (R284). -/
def execReadSectorsExt (s : State) : Host.Outcome State Fault Refusal :=
  issue .readSectorsExt (commandSteps (cmdByte false false)) s

/-- `WRITE_SECTORS_EXT`, 0x34 (R284). -/
def execWriteSectorsExt (s : State) : Host.Outcome State Fault Refusal :=
  issue .writeSectorsExt (commandSteps (cmdByte true false)) s

/-- `READ_DMA_EXT`, 0x25 (R284). -/
def execReadDmaExt (s : State) : Host.Outcome State Fault Refusal :=
  issue .readDmaExt (commandSteps (cmdByte false true)) s

/-- `WRITE_DMA_EXT`, 0x35 (R284). -/
def execWriteDmaExt (s : State) : Host.Outcome State Fault Refusal :=
  issue .writeDmaExt (commandSteps (cmdByte true true)) s

end Sys2Proof.Machine
end

