-- ==== Sys2Proof/Machine/Handler.lean ====
section
/-!
DEFINITION. The interrupt completion handler (spec/46_interrupt_handler.md R300 to R313).
-/
namespace Sys2Proof.Machine

/-- The steps S1 to S9 of IRQ_HANDLER (R302 to R311). -/
def handlerSteps : List Micro :=
  [.outSelect] ++ readRegister Config.busstatusOffset ++ [.irqTest] ++ readRegister Config.statusOffset ++ [.statusTest] ++ stopDma ++
  [.complete, .signal] ++ writeRegister Config.busstatusOffset Config.ackByte ++ [.ret .handled]

/-- `IRQ_HANDLER`, one activation for the device of the delivery (R300). -/
def execIrqHandler (s : State) : Host.Outcome State Fault Refusal := issue .irqHandler handlerSteps s

end Sys2Proof.Machine
end

