-- ==== Sys2Proof/Machine/TransferState.lean ====
section
/-!
DEFINITION. The Descriptor-Table Builder as an operation (spec/42_descriptor_builder.md R200) and the Transfer State
Machine (spec/43_transfer_state_machine.md R230 to R236).
-/
namespace Sys2Proof.Machine

/-- TSM_CONSUME's four steps (R233); `resetOnCleanup` is TSM_RESET_ON_CLEANUP. -/
def tsmConsume (resetOnCleanup : Bool) : List Micro :=
  [.consumeCheck, .consumeFree, .consumeClear, .consumeReset resetOnCleanup]

/-- `BUILD_PRDT` (R200): it touches no device record and makes no port access. -/
def execBuildPrdt (s : State) : Host.Outcome State Fault Refusal :=
  issue .buildPrdt (buildSteps s.port.ops.totalBytes ++ [.ret .table]) s

/-- `TSM_SUBMIT` (R231). -/
def execTsmSubmit (s : State) : Host.Outcome State Fault Refusal := issue .tsmSubmit [.submit, .ret .done] s

/-- `TSM_COMPLETE` (R232). -/
def execTsmComplete (s : State) : Host.Outcome State Fault Refusal := issue .tsmComplete [.complete, .ret .done] s

/-- `TSM_CONSUME` (R233). -/
def execTsmConsume (s : State) : Host.Outcome State Fault Refusal :=
  issue .tsmConsume (tsmConsume Config.tsmResetOnCleanup ++ [.ret .done]) s

end Sys2Proof.Machine
end

