-- ==== Sys2Proof/Machine/Orchestrator.lean ====
section
/-!
DEFINITION. The read/write orchestrator (spec/45_orchestrator.md R270 to R291).
-/
namespace Sys2Proof.Machine

/-- Steps S7 to S11, asynchronous only: translate, build, own, program, submit (R279 to R283). -/
def dmaSetup (totalBytes : Nat) : List Micro :=
  [.translate totalBytes] ++ buildSteps totalBytes ++ [.setPrdt, .outPrdt, .submit]

/-- Steps S13 to S15, asynchronous only: start the engine, wait for the event, clean up (R285 to R287). -/
def dmaFinish (isWrite : Bool) : List Micro :=
  writeRegister Config.buscmdOffset (startByte isWrite) ++ [.eventWait] ++ tsmConsume Config.tsmResetOnCleanup

/-- Steps S1 to S6: select, program the flag, program the parameters (R272 to R278). -/
def transferPrologue (async : Bool) (o : Operands) : List Micro :=
  [waitIdle, .outSelect, waitIdle, waitReady] ++ programNien (!async) ++
  programParameters o.startSector o.sectorCount

/-- The steps S0 to S16 of TRANSFER_SECTORS (R271 to R289, R291). -/
def transferSteps (async isWrite : Bool) (o : Operands) : List Micro :=
  [.paramCheck] ++ transferPrologue async o ++
  (if async then dmaSetup (o.sectorCount.toNat * Config.sectorBytes) else []) ++
  writeRegister Config.statusOffset (cmdByte isWrite async) ++
  (if async then dmaFinish isWrite
    else [.pio .idle isWrite .caller 0 (o.sectorCount.toNat * Config.sectorWords)]) ++
  [.reportCount]

/-- `TRANSFER_SECTORS async isWrite` (R270). -/
def execTransferSectors (async isWrite : Bool) (s : State) : Host.Outcome State Fault Refusal :=
  issue (.transferSectors async isWrite) (transferSteps async isWrite s.port.ops) s

end Sys2Proof.Machine
end

