-- ==== Sys2Proof/Machine/RegisterAccess.lean ====
section
/-!
DEFINITION. The register accesses (spec/40_register_access.md): 44 byte accesses through the multiplexer (R130 to
R173), the two word accesses of DATA (R128), the doubleword write of PRDTADDR (R129), and a byte access with an
offset outside every range (R126).
-/
namespace Sys2Proof.Machine

/-- `ReadRegister(dev, off)` returning its byte (R121). -/
def readByteAt (off : Nat) : List Micro := readRegister off ++ [.ret .byte]

/-- `WriteRegister(dev, off, b)` with the low byte of the data operand (R120). -/
def writeByteAt (off : Nat) (s : State) : List Micro :=
  writeRegister off (s.port.ops.data.setWidth 8) ++ [.ret .done]

/-- `RD_DATA` (R130). -/
def execRdData (s : State) : Host.Outcome State Fault Refusal := issue .rdData (readByteAt Config.dataOffset) s

/-- `WR_DATA` (R131). -/
def execWrData (s : State) : Host.Outcome State Fault Refusal := issue .wrData (writeByteAt Config.dataOffset s) s

/-- `RD_ERROR` (R132). -/
def execRdError (s : State) : Host.Outcome State Fault Refusal := issue .rdError (readByteAt Config.errorOffset) s

/-- `WR_FEATURES` (R133). -/
def execWrFeatures (s : State) : Host.Outcome State Fault Refusal :=
  issue .wrFeatures (writeByteAt Config.errorOffset s) s

/-- `RD_SECCOUNT0` (R134). -/
def execRdSeccount0 (s : State) : Host.Outcome State Fault Refusal :=
  issue .rdSeccount0 (readByteAt Config.seccount0Offset) s

/-- `WR_SECCOUNT0` (R135). -/
def execWrSeccount0 (s : State) : Host.Outcome State Fault Refusal :=
  issue .wrSeccount0 (writeByteAt Config.seccount0Offset s) s

/-- `RD_LBA0` (R136). -/
def execRdLba0 (s : State) : Host.Outcome State Fault Refusal := issue .rdLba0 (readByteAt Config.lba0Offset) s

/-- `WR_LBA0` (R137). -/
def execWrLba0 (s : State) : Host.Outcome State Fault Refusal := issue .wrLba0 (writeByteAt Config.lba0Offset s) s

/-- `RD_LBA1` (R138). -/
def execRdLba1 (s : State) : Host.Outcome State Fault Refusal := issue .rdLba1 (readByteAt Config.lba1Offset) s

/-- `WR_LBA1` (R139). -/
def execWrLba1 (s : State) : Host.Outcome State Fault Refusal := issue .wrLba1 (writeByteAt Config.lba1Offset s) s

/-- `RD_LBA2` (R140). -/
def execRdLba2 (s : State) : Host.Outcome State Fault Refusal := issue .rdLba2 (readByteAt Config.lba2Offset) s

/-- `WR_LBA2` (R141). -/
def execWrLba2 (s : State) : Host.Outcome State Fault Refusal := issue .wrLba2 (writeByteAt Config.lba2Offset s) s

/-- `RD_DEVICE` (R142). -/
def execRdDevice (s : State) : Host.Outcome State Fault Refusal := issue .rdDevice (readByteAt Config.deviceOffset) s

/-- `WR_DEVICE` (R143). -/
def execWrDevice (s : State) : Host.Outcome State Fault Refusal :=
  issue .wrDevice (writeByteAt Config.deviceOffset s) s

/-- `RD_STATUS` (R144). -/
def execRdStatus (s : State) : Host.Outcome State Fault Refusal := issue .rdStatus (readByteAt Config.statusOffset) s

/-- `WR_COMMAND` (R145). -/
def execWrCommand (s : State) : Host.Outcome State Fault Refusal :=
  issue .wrCommand (writeByteAt Config.statusOffset s) s

/-- `RD_SECCOUNT1` (R146). -/
def execRdSeccount1 (s : State) : Host.Outcome State Fault Refusal :=
  issue .rdSeccount1 (readByteAt Config.seccount1Offset) s

/-- `WR_SECCOUNT1` (R147). -/
def execWrSeccount1 (s : State) : Host.Outcome State Fault Refusal :=
  issue .wrSeccount1 (writeByteAt Config.seccount1Offset s) s

/-- `RD_LBA3` (R148). -/
def execRdLba3 (s : State) : Host.Outcome State Fault Refusal := issue .rdLba3 (readByteAt Config.lba3Offset) s

/-- `WR_LBA3` (R149). -/
def execWrLba3 (s : State) : Host.Outcome State Fault Refusal := issue .wrLba3 (writeByteAt Config.lba3Offset s) s

/-- `RD_LBA4` (R150). -/
def execRdLba4 (s : State) : Host.Outcome State Fault Refusal := issue .rdLba4 (readByteAt Config.lba4Offset) s

/-- `WR_LBA4` (R151). -/
def execWrLba4 (s : State) : Host.Outcome State Fault Refusal := issue .wrLba4 (writeByteAt Config.lba4Offset s) s

/-- `RD_LBA5` (R152). -/
def execRdLba5 (s : State) : Host.Outcome State Fault Refusal := issue .rdLba5 (readByteAt Config.lba5Offset) s

/-- `WR_LBA5` (R153). -/
def execWrLba5 (s : State) : Host.Outcome State Fault Refusal := issue .wrLba5 (writeByteAt Config.lba5Offset s) s

/-- `RD_ALTSTATUS` (R154). -/
def execRdAltstatus (s : State) : Host.Outcome State Fault Refusal :=
  issue .rdAltstatus (readByteAt Config.devctlOffset) s

/-- `WR_DEVCTL` (R155). -/
def execWrDevctl (s : State) : Host.Outcome State Fault Refusal :=
  issue .wrDevctl (writeByteAt Config.devctlOffset s) s

/-- `RD_CTL1` (R156). -/
def execRdCtl1 (s : State) : Host.Outcome State Fault Refusal := issue .rdCtl1 (readByteAt Config.ctl1Offset) s

/-- `WR_CTL1` (R157). -/
def execWrCtl1 (s : State) : Host.Outcome State Fault Refusal := issue .wrCtl1 (writeByteAt Config.ctl1Offset s) s

/-- `RD_BUSCMD` (R158). -/
def execRdBuscmd (s : State) : Host.Outcome State Fault Refusal := issue .rdBuscmd (readByteAt Config.buscmdOffset) s

/-- `WR_BUSCMD` (R159). -/
def execWrBuscmd (s : State) : Host.Outcome State Fault Refusal :=
  issue .wrBuscmd (writeByteAt Config.buscmdOffset s) s

/-- `RD_BM1` (R160). -/
def execRdBm1 (s : State) : Host.Outcome State Fault Refusal := issue .rdBm1 (readByteAt Config.bm1Offset) s

/-- `WR_BM1` (R161). -/
def execWrBm1 (s : State) : Host.Outcome State Fault Refusal := issue .wrBm1 (writeByteAt Config.bm1Offset s) s

/-- `RD_BUSSTATUS` (R162). -/
def execRdBusstatus (s : State) : Host.Outcome State Fault Refusal :=
  issue .rdBusstatus (readByteAt Config.busstatusOffset) s

/-- `WR_BUSSTATUS` (R163). -/
def execWrBusstatus (s : State) : Host.Outcome State Fault Refusal :=
  issue .wrBusstatus (writeByteAt Config.busstatusOffset s) s

/-- `RD_BM3` (R164). -/
def execRdBm3 (s : State) : Host.Outcome State Fault Refusal := issue .rdBm3 (readByteAt Config.bm3Offset) s

/-- `WR_BM3` (R165). -/
def execWrBm3 (s : State) : Host.Outcome State Fault Refusal := issue .wrBm3 (writeByteAt Config.bm3Offset s) s

/-- `RD_PRDTADDR0` (R166). -/
def execRdPrdtaddr0 (s : State) : Host.Outcome State Fault Refusal :=
  issue .rdPrdtaddr0 (readByteAt Config.prdtaddr0Offset) s

/-- `WR_PRDTADDR0` (R167). -/
def execWrPrdtaddr0 (s : State) : Host.Outcome State Fault Refusal :=
  issue .wrPrdtaddr0 (writeByteAt Config.prdtaddr0Offset s) s

/-- `RD_PRDTADDR1` (R168). -/
def execRdPrdtaddr1 (s : State) : Host.Outcome State Fault Refusal :=
  issue .rdPrdtaddr1 (readByteAt Config.prdtaddr1Offset) s

/-- `WR_PRDTADDR1` (R169). -/
def execWrPrdtaddr1 (s : State) : Host.Outcome State Fault Refusal :=
  issue .wrPrdtaddr1 (writeByteAt Config.prdtaddr1Offset s) s

/-- `RD_PRDTADDR2` (R170). -/
def execRdPrdtaddr2 (s : State) : Host.Outcome State Fault Refusal :=
  issue .rdPrdtaddr2 (readByteAt Config.prdtaddr2Offset) s

/-- `WR_PRDTADDR2` (R171). -/
def execWrPrdtaddr2 (s : State) : Host.Outcome State Fault Refusal :=
  issue .wrPrdtaddr2 (writeByteAt Config.prdtaddr2Offset s) s

/-- `RD_PRDTADDR3` (R172). -/
def execRdPrdtaddr3 (s : State) : Host.Outcome State Fault Refusal :=
  issue .rdPrdtaddr3 (readByteAt Config.prdtaddr3Offset) s

/-- `WR_PRDTADDR3` (R173). -/
def execWrPrdtaddr3 (s : State) : Host.Outcome State Fault Refusal :=
  issue .wrPrdtaddr3 (writeByteAt Config.prdtaddr3Offset s) s

/-- `RD16_DATA`: one 16-bit read of DATA (R128). -/
def execRd16Data (s : State) : Host.Outcome State Fault Refusal := issue .rd16Data [.inp .w16 dataPort, .ret .word] s

/-- `WR16_DATA`: one 16-bit write of DATA (R128). -/
def execWr16Data (s : State) : Host.Outcome State Fault Refusal :=
  issue .wr16Data [.out .w16 dataPort s.port.ops.data, .ret .done] s

/-- `WR32_PRDTADDR`: one 32-bit write at `dr.bm + 4` (R129). -/
def execWr32Prdtaddr (s : State) : Host.Outcome State Fault Refusal :=
  issue .wr32Prdtaddr [.out .w32 prdtPort s.port.ops.data, .ret .done] s

/-- A byte access whose offset lies outside every range: no port event, the fault UnreachableOffset (R126). It is
no row of the table; it is accepted like a thread's access to the device. -/
def execOutOfRange (off : Byte) (s : State) : Host.Outcome State Fault Refusal :=
  match s.port.ctx with
  | .interrupt => .refused .wrongContext
  | .thread =>
    if (s.dev s.port.ops.dev).phase = .up then
      .next (raise s.port.ops.dev .thread (.unreachableOffset off) s)
    else .refused .notBroughtUp

end Sys2Proof.Machine
end

