-- ==== Sys2Proof/Machine/Dispatch.lean ====
section
/-!
DEFINITION. exec: one arm per operation of the table (spec/30_encoding.md R100).
-/
namespace Sys2Proof.Machine

def exec (i : Instr) (s : State) : Host.Outcome State Fault Refusal :=
  match i with
  | .rdData => Sys2Proof.Machine.execRdData s
  | .wrData => Sys2Proof.Machine.execWrData s
  | .rdError => Sys2Proof.Machine.execRdError s
  | .wrFeatures => Sys2Proof.Machine.execWrFeatures s
  | .rdSeccount0 => Sys2Proof.Machine.execRdSeccount0 s
  | .wrSeccount0 => Sys2Proof.Machine.execWrSeccount0 s
  | .rdLba0 => Sys2Proof.Machine.execRdLba0 s
  | .wrLba0 => Sys2Proof.Machine.execWrLba0 s
  | .rdLba1 => Sys2Proof.Machine.execRdLba1 s
  | .wrLba1 => Sys2Proof.Machine.execWrLba1 s
  | .rdLba2 => Sys2Proof.Machine.execRdLba2 s
  | .wrLba2 => Sys2Proof.Machine.execWrLba2 s
  | .rdDevice => Sys2Proof.Machine.execRdDevice s
  | .wrDevice => Sys2Proof.Machine.execWrDevice s
  | .rdStatus => Sys2Proof.Machine.execRdStatus s
  | .wrCommand => Sys2Proof.Machine.execWrCommand s
  | .rdSeccount1 => Sys2Proof.Machine.execRdSeccount1 s
  | .wrSeccount1 => Sys2Proof.Machine.execWrSeccount1 s
  | .rdLba3 => Sys2Proof.Machine.execRdLba3 s
  | .wrLba3 => Sys2Proof.Machine.execWrLba3 s
  | .rdLba4 => Sys2Proof.Machine.execRdLba4 s
  | .wrLba4 => Sys2Proof.Machine.execWrLba4 s
  | .rdLba5 => Sys2Proof.Machine.execRdLba5 s
  | .wrLba5 => Sys2Proof.Machine.execWrLba5 s
  | .rdAltstatus => Sys2Proof.Machine.execRdAltstatus s
  | .wrDevctl => Sys2Proof.Machine.execWrDevctl s
  | .rdCtl1 => Sys2Proof.Machine.execRdCtl1 s
  | .wrCtl1 => Sys2Proof.Machine.execWrCtl1 s
  | .rdBuscmd => Sys2Proof.Machine.execRdBuscmd s
  | .wrBuscmd => Sys2Proof.Machine.execWrBuscmd s
  | .rdBm1 => Sys2Proof.Machine.execRdBm1 s
  | .wrBm1 => Sys2Proof.Machine.execWrBm1 s
  | .rdBusstatus => Sys2Proof.Machine.execRdBusstatus s
  | .wrBusstatus => Sys2Proof.Machine.execWrBusstatus s
  | .rdBm3 => Sys2Proof.Machine.execRdBm3 s
  | .wrBm3 => Sys2Proof.Machine.execWrBm3 s
  | .rdPrdtaddr0 => Sys2Proof.Machine.execRdPrdtaddr0 s
  | .wrPrdtaddr0 => Sys2Proof.Machine.execWrPrdtaddr0 s
  | .rdPrdtaddr1 => Sys2Proof.Machine.execRdPrdtaddr1 s
  | .wrPrdtaddr1 => Sys2Proof.Machine.execWrPrdtaddr1 s
  | .rdPrdtaddr2 => Sys2Proof.Machine.execRdPrdtaddr2 s
  | .wrPrdtaddr2 => Sys2Proof.Machine.execWrPrdtaddr2 s
  | .rdPrdtaddr3 => Sys2Proof.Machine.execRdPrdtaddr3 s
  | .wrPrdtaddr3 => Sys2Proof.Machine.execWrPrdtaddr3 s
  | .rd16Data => Sys2Proof.Machine.execRd16Data s
  | .wr16Data => Sys2Proof.Machine.execWr16Data s
  | .wr32Prdtaddr => Sys2Proof.Machine.execWr32Prdtaddr s
  | .identify => Sys2Proof.Machine.execIdentify s
  | .readSectorsExt => Sys2Proof.Machine.execReadSectorsExt s
  | .writeSectorsExt => Sys2Proof.Machine.execWriteSectorsExt s
  | .readDmaExt => Sys2Proof.Machine.execReadDmaExt s
  | .writeDmaExt => Sys2Proof.Machine.execWriteDmaExt s
  | .initDevice secondary slave => Sys2Proof.Machine.execInitDevice secondary slave s
  | .transferSectors async isWrite => Sys2Proof.Machine.execTransferSectors async isWrite s
  | .waitIdle => Sys2Proof.Machine.execWaitIdle s
  | .waitDrq => Sys2Proof.Machine.execWaitDrq s
  | .waitReady => Sys2Proof.Machine.execWaitReady s
  | .selectDevice => Sys2Proof.Machine.execSelectDevice s
  | .programNien suppress => Sys2Proof.Machine.execProgramNien suppress s
  | .pioBufferRead => Sys2Proof.Machine.execPioBufferRead s
  | .pioBufferWrite => Sys2Proof.Machine.execPioBufferWrite s
  | .buildPrdt => Sys2Proof.Machine.execBuildPrdt s
  | .tsmSubmit => Sys2Proof.Machine.execTsmSubmit s
  | .tsmComplete => Sys2Proof.Machine.execTsmComplete s
  | .tsmConsume => Sys2Proof.Machine.execTsmConsume s
  | .irqHandler => Sys2Proof.Machine.execIrqHandler s
  | .stopDma => Sys2Proof.Machine.execStopDma s

end Sys2Proof.Machine
end

