-- ==== Sys2Proof/Machine/Environment.lean ====
section
/-!
DEFINITION. The environment's own moves (spec/10_state.md R41, R43, R44, R47, R49; spec/20_memory.md R79, R83;
spec/60_exceptions.md R326): the completion signal, the device's changes of its FIFO bytes, the DMA engine's accesses, the
caller's stores and the backing of its buffers.
-/
namespace Sys2Proof.Machine

/-! ## The device and its engine -/

/-- The position of device `h` in its command block. A turn of the environment finds the registers and the engine of a device
through the addresses its records hold now: what a command or an engine left under way at addresses that a later bring-up,
or a failed one, has replaced does is not modelled further (DESIGN CHOICE, unsafe, log entry 41). -/
def State.ownPosition (s : State) (h : Handle) : Taskfile :=
  (s.cmdBlock (s.dev h).dr.base).position (s.dev h).dr.slave

/-- Replace what the position of device `h` holds. -/
def State.setOwnPosition (s : State) (h : Handle) (t : Taskfile) : State :=
  s.setCmdBlock (s.dev h).dr.base ((s.cmdBlock (s.dev h).dr.base).setPosition (s.dev h).dr.slave t)

/-- Is a command one of the two that transfer by DMA (R98)? -/
def isDmaCommand (c : Byte) : Bool := c == Config.readDmaExtByte || c == Config.writeDmaExtByte

/-- Is a command one of the three that transfer through DATA (R46, R98)? -/
def isPioCommand (c : Byte) : Bool :=
  c == Config.identifyByte || c == Config.readSectorsExtByte || c == Config.writeSectorsExtByte

/-- Has the engine processed the entry whose last-entry flag is set (R44)? -/
def DmaProgress.done (p : DmaProgress) : Bool := p.last && p.left == 0

/-- Has the transfer of a command ended, as far as the engine goes: a DMA command's when the engine is done (R44)? -/
def transferEnded (command : Byte) (dma : Option DmaProgress) : Bool :=
  !isDmaCommand command || (dma.map DmaProgress.done).getD false

/-- Is device `h` the one its channel has selected (R42)? -/
def State.selected (s : State) (h : Handle) : Bool := (s.cmdBlock (s.dev h).dr.base).selectsSlave == (s.dev h).dr.slave

/-- May device `h` signal completion now: it is the selected device, and it runs a command, written with NIEN = 0 (R326),
whose transfer has ended (R44), and its NIEN bit is clear (R41)? That a command ends no other way is log entry
13, and that the device is looked for at the addresses it has now is log entry 41. -/
def maySignal (h : Handle) (s : State) : Bool :=
  let t := s.ownPosition h
  s.selected h && t.running && t.mayInterrupt && !s.masked (s.dev h).dr &&
    transferEnded t.command (s.busMaster (s.dev h).dr.bm).dma

/-- Device `h` signals completion: the IRQ bit is set, the command is over (R43, R326). -/
def deviceSignal (h : Handle) (s : State) : Host.Outcome State Fault Refusal :=
  let bm := (s.dev h).dr.bm
  if maySignal h s then
    .next ((s.setOwnPosition h { s.ownPosition h with running := false }).setBusMaster bm
      { s.busMaster bm with irq := true })
  else .refused .notEnabled

/-- The device at position `slave` of the command block at `base` changes a FIFO register of its own (R47). -/
def deviceFifo (base : IoAddr) (slave : Bool) (delta : Nat) (v : Fifo) (s : State) : State :=
  let c := s.cmdBlock base
  s.setCmdBlock base (c.setPosition slave ((c.position slave).setFifo delta v))

/-- A PRD entry as the DMA engine fetches it: address, count field, flags (R95). -/
structure FetchedEntry where
  addr : Nat
  count : Nat
  flags : Nat
  deriving DecidableEq, Repr

/-- A byte as the DMA engine fetches it. The engine addresses 32 bits: a fetch above, and a byte of memory that holds
no stated value, give a free value (U8, R48). -/
def engineByte (m : Memory) (a : Nat) : Byte :=
  if a < Config.prdAddrLimit then (m.read a).getD (Config.memoryByte a) else Config.memoryByte a

/-- The `n` bytes from `a` on as the engine fetches them, little-endian (R64). -/
def engineRead (m : Memory) (a : Nat) : Nat → Nat
  | 0 => 0
  | n + 1 => (engineByte m a).toNat + 256 * engineRead m (a + 1) n

/-- Entry `k` of the table at `t`, fetched from memory now, its 8 bytes together (R82, R95; that no other agent moves between
them is a DESIGN CHOICE, unsafe, log entry 21). -/
def prdFetch (m : Memory) (t k : Nat) : FetchedEntry :=
  let a := t + Config.prdEntryBytes * k
  { addr := engineRead m a 4, count := engineRead m (a + Config.prdCountOffset) 2
    flags := engineRead m (a + Config.prdFlagsOffset) 2 }

/-- The bytes an entry moves: a count field of 0 means 65536 (R96). -/
def FetchedEntry.bytes (e : FetchedEntry) : Nat := if e.count = 0 then Config.prdZeroCountBytes else e.count

/-- Is the last-entry flag of an entry set: bit 15 of its flags (R95)? The engine looks at that bit alone: what it does
with a nonzero value in bits 14:0 is not stated (R101; DESIGN CHOICE, log entry 21). -/
def FetchedEntry.isLast (e : FetchedEntry) : Bool := decide (e.flags / 2 ^ Config.lastEntryBit % 2 = 1)

/-- The progress of the engine that moves the data of device `h`: START is set, and the device runs a command that does
not go through DATA (R44). The engine is the one at the `dr.bm` the device has now (DESIGN CHOICE, unsafe, log entry 41). -/
def engineOf (h : Handle) (s : State) : Option DmaProgress :=
  let t := s.ownPosition h
  let b := s.busMaster (s.dev h).dr.bm
  if t.running && !isPioCommand t.command && flag b.buscmd Config.startBit then b.dma else none

/-- The engine of device `h` has come to `p`, with the access `es`. -/
def engineMoved (h : Handle) (p : DmaProgress) (es : List DmaEvent) (s : State) : State :=
  let bm := (s.dev h).dr.bm
  { s.setBusMaster bm { s.busMaster bm with dma := some p } with dmaTrace := s.dmaTrace ++ es }

/-- The engine fetches the next entry: the one before it is done and was not the last (R44). The fetch is one indivisible step
(DESIGN CHOICE, unsafe, log entry 21). -/
def dmaFetch (h : Handle) (s : State) : Host.Outcome State Fault Refusal :=
  let t := (s.busMaster (s.dev h).dr.bm).prdtaddr.toNat
  match engineOf h s with
  | some p =>
    if p.left = 0 ∧ p.last = false then
      let e := prdFetch s.mem t p.next
      .next (engineMoved h { next := p.next + 1, addr := e.addr, left := e.bytes, last := e.isLast }
        [.fetch (t + Config.prdEntryBytes * p.next)] s)
    else .refused .notEnabled
  | none => .refused .notEnabled

/-- The progress of an engine that has moved `n` bytes more of its entry. -/
def DmaProgress.moved (p : DmaProgress) (n : Nat) : DmaProgress := { p with addr := p.addr + n, left := p.left - n }

/-- The bytes stored from `a` on. -/
def Memory.writeBytes (m : Memory) (a : Nat) : List Byte → Memory
  | [] => m
  | b :: bs => Memory.writeBytes (m.write a b) (a + 1) bs

/-- The events of bytes stored from `a` on. -/
def storeEvents (a : Nat) : List Byte → List DmaEvent
  | [] => []
  | b :: bs => .store a b :: storeEvents (a + 1) bs

/-- The events of `n` bytes loaded from `a` on. -/
def loadEvents (m : Memory) (a : Nat) : Nat → List DmaEvent
  | 0 => []
  | n + 1 => .load a (engineByte m a) :: loadEvents m (a + 1) n

/-- Does the engine move data into memory: the READ bit of BUSCMD (R33)? -/
def State.towardsMemory (s : State) (h : Handle) : Bool :=
  flag (s.busMaster (s.dev h).dr.bm).buscmd Config.dmaReadBit

/-- The engine stores the device's next bytes, at most those its entry has left (R33, R44). -/
def dmaStore (h : Handle) (bs : List Byte) (s : State) : Host.Outcome State Fault Refusal :=
  match engineOf h s with
  | some p =>
    if s.towardsMemory h ∧ bs ≠ [] ∧ bs.length ≤ p.left then
      .next { engineMoved h (p.moved bs.length) (storeEvents p.addr bs) s with mem := s.mem.writeBytes p.addr bs }
    else .refused .notEnabled
  | none => .refused .notEnabled

/-- The engine loads the next `n` bytes for the device, at most those its entry has left (R33, R44). -/
def dmaLoad (h : Handle) (n : Nat) (s : State) : Host.Outcome State Fault Refusal :=
  match engineOf h s with
  | some p =>
    if s.towardsMemory h = false ∧ n ≠ 0 ∧ n ≤ p.left then
      .next (engineMoved h (p.moved n) (loadEvents s.mem p.addr n) s)
    else .refused .notEnabled
  | none => .refused .notEnabled

/-! ## The caller -/

/-- A physical run backs the caller's buffer from virtual address `a` on (R49). What was stored at a byte while no run
backed it is not carried over: from now on the byte reads from the run (DESIGN CHOICE, unsafe, log entry 38). -/
def backBuffer (a : Nat) (r : Pair) (s : State) : State := { s with backing := Table.insert s.backing a r }

end Sys2Proof.Machine
end

