-- ==== Sys2Proof/Machine/Fetch.lean ====
section
/-!
DEFINITION. What a turn of the environment makes the machine do: taking a request from the request port (decoding its
word and running the operation), giving a suspended agent its slice, and the environment's own moves
(spec/30_encoding.md R99, spec/60_exceptions.md R329 to R331).
-/
namespace Sys2Proof.Machine

/-- The refusal of a word that selects no operation (R94, R101). -/
def illegalRefusal : IllegalWord → Refusal
  | .badLength => .badLength
  | .accUpperBits => .accUpperBits
  | .accReservedSize => .accReservedSize
  | .accWordNotData => .accWordNotData
  | .accDwordNotPrdtaddr => .accDwordNotPrdtaddr
  | .unknownCommand => .unknownCommand
  | .reservedByte => .reservedByte

/-- A request at the port: it is latched, its word decoded, its operation run. -/
def takeCall (r : Request) (s : State) : Host.Outcome State Fault Refusal :=
  match decode r.word with
  | .instr i => exec i { s with port := r }
  | .outOfRange _ off => execOutOfRange off { s with port := r }
  | .illegal why => .refused (illegalRefusal why)

/-- A suspended thread gets the processor for `slice` steps (R330); a thread that is not there has no step. -/
def resumeThread (tid slice : Nat) (s : State) : Host.Outcome State Fault Refusal :=
  match Table.lookup s.threads tid with
  | none => .refused .notEnabled
  | some f =>
    .next (settle (some tid) f (runFrame slice f { s with threads := Table.erase s.threads tid }))

/-- The unfinished interrupt activation goes on (R331). -/
def resumeActivation (slice : Nat) (s : State) : Host.Outcome State Fault Refusal :=
  match s.activation with
  | none => .refused .notEnabled
  | some f => .next (settle none f (runFrame slice f { s with activation := none }))

/-- No thread moves and no activation starts while an activation is unfinished: the interrupt context is not
preempted by the block's other agents and does not nest (R331). -/
def unlessInterrupt (s : State) (o : Host.Outcome State Fault Refusal) : Host.Outcome State Fault Refusal :=
  match s.activation with
  | some _ => .refused .interruptRunning
  | none => o

/-- One turn. -/
def takeTurn (t : Turn) (s : State) : Host.Outcome State Fault Refusal :=
  match t with
  | .call r => unlessInterrupt s (takeCall r s)
  | .resume tid slice => unlessInterrupt s (resumeThread tid slice s)
  | .resumeHandler slice => resumeActivation slice s
  | .signal h => deviceSignal h s
  | .fifo base slave delta v => .next (deviceFifo base slave delta v s)
  | .dmaFetch h => dmaFetch h s
  | .dmaStore h bs => dmaStore h bs s
  | .dmaLoad h n => dmaLoad h n s
  | .bufStore a b => .next (s.storeCaller a b)
  | .back a r => .next (backBuffer a r s)

/-- The turn the request port is given for a bare word: a request of all-zero operands, from the context that may
call it, with a slice long enough for a short sequence. -/
def wordRequest (word : PortWord) : Request :=
  { word := word
    ops := Operands.zero
    ctx := match decode word with
      | .instr i => if threadMay i then .thread else .interrupt
      | _ => .thread
    slice := 64 }

/-- Make the request port accept a bare word as the next turn: the word becomes the next request, no activation is
unfinished, and, for every operation but INIT_DEVICE, its device counts as brought up, with its handler registered,
since the port accepts nothing else on a device that is not (R56, R262, R363 item 4; log entry 7). -/
def placeWord (word : PortWord) (s : State) : State :=
  let s1 := { s with inputs := .call (wordRequest word) :: s.inputs, activation := none }
  match decode word with
  | .instr (.initDevice _ _) => s1
  | _ => (s1.setRegistered .d0).setPhase .d0 .up

end Sys2Proof.Machine
end

