-- ==== Sys2Proof/Machine/Step.lean ====
section
/-!
DEFINITION. One step of the machine: the next turn of the environment is taken; with no turn to come the machine is
idle (spec/10_state.md R36, spec/70_reset_and_hazards.md R361: no sequence runs until one is requested).
-/
namespace Sys2Proof.Machine

/-- One step. -/
def step (s : State) : Host.Outcome State Fault Refusal :=
  match s.inputs with
  | [] => .next s
  | t :: rest => takeTurn t { s with inputs := rest }

/-- The state with a table row's word placed where the next step takes its request. -/
def State.withFetchWord (s : State) (nbits w : Nat) : State :=
  placeWord (tableWord (leBytes ((nbits + 7) / 8) w)) s

end Sys2Proof.Machine
end

