-- ==== Sys2Proof/Safety.lean ====
section
/-!
DEFINITION. What counts as a safe run (spec/60_exceptions.md R323: "no fault recorded" is a premise of every claim) and
the launch premises of the caller's side (spec/70_reset_and_hazards.md R364, R375, D38), in the terms statements use.
-/
namespace Sys2Proof.Safety

open Sys2Proof.Machine

/-! ## Faults -/

/-- No fault has been recorded (R323). -/
def faultFree (s : State) : Bool := s.faults.isEmpty

/-- A final state: no agent is under way and no fault is recorded; a faulted state is never one (R323). -/
def final (s : State) : Bool := faultFree s && s.threads.isEmpty && s.activation.isNone

/-! ## The launch premise of the caller's side -/

/-- The device and the channel an operation works on, from its request or from the start of its sequence: bring-up works on
the channel it is given (R250), BUILD_PRDT and a transfer request whose device is null on none (R200, R271), every
other operation on the channel of its device (R344). -/
def worksOn (s : State) (i : Instr) (o : Operands) : Option (Handle × Bool) :=
  match i with
  | .initDevice secondary _ => some (o.dev, secondary)
  | .buildPrdt => none
  | .transferSectors _ _ => if o.devValid then some (o.dev, (s.dev o.dev).dr.secondary) else none
  | _ => some (o.dev, (s.dev o.dev).dr.secondary)

/-- Two operations conflict if they work on one device or on one channel (R375). -/
def conflict (x y : Option (Handle × Bool)) : Prop :=
  ∃ a b, x = some a ∧ y = some b ∧ (a.1 = b.1 ∨ a.2 = b.2)

/-- What a suspended thread works on. -/
def threadWorksOn (s : State) (c : Nat × Frame) : Option (Handle × Bool) := worksOn s c.2.op c.2.ops

/-- The launch premise D38, "at most one operation in thread context per channel at a time" (R375): no two suspended
threads conflict, and the request that comes next conflicts with none of them. -/
def serialized (s : State) : Prop :=
  s.threads.Pairwise (fun x y => ¬conflict (threadWorksOn s x) (threadWorksOn s y)) ∧
    ∀ r rest i, s.inputs = .call r :: rest → r.ctx = .thread → decode r.word = .instr i →
      ∀ c ∈ s.threads, ¬conflict (worksOn s i r.ops) (threadWorksOn s c)

/-- A delivery is owed to a device: its handler is registered and its line is raised (R327, R329). When it comes is the
environment's choice (log entry 31). -/
def deliveryOwed (s : State) (h : Handle) : Bool := (s.dev h).registered && s.lineRaised (s.dev h).dr

/-- A device is at rest as a returned request leaves it (R364): no table, state Free, no event pending. -/
def atRest (s : State) (h : Handle) : Bool :=
  decide ((s.dev h).ct = { state := .free, event := false, prdt := none })

/-! ## Which steps stand in which sequence -/

/-- The steps the interrupt context may take: register accesses, tests, the compare-and-swap, the event signal, the log
(R301, R341); no wait, no allocation, no translation. -/
def interruptStep : Micro → Bool
  | .outSelect => true
  | .out _ _ _ => true
  | .inp _ _ => true
  | .irqTest => true
  | .statusTest => true
  | .logAndHalt => true
  | .complete => true
  | .signal => true
  | .halt _ => true
  | .ret _ => true
  | _ => false

/-- The steps a thread may take: everything but the compare-and-swap, the event signal and the handler's tests
(R341). -/
def threadStep : Micro → Bool
  | .irqTest => false
  | .statusTest => false
  | .logAndHalt => false
  | .complete => false
  | .signal => false
  | _ => true

/-- The steps of bring-up alone (R251 to R263). -/
def bringUpStep : Micro → Bool
  | .resolve _ _ => true
  | .absentCheck => true
  | .identPoll => true
  | .check48 => true
  | .recordSectors => true
  | .openTransfer => true
  | .registerIrq _ => true
  | .initSucceed => true
  | _ => false

/-- The submitter's steps on CurrentTransfer (R231, R233, R281, R286). -/
def submitterStep : Micro → Bool
  | .setPrdt => true
  | .submit => true
  | .eventWait => true
  | .consumeCheck => true
  | .consumeFree => true
  | .consumeClear => true
  | .consumeReset _ => true
  | _ => false

/-- The handler's steps on CurrentTransfer (R232, R309). -/
def completionStep : Micro → Bool
  | .complete => true
  | .signal => true
  | _ => false

/-- The steps that write the suppression flag (R184). -/
def nienStep : Micro → Bool
  | .setNien _ => true
  | _ => false

/-- Is the operation INIT_DEVICE? -/
def isBringUp : Instr → Bool
  | .initDevice _ _ => true
  | _ => false

/-- The operations that write the suppression flag (R22). -/
def writesNien : Instr → Bool
  | .initDevice _ _ => true
  | .programNien _ => true
  | .transferSectors _ _ => true
  | _ => false

/-- The submitter's operations on CurrentTransfer: of the transfers the asynchronous ones alone (R25, R235). -/
def submits : Instr → Bool
  | .transferSectors async _ => async
  | .tsmSubmit => true
  | .tsmConsume => true
  | _ => false

/-- The handler's operations on CurrentTransfer (R232, R235). -/
def completes : Instr → Bool
  | .irqHandler => true
  | .tsmComplete => true
  | _ => false

/-- May a step stand in the sequence of an operation, by who writes what (R20, R22, R25, R235)? -/
def stepOf (i : Instr) (m : Micro) : Bool :=
  (!bringUpStep m || isBringUp i) && (!submitterStep m || submits i) && (!completionStep m || completes i) &&
    (!nienStep m || writesNien i)

/-! ## Whose turn it is -/

/-- The step of `s` runs a sequence of operation `i` on device `k` in context `c`: of a request, of a resumed thread or of
the resumed activation (R36, R330, R331). -/
def works (s : State) (i : Instr) (c : Context) (k : Handle) : Prop :=
  (∃ r rest, s.inputs = .call r :: rest ∧ decode r.word = .instr i ∧ r.ctx = c ∧ r.ops.dev = k) ∨
    (∃ tid n rest f, s.inputs = .resume tid n :: rest ∧ Table.lookup s.threads tid = some f ∧ f.op = i ∧ f.ctx = c ∧
      f.ops.dev = k) ∨
    ∃ n rest f, s.inputs = .resumeHandler n :: rest ∧ s.activation = some f ∧ f.op = i ∧ f.ctx = c ∧ f.ops.dev = k

/-! ## The invariant of the machine -/

/-- The data the machine keeps is in canonical form: both memories, the backing runs, the output slots, the suspended
threads, and the environment's blocks, of which none at its reset value is listed. -/
def canonical (s : State) : Prop :=
  Memory.wf s.mem ∧ Memory.wf s.buf ∧ Table.Sorted s.backing ∧ Table.Sorted s.outs ∧ Table.Sorted s.threads ∧
    Table.Canonical CmdBlock.reset s.env.cmd ∧ Table.Canonical devctlReset s.env.ctl ∧
    Table.Canonical BusMaster.reset s.env.bm

/-- No two live allocations share a handle, and every handle and thread number in use has been given out. -/
def fresh (s : State) : Prop :=
  s.allocs.Pairwise (fun x y => x.handle ≠ y.handle) ∧ (∀ x ∈ s.allocs, x.handle < s.nextHandle) ∧
    ∀ c ∈ s.threads, c.1 < s.nextTid

/-- The context discipline of R301 and R341: a suspended thread has thread steps ahead only, an unfinished activation
interrupt steps only; and each has only steps of its own operation ahead. -/
def disciplined (s : State) : Prop :=
  (∀ c ∈ s.threads, c.2.ctx = .thread ∧ ∀ m ∈ c.2.prog, threadStep m = true ∧ stepOf c.2.op m = true) ∧
    ∀ f, s.activation = some f →
      f.ctx = .interrupt ∧ ∀ m ∈ f.prog, interruptStep m = true ∧ stepOf f.op m = true

/-- The invariant of the machine. -/
def Inv (s : State) : Prop := canonical s ∧ fresh s ∧ disciplined s

/-! ## The invariant of the transfers -/

/-- The submitter's steps on CurrentTransfer whose order is fixed, numbered: the table's pointer is set, programmed and
submitted (R281 to R283), and cleanup checks, frees, clears and resets (R233); 0 for every other step. -/
def stage : Micro → Nat
  | .setPrdt => 1
  | .outPrdt => 2
  | .submit => 3
  | .consumeCheck => 4
  | .consumeFree => 5
  | .consumeClear => 6
  | .consumeReset _ => 7
  | _ => 0

/-- May a step of one stage stand just before a step of another? A pointer set is programmed at once, and a pointer
programmed is submitted at once; cleanup frees only after its check, clears only after it has freed, and resets only
after it has cleared. -/
def mayPrecede (m next : Nat) : Bool :=
  match next with
  | 2 => m == 1
  | 3 => m != 1
  | 5 => m == 4
  | 6 => m == 5
  | 7 => m == 6
  | _ => m != 1 && m != 2

/-- The stage of the first step of a list, 0 for an empty one. -/
def headStage : List Micro → Nat
  | [] => 0
  | m :: _ => stage m

/-- Every step of a list is followed as it must be. -/
def linked : List Micro → Bool
  | [] => true
  | m :: rest => mayPrecede (stage m) (headStage rest) && linked rest

/-- Is a sequence in the submitter's window, its pointer stored and its state not yet InProgress (R24, R281, R283)? -/
def inWindow (f : Frame) : Prop := headStage f.prog = 2 ∨ headStage f.prog = 3

/-- Does the end of a bring-up stand ahead, with no creation of CurrentTransfer before it (R261, R263)? -/
def endsOpened : List Micro → Bool
  | [] => false
  | .openTransfer :: _ => false
  | .initSucceed :: _ => true
  | _ :: rest => endsOpened rest

/-- Has a bring-up created CurrentTransfer, and not ended? -/
def hasOpened (f : Frame) : Prop := endsOpened f.prog = true

/-- What a suspended sequence knows of its device's CurrentTransfer: past its check a cleanup finds Finished, past its
clearing of the pointer null (R233); past S10 a bring-up finds what it has created (R261); and a transfer request
whose device is null has its parameter check ahead (R271). -/
def Knows (f : Frame) (ct : CurrentTransfer) : Prop :=
  linked f.prog = true ∧
    (5 ≤ headStage f.prog → ct.state = .finished) ∧
    (headStage f.prog = 7 → ct.prdt = none) ∧
    (hasOpened f → ct.state = .free ∧ ct.prdt = none) ∧
    ∀ a w, f.op = .transferSectors a w → f.ops.devValid = false → f.prog.head? = some .paramCheck

/-- The invariant of R24, read exactly: on a device that is brought up a table pointer stands only with InProgress or
Finished, or in the submitter's window; and every suspended thread finds of its device's CurrentTransfer what its
sequence has established. -/
def TransferInv (s : State) : Prop :=
  Inv s ∧
    (∀ k, (s.dev k).phase = .up → (s.dev k).ct.prdt ≠ none →
      (s.dev k).ct.state ≠ .free ∨ ∃ c ∈ s.threads, c.2.ops.dev = k ∧ inWindow c.2) ∧
    ∀ c ∈ s.threads, Knows c.2 (s.dev c.2.ops.dev).ct

end Sys2Proof.Safety
end

