-- ==== Sys2Proof/Certificates/Slice0/Obligations.lean ====
section
/-!
DEFINITION. The statements for the provers.
-/
namespace Sys2Proof.Statement

open Sys2Proof Sys2Proof.Machine

/-- A thread's request on a brought-up device (R56, R341), with a slice of at least `n` steps. -/
def Ready (s : State) (n : Nat) : Prop :=
  s.port.ctx = .thread ∧ (s.dev s.port.ops.dev).phase = .up ∧ n ≤ s.port.slice

/-- A call from the interrupt context on a brought-up device whose handler agent has not been ended by a fault (R56, R323,
R341), with a slice of at least `n` steps. -/
def ReadyInterrupt (s : State) (n : Nat) : Prop :=
  s.port.ctx = .interrupt ∧ (s.dev s.port.ops.dev).phase = .up ∧ (s.dev s.port.ops.dev).handlerFault = none ∧
    n ≤ s.port.slice

/-- Either of the two: for the operations both contexts may call (R341). -/
def ReadyEither (s : State) (n : Nat) : Prop := Ready s n ∨ ReadyInterrupt s n

/-- The DeviceRegisters of the device a request names. -/
def regs (s : State) : DeviceRegs := (s.dev s.port.ops.dev).dr

/-- The command block the request's device is on. -/
def block (s : State) : CmdBlock := s.cmdBlock (regs s).base

/-- The bus-master block the request's device is on. -/
def engine (s : State) : BusMaster := s.busMaster (regs s).bm

/-- Every byte of both memories reads as before. -/
def KeepsMemory (s t : State) : Prop :=
  (∀ a, Memory.read t.mem a = Memory.read s.mem a) ∧ ∀ a, Memory.read t.buf a = Memory.read s.buf a

/-- Everything but device records, memories, environment, trace, results and calls is as before. -/
def KeepsButCalls (s t : State) : Prop :=
  t.backing = s.backing ∧ t.outs = s.outs ∧ t.allocs = s.allocs ∧ t.nextHandle = s.nextHandle ∧
    t.dmaTrace = s.dmaTrace ∧ t.log = s.log ∧ t.faults = s.faults ∧ t.threads = s.threads ∧
    t.nextTid = s.nextTid ∧ t.activation = s.activation ∧ t.port = s.port ∧ t.inputs = s.inputs

/-- The same, and no collaborator has been called. -/
def KeepsRest (s t : State) : Prop := KeepsButCalls s t ∧ t.calls = s.calls

/-- What raising a fault leaves as it was: outputs other than trace, log, results and faults, the other agents, the
request and the turns. -/
def KeepsAgents (s t : State) : Prop :=
  t.backing = s.backing ∧ t.outs = s.outs ∧ t.allocs = s.allocs ∧ t.nextHandle = s.nextHandle ∧
    t.dmaTrace = s.dmaTrace ∧ t.calls = s.calls ∧ t.threads = s.threads ∧ t.nextTid = s.nextTid ∧
    t.activation = s.activation ∧ t.port = s.port ∧ t.inputs = s.inputs

/-- All state of the block is as before (R120, R121): records, memories, outputs other than trace and results. -/
def KeepsBlock (s t : State) : Prop := t.devs = s.devs ∧ KeepsMemory s t ∧ KeepsRest s t

/-- The operation handed back exactly this result. -/
def Returns (s t : State) (i : Instr) (r : Result) : Prop :=
  t.returns = s.returns ++ [{ dev := s.port.ops.dev, op := i, result := r }]

/-- No answer of the environment has been taken. -/
def KeepsAnswers (s t : State) : Prop :=
  t.env.answers = s.env.answers ∧ t.env.translations = s.env.translations ∧
    t.env.allocations = s.env.allocations ∧ t.env.registrations = s.env.registrations ∧ t.env.drawn = s.env.drawn

/-- The registers of the environment outside the command block at `base`, the DEVCTL at `ctrl` and the bus-master
block at `bm` are as before. That the windows are apart, of different kinds also where their bases are equal and of one
kind unless they are, is the model's choice (log entry 27), and a statement rests on it wherever it uses this or says
that a write to one window leaves `env.cmd`, `env.ctl` or `env.bm`. -/
def KeepsOtherBlocks (s t : State) (d : DeviceRegs) : Prop :=
  (∀ k, k ≠ d.base → t.cmdBlock k = s.cmdBlock k) ∧ (∀ k, k ≠ d.ctrl → t.devctl k = s.devctl k) ∧
    ∀ k, k ≠ d.bm → t.busMaster k = s.busMaster k

/-- A delivery to a device whose handler is registered and has not been ended by a fault (R327, R329, R323), with a slice
of at least `n` steps. -/
def Delivered (s : State) (n : Nat) : Prop :=
  s.port.ctx = .interrupt ∧ (s.dev s.port.ops.dev).registered = true ∧
    (s.dev s.port.ops.dev).handlerFault = none ∧ n ≤ s.port.slice

/-- Of the device records, only the request's changes, to `d`. -/
def SetsDevice (s t : State) (d : Device) : Prop :=
  t.dev s.port.ops.dev = d ∧ ∀ k, k ≠ s.port.ops.dev → t.dev k = s.dev k

/-- The fault `k` is recorded for the handler agent of the request's device, whose record is as before but for that: the
agent is ended (R322, R323). -/
def EndsHandler (s t : State) (k : Fault) : Prop :=
  t.faults = s.faults ++ [{ dev := s.port.ops.dev, ctx := .interrupt, fault := k }] ∧
    SetsDevice s t { s.dev s.port.ops.dev with handlerFault := some k }

/-- The CurrentTransfer of the device a request names. -/
def transfer (s : State) : CurrentTransfer := (s.dev s.port.ops.dev).ct

/-- The byte of DEVICE that selects the request's device (R30). -/
def selectByte (s : State) : Byte := if (regs s).slave then 0x50#8 else 0x40#8

/-- The port event of a byte read from STATUS of the request's device. -/
def statusRead (s : State) (v : Byte) : PortEvent := .read .w8 ((regs s).base + 7#16) (v.setWidth 32)

/-- What a read of STATUS returns where the draw is `v`: 0x00 if the selected position has no device (R45). -/
def statusSeen (s : State) (v : Dword) : Byte := if (block s).current.absent then 0#8 else v.setWidth 8

/-- STATUS as the handler of the request's device reads it after selecting its device: the second draw, or 0x00 where
no device is at its position (R45). -/
def handlerStatus (s : State) : Byte :=
  if ((block s).position (regs s).slave).absent then 0#8 else s.tookAnswer.nextAnswer.setWidth 8

/-- A position of a command block that has taken the command `b`, DEVCTL being `ctl`: COMMAND holds it, a device that is
there runs it, and it may interrupt at its end if NIEN is clear (R70, R145, R326). -/
def commanded (p : Taskfile) (b ctl : Byte) : Taskfile :=
  { p with command := b, running := !p.absent, mayInterrupt := !ctl.getLsbD 1 }

/-- The place of byte `j` of the request's buffer (R66; where it lies is log entry 22). -/
def bufferPlace (s : State) (j : Nat) : Place := s.place (s.port.ops.buffer + j)

/-- In `t` the request's buffer holds the words `ws`: word `i` in bytes `2i` (low) and `2i + 1` (high), where no later byte
lies at the same place; and no byte outside the buffer, of either memory, has changed (R66). -/
def BufferFilled (s t : State) (ws : List Word) : Prop :=
  (∀ i w, ws[i]? = some w →
    ((∀ j, 2 * i < j → j < 2 * ws.length → bufferPlace s j ≠ bufferPlace s (2 * i)) →
      t.readPlace (bufferPlace s (2 * i)) = some (w.extractLsb' 0 8)) ∧
    ((∀ j, 2 * i + 1 < j → j < 2 * ws.length → bufferPlace s j ≠ bufferPlace s (2 * i + 1)) →
      t.readPlace (bufferPlace s (2 * i + 1)) = some (w.extractLsb' 8 8))) ∧
  ∀ p, (∀ j, j < 2 * ws.length → bufferPlace s j ≠ p) → t.readPlace p = s.readPlace p

/-- Word `i` of the request's buffer (R66). -/
def bufferWord (s : State) (i : Nat) : Word :=
  s.callerByte (s.port.ops.buffer + 2 * i + 1) ++ s.callerByte (s.port.ops.buffer + 2 * i)

/-! ## Terms of the builder's and the transfers' statements -/

/-- A pair every check of R203 to R207 accepts where `left` bytes remain to be covered. -/
def Accepted (p : Pair) (left : Nat) : Prop :=
  p.addr.toNat ≤ 0xFFFFFFFF ∧ p.addr.toNat % 2 = 0 ∧ p.len % 2 = 0 ∧ p.len ≤ 65536 ∧ 0 < min p.len left ∧
    p.addr.toNat + min p.len left ≤ 2 ^ 32

/-- A list of pairs each of which is accepted when its turn comes, `n` bytes remaining before the first. -/
def AllAccepted : List Pair → Nat → Prop
  | [], _ => True
  | p :: ps, n => Accepted p n ∧ AllAccepted ps (n - p.len)

/-- The bytes a list of pairs names. -/
def total (ps : List Pair) : Nat := (ps.map (·.len)).sum

/-- The pairs are accepted one after the other and cover `n` bytes. -/
def Covers (ps : List Pair) (n : Nat) : Prop := ps ≠ [] ∧ AllAccepted ps n ∧ n ≤ total ps

/-- How a pair with index `i` and `left` bytes to cover stops the builder, the first failing check deciding (R203 to
R207, R325). -/
def PairStops (i : Nat) (p : Pair) (left : Nat) (b : BuildStop) : Prop :=
  let a := p.addr.toNat
  let inRange := a ≤ 0xFFFFFFFF
  let aligned := a % 2 = 0 ∧ p.len % 2 = 0
  (0xFFFFFFFF < a ∧ b = .status .physicalAddressOutOfRange) ∨
    (inRange ∧ ¬aligned ∧ b = .status .misaligned) ∨
    (inRange ∧ aligned ∧ 65536 < p.len ∧ b = .status .spanTooLarge) ∨
    (inRange ∧ aligned ∧ p.len ≤ 65536 ∧ (p.len = 0 ∨ left = 0) ∧ b = .fault (.emptyEntry i)) ∨
    (inRange ∧ aligned ∧ p.len ≤ 65536 ∧ 0 < p.len ∧ 0 < left ∧ 2 ^ 32 < a + min p.len left ∧
      b = .fault (.addressTruncation i))

/-- How the builder stops without a table for the pairs `ps`, `n` bytes to cover, the answer to its `Alloc` being
`alloc`: an empty list (R201, R211), a failed allocation (R201), the first pair that fails a check (R203 to R207),
pairs that cover too little (R211), a table above 4 GB (R212). -/
def StopsWith (ps : List Pair) (n : Nat) (alloc : Option PhysAddr) (b : BuildStop) : Prop :=
  (ps = [] ∧ b = .fault (.remainingNonzero n)) ∨
    (ps ≠ [] ∧ alloc = none ∧ b = .status .allocationFailure) ∨
    (alloc ≠ none ∧ ∃ good bad rest, ps = good ++ bad :: rest ∧ AllAccepted good n ∧
      PairStops good.length bad (n - total good) b) ∨
    (alloc ≠ none ∧ ps ≠ [] ∧ AllAccepted ps n ∧ total ps < n ∧ b = .fault (.remainingNonzero (n - total ps))) ∨
    (∃ phys, alloc = some phys ∧ Covers ps n ∧ 0xFFFFFFFF < phys.toNat ∧ b = .status .tableAddressOutOfRange)

/-- The calls of the collaborators a stopping builder makes: none for an empty list; `Alloc`; and where it succeeded,
`Free` of its handle (R201, R213). -/
def stopCalls (s : State) (ps : List Pair) (alloc : Option PhysAddr) : List Call :=
  if ps = [] then []
  else .alloc (16 * ps.length) Config.prdtAllocAlign :: (if alloc = none then [] else [.free s.nextHandle])

/-- A thread's operation `i` ends as the builder's stop says: a status returned, or a fault raised in its agent (R200,
R323). -/
def EndsWith (s t : State) (i : Instr) (b : BuildStop) : Prop :=
  match b with
  | .status st => Returns s t i (.status st) ∧ t.faults = s.faults
  | .fault k => t.returns = s.returns ∧ t.faults = s.faults ++ [{ dev := s.port.ops.dev, ctx := .thread, fault := k }]

/-- Outside the bytes of a table allocated and given back, no byte of memory has changed. -/
def KeepsOutsideTable (s t : State) (ps : List Pair) (alloc : Option PhysAddr) : Prop :=
  ∀ x, (∀ phys, alloc = some phys → ps ≠ [] → x < phys.toNat ∨ phys.toNat + 16 * ps.length ≤ x) →
    Memory.read t.mem x = Memory.read s.mem x

/-- The entries R206 and R208 give for a list of pairs with `n` bytes to cover: each pair clipped, and split where
its first and its last byte lie in different 64 KB blocks. -/
def entriesOf : List Pair → Nat → List (Nat × Nat)
  | [], _ => []
  | p :: ps, n =>
    let a := p.addr.toNat
    let c := min p.len n
    let up := 65536 - a % 65536
    (if a / 65536 = (a + c - 1) / 65536 then [(a, c)] else [(a, up), (a + up, c - up)]) ++ entriesOf ps (n - c)

/-- The table at `t` holds the entries `es`, entry `j` in the 8 bytes at `t + 8j`, little-endian: address, count, flags;
the last entry's flags are 0x8000, the others' 0 (R64, R95, R96). -/
def TableAt (m : Memory) (t : Nat) (es : List (Nat × Nat)) : Prop :=
  ∀ j e, es[j]? = some e →
    Memory.readLE m (t + 8 * j) 4 = some e.1 ∧ Memory.readLE m (t + 8 * j + 4) 2 = some (e.2 % 65536) ∧
      Memory.readLE m (t + 8 * j + 6) 2 = some (if j + 1 = es.length then 0x8000 else 0)

/-- Every byte of memory outside the `n` bytes at `a` reads as before, and so does every byte of a buffer. -/
def KeepsOutside (s t : State) (a n : Nat) : Prop :=
  (∀ x, x < a ∨ a + n ≤ x → Memory.read t.mem x = Memory.read s.mem x) ∧
    ∀ x, Memory.read t.buf x = Memory.read s.buf x

/-- Every allocation handle in use has been given out. -/
def HandlesGivenOut (s : State) : Prop := ∀ x ∈ s.allocs, x.handle < s.nextHandle

/-- The request names a device, a buffer, an output slot and at least one sector (R271). -/
def ValidTransfer (s : State) : Prop :=
  s.port.ops.devValid = true ∧ s.port.ops.bufValid = true ∧ s.port.ops.outValid = true ∧ s.port.ops.sectorCount ≠ 0#16

/-- The byte `NienByte` of a flag (R22). -/
def nienOf (suppress : Bool) : Byte := if suppress then 0x02#8 else 0x00#8

/-- Byte `i` of the first sector's number (R97). -/
def lba (s : State) (i : Nat) : Byte := s.port.ops.startSector.extractLsb' (8 * i) 8

/-- Byte `i` of the sector count (R97). -/
def count (s : State) (i : Nat) : Byte := s.port.ops.sectorCount.extractLsb' (8 * i) 8

/-- A byte written to the command block of the request's device. -/
def commandWritten (s : State) (delta : IoAddr) (b : Byte) : PortEvent :=
  .write .w8 ((regs s).base + delta) (b.setWidth 32)

/-- A byte written to DEVCTL of the request's device. -/
def devctlWritten (s : State) (b : Byte) : PortEvent := .write .w8 (regs s).ctrl (b.setWidth 32)

/-- What a read of STATUS of device `h` returns where the draw is `v`: 0x00 if the selected position has no device (R45). -/
def statusFor (s : State) (h : Handle) (v : Dword) : Byte :=
  if (s.cmdBlock (s.dev h).dr.base).current.absent then 0#8 else v.setWidth 8

/-- The bit of STATUS a step waits for and the value it waits for: the three waits (R180 to R182), and the two before each
word of PIO_BUFFER (R185, R186). -/
def waitsFor : Micro → Option (Nat × Bool)
  | .waitStatus bit want => some (bit, want)
  | .pio .idle _ _ i words => if i < words then some (7, false) else none
  | .pio .drq _ _ _ _ => some (3, true)
  | _ => none

/-- The poll of bring-up goes on after this byte: ERR clear, and BUSY set or DRQ clear (R256). -/
def PollGoesOn (b : Byte) : Prop := b.getLsbD 0 = false ∧ (b.getLsbD 7 = true ∨ b.getLsbD 3 = false)

/-- The next turn gives the suspended thread `tid`, whose frame is `f`, a slice of `n` steps, and no activation is
unfinished. -/
def Resumes (s : State) (tid n : Nat) (f : Frame) (turns : List Turn) : Prop :=
  s.inputs = .resume tid n :: turns ∧ s.activation = none ∧ Table.lookup s.threads tid = some f ∧ f.ctx = .thread

/-- A turn of the thread `f` that has read STATUS of its device once for each draw of `early`, and changed nothing else but
the suspended threads. -/
def PolledInTurn (s t : State) (f : Frame) (turns : List Turn) (early rest : List Dword) : Prop :=
  t.trace = s.trace ++ early.map (fun v =>
    .read .w8 ((s.dev f.ops.dev).dr.base + 7#16) ((statusFor s f.ops.dev v).setWidth 32)) ∧
  t = { s with
    inputs := turns, env := { s.env with answers := rest }, trace := t.trace, threads := t.threads }

/-- The three events of a high-order write (R123). -/
def bracket (s : State) (n : Byte) (delta : IoAddr) (b : Byte) : List PortEvent :=
  [devctlWritten s (0x80#8 ||| n), commandWritten s delta b, devctlWritten s n]

/-- The port events of the steps S1 to S6 of a transfer, the device ready at once: `a`, `b`, `c` are the three STATUS
bytes read, `n` is NienByte (R272, R273, R276, R277). -/
def prologueEvents (s : State) (n a b c : Byte) : List PortEvent :=
  [statusRead s a, commandWritten s 6#16 (selectByte s), statusRead s b, statusRead s c, devctlWritten s n] ++
    bracket s n 2#16 (count s 1) ++ bracket s n 3#16 (lba s 3) ++ bracket s n 4#16 (lba s 4) ++
    bracket s n 5#16 (lba s 5) ++
    [commandWritten s 2#16 (count s 0), commandWritten s 3#16 (lba s 0), commandWritten s 4#16 (lba s 1),
      commandWritten s 5#16 (lba s 2)]

/-- The position of the request's device in its command block. -/
def own (s : State) : Taskfile := (block s).position (regs s).slave

/-- The registers of the device's position after the parameters of a transfer have been written: the high and the low
half of each FIFO register, the same under both readings of the FIFO (R40, R276, R277). -/
def programmed (s : State) : Taskfile :=
  { own s with
    seccount := { hi := count s 1, lo := count s 0 },
    lba0 := { hi := lba s 3, lo := lba s 0 },
    lba1 := { hi := lba s 4, lo := lba s 1 },
    lba2 := { hi := lba s 5, lo := lba s 2 } }

/-- The command block with the request's device selected and `p` at its position. -/
def selectedWith (s : State) (p : Taskfile) : CmdBlock :=
  ({ block s with device := selectByte s } : CmdBlock).setPosition (regs s).slave p

/-- The device is ready at once for the steps S1 to S6: the first three draws are `a`, `b`, `c`, with BUSY clear in the
first two and DRDY set in the third. -/
def ReadyAtOnce (s : State) (a b c : Dword) (rest : List Dword) : Prop :=
  (own s).absent = false ∧ s.env.answers = a :: b :: c :: rest ∧
    a.getLsbD 7 = false ∧ b.getLsbD 7 = false ∧ c.getLsbD 6 = true

/-- The steps an asynchronous transfer has ahead while it waits for its completion (R286, R287, R289). -/
def waitingSteps : List Micro :=
  [.eventWait, .consumeCheck, .consumeFree, .consumeClear, .consumeReset true, .reportCount]

/-- The addresses bring-up resolves: the PCI pair or the legacy pair of the channel, and the bus-master base (R73, R74,
R251). -/
def resolved (s : State) (secondary slave : Bool) : DeviceRegs :=
  let pci := s.port.ops.pci
  { regs s with
    secondary := secondary, slave := slave,
    base := if pci.usePci then pci.cmdBase else if secondary then 0x0170#16 else 0x01F0#16,
    ctrl := if pci.usePci then pci.ctrlBase else if secondary then 0x0376#16 else 0x03F6#16,
    bm := pci.bmBase }

/-- The port events of the steps S2 to S4 of bring-up: NIEN set, the device selected, IDENTIFY (R252 to R254). -/
def bringUpEvents (d : DeviceRegs) : List PortEvent :=
  [.write .w8 d.ctrl 2#32, .write .w8 (d.base + 6#16) ((if d.slave then 0x50#8 else 0x40#8 : Byte).setWidth 32),
    .write .w8 (d.base + 7#16) 0xEC#32]

/-- The command block of the device being brought up after the steps S3 and S4: the device selected, IDENTIFY taken by
its position with NIEN set, every other register as before (R253, R254). -/
def identified (s : State) (d : DeviceRegs) : CmdBlock :=
  ({ s.cmdBlock d.base with device := if d.slave then 0x50#8 else 0x40#8 } : CmdBlock).setPosition d.slave
    (commanded ((s.cmdBlock d.base).position d.slave) 0xEC#8 0x02#8)

/-- The event of a read of STATUS of the device being brought up. -/
def pollRead (d : DeviceRegs) (v : Byte) : PortEvent := .read .w8 (d.base + 7#16) (v.setWidth 32)

/-- The reads of STATUS after IDENTIFY that let the poll go on (R255, R256): the first is not 0x00, none shows ERR, and each
shows BUSY set or DRQ clear. -/
def KeepsPolling (early : List Dword) : Prop :=
  (∀ v, early.head? = some v → (v.setWidth 8 : Byte) ≠ 0#8) ∧
    ∀ v ∈ early, v.getLsbD 0 = false ∧ (v.getLsbD 7 = true ∨ v.getLsbD 3 = false)

/-- The identification data is read with the device ready at once: `last` ends the poll, and `ws` lists for each of the 256
words the two STATUS values and the word (R256, R257). -/
def Identifies (last : Dword) (ws : List (Dword × Dword × Dword)) : Prop :=
  last.getLsbD 0 = false ∧ last.getLsbD 7 = false ∧ last.getLsbD 3 = true ∧ ws.length = 256 ∧
    ∀ w ∈ ws, w.1.getLsbD 7 = false ∧ w.2.1.getLsbD 3 = true

/-- The port events of the steps S2 to S7 of bring-up. -/
def identifyEvents (d : DeviceRegs) (early : List Dword) (last : Dword) (ws : List (Dword × Dword × Dword)) :
    List PortEvent :=
  bringUpEvents d ++ (early ++ [last]).map (fun v => pollRead d (v.setWidth 8)) ++
    ws.flatMap (fun w => [pollRead d (w.1.setWidth 8), pollRead d (w.2.1.setWidth 8),
      .read .w16 d.base ((w.2.2.setWidth 16 : Word).setWidth 32)])

/-- The line the handler of a device is registered on (R262, R328). -/
def line (s : State) (secondary : Bool) : IrqLine :=
  if s.port.ops.pci.usePci then .pci s.port.ops.pci.irqRoute else .legacy (if secondary then 15 else 14)

/-- A bring-up that has failed: no partial state is retained, the device is not brought up, a handler registered before
stays so, no other record changes (R58, R264, R327; the records are left free, log entry 17). -/
def BringUpFailed (s t : State) : Prop :=
  (t.dev s.port.ops.dev).phase = .down ∧ (t.dev s.port.ops.dev).registered = (s.dev s.port.ops.dev).registered ∧
    (t.dev s.port.ops.dev).handlerFault = (s.dev s.port.ops.dev).handlerFault ∧
    ∀ k, k ≠ s.port.ops.dev → t.dev k = s.dev k

/-- A thread's request on a device that is not brought up, or is and has no transfer under way (R56, R362). -/
def MayBringUp (s : State) (n : Nat) : Prop :=
  s.port.ctx = .thread ∧ n ≤ s.port.slice ∧
    ((transfer s).state = .inProgress → (s.dev s.port.ops.dev).phase = .down)

/-- Nothing but records, memories, environment, trace, results, allocations, calls and the listed threads changes. -/
def KeepsOutputs (s t : State) : Prop :=
  t.backing = s.backing ∧ t.outs = s.outs ∧ t.dmaTrace = s.dmaTrace ∧ t.log = s.log ∧ t.faults = s.faults ∧
    t.activation = s.activation ∧ t.port = s.port ∧ t.inputs = s.inputs

/-- Everything but the environment, the physical memory, the engine's accesses and the turn taken is as before. -/
def KeepsTheBlock (s t : State) (rest : List Turn) : Prop :=
  t = { s with env := t.env, mem := t.mem, dmaTrace := t.dmaTrace, inputs := rest }

end Sys2Proof.Statement

open Sys2Proof Sys2Proof.Machine Sys2Proof.Statement

/-! ## Register reads -/

/-- The reads of registers the model keeps no value of, from thread context: one port event at the port's address, the
byte returned is the environment's draw, nothing else of the block or of the environment's registers changes (R70, R121,
R122, R124, R125; R130, R154, R156, R158, R160, R164). The model's choices: that a byte read of DATA, whose effect R130
leaves undefined, changes no kept register (log entry 15), and that ALTSTATUS is a free draw also where no device is at
the selected position (log entry 33). That such a read takes one answer of the environment is log entry 14, and that it
changes no register is log entry 34. -/
def Obligations.ReadOfUnkeptRegisterReturnsTheDraw : Prop :=
  ∀ s : State, Ready s 2 →
    ∀ e ∈ [(Instr.rdData, (regs s).base + 0#16), (Instr.rdAltstatus, (regs s).ctrl + 0#16),
        (Instr.rdCtl1, (regs s).ctrl + 1#16), (Instr.rdBuscmd, (regs s).bm + 0#16),
        (Instr.rdBm1, (regs s).bm + 1#16), (Instr.rdBm3, (regs s).bm + 3#16)],
      let v : Byte := s.nextAnswer.setWidth 8
      ∃ t, exec e.1 s = .next t ∧ t.trace = s.trace ++ [.read .w8 e.2 (v.setWidth 32)] ∧
        Returns s t e.1 (.byte v) ∧ KeepsBlock s t ∧ t.env = s.tookAnswer.env

/-- RD STATUS and RD ERROR, from either context: one port event; the byte is the draw, but STATUS reads 0x00 where no
device is at the selected position (R45, R132, R144, R341). That a read changes no register is the model's choice (log
entry 34), as is that each takes one answer of the environment (log entry 14). -/
def Obligations.ReadOfStatusAndError : Prop :=
  ∀ s : State, ReadyEither s 2 →
    ∀ e ∈ [(Instr.rdError, (regs s).base + 1#16, (s.nextAnswer.setWidth 8 : Byte)),
        (Instr.rdStatus, (regs s).base + 7#16,
          if (block s).current.absent then 0#8 else (s.nextAnswer.setWidth 8 : Byte))],
      ∃ t, exec e.1 s = .next t ∧ t.trace = s.trace ++ [.read .w8 e.2.1 (e.2.2.setWidth 32)] ∧
        Returns s t e.1 (.byte e.2.2) ∧ KeepsBlock s t ∧ t.env = s.tookAnswer.env

/-- RD SECCOUNT0, LBA0, LBA1, LBA2: one port event; the byte is the half of the port's two-deep FIFO that the HOB bit of
the device's DEVCTL selects (R40, R134, R136, R138, R140). RD DEVICE: one port event; bits 6 (LBA) and 4 (DEV) are those
last written, the others the draw's (R30, R142). That the registers are kept so, at the selected position, is log entry
12, and that a position without a device answers so too is log entry 16. That such a read takes one answer of the
environment is log entry 14, and that it changes no register is log entry 34. -/
def Obligations.ReadOfKeptCommandBlockRegister : Prop :=
  (∀ s : State, Ready s 2 →
    ∀ e ∈ [(Instr.rdSeccount0, (regs s).base + 2#16, (block s).current.seccount),
        (Instr.rdLba0, (regs s).base + 3#16, (block s).current.lba0),
        (Instr.rdLba1, (regs s).base + 4#16, (block s).current.lba1),
        (Instr.rdLba2, (regs s).base + 5#16, (block s).current.lba2)],
      let v : Byte := if (s.devctl (regs s).ctrl).getLsbD 7 then e.2.2.hi else e.2.2.lo
      ∃ t, exec e.1 s = .next t ∧ t.trace = s.trace ++ [.read .w8 e.2.1 (v.setWidth 32)] ∧
        Returns s t e.1 (.byte v) ∧ KeepsBlock s t ∧ t.env = s.tookAnswer.env) ∧
  ∀ s : State, Ready s 2 →
    ∃ (t : State) (v : Byte), exec .rdDevice s = .next t ∧
      (∀ i, i < 8 → v.getLsbD i =
        if i = 6 ∨ i = 4 then (block s).device.getLsbD i else s.nextAnswer.getLsbD i) ∧
      t.trace = s.trace ++ [.read .w8 ((regs s).base + 6#16) (v.setWidth 32)] ∧
      Returns s t .rdDevice (.byte v) ∧ KeepsBlock s t ∧ t.env = s.tookAnswer.env

/-- RD SECCOUNT1, LBA3, LBA4, LBA5: three port events, DEVCTL with HOB set, the read, DEVCTL with HOB clear, both
carrying `dr.nien` in the NIEN bit; the byte is the high-order half; the device's DEVCTL is left at `NienByte` (R123,
R127, R146, R148, R150, R152). That windows are apart is log entry 27. That the registers are kept so, at the selected
position, is log entry 12, and that a position without a device answers so too is log entry 16. That such a read takes
one answer of the environment is log entry 14, and that it changes no register is log entry 34. -/
def Obligations.HighOrderReadIsBracketed : Prop :=
  ∀ s : State, Ready s 4 →
    ∀ e ∈ [(Instr.rdSeccount1, (regs s).base + 2#16, (block s).current.seccount),
        (Instr.rdLba3, (regs s).base + 3#16, (block s).current.lba0),
        (Instr.rdLba4, (regs s).base + 4#16, (block s).current.lba1),
        (Instr.rdLba5, (regs s).base + 5#16, (block s).current.lba2)],
      let n : Byte := if (regs s).nien then 0x02#8 else 0x00#8
      ∃ t, exec e.1 s = .next t ∧
        t.trace = s.trace ++ [.write .w8 (regs s).ctrl ((0x80#8 ||| n).setWidth 32),
          .read .w8 e.2.1 (e.2.2.hi.setWidth 32), .write .w8 (regs s).ctrl (n.setWidth 32)] ∧
        Returns s t e.1 (.byte e.2.2.hi) ∧ KeepsBlock s t ∧ t.devctl (regs s).ctrl = n ∧
        t.env.cmd = s.env.cmd ∧ t.env.bm = s.env.bm ∧ KeepsOtherBlocks s t (regs s)

/-- RD BUSSTATUS, from either context: one port event; bit 2 is the IRQ bit, the others the draw's (R34, R162). RD
PRDTADDR0 to 3: one port event; the byte is that lane of the PRDT-address register (R166, R168, R170, R172). That such a
read takes one answer of the environment is log entry 14, and that it changes no register is log entry 34. -/
def Obligations.ReadOfKeptBusMasterRegister : Prop :=
  (∀ s : State, ReadyEither s 2 →
    ∃ (t : State) (v : Byte), exec .rdBusstatus s = .next t ∧
      (∀ i, i < 8 → v.getLsbD i = if i = 2 then (engine s).irq else s.nextAnswer.getLsbD i) ∧
      t.trace = s.trace ++ [.read .w8 ((regs s).bm + 2#16) (v.setWidth 32)] ∧
      Returns s t .rdBusstatus (.byte v) ∧ KeepsBlock s t ∧ t.env = s.tookAnswer.env) ∧
  ∀ s : State, Ready s 2 →
    ∀ e ∈ [(Instr.rdPrdtaddr0, (regs s).bm + 4#16, 0), (Instr.rdPrdtaddr1, (regs s).bm + 5#16, 8),
        (Instr.rdPrdtaddr2, (regs s).bm + 6#16, 16), (Instr.rdPrdtaddr3, (regs s).bm + 7#16, 24)],
      let v : Byte := (engine s).prdtaddr.extractLsb' e.2.2 8
      ∃ t, exec e.1 s = .next t ∧ t.trace = s.trace ++ [.read .w8 e.2.1 (v.setWidth 32)] ∧
        Returns s t e.1 (.byte v) ∧ KeepsBlock s t ∧ t.env = s.tookAnswer.env

/-- The multiplexer, for every logical offset: offsets 0x00 to 0x07 lead to `dr.base + off`; 0x08 to 0x0B to
`dr.base + (off - 6)` inside a HOB bracket; 0x0C and 0x0D to `dr.ctrl + (off - 0x0C)`; 0x0E to 0x15 to
`dr.bm + (off - 0x0E)`; from 0x16 on to no port. The sums are of 16 bits and wrap (R92, R62). The boundaries of the
ranges and the wrap are the spec's decisions D1 and D2. -/
def Obligations.TheMultiplexerRoutesByRange : Prop :=
  ∀ (dr : DeviceRegs) (off : Byte),
    let reaches := fun (addr : IoAddr) (bracketed : Bool) =>
      ∃ r, route off.toNat = some r ∧ portAddr dr r.port = addr ∧ r.bracketed = bracketed
    let o : IoAddr := off.setWidth 16
    (off.toNat ≤ 0x07 → reaches (dr.base + o) false) ∧
    (0x08 ≤ off.toNat → off.toNat ≤ 0x0B → reaches (dr.base + (o - 6#16)) true) ∧
    (0x0C ≤ off.toNat → off.toNat ≤ 0x0D → reaches (dr.ctrl + (o - 0x0C#16)) false) ∧
    (0x0E ≤ off.toNat → off.toNat ≤ 0x15 → reaches (dr.bm + (o - 0x0E#16)) false) ∧
    (0x16 ≤ off.toNat → route off.toNat = none)

/-! ## Register writes -/

/-- WR CTL1, BM1, BM3 and the byte write of DATA: one port event, and nothing the model keeps changes
(R122, R124, R125; R131, R157, R161, R165). That a reserved register's write changes nothing kept is the model's
choice (log entry 15). -/
def Obligations.WriteOfUnkeptRegisterIsOneEvent : Prop :=
  ∀ s : State, Ready s 2 →
    ∀ e ∈ [(Instr.wrData, (regs s).base + 0#16), (Instr.wrCtl1, (regs s).ctrl + 1#16),
        (Instr.wrBm1, (regs s).bm + 1#16), (Instr.wrBm3, (regs s).bm + 3#16)],
      let b : Byte := s.port.ops.data.setWidth 8
      ∃ t, exec e.1 s = .next t ∧ t.trace = s.trace ++ [.write .w8 e.2 (b.setWidth 32)] ∧
        Returns s t e.1 .done ∧ KeepsBlock s t ∧ t.env = s.env

/-- WR FEATURES, COMMAND, SECCOUNT0, LBA0, LBA1, LBA2 and DEVICE: one port event; in the command block only the register
written changes: FEATURES, COMMAND or the two-deep FIFO of the selected position, or the DEVICE latch. Under the
`select` reading a FIFO write replaces the half HOB names, under `push` the low half moves up (R40, R133, R135, R137,
R139, R141, R143, R145). A device that is there runs the command written, and may interrupt at its end if NIEN is clear
(R70, R326). The model's choices: that a byte of COMMAND outside the five of R98, whose effect R145 leaves outside the
spec, is kept and changes nothing else (log entry 15), that the FIFO and DEVICE are kept so (log entry 12), and at a
position without a device too (log entry 16). That windows are apart is log entry 27. A command still running is
replaced (log entry 36). That the bits of DEVICE other than DEV do nothing more than read back is log entry 15. -/
def Obligations.WriteOfCommandBlockRegister : Prop :=
  ∀ s : State, Ready s 2 →
    let b : Byte := s.port.ops.data.setWidth 8
    let hob := (s.devctl (regs s).ctrl).getLsbD 7
    let pos := (block s).current
    let put := fun f : Fifo => match Config.fifoModel with
      | .select => if hob then { f with hi := b } else { f with lo := b }
      | .push => { hi := f.lo, lo := b }
    ∀ e ∈ [(Instr.wrFeatures, 1#16, (block s).setCurrent { pos with features := b }),
        (Instr.wrSeccount0, 2#16, (block s).setCurrent { pos with seccount := put pos.seccount }),
        (Instr.wrLba0, 3#16, (block s).setCurrent { pos with lba0 := put pos.lba0 }),
        (Instr.wrLba1, 4#16, (block s).setCurrent { pos with lba1 := put pos.lba1 }),
        (Instr.wrLba2, 5#16, (block s).setCurrent { pos with lba2 := put pos.lba2 }),
        (Instr.wrDevice, 6#16, { block s with device := b }),
        (Instr.wrCommand, 7#16, (block s).setCurrent (commanded pos b (s.devctl (regs s).ctrl)))],
      ∃ t, exec e.1 s = .next t ∧
        t.trace = s.trace ++ [.write .w8 ((regs s).base + e.2.1) (b.setWidth 32)] ∧
        Returns s t e.1 .done ∧ KeepsBlock s t ∧ block t = e.2.2 ∧
        t.env.ctl = s.env.ctl ∧ t.env.bm = s.env.bm ∧ KeepsOtherBlocks s t (regs s) ∧ KeepsAnswers s t

/-- WR SECCOUNT1, LBA3, LBA4, LBA5: three port events, DEVCTL with HOB set, the byte, DEVCTL with HOB clear, both DEVCTL
writes carrying `dr.nien`; the device's DEVCTL is left at `NienByte` and, of the command block, only the port's two-deep
FIFO changes: `select` puts the byte in the high-order half; `push` moves the low half up and puts it in the low half
(R40, R123, R127, R147, R149, R151, R153). That windows are apart is log entry 27. The two readings are the spec's
decision D35; that the byte reaches the selected position alone is log entry 12, and a position without a device too log
entry 16. -/
def Obligations.HighOrderWriteIsBracketed : Prop :=
  ∀ s : State, Ready s 4 →
    let b : Byte := s.port.ops.data.setWidth 8
    let pos := (block s).current
    let n : Byte := if (regs s).nien then 0x02#8 else 0x00#8
    let put := fun f : Fifo => match Config.fifoModel with
      | .select => { f with hi := b }
      | .push => { hi := f.lo, lo := b }
    ∀ e ∈ [(Instr.wrSeccount1, 2#16, { pos with seccount := put pos.seccount }),
        (Instr.wrLba3, 3#16, { pos with lba0 := put pos.lba0 }),
        (Instr.wrLba4, 4#16, { pos with lba1 := put pos.lba1 }),
        (Instr.wrLba5, 5#16, { pos with lba2 := put pos.lba2 })],
      ∃ t, exec e.1 s = .next t ∧
        t.trace = s.trace ++ [.write .w8 (regs s).ctrl ((0x80#8 ||| n).setWidth 32),
          .write .w8 ((regs s).base + e.2.1) (b.setWidth 32), .write .w8 (regs s).ctrl (n.setWidth 32)] ∧
        Returns s t e.1 .done ∧ KeepsBlock s t ∧ block t = (block s).setCurrent e.2.2 ∧
        t.devctl (regs s).ctrl = n ∧ t.env.bm = s.env.bm ∧ KeepsOtherBlocks s t (regs s) ∧ KeepsAnswers s t

/-- WR DEVCTL: one port event; the device's DEVCTL holds the byte; `dr.nien` and everything else stay (R155). That
windows are apart is log entry 27. That its bits other than HOB and NIEN are kept and do nothing more is the model's
choice (log entry 15). -/
def Obligations.WriteOfDevctlLeavesTheFlag : Prop :=
  ∀ s : State, Ready s 2 →
    let b : Byte := s.port.ops.data.setWidth 8
    ∃ t, exec .wrDevctl s = .next t ∧ t.trace = s.trace ++ [.write .w8 (regs s).ctrl (b.setWidth 32)] ∧
      Returns s t .wrDevctl .done ∧ KeepsBlock s t ∧ t.devctl (regs s).ctrl = b ∧
      t.env.cmd = s.env.cmd ∧ t.env.bm = s.env.bm ∧ KeepsOtherBlocks s t (regs s) ∧ KeepsAnswers s t

/-- WR BUSCMD, WR PRDTADDR0 to 3 (each one byte lane) and WR32 PRDTADDR (all four lanes): one port event; of the
bus-master block only the register written changes (R129, R159, R167, R169, R171, R173). A write of BUSCMD with START
set starts the engine from the table's first entry, also one that runs, and one with START clear stops it (R44, R70; log
entry 21). That windows are apart is log entry 27. That the engine forgets with either write how far it was, and that it
was done, is log entry 40. That the bits of BUSCMD other than START and READ are kept and do nothing is log entry 15. -/
def Obligations.WriteOfBusMasterRegister : Prop :=
  ∀ s : State, Ready s 2 →
    let d := s.port.ops.data
    let b : Byte := d.setWidth 8
    let p := (engine s).prdtaddr
    ∀ e ∈ [(Instr.wrBuscmd, Width.w8, 0#16, b.setWidth 32,
          { engine s with
            buscmd := b,
            dma := if b.getLsbD 0 then some { next := 0, addr := 0, left := 0, last := false } else none }),
        (Instr.wrPrdtaddr0, Width.w8, 4#16, b.setWidth 32,
          { engine s with prdtaddr := p.extractLsb' 8 24 ++ b }),
        (Instr.wrPrdtaddr1, Width.w8, 5#16, b.setWidth 32,
          { engine s with prdtaddr := p.extractLsb' 16 16 ++ b ++ p.extractLsb' 0 8 }),
        (Instr.wrPrdtaddr2, Width.w8, 6#16, b.setWidth 32,
          { engine s with prdtaddr := p.extractLsb' 24 8 ++ b ++ p.extractLsb' 0 16 }),
        (Instr.wrPrdtaddr3, Width.w8, 7#16, b.setWidth 32,
          { engine s with prdtaddr := b ++ p.extractLsb' 0 24 }),
        (Instr.wr32Prdtaddr, Width.w32, 4#16, d, { engine s with prdtaddr := d })],
      ∃ t, exec e.1 s = .next t ∧
        t.trace = s.trace ++ [.write e.2.1 ((regs s).bm + e.2.2.1) e.2.2.2.1] ∧
        Returns s t e.1 .done ∧ KeepsBlock s t ∧ engine t = e.2.2.2.2 ∧
        t.env.cmd = s.env.cmd ∧ t.env.ctl = s.env.ctl ∧ KeepsOtherBlocks s t (regs s) ∧ KeepsAnswers s t

/-- WR BUSSTATUS, from either context: one port event; a 1 written to bit 2 clears the IRQ bit, a 0 leaves it (R34,
R163). That windows are apart is log entry 27. -/
def Obligations.WriteOfBusStatusClearsTheIrqBit : Prop :=
  ∀ s : State, ReadyEither s 2 →
    let b : Byte := s.port.ops.data.setWidth 8
    ∃ t, exec .wrBusstatus s = .next t ∧
      t.trace = s.trace ++ [.write .w8 ((regs s).bm + 2#16) (b.setWidth 32)] ∧
      Returns s t .wrBusstatus .done ∧ KeepsBlock s t ∧
      engine t = { engine s with irq := if b.getLsbD 2 then false else (engine s).irq } ∧
      t.env.cmd = s.env.cmd ∧ t.env.ctl = s.env.ctl ∧ KeepsOtherBlocks s t (regs s) ∧ KeepsAnswers s t

/-- RD16 DATA and WR16 DATA: one 16-bit port event at `dr.base`; the read returns the word drawn (R32, R128). That a
write of DATA changes nothing the model keeps is the model's choice (log entry 15). That the read takes one answer of
the environment is log entry 14, and that it changes no register is log entry 34. -/
def Obligations.WordAccessOfData : Prop :=
  ∀ s : State, Ready s 2 →
    (let v : Word := s.nextAnswer.setWidth 16
      ∃ t, exec .rd16Data s = .next t ∧ t.trace = s.trace ++ [.read .w16 (regs s).base (v.setWidth 32)] ∧
        Returns s t .rd16Data (.word v) ∧ KeepsBlock s t ∧ t.env = s.tookAnswer.env) ∧
    (let v : Word := s.port.ops.data.setWidth 16
      ∃ t, exec .wr16Data s = .next t ∧ t.trace = s.trace ++ [.write .w16 (regs s).base (v.setWidth 32)] ∧
        Returns s t .wr16Data .done ∧ KeepsBlock s t ∧ t.env = s.env)

/-- The five commands: one port event, the command's byte written to COMMAND at `dr.base + 7`; the device's COMMAND
register holds it, a device that is there runs it, and may interrupt at its end if NIEN is clear (R70, R98, R103, R254,
R284, R326). That windows are apart is log entry 27. That the byte reaches the selected position alone is log entry 12,
that a position without a device keeps it too log entry 16, and that it replaces a command still running log entry 36.
-/
def Obligations.CommandWritesItsByte : Prop :=
  ∀ s : State, Ready s 2 →
    ∀ e ∈ [(Instr.identify, 0xEC#8), (Instr.readSectorsExt, 0x24#8), (Instr.writeSectorsExt, 0x34#8),
        (Instr.readDmaExt, 0x25#8), (Instr.writeDmaExt, 0x35#8)],
      ∃ t, exec e.1 s = .next t ∧
        t.trace = s.trace ++ [.write .w8 ((regs s).base + 7#16) (e.2.setWidth 32)] ∧
        Returns s t e.1 .done ∧ KeepsBlock s t ∧
        block t = (block s).setCurrent (commanded (block s).current e.2 (s.devctl (regs s).ctrl)) ∧
        t.env.ctl = s.env.ctl ∧ t.env.bm = s.env.bm ∧ KeepsOtherBlocks s t (regs s) ∧ KeepsAnswers s t

/-! ## Primitives -/

/-- SELECT_DEVICE, from either context: one write of `0x40 | (dr.slave << 4)` to DEVICE; the DEVICE latch holds it (R30,
R183). That windows are apart is log entry 27. -/
def Obligations.SelectDeviceWritesTheLatch : Prop :=
  ∀ s : State, ReadyEither s 2 →
    ∃ t, exec .selectDevice s = .next t ∧
      t.trace = s.trace ++ [.write .w8 ((regs s).base + 6#16) ((selectByte s).setWidth 32)] ∧
      Returns s t .selectDevice .done ∧ KeepsBlock s t ∧ block t = { block s with device := selectByte s } ∧
      t.env.ctl = s.env.ctl ∧ t.env.bm = s.env.bm ∧ KeepsOtherBlocks s t (regs s) ∧ KeepsAnswers s t

/-- STOP_DMA, from either context: one write of 0x00 to BUSCMD; the engine is stopped (R44, R187). That windows are
apart is log entry 27. That the engine, which stops by log entry 21, forgets with it that it was done is log entry 40.
-/
def Obligations.StopDmaClearsBuscmd : Prop :=
  ∀ s : State, ReadyEither s 2 →
    ∃ t, exec .stopDma s = .next t ∧ t.trace = s.trace ++ [.write .w8 (regs s).bm 0#32] ∧
      Returns s t .stopDma .done ∧ KeepsBlock s t ∧ engine t = { engine s with buscmd := 0#8, dma := none } ∧
      t.env.cmd = s.env.cmd ∧ t.env.ctl = s.env.ctl ∧ KeepsOtherBlocks s t (regs s) ∧ KeepsAnswers s t

/-- PROGRAM_NIEN: `dr.nien` takes the argument, then one write of `NienByte` to DEVCTL, also when the flag had that
value already; nothing else of the records changes (R22, R184). That windows are apart is log entry 27. -/
def Obligations.ProgramNienSetsTheFlag : Prop :=
  ∀ (s : State) (suppress : Bool), Ready s 3 →
    let b : Byte := if suppress then 0x02#8 else 0x00#8
    ∃ t, exec (.programNien suppress) s = .next t ∧
      t.trace = s.trace ++ [.write .w8 (regs s).ctrl (b.setWidth 32)] ∧
      Returns s t (.programNien suppress) .done ∧
      SetsDevice s t { s.dev s.port.ops.dev with dr := { regs s with nien := suppress } } ∧
      KeepsMemory s t ∧ KeepsRest s t ∧ t.devctl (regs s).ctrl = b ∧
      t.env.cmd = s.env.cmd ∧ t.env.bm = s.env.bm ∧ KeepsOtherBlocks s t (regs s) ∧ KeepsAnswers s t

/-- The waits: each reads STATUS until its bit shows (BUSY clear, DRQ set, DRDY set), one port event a read, and ends at
the first read that shows it, whatever the other bits say (R180, R181, R182). `early` are the reads that do not show it.
Where no device is at the selected position every read shows 0x00 (R45). That a read and its test are one step, and that
the read changes no register, are the model's choices (log entries 30 and 34). That a read of STATUS takes an answer of
the environment also where no device is there is log entry 14. -/
def Obligations.WaitEndsAtTheFirstReadThatShowsTheBit : Prop :=
  ∀ (s : State) (early rest : List Dword) (last : Dword),
    ∀ e ∈ [(Instr.waitIdle, 7, false), (Instr.waitDrq, 3, true), (Instr.waitReady, 6, true)],
      Ready s (early.length + 2) → s.env.answers = early ++ last :: rest →
      (∀ v ∈ early, (statusSeen s v).getLsbD e.2.1 ≠ e.2.2) → (statusSeen s last).getLsbD e.2.1 = e.2.2 →
      ∃ t, exec e.1 s = .next t ∧
        t.trace = s.trace ++ (early ++ [last]).map (fun v => statusRead s (statusSeen s v)) ∧
        Returns s t e.1 .done ∧ KeepsBlock s t ∧ t.env = { s.env with answers := rest }

/-- A wait whose bit no read of its slice shows stays where it is. A fresh call of one of the three waits: the thread is
suspended at the same step, nothing is returned, no fault is raised. A thread that is resumed at such a wait, its own or
the two before each word of PIO_BUFFER, of a transfer or of a bring-up: it is left as it was. A bring-up resumed at its
poll: it stays there with the last byte read. Nothing else changes but the trace, the answers taken and, for a fresh
call, the numbers of threads given out (R36, R180 to R182, R185, R186, R188, R256, R379). The slice is the model's way
of saying when another agent moves (log entry 6). That a read of STATUS changes no register is log entry 34. That a read
of STATUS takes an answer of the environment also where no device is there is log entry 14. -/
def Obligations.WaitStaysWhileTheBitIsNotShown : Prop :=
  (∀ (s : State) (early rest : List Dword),
    ∀ e ∈ [(Instr.waitIdle, 7, false), (Instr.waitDrq, 3, true), (Instr.waitReady, 6, true)],
      Ready s 1 → early.length = s.port.slice → s.env.answers = early ++ rest →
      (∀ v ∈ early, (statusSeen s v).getLsbD e.2.1 ≠ e.2.2) →
      ∃ t, exec e.1 s = .next t ∧ t.trace = s.trace ++ early.map (fun v => statusRead s (statusSeen s v)) ∧
        t = { s with
          env := { s.env with answers := rest }, trace := t.trace, threads := t.threads, nextTid := s.nextTid + 1 } ∧
        Table.lookup t.threads s.nextTid =
          some (startFrame e.1 [.waitStatus e.2.1 e.2.2, .ret .done] s.port) ∧
        ∀ k, k ≠ s.nextTid → Table.lookup t.threads k = Table.lookup s.threads k) ∧
  (∀ (s : State) (tid : Nat) (f : Frame) (turns : List Turn) (early rest : List Dword) (m : Micro) (steps : List Micro)
    (bit : Nat) (want : Bool),
    Resumes s tid early.length f turns → f.prog = m :: steps → waitsFor m = some (bit, want) →
    s.env.answers = early ++ rest → (∀ v ∈ early, (statusFor s f.ops.dev v).getLsbD bit ≠ want) →
    ∃ t, step s = .next t ∧ PolledInTurn s t f turns early rest ∧
      ∀ k, Table.lookup t.threads k = Table.lookup s.threads k) ∧
  ∀ (s : State) (tid : Nat) (f : Frame) (turns : List Turn) (early rest : List Dword) (steps : List Micro),
    let seen := statusFor s f.ops.dev
    Resumes s tid early.length f turns → f.prog = .identPoll :: steps → s.env.answers = early ++ rest →
    PollGoesOn (f.acc.setWidth 8) → (∀ v ∈ early, PollGoesOn (seen v)) →
    ∃ t, step s = .next t ∧ PolledInTurn s t f turns early rest ∧
      Table.lookup t.threads tid =
        some { f with acc := (early.getLast?.map (fun v => (seen v).setWidth 32)).getD f.acc } ∧
      ∀ k, k ≠ tid → Table.lookup t.threads k = Table.lookup s.threads k

/-- PIO_BUFFER isWrite=0: before each word a read of STATUS that shows BUSY clear and one that shows DRQ set, then one
16-bit read of DATA; word `i` is in buffer bytes `2i` (low) and `2i + 1` (high); no other byte of a memory changes (R66,
R185). The device is ready at once: `ws` lists for each word the two STATUS values and the word. Where the buffer's
bytes lie is log entry 22; that `words = 0` ends at once is log entry 25; the four steps a word are log entry 20. That
no port read changes a register is log entry 34. That all callers share one virtual address space is log entry 37. -/
def Obligations.PioReadFillsTheBuffer : Prop :=
  ∀ (s : State) (ws : List (Dword × Dword × Dword)) (rest : List Dword),
    Ready s (4 * s.port.ops.words + 2) → ws.length = s.port.ops.words →
    s.env.answers = ws.flatMap (fun w => [w.1, w.2.1, w.2.2]) ++ rest →
    (∀ w ∈ ws, (statusSeen s w.1).getLsbD 7 = false ∧ (statusSeen s w.2.1).getLsbD 3 = true) →
    ∃ t, exec .pioBufferRead s = .next t ∧
      t.trace = s.trace ++ ws.flatMap (fun w => [statusRead s (w.1.setWidth 8), statusRead s (w.2.1.setWidth 8),
        .read .w16 (regs s).base ((w.2.2.setWidth 16 : Word).setWidth 32)]) ∧
      Returns s t .pioBufferRead .done ∧ t.devs = s.devs ∧ KeepsRest s t ∧
      t.env = { s.env with answers := rest } ∧ BufferFilled s t (ws.map (fun w => w.2.2.setWidth 16))

/-- PIO_BUFFER isWrite=1: the same two reads of STATUS before each word, then one 16-bit write of DATA with the word in
buffer bytes `2i` (low) and `2i + 1` (high); no byte of a memory changes (R66, R186). Log entries 20, 22, 25, 34 and 37
as for the read. That a 16-bit write of DATA changes nothing the model keeps is log entry 15; what a byte of the buffer
that nothing has written reads as is log entry 5. -/
def Obligations.PioWriteSendsTheBuffer : Prop :=
  ∀ (s : State) (ws : List (Dword × Dword)) (rest : List Dword),
    Ready s (4 * s.port.ops.words + 2) → ws.length = s.port.ops.words →
    s.env.answers = ws.flatMap (fun w => [w.1, w.2]) ++ rest →
    (∀ w ∈ ws, (statusSeen s w.1).getLsbD 7 = false ∧ (statusSeen s w.2).getLsbD 3 = true) →
    ∃ t, exec .pioBufferWrite s = .next t ∧
      t.trace = s.trace ++ ws.zipIdx.flatMap (fun w => [statusRead s (w.1.1.setWidth 8),
        statusRead s (w.1.2.setWidth 8), .write .w16 (regs s).base ((bufferWord s w.2).setWidth 32)]) ∧
      Returns s t .pioBufferWrite .done ∧ KeepsBlock s t ∧ t.env = { s.env with answers := rest }

/-! ## The Transfer State Machine -/

/-- TSM_SUBMIT: `ct.state` becomes InProgress whatever it was; nothing else changes and no port is touched
(R231, R234). -/
def Obligations.SubmitStoresInProgress : Prop :=
  ∀ s : State, Ready s 2 →
    ∃ t, exec .tsmSubmit s = .next t ∧ Returns s t .tsmSubmit .done ∧
      SetsDevice s t { s.dev s.port.ops.dev with ct := { transfer s with state := .inProgress } } ∧
      t.trace = s.trace ∧ t.env = s.env ∧ KeepsMemory s t ∧ KeepsRest s t

/-- TSM_COMPLETE: from InProgress the state becomes Finished and nothing else changes; from any other state it raises
CasFailed with the state found, `ct` stays, no result is returned and the handler agent is ended (R232, R234, R323). How
a fault is recorded and how it ends the agent is log entry 10. -/
def Obligations.CompleteSwapsOnlyFromInProgress : Prop :=
  ∀ s : State, ReadyInterrupt s 2 →
    ((transfer s).state = .inProgress → ∃ t, exec .tsmComplete s = .next t ∧ Returns s t .tsmComplete .done ∧
      SetsDevice s t { s.dev s.port.ops.dev with ct := { transfer s with state := .finished } } ∧
      t.trace = s.trace ∧ t.env = s.env ∧ KeepsMemory s t ∧ KeepsRest s t) ∧
    ((transfer s).state ≠ .inProgress → ∃ t, exec .tsmComplete s = .next t ∧ t.returns = s.returns ∧
      EndsHandler s t (.casFailed (transfer s).state) ∧
      t.trace = s.trace ∧ t.log = s.log ∧ t.env = s.env ∧ KeepsMemory s t ∧ KeepsAgents s t)

/-- TSM_CONSUME. In state Finished the table's allocation is given back by one call of `Free`, or by none where the
pointer is null already, the pointer becomes null and the state Free; every byte outside the freed allocation reads as
before, and the freed bytes hold no stated value, where handles are unique (R51, R233, R234). In any other state it
raises ConsumeNotFinished with the state found: the table is not freed and `ct` stays (R233, R324). That the state
becomes Free is the value TSM_RESET_ON_CLEANUP = true of R8. See log entries 4 and 24. That nothing is freed where the
pointer is null, with no call, or names no allocation, is log entry 18. That the fault is recorded in a next state is
log entry 10. -/
def Obligations.ConsumeFreesTheTable : Prop :=
  ∀ s : State, Ready s 5 →
    ((transfer s).state = .finished → ∃ t, exec .tsmConsume s = .next t ∧ Returns s t .tsmConsume .done ∧
      SetsDevice s t { s.dev s.port.ops.dev with ct := { transfer s with state := .free, prdt := none } } ∧
      (∀ x, x ∈ t.allocs ↔ x ∈ s.allocs ∧ ∀ p, (transfer s).prdt = some p → x.handle ≠ p.handle) ∧
      (∀ a, (∀ p x, (transfer s).prdt = some p → x ∈ s.allocs → x.handle = p.handle →
          a < x.phys.toNat ∨ x.phys.toNat + x.bytes ≤ a) → Memory.read t.mem a = Memory.read s.mem a) ∧
      (s.allocs.Pairwise (fun x y => x.handle ≠ y.handle) → ∀ p x a, (transfer s).prdt = some p → x ∈ s.allocs →
        x.handle = p.handle → x.phys.toNat ≤ a → a < x.phys.toNat + x.bytes → Memory.read t.mem a = none) ∧
      (∀ a, Memory.read t.buf a = Memory.read s.buf a) ∧
      t.calls = s.calls ++ ((transfer s).prdt.map (fun p => Call.free p.handle)).toList ∧
      t.trace = s.trace ∧ t.env = s.env ∧ t.backing = s.backing ∧ t.outs = s.outs ∧ t.nextHandle = s.nextHandle ∧
      t.dmaTrace = s.dmaTrace ∧ t.log = s.log ∧ t.faults = s.faults ∧ t.threads = s.threads ∧
      t.nextTid = s.nextTid ∧ t.activation = s.activation ∧ t.port = s.port ∧ t.inputs = s.inputs) ∧
    ((transfer s).state ≠ .finished → ∃ t, exec .tsmConsume s = .next t ∧ t.returns = s.returns ∧
      t.faults = s.faults ++
        [{ dev := s.port.ops.dev, ctx := .thread, fault := .consumeNotFinished (transfer s).state }] ∧
      t.devs = s.devs ∧ t.trace = s.trace ∧ t.log = s.log ∧ t.env = s.env ∧ KeepsMemory s t ∧ KeepsAgents s t)

/-! ## The interrupt completion handler -/

/-- Not its interrupt: with the IRQ bit clear the handler selects its device, reads BUSSTATUS and returns NotHandled;
two port events, no state of the block changes (R302, R303). That windows are apart is log entry 27. That a read of
BUSSTATUS changes no register is log entry 34. That a read of BUSSTATUS takes an answer of the environment is log entry
14. -/
def Obligations.HandlerDeclinesAForeignInterrupt : Prop :=
  ∀ s : State, Delivered s 3 → (engine s).irq = false →
    ∃ (t : State) (v : Byte), exec .irqHandler s = .next t ∧ v.getLsbD 2 = false ∧
      t.trace = s.trace ++ [.write .w8 ((regs s).base + 6#16) ((selectByte s).setWidth 32),
        .read .w8 ((regs s).bm + 2#16) (v.setWidth 32)] ∧
      Returns s t .irqHandler (.handled false) ∧ KeepsBlock s t ∧
      block t = { block s with device := selectByte s } ∧ t.env.ctl = s.env.ctl ∧ t.env.bm = s.env.bm ∧
      KeepsOtherBlocks s t (regs s)

/-- Clean completion: five port events in order (DEVICE, BUSSTATUS, STATUS, BUSCMD stopped, BUSSTATUS acknowledged with
0x04), the state swapped to Finished, the event signalled, Handled returned (R302 to R312). That no port read changes a
register is log entry 34. That windows are apart is log entry 27. That a read of BUSSTATUS takes an answer of the
environment is log entry 14. That the engine forgets with the stop that it was done is log entry 40. -/
def Obligations.HandlerCompletesATransfer : Prop :=
  ∀ s : State, Delivered s 10 → (engine s).irq = true → (handlerStatus s).getLsbD 5 = false →
    (handlerStatus s).getLsbD 0 = false → (transfer s).state = .inProgress →
    ∃ (t : State) (v : Byte), exec .irqHandler s = .next t ∧ v.getLsbD 2 = true ∧
      t.trace = s.trace ++ [.write .w8 ((regs s).base + 6#16) ((selectByte s).setWidth 32),
        .read .w8 ((regs s).bm + 2#16) (v.setWidth 32), statusRead s (handlerStatus s),
        .write .w8 (regs s).bm 0#32, .write .w8 ((regs s).bm + 2#16) 4#32] ∧
      Returns s t .irqHandler (.handled true) ∧
      SetsDevice s t { s.dev s.port.ops.dev with ct := { transfer s with state := .finished, event := true } } ∧
      KeepsMemory s t ∧ KeepsRest s t ∧ block t = { block s with device := selectByte s } ∧
      engine t = { engine s with buscmd := 0#8, irq := false, dma := none } ∧ t.env.ctl = s.env.ctl ∧
      KeepsOtherBlocks s t (regs s)

/-- DF in STATUS: the handler raises DeviceFault with the byte, also when ERR is set; three port events; BUSCMD is not
stopped, `ct` stays, the IRQ bit is not acknowledged; the handler agent is ended (R305, R323 to R325). How a fault is
recorded and how it ends the agent is log entry 10; that no port read changes a register is log entry 34. That windows
are apart is log entry 27. That a read of BUSSTATUS takes an answer of the environment is log entry 14. -/
def Obligations.HandlerFaultsOnDeviceFault : Prop :=
  ∀ s : State, Delivered s 5 → (engine s).irq = true → (handlerStatus s).getLsbD 5 = true →
    ∃ (t : State) (v : Byte), exec .irqHandler s = .next t ∧ v.getLsbD 2 = true ∧
      t.trace = s.trace ++ [.write .w8 ((regs s).base + 6#16) ((selectByte s).setWidth 32),
        .read .w8 ((regs s).bm + 2#16) (v.setWidth 32), statusRead s (handlerStatus s)] ∧
      t.returns = s.returns ∧ t.log = s.log ∧ EndsHandler s t (.deviceFault (handlerStatus s)) ∧
      engine t = engine s ∧ KeepsMemory s t ∧ block t = { block s with device := selectByte s } ∧
      t.env.ctl = s.env.ctl ∧ KeepsOtherBlocks s t (regs s) ∧ KeepsAgents s t

/-- ERR without DF in STATUS: the handler reads ERROR, logs STATUS and ERROR, and raises RuntimeDeviceError with both;
four port events; BUSCMD is not stopped, `ct` stays, the IRQ bit is not acknowledged; the handler agent is ended (R306,
R323, R324). How a fault is recorded and how it ends the agent is log entry 10; that no port read changes a register is
log entry 34. That windows are apart is log entry 27. That a read of BUSSTATUS takes an answer of the environment is log
entry 14. -/
def Obligations.HandlerLogsAndHaltsOnError : Prop :=
  ∀ s : State, Delivered s 7 → (engine s).irq = true → (handlerStatus s).getLsbD 5 = false →
    (handlerStatus s).getLsbD 0 = true →
    let e : Byte := s.tookAnswer.tookAnswer.nextAnswer.setWidth 8
    ∃ (t : State) (v : Byte), exec .irqHandler s = .next t ∧ v.getLsbD 2 = true ∧
      t.trace = s.trace ++ [.write .w8 ((regs s).base + 6#16) ((selectByte s).setWidth 32),
        .read .w8 ((regs s).bm + 2#16) (v.setWidth 32), statusRead s (handlerStatus s),
        .read .w8 ((regs s).base + 1#16) (e.setWidth 32)] ∧
      t.returns = s.returns ∧ t.log = s.log ++ [{ status := handlerStatus s, error := e }] ∧
      EndsHandler s t (.runtimeDeviceError (handlerStatus s) e) ∧ engine t = engine s ∧ KeepsMemory s t ∧
      block t = { block s with device := selectByte s } ∧
      t.env.ctl = s.env.ctl ∧ KeepsOtherBlocks s t (regs s) ∧ KeepsAgents s t

/-- A spurious or duplicate interrupt with a clean STATUS: BUSCMD is stopped, then CasFailed is raised with the state
found; `ct` stays, the event is not signalled, the IRQ bit is not acknowledged; the handler agent is ended (R308, R313,
R323, R324). How a fault is recorded and how it ends the agent is log entry 10; that no port read changes a register is
log entry 34. That windows are apart is log entry 27. That a read of BUSSTATUS takes an answer of the environment is log
entry 14. That the engine forgets with the stop that it was done is log entry 40. -/
def Obligations.HandlerFaultsOnSpuriousCompletion : Prop :=
  ∀ s : State, Delivered s 7 → (engine s).irq = true → (handlerStatus s).getLsbD 5 = false →
    (handlerStatus s).getLsbD 0 = false → (transfer s).state ≠ .inProgress →
    ∃ (t : State) (v : Byte), exec .irqHandler s = .next t ∧ v.getLsbD 2 = true ∧
      t.trace = s.trace ++ [.write .w8 ((regs s).base + 6#16) ((selectByte s).setWidth 32),
        .read .w8 ((regs s).bm + 2#16) (v.setWidth 32), statusRead s (handlerStatus s),
        .write .w8 (regs s).bm 0#32] ∧
      t.returns = s.returns ∧ t.log = s.log ∧ EndsHandler s t (.casFailed (transfer s).state) ∧
      engine t = { engine s with buscmd := 0#8, dma := none } ∧ KeepsMemory s t ∧ block t = { block s with device := selectByte s } ∧
      t.env.ctl = s.env.ctl ∧ KeepsOtherBlocks s t (regs s) ∧ KeepsAgents s t

/-- A handler agent that a fault has ended takes no further step: every call on it from the interrupt context that the
port accepts answers the outcome `fault` with that fault: a delivery where its handler is registered, the other seven
operations where its device is brought up (R56, R323, R327). The outcome `fault` is how the model says that no step
exists (log entry 10). That a registration outlives a failed bring-up is log entry 17. -/
def Obligations.EndedHandlerStaysEnded : Prop :=
  ∀ (s : State) (k : Fault), s.port.ctx = .interrupt → (s.dev s.port.ops.dev).handlerFault = some k →
    ((s.dev s.port.ops.dev).registered = true → exec .irqHandler s = .fault k) ∧
    ((s.dev s.port.ops.dev).phase = .up →
      ∀ i ∈ [Instr.selectDevice, .rdBusstatus, .rdStatus, .rdError, .stopDma, .tsmComplete, .wrBusstatus],
        exec i s = .fault k)

/-! ## Encoding -/

/-- A word decodes to an operation exactly when it is that operation's encoding: no two words select one operation and
no other word selects any; the words that decode and then fault are exactly the byte accesses with an offset from 0x16
on (R91 to R101, R126). A word is presented in its format; that the format stands beside the word, and the layout in
bytes, low byte first, are the model's choice (log entry 8). -/
def Obligations.DecodeReadsExactlyTheEncodedWord : Prop :=
  ∀ w : PortWord,
    (∀ i : Instr, decode w = .instr i ↔ w = encode i) ∧
    ∀ (write : Bool) (off : Byte),
      decode w = .outOfRange write off ↔ 0x16 ≤ off.toNat ∧ w = ⟨.acc, [off, if write then 0x01#8 else 0x00#8]⟩

/-- Words written out from the spec's encoding tables decode to their operations: RD STATUS 0x007, WR LBA5 0x10B, RD16
DATA 0x200, WR32 PRDTADDR 0x512 (the low byte first), IDENTIFY 0xEC, INIT_DEVICE of the secondary slave 0x31,
TRANSFER_SECTORS async read 0x12 and sync write 0x22, PIO_BUFFER isWrite=1 0x28, IRQ_HANDLER 0x0D (R91, R98, R99). A REQ
word with a flag set where R99 shows 0, with bits 7:6 nonzero or with a reserved code is refused, also where its byte is
a command's, and so is a CMD word of no command (R101, U6, U21). That the low byte comes first, and that the format
stands beside the word, is the model's choice (log entry 8). -/
def Obligations.WordsOfTheSpecDecode : Prop :=
  decode ⟨.acc, [0x07#8, 0x00#8]⟩ = .instr .rdStatus ∧ decode ⟨.acc, [0x0B#8, 0x01#8]⟩ = .instr .wrLba5 ∧
    decode ⟨.acc, [0x00#8, 0x02#8]⟩ = .instr .rd16Data ∧ decode ⟨.acc, [0x12#8, 0x05#8]⟩ = .instr .wr32Prdtaddr ∧
    decode ⟨.cmd, [0xEC#8]⟩ = .instr .identify ∧ decode ⟨.req, [0x31#8]⟩ = .instr (.initDevice true true) ∧
    decode ⟨.req, [0x12#8]⟩ = .instr (.transferSectors true false) ∧
    decode ⟨.req, [0x22#8]⟩ = .instr (.transferSectors false true) ∧ decode ⟨.req, [0x28#8]⟩ = .instr .pioBufferWrite ∧
    decode ⟨.req, [0x0D#8]⟩ = .instr .irqHandler ∧
    (∀ b ∈ [0x24#8, 0x25#8, 0x34#8, 0x35#8, 0xEC#8, 0x00#8, 0x0F#8], decode ⟨.req, [b]⟩ = .illegal .reservedByte) ∧
    decode ⟨.cmd, [0x31#8]⟩ = .illegal .unknownCommand

/-! ## The step -/

/-- A step whose turn is a request with a decodable word runs the decoded operation at the state with the request
latched and the turn taken; while an interrupt activation is unfinished it is refused instead (R99, R331). A word that
selects no operation and is no byte access out of range is refused (R94, R101). Turns, and the operands latched beside
the word, are the model's choice (log entries 6 and 9); that the port waits for the activation presumes one processor
(log entry 23). What a refusal is, is log entry 11. -/
def Obligations.StepRunsTheDecodedInstruction : Prop :=
  ∀ (s : State) (r : Request) (rest : List Turn), s.inputs = .call r :: rest →
    (∀ i, decode r.word = .instr i →
      step s = if s.activation.isSome then .refused .interruptRunning
        else exec i { s with inputs := rest, port := r }) ∧
    (s.activation = none → (∀ i, decode r.word ≠ .instr i) → (∀ w off, decode r.word ≠ .outOfRange w off) →
      ∃ x ∈ [Refusal.badLength, .accUpperBits, .accReservedSize, .accWordNotData, .accDwordNotPrdtaddr,
          .unknownCommand, .reservedByte],
        step s = .refused x)

/-- A byte access whose offset is out of range: no port event, the fault UnreachableOffset with the offset is
recorded, and nothing else of the machine changes but the turn taken and the request latched (R126, R322, R324).
That the record stands in a next state is the model's choice (log entry 10). -/
def Obligations.OutOfRangeAccessFaults : Prop :=
  ∀ (s : State) (r : Request) (rest : List Turn) (write : Bool) (off : Byte),
    s.inputs = .call r :: rest → s.activation = none → decode r.word = .outOfRange write off →
    r.ctx = .thread → (s.dev r.ops.dev).phase = .up →
      step s = .next { s with
        inputs := rest, port := r
        faults := s.faults ++ [{ dev := r.ops.dev, ctx := .thread, fault := .unreachableOffset off }] }

/-- While an interrupt activation is unfinished no thread moves and no call or activation starts (R331). One
processor is presumed (log entry 23). -/
def Obligations.TheInterruptContextIsNotPreempted : Prop :=
  ∀ (s : State) (f : Frame) (rest : List Turn), s.activation = some f →
    (∀ r, s.inputs = .call r :: rest → step s = .refused .interruptRunning) ∧
    ∀ tid n, s.inputs = .resume tid n :: rest → step s = .refused .interruptRunning

/-- An operation invoked from the wrong context is refused: TSM_COMPLETE and IRQ_HANDLER from a thread; from the
interrupt context everything but the eight operations it may call, a byte access out of range included (R126, R300,
R341). What a refusal is, and that the context is looked at first, is log entry 11. -/
def Obligations.WrongContextIsRefused : Prop :=
  (∀ (i : Instr) (s : State),
    ((s.port.ctx = .thread ∧ (i = .tsmComplete ∨ i = .irqHandler)) ∨
      (s.port.ctx = .interrupt ∧ i ∉ [Instr.irqHandler, .selectDevice, .rdBusstatus, .rdStatus, .rdError,
        .stopDma, .tsmComplete, .wrBusstatus])) →
    exec i s = .refused .wrongContext) ∧
  ∀ (s : State) (r : Request) (rest : List Turn) (write : Bool) (off : Byte),
    s.inputs = .call r :: rest → s.activation = none → decode r.word = .outOfRange write off → r.ctx = .interrupt →
    step s = .refused .wrongContext

/-- Before bring-up has returned Success for a device, every operation on it but INIT_DEVICE is refused, from either
context, a byte access out of range included (R56, R126); a delivery is refused where no handler is registered for the
device (R52, R327). BUILD_PRDT works on no device, and a transfer request whose device is null is answered by its
parameter check (R271). INIT_DEVICE on a device that is brought up, or being brought up, is refused while its transfer
is InProgress (R362). BUILD_PRDT and the null device are the model's reading (log entry 29). What a device is between
two bring-ups is log entry 17: that operations are refused there after an earlier Success, that a delivery to a handler
registered before is accepted there, and that a transfer is looked for only while the device is up or being brought up.
What a refusal is, is log entry 11. -/
def Obligations.NothingRunsBeforeBringUp : Prop :=
  (∀ (i : Instr) (s : State), s.port.ctx = .thread → (s.dev s.port.ops.dev).phase ≠ .up →
    i ≠ .tsmComplete → i ≠ .irqHandler → i ≠ .buildPrdt → (∀ a b, i ≠ .initDevice a b) →
    (∀ a w, i = .transferSectors a w → s.port.ops.devValid = true) →
    exec i s = .refused .notBroughtUp) ∧
  (∀ s : State, s.port.ctx = .interrupt → (s.dev s.port.ops.dev).phase ≠ .up →
    ∀ i ∈ [Instr.selectDevice, .rdBusstatus, .rdStatus, .rdError, .stopDma, .tsmComplete, .wrBusstatus],
      exec i s = .refused .notBroughtUp) ∧
  (∀ s : State, s.port.ctx = .interrupt → (s.dev s.port.ops.dev).registered = false →
    exec .irqHandler s = .refused .notBroughtUp) ∧
  (∀ (s : State) (secondary slave : Bool), s.port.ctx = .thread → (s.dev s.port.ops.dev).phase ≠ .down →
    (transfer s).state = .inProgress → exec (.initDevice secondary slave) s = .refused .transferInProgress) ∧
  ∀ (s : State) (r : Request) (rest : List Turn) (write : Bool) (off : Byte),
    s.inputs = .call r :: rest → s.activation = none → decode r.word = .outOfRange write off → r.ctx = .thread →
    (s.dev r.ops.dev).phase ≠ .up → step s = .refused .notBroughtUp

/-! ## The whole machine -/

/-- Both invariants hold at reset: every table is empty, no device is brought up and no agent is under way (R24, R56,
R361). -/
def Obligations.ResetMeetsTheInvariant : Prop := Safety.Inv State.reset ∧ Safety.TransferInv State.reset

/-- Every step keeps the invariant: the memories and tables stay canonical, allocation handles and thread numbers stay
fresh, and the contexts keep their discipline, an unfinished activation never having a wait, an allocation or a
translation ahead, and every agent only steps of its own operation (R20, R22, R25, R235, R301, R341). -/
def Obligations.EveryStepKeepsTheInvariant : Prop :=
  ∀ s t : State, Safety.Inv s → step s = .next t → Safety.Inv t

/-- No step clears a recorded fault, and the port trace, the log, the results, the calls and the engine's accesses only
grow at their end; a faulted state is never followed by a fault-free one nor by a final one (R60, R79, R323). That a
fault is a record in a next state is log entry 10. -/
def Obligations.HistoriesOnlyGrow : Prop :=
  ∀ s t : State, step s = .next t →
    s.faults <+: t.faults ∧ s.trace <+: t.trace ∧ s.log <+: t.log ∧ s.returns <+: t.returns ∧ s.calls <+: t.calls ∧
      s.dmaTrace <+: t.dmaTrace ∧
      (Safety.faultFree s = false → Safety.faultFree t = false ∧ Safety.final t = false)

/-- Who writes the records of a device, in every step. A device's records change only in a sequence of that device: of a
request, of a resumed thread or of the resumed activation. DeviceRegisters, the phase and the registration change in
INIT_DEVICE, and the interrupt-suppression flag in PROGRAM_NIEN and TRANSFER_SECTORS; no other operation writes them.
`ct` is touched by the submitter's and the handler's operations and bring-up only: any other operation, a synchronous
transfer among them, leaves it. No step unregisters a handler, and no thread ends a handler agent (R20, R22, R23, R25,
R235, R288, R323, R327). That a failed bring-up keeps the registration and the recorded fault is log entry 17. That a
second registration counts as one is log entry 42. -/
def Obligations.RecordsAreWrittenByTheirOperations : Prop :=
  ∀ s t : State, Safety.Inv s → step s = .next t → ∀ k, t.dev k ≠ s.dev k →
    ∃ i c, Safety.works s i c k ∧
      ((∀ a b, i ≠ .initDevice a b) →
        (∃ b, (t.dev k).dr = { (s.dev k).dr with nien := b }) ∧ (t.dev k).phase = (s.dev k).phase ∧
        (t.dev k).registered = (s.dev k).registered ∧
        ((∀ b, i ≠ .programNien b) → (∀ a w, i ≠ .transferSectors a w) → (t.dev k).dr = (s.dev k).dr) ∧
        (i ∉ [Instr.tsmSubmit, .tsmComplete, .tsmConsume, .irqHandler] → (∀ w, i ≠ .transferSectors true w) →
          (t.dev k).ct = (s.dev k).ct)) ∧
      ((s.dev k).registered = true → (t.dev k).registered = true) ∧
      (c = .thread → (t.dev k).handlerFault = (s.dev k).handlerFault)

/-- The arcs of the transfer state machine, in every step of a state that meets the transfers' invariant: `ct.state` of
a device changes only in a sequence of that device, a submitter's to InProgress, or from Finished to Free; a handler's
from InProgress to Finished; a bring-up's to Free, a failed one leaving it unspecified (R230, R231, R234, R264). That a
failed bring-up leaves the state free is log entry 17, and that a consumed transfer becomes Free log entry 24. -/
def Obligations.TransferStateMovesAlongItsArcs : Prop :=
  ∀ s t : State, Safety.TransferInv s → step s = .next t →
    ∀ k, (t.dev k).ct.state ≠ (s.dev k).ct.state →
      ∃ i c, Safety.works s i c k ∧
        ((c = .thread ∧ (i = .tsmSubmit ∨ i = .tsmConsume ∨ ∃ w, i = .transferSectors true w) ∧
            ((t.dev k).ct.state = .inProgress ∨
              ((s.dev k).ct.state = .finished ∧ (t.dev k).ct.state = .free))) ∨
          (c = .interrupt ∧ (i = .tsmComplete ∨ i = .irqHandler) ∧ (s.dev k).ct.state = .inProgress ∧
            (t.dev k).ct.state = .finished) ∨
          (c = .thread ∧ (∃ a b, i = .initDevice a b) ∧
            ((t.dev k).ct.state = .free ∨ (t.dev k).phase = .down)))

/-- Every step that keeps the launch premise D38, at most one operation in thread context a channel at a time, keeps the
transfers' invariant: on a device that is brought up a table pointer stands only with InProgress or Finished, or in the
submitter's window between its store and the store of InProgress (R24, R281, R283, R375). -/
def Obligations.SerializedStepsKeepTheTransferInvariant : Prop :=
  ∀ s t : State, Safety.TransferInv s → Safety.serialized s → step s = .next t → Safety.TransferInv t

/-- The DMA engine moves only while START is set and its device runs a command that does not go through DATA, and it
follows its table: it fetches the next entry when the one before is done and was not the last; towards memory (READ set)
it stores the device's next bytes, otherwise it loads them, at most those its entry has left (a count field of 0 meaning
65536), at the entry's address and on from there. Below 4 GB, where the bytes are stated, an entry fetched is the
address, count and flags of its 8 bytes, little-endian at offsets 0, 4 and 6, and a byte loaded is the byte of memory.
No byte of memory outside those stored changes, and nothing else but the engine's progress and the record of its
accesses (R33, R44, R64, R79, R95, R96). Turns, the free bytes of a fetch and the order inside an entry are the model's
(log entry 21). That windows are apart is log entry 27. That the device and its engine are found at the addresses its
records hold now is log entry 41. -/
def Obligations.TheDmaEngineFollowsItsTable : Prop :=
  (∀ (m : Memory) (a k addr count flags : Nat), a + 8 * k + 8 ≤ 2 ^ 32 →
    Memory.readLE m (a + 8 * k) 4 = some addr → Memory.readLE m (a + 8 * k + 4) 2 = some count →
    Memory.readLE m (a + 8 * k + 6) 2 = some flags → prdFetch m a k = { addr := addr, count := count, flags := flags }) ∧
  (∀ (m : Memory) (a : Nat) (v : Byte), a < 2 ^ 32 → Memory.read m a = some v → engineByte m a = v) ∧
  ∀ (s : State) (h : Handle) (rest : List Turn),
    let d := (s.dev h).dr
    let b := s.busMaster d.bm
    let own := (s.cmdBlock d.base).position d.slave
    let runs := fun p : DmaProgress => b.dma = some p ∧ b.buscmd.getLsbD 0 = true ∧ own.running = true ∧
      own.command ∉ [0xEC#8, 0x24#8, 0x34#8]
    let moved := fun (p : DmaProgress) (t : State) => KeepsTheBlock s t rest ∧ t.env.cmd = s.env.cmd ∧
      t.env.ctl = s.env.ctl ∧ KeepsAnswers s t ∧ t.busMaster d.bm = { b with dma := some p } ∧
      ∀ k, k ≠ d.bm → t.busMaster k = s.busMaster k
    let after := fun (p : DmaProgress) (n : Nat) => { p with addr := p.addr + n, left := p.left - n }
    (s.inputs = .dmaFetch h :: rest →
      (∀ p, runs p → p.left = 0 → p.last = false →
        let e := prdFetch s.mem b.prdtaddr.toNat p.next
        ∃ t, step s = .next t ∧ t.mem = s.mem ∧
          moved { next := p.next + 1, addr := e.addr, left := if e.count = 0 then 65536 else e.count,
                  last := decide (e.flags / 32768 % 2 = 1) } t ∧
          t.dmaTrace = s.dmaTrace ++ [.fetch (b.prdtaddr.toNat + 8 * p.next)]) ∧
      ((∀ p, ¬(runs p ∧ p.left = 0 ∧ p.last = false)) → step s = .refused .notEnabled)) ∧
    (∀ bs, s.inputs = .dmaStore h bs :: rest →
      (∀ p, runs p → b.buscmd.getLsbD 3 = true → bs ≠ [] → bs.length ≤ p.left →
        ∃ t, step s = .next t ∧ moved (after p bs.length) t ∧
          (∀ i v, bs[i]? = some v → Memory.read t.mem (p.addr + i) = some v) ∧
          (∀ a, a < p.addr ∨ p.addr + bs.length ≤ a → Memory.read t.mem a = Memory.read s.mem a) ∧
          t.dmaTrace = s.dmaTrace ++ bs.zipIdx.map (fun x => .store (p.addr + x.2) x.1)) ∧
      ((∀ p, ¬(runs p ∧ b.buscmd.getLsbD 3 = true ∧ bs ≠ [] ∧ bs.length ≤ p.left)) →
        step s = .refused .notEnabled)) ∧
    ∀ n, s.inputs = .dmaLoad h n :: rest →
      (∀ p, runs p → b.buscmd.getLsbD 3 = false → n ≠ 0 → n ≤ p.left →
        ∃ t, step s = .next t ∧ t.mem = s.mem ∧ moved (after p n) t ∧
          t.dmaTrace = s.dmaTrace ++ (List.range n).map (fun i => .load (p.addr + i) (engineByte s.mem (p.addr + i)))) ∧
      ((∀ p, ¬(runs p ∧ b.buscmd.getLsbD 3 = false ∧ n ≠ 0 ∧ n ≤ p.left)) → step s = .refused .notEnabled)

/-- The environment's other turns. A device signals completion, which sets its IRQ bit, exactly when it is the selected
device, runs a command written with NIEN = 0, its NIEN bit is clear and, for a DMA command, its engine has processed the
entry marked last (R41 to R44, R326; log entry 13). A device may change its own FIFO bytes at any time (R47). The caller
stores a byte of its buffer, and a physical run may come to back one (R49; log entries 22, 37 and 38). None of them
touches a record, the trace or an agent. That windows are apart is log entry 27. Turns are log entry 6, and that each
position has FIFO bytes of its own is log entry 12. That a device is found at the addresses its records hold now is log
entry 41. -/
def Obligations.TheDeviceAndTheCallerMove : Prop :=
  ∀ (s : State) (rest : List Turn),
    (∀ h, s.inputs = .signal h :: rest →
      let d := (s.dev h).dr
      let own := (s.cmdBlock d.base).position d.slave
      let may := (s.cmdBlock d.base).device.getLsbD 4 = d.slave ∧ own.running = true ∧ own.mayInterrupt = true ∧ (s.devctl d.ctrl).getLsbD 1 = false ∧
        (own.command = 0x25#8 ∨ own.command = 0x35#8 →
          ∃ p, (s.busMaster d.bm).dma = some p ∧ p.last = true ∧ p.left = 0)
      (may → ∃ t, step s = .next t ∧ KeepsTheBlock s t rest ∧ t.mem = s.mem ∧ t.dmaTrace = s.dmaTrace ∧
        t.busMaster d.bm = { s.busMaster d.bm with irq := true } ∧
        t.cmdBlock d.base = (s.cmdBlock d.base).setPosition d.slave { own with running := false } ∧
        t.env.ctl = s.env.ctl ∧ KeepsOtherBlocks s t d ∧ KeepsAnswers s t) ∧
      (¬may → step s = .refused .notEnabled)) ∧
    (∀ base slave v,
      let p := (s.cmdBlock base).position slave
      ∀ e ∈ [(2, { p with seccount := v }), (3, { p with lba0 := v }), (4, { p with lba1 := v }),
          (5, { p with lba2 := v })],
        s.inputs = .fifo base slave e.1 v :: rest →
        ∃ t, step s = .next t ∧ KeepsTheBlock s t rest ∧ t.mem = s.mem ∧ t.dmaTrace = s.dmaTrace ∧
          t.cmdBlock base = (s.cmdBlock base).setPosition slave e.2 ∧ (∀ k, k ≠ base → t.cmdBlock k = s.cmdBlock k) ∧
          t.env.ctl = s.env.ctl ∧ t.env.bm = s.env.bm ∧ KeepsAnswers s t) ∧
    (∀ a b, s.inputs = .bufStore a b :: rest →
      ∃ t, step s = .next t ∧ t = { s with mem := t.mem, buf := t.buf, inputs := rest } ∧
        t.readPlace (s.place a) = some b ∧ ∀ p, p ≠ s.place a → t.readPlace p = s.readPlace p) ∧
    ∀ a r, s.inputs = .back a r :: rest →
      ∃ t, step s = .next t ∧ t = { s with backing := t.backing, inputs := rest } ∧
        Table.lookup t.backing a = some r ∧ ∀ k, k ≠ a → Table.lookup t.backing k = Table.lookup s.backing k

/-! ## The Descriptor-Table Builder -/

/-- The crossing test and the split, for every interval of `c` bytes at `a`: it crosses exactly when `a mod 65536 + c` is
above 65536, which for `c` of at least 1 is when its first and its last byte lie in different 64 KB blocks; one that
ends on a boundary does not cross. A crossing interval gives the entry up to the boundary and the entry of the rest,
another gives one entry with its address and length (R208). That an end on the boundary is no crossing is the spec's
decision D17. -/
def Obligations.AnIntervalIsSplitExactlyWhereItCrosses : Prop :=
  ∀ a c : Nat,
    let o := a % 65536
    let first := 65536 - o
    (1 ≤ c → (65536 < o + c ↔ a / 65536 ≠ (a + c - 1) / 65536)) ∧
    (crosses a c = true ↔ 65536 < o + c) ∧
    (65536 < o + c → splitPair a c = [{ addr := a, len := first }, { addr := a + first, len := c - first }]) ∧
    (o + c ≤ 65536 → splitPair a c = [{ addr := a, len := c }])

/-- BUILD_PRDT completes: for acceptable pairs that cover the request, an allocation at an address the table register
can hold, and no port access, it returns a table whose memory holds exactly the entries of R206 and R208 in pair order,
the last one marked; one call of `Alloc` of `16 x N` bytes has been made, the allocation stays, no byte outside it
changes, no record changes (R200, R201, R208, R210 to R212, R215). The handle's number and the count of steps are the
model's choice (log entries 18 and 20). That it is accepted in every phase of the device named beside it is log entry
29. -/
def Obligations.BuildReturnsTheTable : Prop :=
  ∀ (s : State) (phys : PhysAddr) (rest : List (Option PhysAddr)),
    s.port.ctx = .thread → 7 * s.port.ops.pairs.length + 8 ≤ s.port.slice →
    Covers s.port.ops.pairs s.port.ops.totalBytes → s.env.allocations = some phys :: rest →
    phys.toNat ≤ 0xFFFFFFFF →
    let es := entriesOf s.port.ops.pairs s.port.ops.totalBytes
    ∃ t, exec .buildPrdt s = .next t ∧
      Returns s t .buildPrdt (.table { handle := s.nextHandle, phys := phys, entries := es.length }) ∧
      TableAt t.mem phys.toNat es ∧ KeepsOutside s t phys.toNat (16 * s.port.ops.pairs.length) ∧
      t.allocs = s.allocs ++
        [{ handle := s.nextHandle, phys := phys, bytes := 16 * s.port.ops.pairs.length, align := Config.prdtAllocAlign }] ∧
      t.calls = s.calls ++ [.alloc (16 * s.port.ops.pairs.length) Config.prdtAllocAlign] ∧
      t.devs = s.devs ∧ t.trace = s.trace ∧ KeepsOutputs s t ∧ t.threads = s.threads ∧
      t.env = { s.env with allocations := rest }

/-- What holds of every table BUILD_PRDT returns, whatever the pairs: the lengths sum to the request, exactly the last
entry is marked, no entry crosses a 64 KB boundary, every address is even and every entry ends at or below 4 GB,
every length is in 1..65536 and even when the request is, there are N to 2N entries, the table lies at or below
PRDT_MAX_ADDR (R212, R214). -/
def Obligations.EveryReturnedTableIsWellFormed : Prop :=
  ∀ (s t : State) (tb : PrdTable), exec .buildPrdt s = .next t → Returns s t .buildPrdt (.table tb) →
    let n := s.port.ops.totalBytes
    ∃ es : List (Nat × Nat), es.length = tb.entries ∧ TableAt t.mem tb.phys.toNat es ∧
      (es.map (·.2)).sum = n ∧
      (∀ e ∈ es, e.1 % 65536 + e.2 ≤ 65536 ∧ e.1 % 2 = 0 ∧ e.1 + e.2 ≤ 2 ^ 32 ∧ 1 ≤ e.2 ∧ e.2 ≤ 65536 ∧
        (n % 2 = 0 → e.2 % 2 = 0)) ∧
      s.port.ops.pairs.length ≤ es.length ∧ es.length ≤ 2 * s.port.ops.pairs.length ∧
      tb.phys.toNat ≤ 0xFFFFFFFF

/-- Every stop of BUILD_PRDT: an empty list and pairs that cover too little raise RemainingNonzero with the bytes left;
a failed allocation returns AllocationFailure; the first pair that fails a check, in the order of the checks, returns
PhysicalAddressOutOfRange, Misaligned or SpanTooLarge, or raises EmptyEntry or AddressTruncation with the pair's index;
a table above 4 GB returns TableAddressOutOfRange. Each gives the allocation back and leaves none behind (R201, R203 to
R207, R211 to R213, R325). The form of the records, the number that names the allocation given back and the count of
steps are the model's choice (log entries 10, 18 and 20). That it is accepted in every phase of the device named beside
it is log entry 29. -/
def Obligations.BuildStopsWithoutATable : Prop :=
  ∀ (s : State) (alloc : Option PhysAddr) (rest : List (Option PhysAddr)) (b : BuildStop),
    let ps := s.port.ops.pairs
    s.port.ctx = .thread → 7 * ps.length + 8 ≤ s.port.slice → HandlesGivenOut s →
    s.env.allocations = alloc :: rest → StopsWith ps s.port.ops.totalBytes alloc b →
    ∃ t, exec .buildPrdt s = .next t ∧ EndsWith s t .buildPrdt b ∧ t.allocs = s.allocs ∧
      KeepsOutsideTable s t ps alloc ∧ (∀ x, Memory.read t.buf x = Memory.read s.buf x) ∧
      t.calls = s.calls ++ stopCalls s ps alloc ∧
      t.env = { s.env with allocations := if ps = [] then s.env.allocations else rest } ∧
      t.devs = s.devs ∧ t.trace = s.trace ∧ t.backing = s.backing ∧ t.outs = s.outs ∧ t.dmaTrace = s.dmaTrace ∧
      t.log = s.log ∧ t.threads = s.threads ∧ t.nextTid = s.nextTid ∧ t.activation = s.activation ∧
      t.port = s.port ∧ t.inputs = s.inputs

/-! ## The read/write orchestrator -/

/-- A null device, buffer or output pointer, or a sector count of 0, returns InvalidParameter at once: the whole rest of the
machine is unchanged, the output slot is not written (R271). That a null device is answered this way also
where the handle's device is not brought up is the model's reading (log entry 29). -/
def Obligations.InvalidParametersTouchNothing : Prop :=
  ∀ (s : State) (async isWrite : Bool), s.port.ctx = .thread → 1 ≤ s.port.slice →
    (s.port.ops.devValid = false ∨ ((s.dev s.port.ops.dev).phase = .up ∧
      (s.port.ops.bufValid = false ∨ s.port.ops.outValid = false ∨ s.port.ops.sectorCount = 0#16))) →
    exec (.transferSectors async isWrite) s = .next { s with
      returns := s.returns ++
        [{ dev := s.port.ops.dev, op := .transferSectors async isWrite, result := .status .invalidParameter }] }

/-- A synchronous read runs to Success: the events of S1 to S6 with NIEN set, the command 0x24, then for each word two
reads of STATUS and one 16-bit read of DATA; the buffer holds the words, the output slot the sector count, `dr.nien` is
1, `ct`, the bus-master block and the collaborators are untouched (R271 to R278, R284, R288, R289). The device is ready
at once. Where the buffer's bytes lie is log entry 22; the steps are log entry 20. That no port read changes a register
is log entry 34. That windows are apart is log entry 27. A command still running is replaced (log entry 36). That all
callers share one virtual address space is log entry 37. That a write to the command block reaches the selected position
alone is log entry 12. That a read of STATUS takes an answer of the environment also where no device is there is log
entry 14. -/
def Obligations.SynchronousReadCompletes : Prop :=
  ∀ (s : State) (a b c : Dword) (ws : List (Dword × Dword × Dword)) (rest : List Dword),
    ValidTransfer s → Ready s (26 + 4 * ws.length) →
    ws.length = s.port.ops.sectorCount.toNat * 256 →
    ReadyAtOnce s a b c (ws.flatMap (fun w => [w.1, w.2.1, w.2.2]) ++ rest) →
    (∀ w ∈ ws, w.1.getLsbD 7 = false ∧ w.2.1.getLsbD 3 = true) →
    ∃ t, exec (.transferSectors false false) s = .next t ∧
      t.trace = s.trace ++
        (prologueEvents s 0x02#8 (statusSeen s a) (b.setWidth 8) (c.setWidth 8) ++
          [commandWritten s 7#16 0x24#8] ++
          ws.flatMap (fun w => [statusRead s (w.1.setWidth 8), statusRead s (w.2.1.setWidth 8),
            .read .w16 (regs s).base ((w.2.2.setWidth 16 : Word).setWidth 32)])) ∧
      Returns s t (.transferSectors false false) (.status .success) ∧
      SetsDevice s t { s.dev s.port.ops.dev with dr := { regs s with nien := true } } ∧
      block t = selectedWith s (commanded (programmed s) 0x24#8 0x02#8) ∧ t.devctl (regs s).ctrl = 0x02#8 ∧
      t.env.bm = s.env.bm ∧ t.env.answers = rest ∧ t.env.translations = s.env.translations ∧
      t.env.allocations = s.env.allocations ∧
      Table.lookup t.outs s.port.ops.outSlot = some s.port.ops.sectorCount ∧
      (∀ k, k ≠ s.port.ops.outSlot → Table.lookup t.outs k = Table.lookup s.outs k) ∧
      BufferFilled s t (ws.map (fun w => w.2.2.setWidth 16)) ∧ KeepsOtherBlocks s t (regs s) ∧
      t.backing = s.backing ∧ t.allocs = s.allocs ∧ t.calls = s.calls ∧ t.dmaTrace = s.dmaTrace ∧ t.log = s.log ∧
      t.faults = s.faults ∧ t.threads = s.threads ∧ t.activation = s.activation

/-- A synchronous write runs to Success: as the read with the command 0x34 and one 16-bit write of DATA for each word of
the buffer; no byte of a memory changes (R271 to R278, R284, R288, R289). Log entries 12, 14, 20, 22, 34 and 37 as for
the read. That a 16-bit write of DATA changes nothing the model keeps is log entry 15; what a byte of the buffer that
nothing has written reads as is log entry 5. That windows are apart is log entry 27. A command still running is replaced
(log entry 36). -/
def Obligations.SynchronousWriteCompletes : Prop :=
  ∀ (s : State) (a b c : Dword) (ws : List (Dword × Dword)) (rest : List Dword),
    ValidTransfer s → Ready s (26 + 4 * ws.length) →
    ws.length = s.port.ops.sectorCount.toNat * 256 →
    ReadyAtOnce s a b c (ws.flatMap (fun w => [w.1, w.2]) ++ rest) →
    (∀ w ∈ ws, w.1.getLsbD 7 = false ∧ w.2.getLsbD 3 = true) →
    ∃ t, exec (.transferSectors false true) s = .next t ∧
      t.trace = s.trace ++
        (prologueEvents s 0x02#8 (statusSeen s a) (b.setWidth 8) (c.setWidth 8) ++
          [commandWritten s 7#16 0x34#8] ++
          ws.zipIdx.flatMap (fun w => [statusRead s (w.1.1.setWidth 8), statusRead s (w.1.2.setWidth 8),
            .write .w16 (regs s).base ((bufferWord s w.2).setWidth 32)])) ∧
      Returns s t (.transferSectors false true) (.status .success) ∧
      SetsDevice s t { s.dev s.port.ops.dev with dr := { regs s with nien := true } } ∧
      block t = selectedWith s (commanded (programmed s) 0x34#8 0x02#8) ∧ t.devctl (regs s).ctrl = 0x02#8 ∧
      t.env.bm = s.env.bm ∧ t.env.answers = rest ∧ t.env.translations = s.env.translations ∧
      t.env.allocations = s.env.allocations ∧
      Table.lookup t.outs s.port.ops.outSlot = some s.port.ops.sectorCount ∧
      (∀ k, k ≠ s.port.ops.outSlot → Table.lookup t.outs k = Table.lookup s.outs k) ∧
      KeepsMemory s t ∧ KeepsOtherBlocks s t (regs s) ∧
      t.backing = s.backing ∧ t.allocs = s.allocs ∧ t.calls = s.calls ∧ t.dmaTrace = s.dmaTrace ∧ t.log = s.log ∧
      t.faults = s.faults ∧ t.threads = s.threads ∧ t.activation = s.activation

/-- An asynchronous request reaches its event wait: the calls `Translate(buffer, sectorCount x 512)` and `Alloc`; the
events of S1 to S6 with NIEN clear, PRDTADDR, the command 0x25 or 0x35, BUSCMD 0x09 or 0x01, in this order; the table is
in memory, `ct` is (InProgress, not signalled, the table), the device runs its command and its engine is started, and
the submitter is suspended before EventWait with no result (R272 to R286). The slice and the numbers of handle and
thread are the model's choice (log entries 6 and 18). That a read of STATUS changes no register is log entry 34. That
windows are apart is log entry 27. A command still running is replaced (log entry 36). That a write to the command block
reaches the selected position alone is log entry 12. That a read of STATUS takes an answer of the environment also where
no device is there is log entry 14. Where the engine starts is log entry 21. The count of steps is log entry 20. -/
def Obligations.AsynchronousRequestReachesItsEventWait : Prop :=
  ∀ (s : State) (isWrite : Bool) (a b c : Dword) (rest : List Dword) (ps : List Pair) (phys : PhysAddr)
    (trest : List (List Pair)) (arest : List (Option PhysAddr)),
    ValidTransfer s → Ready s (7 * ps.length + 34) → ReadyAtOnce s a b c rest → (transfer s).event = false →
    s.env.translations = ps :: trest → s.env.allocations = some phys :: arest →
    Covers ps (s.port.ops.sectorCount.toNat * 512) → phys.toNat ≤ 0xFFFFFFFF →
    let cmd : Byte := if isWrite then 0x35#8 else 0x25#8
    let start : Byte := if isWrite then 0x01#8 else 0x09#8
    let es := entriesOf ps (s.port.ops.sectorCount.toNat * 512)
    let tb : PrdTable := { handle := s.nextHandle, phys := phys, entries := es.length }
    ∃ t f, exec (.transferSectors true isWrite) s = .next t ∧
      t.trace = s.trace ++
        (prologueEvents s 0x00#8 (statusSeen s a) (b.setWidth 8) (c.setWidth 8) ++
          [.write .w32 ((regs s).bm + 4#16) (phys.setWidth 32), commandWritten s 7#16 cmd,
            .write .w8 (regs s).bm (start.setWidth 32)]) ∧
      t.calls = s.calls ++ [.translate s.port.ops.buffer (s.port.ops.sectorCount.toNat * 512),
        .alloc (16 * ps.length) Config.prdtAllocAlign] ∧
      t.returns = s.returns ∧ KeepsOutputs s t ∧
      SetsDevice s t { s.dev s.port.ops.dev with
        dr := { regs s with nien := false }, ct := { state := .inProgress, event := false, prdt := some tb } } ∧
      block t = selectedWith s (commanded (programmed s) cmd 0x00#8) ∧ t.devctl (regs s).ctrl = 0x00#8 ∧
      engine t = { engine s with
        buscmd := start, prdtaddr := phys.setWidth 32,
        dma := some { next := 0, addr := 0, left := 0, last := false } } ∧ KeepsOtherBlocks s t (regs s) ∧
      TableAt t.mem phys.toNat es ∧ KeepsOutside s t phys.toNat (16 * ps.length) ∧
      t.allocs = s.allocs ++
        [{ handle := s.nextHandle, phys := phys, bytes := 16 * ps.length, align := Config.prdtAllocAlign }] ∧
      Table.lookup t.threads s.nextTid = some f ∧ f.prog = waitingSteps ∧ f.ops = s.port.ops ∧
      f.op = .transferSectors true isWrite ∧
      ∀ k, k ≠ s.nextTid → Table.lookup t.threads k = Table.lookup s.threads k

/-- A DMA setup error: whenever the builder stops, with a status or with a fault, at any pair, at its allocation or at
the table's address, the request ends so: it returns the status, or the fault ends the submitter; no command is written,
`ct` stays, `dr.nien` is 0, no allocation is left, the output slot is not written (R279, R280, R289, R290, R321, R324).
That a read of STATUS changes no register is log entry 34. The count of steps is the model's choice (log entry 20). That
windows are apart is log entry 27. That a write to the command block reaches the selected position alone is log entry
12. That a read of STATUS takes an answer of the environment also where no device is there is log entry 14. That a fault
is a record in a next state is log entry 10, and the number that names the allocation given back log entry 18. -/
def Obligations.SetupErrorStartsNoCommand : Prop :=
  ∀ (s : State) (isWrite : Bool) (a b c : Dword) (rest : List Dword) (ps : List Pair) (trest : List (List Pair))
    (alloc : Option PhysAddr) (arest : List (Option PhysAddr)) (stop : BuildStop),
    let n := s.port.ops.sectorCount.toNat * 512
    ValidTransfer s → Ready s (7 * ps.length + 32) → ReadyAtOnce s a b c rest → HandlesGivenOut s →
    s.env.translations = ps :: trest → s.env.allocations = alloc :: arest → StopsWith ps n alloc stop →
    ∃ t, exec (.transferSectors true isWrite) s = .next t ∧
      t.trace = s.trace ++ prologueEvents s 0x00#8 (statusSeen s a) (b.setWidth 8) (c.setWidth 8) ∧
      EndsWith s t (.transferSectors true isWrite) stop ∧
      t.calls = s.calls ++ (.translate s.port.ops.buffer n :: stopCalls s ps alloc) ∧
      SetsDevice s t { s.dev s.port.ops.dev with dr := { regs s with nien := false } } ∧
      block t = selectedWith s (programmed s) ∧ t.devctl (regs s).ctrl = 0x00#8 ∧ t.env.bm = s.env.bm ∧
      KeepsOtherBlocks s t (regs s) ∧ t.allocs = s.allocs ∧ KeepsOutsideTable s t ps alloc ∧
      (∀ x, Memory.read t.buf x = Memory.read s.buf x) ∧ t.backing = s.backing ∧ t.outs = s.outs ∧
      t.dmaTrace = s.dmaTrace ∧ t.log = s.log ∧ t.threads = s.threads ∧ t.activation = s.activation ∧
      t.port = s.port ∧ t.inputs = s.inputs

/-- The submitter stays blocked in EventWait while its event is not signalled: a turn of it changes nothing but the turn
taken (R53, R286, R379). Turns are log entry 6. -/
def Obligations.EventWaitBlocksUntilSignalled : Prop :=
  ∀ (s : State) (tid n : Nat) (f : Frame) (rest : List Turn),
    s.inputs = .resume tid n :: rest → s.activation = none → Table.lookup s.threads tid = some f →
    f.ctx = .thread → f.prog = waitingSteps → (s.dev f.ops.dev).ct.event = false →
    ∃ t, step s = .next t ∧ (∀ k, Table.lookup t.threads k = Table.lookup s.threads k) ∧
      t = { s with inputs := rest, threads := t.threads }

/-- The submitter of a completed transfer runs to Success: the event is consumed, the table freed, the pointer null, the
state Free, the output slot holds the sector count, the thread ends; no port access (R286, R287, R289, R364). The freed
bytes hold no stated value, where handles are unique (R51). See log entries 4 and 24. That nothing is freed where the
pointer is null, with no call, or names no allocation, is log entry 18. The count of steps is log entry 20, and turns
are log entry 6. -/
def Obligations.SignalledSubmitterFinishes : Prop :=
  ∀ (s : State) (tid n : Nat) (f : Frame) (rest : List Turn),
    s.inputs = .resume tid n :: rest → s.activation = none → Table.lookup s.threads tid = some f →
    f.ctx = .thread → f.prog = waitingSteps → 6 ≤ n → (s.dev f.ops.dev).ct.event = true →
    (s.dev f.ops.dev).ct.state = .finished →
    ∃ t, step s = .next t ∧
      t.returns = s.returns ++ [{ dev := f.ops.dev, op := f.op, result := .status .success }] ∧
      t.dev f.ops.dev = { s.dev f.ops.dev with ct := { state := .free, event := false, prdt := none } } ∧
      (∀ k, k ≠ f.ops.dev → t.dev k = s.dev k) ∧
      (∀ x, x ∈ t.allocs ↔ x ∈ s.allocs ∧ ∀ p, (s.dev f.ops.dev).ct.prdt = some p → x.handle ≠ p.handle) ∧
      Table.lookup t.outs f.ops.outSlot = some f.ops.sectorCount ∧
      (∀ k, k ≠ f.ops.outSlot → Table.lookup t.outs k = Table.lookup s.outs k) ∧
      Table.lookup t.threads tid = none ∧
      (∀ k, k ≠ tid → Table.lookup t.threads k = Table.lookup s.threads k) ∧
      (∀ a, (∀ p x, (s.dev f.ops.dev).ct.prdt = some p → x ∈ s.allocs → x.handle = p.handle →
          a < x.phys.toNat ∨ x.phys.toNat + x.bytes ≤ a) → Memory.read t.mem a = Memory.read s.mem a) ∧
      (s.allocs.Pairwise (fun x y => x.handle ≠ y.handle) → ∀ p x a, (s.dev f.ops.dev).ct.prdt = some p →
        x ∈ s.allocs → x.handle = p.handle → x.phys.toNat ≤ a → a < x.phys.toNat + x.bytes →
          Memory.read t.mem a = none) ∧
      (∀ a, Memory.read t.buf a = Memory.read s.buf a) ∧
      t.calls = s.calls ++ ((s.dev f.ops.dev).ct.prdt.map (fun p => Call.free p.handle)).toList ∧
      t.trace = s.trace ∧ t.env = s.env ∧ t.backing = s.backing ∧ t.dmaTrace = s.dmaTrace ∧ t.faults = s.faults ∧
      t.log = s.log

/-! ## Bring-up -/

/-- Bring-up of a device that supports 48-bit addressing and whose handler can be registered returns Success with the
state of R57: resolved addresses, interrupts suppressed, the sector count of the identification words 100 to 103, the
line, the handler registered, `ct` (Free, not signalled, null), DEVCTL NIEN = 1 and HOB = 0, the device selected, BUSCMD
stopped; the port events of R265 in their order. `early` are the reads of STATUS after IDENTIFY before the device is
ready; then every word is ready at once (R57, R250 to R263, R265). The count of steps is the model's choice (log entry
20). That a read of STATUS changes no register is log entry 34. That windows are apart is log entry 27. A command still
running is replaced (log entry 36). That a write to the command block reaches the selected position alone is log entry
12. That a bring-up is accepted whatever positions and windows other devices have is log entry 35. That the engine
forgets with the stop that it was done is log entry 40. The phases are log entry 17. That a handler registered before,
on whatever line, counts as registered once is log entry 42. -/
def Obligations.BringUpSucceeds : Prop :=
  ∀ (s : State) (secondary slave : Bool) (early : List Dword) (last : Dword) (ws : List (Dword × Dword × Dword))
    (rest : List Dword) (rrest : List Bool),
    let d := resolved s secondary slave
    let w := fun n => (ws.getD n (0#32, 0#32, 0#32)).2.2
    MayBringUp s (early.length + 1040) → ((s.cmdBlock d.base).position slave).absent = false →
    s.env.answers = early ++ last :: (ws.flatMap (fun w => [w.1, w.2.1, w.2.2]) ++ rest) →
    KeepsPolling early → Identifies last ws → (w 83).getLsbD 10 = true → s.env.registrations = true :: rrest →
    ∃ t, exec (.initDevice secondary slave) s = .next t ∧
      t.trace = s.trace ++ (identifyEvents d early last ws ++ [.write .w8 d.bm 0#32]) ∧
      t.calls = s.calls ++ [.registerInterrupt (line s secondary) s.port.ops.dev] ∧
      Returns s t (.initDevice secondary slave) (.status .success) ∧
      SetsDevice s t { s.dev s.port.ops.dev with
        dr := { d with
          nien := true,
          totalSectors := ((w 103).setWidth 16 ++ (w 102).setWidth 16 ++ (w 101).setWidth 16 ++
            (w 100).setWidth 16 : BitVec 64).setWidth 48,
          irq := line s secondary },
        ct := { state := .free, event := false, prdt := none },
        phase := .up, registered := true } ∧
      t.devctl d.ctrl = 0x02#8 ∧ t.cmdBlock d.base = identified s d ∧
      t.busMaster d.bm = { s.busMaster d.bm with buscmd := 0#8, dma := none } ∧ t.env.answers = rest ∧
      t.env.registrations = rrest ∧ KeepsOtherBlocks s t d ∧ KeepsMemory s t ∧ KeepsButCalls s t

/-- Bring-up that a read of STATUS after IDENTIFY ends: a first byte of 0x00, as an absent device gives, returns
DeviceDoesNotExist; a byte with ERR set, the first or a later one, returns DeviceNotSupported, whatever BUSY and DRQ
say. No port event follows, and the device is not brought up (R45, R255, R256, R264, R325). The registers written stay
as written: DEVCTL NIEN = 1 and HOB = 0, the device selected, IDENTIFY in its COMMAND (R264). The device's records are
left free (log entry 17). `early` are the reads before that one, which let the poll go on. That a read of STATUS changes
no register is log entry 34. That windows are apart is log entry 27. That a write to the command block reaches the
selected position alone is log entry 12. That a bring-up is accepted whatever positions and windows other devices have
is log entry 35. A command still running is replaced (log entry 36). The count of steps is log entry 20. That a read of
STATUS takes an answer of the environment also where no device is there is log entry 14. That a position without a
device keeps the command byte too is log entry 16. -/
def Obligations.BringUpFailsWhilePolling : Prop :=
  ∀ (s : State) (secondary slave : Bool) (early rest : List Dword) (last : Dword),
    MayBringUp s (early.length + 8) → s.env.answers = early ++ last :: rest →
    let d := resolved s secondary slave
    let seen := fun v : Dword => if ((s.cmdBlock d.base).position slave).absent then 0#8 else (v.setWidth 8 : Byte)
    KeepsPolling (early.map (fun v => (seen v).setWidth 32)) →
    (early = [] ∧ seen last = 0#8 ∨ (seen last).getLsbD 0 = true) →
    ∃ t, exec (.initDevice secondary slave) s = .next t ∧
      t.trace = s.trace ++ (bringUpEvents d ++ (early ++ [last]).map (fun v => pollRead d (seen v))) ∧
      Returns s t (.initDevice secondary slave)
        (.status (if seen last = 0#8 then .deviceDoesNotExist else .deviceNotSupported)) ∧ BringUpFailed s t ∧
      t.devctl d.ctrl = 0x02#8 ∧ t.cmdBlock d.base = identified s d ∧ t.env.bm = s.env.bm ∧
      KeepsOtherBlocks s t d ∧ KeepsMemory s t ∧ KeepsRest s t

/-- Bring-up that has read the identification data refuses a device without 48-bit addressing with DeviceNotSupported,
whether its handler could be registered or not, and without the call; and returns InterruptRegistrationFailed where a
device with it cannot have its handler registered; either way the device is not brought up (R258, R262, R264). The
registers written stay as written: DEVCTL NIEN = 1 and HOB = 0, the device selected, IDENTIFY in its COMMAND (R264). The
device's records are left free (log entry 17). That a read of STATUS changes no register is log entry 34. That windows
are apart is log entry 27. That a write to the command block reaches the selected position alone is log entry 12. That a
bring-up is accepted whatever positions and windows other devices have is log entry 35. A command still running is
replaced (log entry 36). The count of steps is log entry 20. -/
def Obligations.BringUpFailsAfterIdentification : Prop :=
  ∀ (s : State) (secondary slave : Bool) (early : List Dword) (last : Dword) (ws : List (Dword × Dword × Dword))
    (rest : List Dword) (rrest : List Bool),
    let d := resolved s secondary slave
    let cap := ((ws.getD 83 (0#32, 0#32, 0#32)).2.2).getLsbD 10
    MayBringUp s (early.length + 1040) → ((s.cmdBlock d.base).position slave).absent = false →
    s.env.answers = early ++ last :: (ws.flatMap (fun w => [w.1, w.2.1, w.2.2]) ++ rest) →
    KeepsPolling early → Identifies last ws → (cap = true → s.env.registrations = false :: rrest) →
    ∃ t, exec (.initDevice secondary slave) s = .next t ∧
      t.trace = s.trace ++ identifyEvents d early last ws ∧
      t.calls = s.calls ++ (if cap then [.registerInterrupt (line s secondary) s.port.ops.dev] else []) ∧
      t.env.registrations = (if cap then rrest else s.env.registrations) ∧
      Returns s t (.initDevice secondary slave)
        (.status (if cap then .interruptRegistrationFailed else .deviceNotSupported)) ∧ BringUpFailed s t ∧
      t.devctl d.ctrl = 0x02#8 ∧ t.cmdBlock d.base = identified s d ∧ t.env.bm = s.env.bm ∧
      KeepsOtherBlocks s t d ∧ KeepsMemory s t ∧ KeepsButCalls s t

/-- Reset leaves no device brought up and no handler registered, no sequence runs, and nothing has been put out: no port
event, no access of an engine, no call, no record of the log, no result, no fault, no output slot (R56, R327, R360, R361).
What the port refuses on such a device is NothingRunsBeforeBringUp. That a step with no turn listed changes nothing is the
model's choice (log entry 6). -/
def Obligations.ResetLeavesNoDeviceUp : Prop :=
  (∀ h, (State.reset.dev h).phase = .down ∧ (State.reset.dev h).registered = false ∧
      (State.reset.dev h).handlerFault = none) ∧
    State.reset.threads = [] ∧ State.reset.activation = none ∧ State.reset.trace = [] ∧ State.reset.dmaTrace = [] ∧
    State.reset.calls = [] ∧ State.reset.log = [] ∧ State.reset.returns = [] ∧ State.reset.faults = [] ∧
    State.reset.outs = [] ∧ State.reset.allocs = [] ∧ step State.reset = .next State.reset
end

