-- ==== Sys2Proof/Laws/State.lean ====
section
/-!
SUPPORT. What each update of the state leaves and what it writes, one lemma per field, so that no later proof
unfolds a record update.
-/
namespace Sys2Proof.Machine

/-! ## The four device records -/

/-- There are as many handles as devices: `CHANNELS x DEVICES_PER_CHANNEL` (R8). -/
theorem handles_count : [Handle.d0, .d1, .d2, .d3].length = Config.channels * Config.devicesPerChannel ∧
    ∀ h : Handle, h ∈ [Handle.d0, .d1, .d2, .d3] := ⟨rfl, fun h => by cases h <;> decide⟩

/-- Of 16-bit sector counts the legal ones are those other than zero (R8, R271). -/
theorem countOk_iff (n : Word) : countOk n = true ↔ n ≠ 0#16 := by
  have h := n.isLt
  have e : n ≠ 0#16 ↔ n.toNat ≠ 0 := by rw [ne_eq, ← BitVec.toNat_inj]; rfl
  rw [e]
  unfold countOk Config.sectorCountMin Config.sectorCountMax
  rw [Bool.and_eq_true, decide_eq_true_iff, decide_eq_true_iff]
  omega

@[simp] theorem Devices.get_set_self (ds : Devices) (h : Handle) (d : Device) : (ds.set h d).get h = d := by
  cases h <;> rfl

theorem Devices.get_set_other {h k : Handle} (ds : Devices) (d : Device) (hk : k ≠ h) :
    (ds.set h d).get k = ds.get k := by
  cases h <;> cases k <;> first | rfl | exact absurd rfl hk

@[simp] theorem Devices.set_get_self (ds : Devices) (h : Handle) : ds.set h (ds.get h) = ds := by
  cases h <;> rfl

@[simp] theorem Devices.set_set (ds : Devices) (h : Handle) (d e : Device) : (ds.set h d).set h e = ds.set h e := by
  cases h <;> rfl

/-! ## Updates of one record -/

@[simp] theorem State.setDev_env (s : State) (h : Handle) (d : Device) : (s.setDev h d).env = s.env := rfl
@[simp] theorem State.setDev_mem (s : State) (h : Handle) (d : Device) : (s.setDev h d).mem = s.mem := rfl
@[simp] theorem State.setDev_buf (s : State) (h : Handle) (d : Device) : (s.setDev h d).buf = s.buf := rfl
@[simp] theorem State.setDev_backing (s : State) (h : Handle) (d : Device) : (s.setDev h d).backing = s.backing := rfl
@[simp] theorem State.setDev_outs (s : State) (h : Handle) (d : Device) : (s.setDev h d).outs = s.outs := rfl
@[simp] theorem State.setDev_allocs (s : State) (h : Handle) (d : Device) : (s.setDev h d).allocs = s.allocs := rfl
@[simp] theorem State.setDev_nextHandle (s : State) (h : Handle) (d : Device) :
    (s.setDev h d).nextHandle = s.nextHandle :=
  rfl
@[simp] theorem State.setDev_trace (s : State) (h : Handle) (d : Device) : (s.setDev h d).trace = s.trace := rfl
@[simp] theorem State.setDev_dmaTrace (s : State) (h : Handle) (d : Device) : (s.setDev h d).dmaTrace = s.dmaTrace :=
  rfl
@[simp] theorem State.setDev_calls (s : State) (h : Handle) (d : Device) : (s.setDev h d).calls = s.calls := rfl
@[simp] theorem State.setDev_log (s : State) (h : Handle) (d : Device) : (s.setDev h d).log = s.log := rfl
@[simp] theorem State.setDev_returns (s : State) (h : Handle) (d : Device) : (s.setDev h d).returns = s.returns := rfl
@[simp] theorem State.setDev_faults (s : State) (h : Handle) (d : Device) : (s.setDev h d).faults = s.faults := rfl
@[simp] theorem State.setDev_threads (s : State) (h : Handle) (d : Device) : (s.setDev h d).threads = s.threads := rfl
@[simp] theorem State.setDev_nextTid (s : State) (h : Handle) (d : Device) : (s.setDev h d).nextTid = s.nextTid := rfl
@[simp] theorem State.setDev_activation (s : State) (h : Handle) (d : Device) :
    (s.setDev h d).activation = s.activation :=
  rfl
@[simp] theorem State.setDev_port (s : State) (h : Handle) (d : Device) : (s.setDev h d).port = s.port := rfl
@[simp] theorem State.setDev_inputs (s : State) (h : Handle) (d : Device) : (s.setDev h d).inputs = s.inputs := rfl

@[simp] theorem State.setDr_env (s : State) (h : Handle) (d : DeviceRegs) : (s.setDr h d).env = s.env := rfl
@[simp] theorem State.setDr_mem (s : State) (h : Handle) (d : DeviceRegs) : (s.setDr h d).mem = s.mem := rfl
@[simp] theorem State.setDr_buf (s : State) (h : Handle) (d : DeviceRegs) : (s.setDr h d).buf = s.buf := rfl
@[simp] theorem State.setDr_backing (s : State) (h : Handle) (d : DeviceRegs) : (s.setDr h d).backing = s.backing := rfl
@[simp] theorem State.setDr_outs (s : State) (h : Handle) (d : DeviceRegs) : (s.setDr h d).outs = s.outs := rfl
@[simp] theorem State.setDr_allocs (s : State) (h : Handle) (d : DeviceRegs) : (s.setDr h d).allocs = s.allocs := rfl
@[simp] theorem State.setDr_nextHandle (s : State) (h : Handle) (d : DeviceRegs) :
    (s.setDr h d).nextHandle = s.nextHandle :=
  rfl
@[simp] theorem State.setDr_trace (s : State) (h : Handle) (d : DeviceRegs) : (s.setDr h d).trace = s.trace := rfl
@[simp] theorem State.setDr_dmaTrace (s : State) (h : Handle) (d : DeviceRegs) : (s.setDr h d).dmaTrace = s.dmaTrace :=
  rfl
@[simp] theorem State.setDr_calls (s : State) (h : Handle) (d : DeviceRegs) : (s.setDr h d).calls = s.calls := rfl
@[simp] theorem State.setDr_log (s : State) (h : Handle) (d : DeviceRegs) : (s.setDr h d).log = s.log := rfl
@[simp] theorem State.setDr_returns (s : State) (h : Handle) (d : DeviceRegs) : (s.setDr h d).returns = s.returns := rfl
@[simp] theorem State.setDr_faults (s : State) (h : Handle) (d : DeviceRegs) : (s.setDr h d).faults = s.faults := rfl
@[simp] theorem State.setDr_threads (s : State) (h : Handle) (d : DeviceRegs) : (s.setDr h d).threads = s.threads := rfl
@[simp] theorem State.setDr_nextTid (s : State) (h : Handle) (d : DeviceRegs) : (s.setDr h d).nextTid = s.nextTid := rfl
@[simp] theorem State.setDr_activation (s : State) (h : Handle) (d : DeviceRegs) :
    (s.setDr h d).activation = s.activation :=
  rfl
@[simp] theorem State.setDr_port (s : State) (h : Handle) (d : DeviceRegs) : (s.setDr h d).port = s.port := rfl
@[simp] theorem State.setDr_inputs (s : State) (h : Handle) (d : DeviceRegs) : (s.setDr h d).inputs = s.inputs := rfl

@[simp] theorem State.setCt_env (s : State) (h : Handle) (d : CurrentTransfer) : (s.setCt h d).env = s.env := rfl
@[simp] theorem State.setCt_mem (s : State) (h : Handle) (d : CurrentTransfer) : (s.setCt h d).mem = s.mem := rfl
@[simp] theorem State.setCt_buf (s : State) (h : Handle) (d : CurrentTransfer) : (s.setCt h d).buf = s.buf := rfl
@[simp] theorem State.setCt_backing (s : State) (h : Handle) (d : CurrentTransfer) :
    (s.setCt h d).backing = s.backing :=
  rfl
@[simp] theorem State.setCt_outs (s : State) (h : Handle) (d : CurrentTransfer) : (s.setCt h d).outs = s.outs := rfl
@[simp] theorem State.setCt_allocs (s : State) (h : Handle) (d : CurrentTransfer) : (s.setCt h d).allocs = s.allocs :=
  rfl
@[simp] theorem State.setCt_nextHandle (s : State) (h : Handle) (d : CurrentTransfer) :
    (s.setCt h d).nextHandle = s.nextHandle :=
  rfl
@[simp] theorem State.setCt_trace (s : State) (h : Handle) (d : CurrentTransfer) : (s.setCt h d).trace = s.trace := rfl
@[simp] theorem State.setCt_dmaTrace (s : State) (h : Handle) (d : CurrentTransfer) :
    (s.setCt h d).dmaTrace = s.dmaTrace :=
  rfl
@[simp] theorem State.setCt_calls (s : State) (h : Handle) (d : CurrentTransfer) : (s.setCt h d).calls = s.calls := rfl
@[simp] theorem State.setCt_log (s : State) (h : Handle) (d : CurrentTransfer) : (s.setCt h d).log = s.log := rfl
@[simp] theorem State.setCt_returns (s : State) (h : Handle) (d : CurrentTransfer) :
    (s.setCt h d).returns = s.returns :=
  rfl
@[simp] theorem State.setCt_faults (s : State) (h : Handle) (d : CurrentTransfer) : (s.setCt h d).faults = s.faults :=
  rfl
@[simp] theorem State.setCt_threads (s : State) (h : Handle) (d : CurrentTransfer) :
    (s.setCt h d).threads = s.threads :=
  rfl
@[simp] theorem State.setCt_nextTid (s : State) (h : Handle) (d : CurrentTransfer) :
    (s.setCt h d).nextTid = s.nextTid :=
  rfl
@[simp] theorem State.setCt_activation (s : State) (h : Handle) (d : CurrentTransfer) :
    (s.setCt h d).activation = s.activation :=
  rfl
@[simp] theorem State.setCt_port (s : State) (h : Handle) (d : CurrentTransfer) : (s.setCt h d).port = s.port := rfl
@[simp] theorem State.setCt_inputs (s : State) (h : Handle) (d : CurrentTransfer) : (s.setCt h d).inputs = s.inputs :=
  rfl

@[simp] theorem State.setPhase_env (s : State) (h : Handle) (d : Phase) : (s.setPhase h d).env = s.env := rfl
@[simp] theorem State.setPhase_mem (s : State) (h : Handle) (d : Phase) : (s.setPhase h d).mem = s.mem := rfl
@[simp] theorem State.setPhase_buf (s : State) (h : Handle) (d : Phase) : (s.setPhase h d).buf = s.buf := rfl
@[simp] theorem State.setPhase_backing (s : State) (h : Handle) (d : Phase) : (s.setPhase h d).backing = s.backing :=
  rfl
@[simp] theorem State.setPhase_outs (s : State) (h : Handle) (d : Phase) : (s.setPhase h d).outs = s.outs := rfl
@[simp] theorem State.setPhase_allocs (s : State) (h : Handle) (d : Phase) : (s.setPhase h d).allocs = s.allocs := rfl
@[simp] theorem State.setPhase_nextHandle (s : State) (h : Handle) (d : Phase) :
    (s.setPhase h d).nextHandle = s.nextHandle :=
  rfl
@[simp] theorem State.setPhase_trace (s : State) (h : Handle) (d : Phase) : (s.setPhase h d).trace = s.trace := rfl
@[simp] theorem State.setPhase_dmaTrace (s : State) (h : Handle) (d : Phase) : (s.setPhase h d).dmaTrace = s.dmaTrace :=
  rfl
@[simp] theorem State.setPhase_calls (s : State) (h : Handle) (d : Phase) : (s.setPhase h d).calls = s.calls := rfl
@[simp] theorem State.setPhase_log (s : State) (h : Handle) (d : Phase) : (s.setPhase h d).log = s.log := rfl
@[simp] theorem State.setPhase_returns (s : State) (h : Handle) (d : Phase) : (s.setPhase h d).returns = s.returns :=
  rfl
@[simp] theorem State.setPhase_faults (s : State) (h : Handle) (d : Phase) : (s.setPhase h d).faults = s.faults := rfl
@[simp] theorem State.setPhase_threads (s : State) (h : Handle) (d : Phase) : (s.setPhase h d).threads = s.threads :=
  rfl
@[simp] theorem State.setPhase_nextTid (s : State) (h : Handle) (d : Phase) : (s.setPhase h d).nextTid = s.nextTid :=
  rfl
@[simp] theorem State.setPhase_activation (s : State) (h : Handle) (d : Phase) :
    (s.setPhase h d).activation = s.activation :=
  rfl
@[simp] theorem State.setPhase_port (s : State) (h : Handle) (d : Phase) : (s.setPhase h d).port = s.port := rfl
@[simp] theorem State.setPhase_inputs (s : State) (h : Handle) (d : Phase) : (s.setPhase h d).inputs = s.inputs := rfl

@[simp] theorem State.setRegistered_env (s : State) (h : Handle) : (s.setRegistered h).env = s.env := rfl
@[simp] theorem State.setRegistered_mem (s : State) (h : Handle) : (s.setRegistered h).mem = s.mem := rfl
@[simp] theorem State.setRegistered_buf (s : State) (h : Handle) : (s.setRegistered h).buf = s.buf := rfl
@[simp] theorem State.setRegistered_backing (s : State) (h : Handle) : (s.setRegistered h).backing = s.backing := rfl
@[simp] theorem State.setRegistered_outs (s : State) (h : Handle) : (s.setRegistered h).outs = s.outs := rfl
@[simp] theorem State.setRegistered_allocs (s : State) (h : Handle) : (s.setRegistered h).allocs = s.allocs := rfl
@[simp] theorem State.setRegistered_nextHandle (s : State) (h : Handle) :
    (s.setRegistered h).nextHandle = s.nextHandle :=
  rfl
@[simp] theorem State.setRegistered_trace (s : State) (h : Handle) : (s.setRegistered h).trace = s.trace := rfl
@[simp] theorem State.setRegistered_dmaTrace (s : State) (h : Handle) : (s.setRegistered h).dmaTrace = s.dmaTrace := rfl
@[simp] theorem State.setRegistered_calls (s : State) (h : Handle) : (s.setRegistered h).calls = s.calls := rfl
@[simp] theorem State.setRegistered_log (s : State) (h : Handle) : (s.setRegistered h).log = s.log := rfl
@[simp] theorem State.setRegistered_returns (s : State) (h : Handle) : (s.setRegistered h).returns = s.returns := rfl
@[simp] theorem State.setRegistered_faults (s : State) (h : Handle) : (s.setRegistered h).faults = s.faults := rfl
@[simp] theorem State.setRegistered_threads (s : State) (h : Handle) : (s.setRegistered h).threads = s.threads := rfl
@[simp] theorem State.setRegistered_nextTid (s : State) (h : Handle) : (s.setRegistered h).nextTid = s.nextTid := rfl
@[simp] theorem State.setRegistered_activation (s : State) (h : Handle) :
    (s.setRegistered h).activation = s.activation :=
  rfl
@[simp] theorem State.setRegistered_port (s : State) (h : Handle) : (s.setRegistered h).port = s.port := rfl
@[simp] theorem State.setRegistered_inputs (s : State) (h : Handle) : (s.setRegistered h).inputs = s.inputs := rfl

@[simp] theorem setEvent_env (s : State) (h : Handle) (b : Bool) : (setEvent h b s).env = s.env := rfl
@[simp] theorem setEvent_mem (s : State) (h : Handle) (b : Bool) : (setEvent h b s).mem = s.mem := rfl
@[simp] theorem setEvent_buf (s : State) (h : Handle) (b : Bool) : (setEvent h b s).buf = s.buf := rfl
@[simp] theorem setEvent_backing (s : State) (h : Handle) (b : Bool) : (setEvent h b s).backing = s.backing := rfl
@[simp] theorem setEvent_outs (s : State) (h : Handle) (b : Bool) : (setEvent h b s).outs = s.outs := rfl
@[simp] theorem setEvent_allocs (s : State) (h : Handle) (b : Bool) : (setEvent h b s).allocs = s.allocs := rfl
@[simp] theorem setEvent_nextHandle (s : State) (h : Handle) (b : Bool) : (setEvent h b s).nextHandle = s.nextHandle :=
  rfl
@[simp] theorem setEvent_trace (s : State) (h : Handle) (b : Bool) : (setEvent h b s).trace = s.trace := rfl
@[simp] theorem setEvent_dmaTrace (s : State) (h : Handle) (b : Bool) : (setEvent h b s).dmaTrace = s.dmaTrace := rfl
@[simp] theorem setEvent_calls (s : State) (h : Handle) (b : Bool) : (setEvent h b s).calls = s.calls := rfl
@[simp] theorem setEvent_log (s : State) (h : Handle) (b : Bool) : (setEvent h b s).log = s.log := rfl
@[simp] theorem setEvent_returns (s : State) (h : Handle) (b : Bool) : (setEvent h b s).returns = s.returns := rfl
@[simp] theorem setEvent_faults (s : State) (h : Handle) (b : Bool) : (setEvent h b s).faults = s.faults := rfl
@[simp] theorem setEvent_threads (s : State) (h : Handle) (b : Bool) : (setEvent h b s).threads = s.threads := rfl
@[simp] theorem setEvent_nextTid (s : State) (h : Handle) (b : Bool) : (setEvent h b s).nextTid = s.nextTid := rfl
@[simp] theorem setEvent_activation (s : State) (h : Handle) (b : Bool) : (setEvent h b s).activation = s.activation :=
  rfl
@[simp] theorem setEvent_port (s : State) (h : Handle) (b : Bool) : (setEvent h b s).port = s.port := rfl
@[simp] theorem setEvent_inputs (s : State) (h : Handle) (b : Bool) : (setEvent h b s).inputs = s.inputs := rfl

@[simp] theorem storeTsm_env (s : State) (h : Handle) (t : TsmState) : (storeTsm h t s).env = s.env := rfl
@[simp] theorem storeTsm_mem (s : State) (h : Handle) (t : TsmState) : (storeTsm h t s).mem = s.mem := rfl
@[simp] theorem storeTsm_buf (s : State) (h : Handle) (t : TsmState) : (storeTsm h t s).buf = s.buf := rfl
@[simp] theorem storeTsm_backing (s : State) (h : Handle) (t : TsmState) : (storeTsm h t s).backing = s.backing := rfl
@[simp] theorem storeTsm_outs (s : State) (h : Handle) (t : TsmState) : (storeTsm h t s).outs = s.outs := rfl
@[simp] theorem storeTsm_allocs (s : State) (h : Handle) (t : TsmState) : (storeTsm h t s).allocs = s.allocs := rfl
@[simp] theorem storeTsm_nextHandle (s : State) (h : Handle) (t : TsmState) :
    (storeTsm h t s).nextHandle = s.nextHandle :=
  rfl
@[simp] theorem storeTsm_trace (s : State) (h : Handle) (t : TsmState) : (storeTsm h t s).trace = s.trace := rfl
@[simp] theorem storeTsm_dmaTrace (s : State) (h : Handle) (t : TsmState) : (storeTsm h t s).dmaTrace = s.dmaTrace :=
  rfl
@[simp] theorem storeTsm_calls (s : State) (h : Handle) (t : TsmState) : (storeTsm h t s).calls = s.calls := rfl
@[simp] theorem storeTsm_log (s : State) (h : Handle) (t : TsmState) : (storeTsm h t s).log = s.log := rfl
@[simp] theorem storeTsm_returns (s : State) (h : Handle) (t : TsmState) : (storeTsm h t s).returns = s.returns := rfl
@[simp] theorem storeTsm_faults (s : State) (h : Handle) (t : TsmState) : (storeTsm h t s).faults = s.faults := rfl
@[simp] theorem storeTsm_threads (s : State) (h : Handle) (t : TsmState) : (storeTsm h t s).threads = s.threads := rfl
@[simp] theorem storeTsm_nextTid (s : State) (h : Handle) (t : TsmState) : (storeTsm h t s).nextTid = s.nextTid := rfl
@[simp] theorem storeTsm_activation (s : State) (h : Handle) (t : TsmState) :
    (storeTsm h t s).activation = s.activation :=
  rfl
@[simp] theorem storeTsm_port (s : State) (h : Handle) (t : TsmState) : (storeTsm h t s).port = s.port := rfl
@[simp] theorem storeTsm_inputs (s : State) (h : Handle) (t : TsmState) : (storeTsm h t s).inputs = s.inputs := rfl

@[simp] theorem casFinished_env (s : State) (h : Handle) : (casFinished h s).env = s.env := by
  unfold casFinished; split <;> rfl
@[simp] theorem casFinished_mem (s : State) (h : Handle) : (casFinished h s).mem = s.mem := by
  unfold casFinished; split <;> rfl
@[simp] theorem casFinished_buf (s : State) (h : Handle) : (casFinished h s).buf = s.buf := by
  unfold casFinished; split <;> rfl
@[simp] theorem casFinished_backing (s : State) (h : Handle) : (casFinished h s).backing = s.backing := by
  unfold casFinished; split <;> rfl
@[simp] theorem casFinished_outs (s : State) (h : Handle) : (casFinished h s).outs = s.outs := by
  unfold casFinished; split <;> rfl
@[simp] theorem casFinished_allocs (s : State) (h : Handle) : (casFinished h s).allocs = s.allocs := by
  unfold casFinished; split <;> rfl
@[simp] theorem casFinished_nextHandle (s : State) (h : Handle) : (casFinished h s).nextHandle = s.nextHandle := by
  unfold casFinished; split <;> rfl
@[simp] theorem casFinished_trace (s : State) (h : Handle) : (casFinished h s).trace = s.trace := by
  unfold casFinished; split <;> rfl
@[simp] theorem casFinished_dmaTrace (s : State) (h : Handle) : (casFinished h s).dmaTrace = s.dmaTrace := by
  unfold casFinished; split <;> rfl
@[simp] theorem casFinished_calls (s : State) (h : Handle) : (casFinished h s).calls = s.calls := by
  unfold casFinished; split <;> rfl
@[simp] theorem casFinished_log (s : State) (h : Handle) : (casFinished h s).log = s.log := by
  unfold casFinished; split <;> rfl
@[simp] theorem casFinished_returns (s : State) (h : Handle) : (casFinished h s).returns = s.returns := by
  unfold casFinished; split <;> rfl
@[simp] theorem casFinished_faults (s : State) (h : Handle) : (casFinished h s).faults = s.faults := by
  unfold casFinished; split <;> rfl
@[simp] theorem casFinished_threads (s : State) (h : Handle) : (casFinished h s).threads = s.threads := by
  unfold casFinished; split <;> rfl
@[simp] theorem casFinished_nextTid (s : State) (h : Handle) : (casFinished h s).nextTid = s.nextTid := by
  unfold casFinished; split <;> rfl
@[simp] theorem casFinished_activation (s : State) (h : Handle) : (casFinished h s).activation = s.activation := by
  unfold casFinished; split <;> rfl
@[simp] theorem casFinished_port (s : State) (h : Handle) : (casFinished h s).port = s.port := by
  unfold casFinished; split <;> rfl
@[simp] theorem casFinished_inputs (s : State) (h : Handle) : (casFinished h s).inputs = s.inputs := by
  unfold casFinished; split <;> rfl

@[simp] theorem failBringUp_mem (s : State) (h : Handle) : (failBringUp h s).mem = s.mem := rfl
@[simp] theorem failBringUp_buf (s : State) (h : Handle) : (failBringUp h s).buf = s.buf := rfl
@[simp] theorem failBringUp_backing (s : State) (h : Handle) : (failBringUp h s).backing = s.backing := rfl
@[simp] theorem failBringUp_outs (s : State) (h : Handle) : (failBringUp h s).outs = s.outs := rfl
@[simp] theorem failBringUp_allocs (s : State) (h : Handle) : (failBringUp h s).allocs = s.allocs := rfl
@[simp] theorem failBringUp_nextHandle (s : State) (h : Handle) : (failBringUp h s).nextHandle = s.nextHandle := rfl
@[simp] theorem failBringUp_trace (s : State) (h : Handle) : (failBringUp h s).trace = s.trace := rfl
@[simp] theorem failBringUp_dmaTrace (s : State) (h : Handle) : (failBringUp h s).dmaTrace = s.dmaTrace := rfl
@[simp] theorem failBringUp_calls (s : State) (h : Handle) : (failBringUp h s).calls = s.calls := rfl
@[simp] theorem failBringUp_log (s : State) (h : Handle) : (failBringUp h s).log = s.log := rfl
@[simp] theorem failBringUp_returns (s : State) (h : Handle) : (failBringUp h s).returns = s.returns := rfl
@[simp] theorem failBringUp_faults (s : State) (h : Handle) : (failBringUp h s).faults = s.faults := rfl
@[simp] theorem failBringUp_threads (s : State) (h : Handle) : (failBringUp h s).threads = s.threads := rfl
@[simp] theorem failBringUp_nextTid (s : State) (h : Handle) : (failBringUp h s).nextTid = s.nextTid := rfl
@[simp] theorem failBringUp_activation (s : State) (h : Handle) : (failBringUp h s).activation = s.activation := rfl
@[simp] theorem failBringUp_port (s : State) (h : Handle) : (failBringUp h s).port = s.port := rfl
@[simp] theorem failBringUp_inputs (s : State) (h : Handle) : (failBringUp h s).inputs = s.inputs := rfl

@[simp] theorem raise_env (s : State) (h : Handle) (c : Context) (k : Fault) : (raise h c k s).env = s.env := by
  cases c <;> rfl
@[simp] theorem raise_mem (s : State) (h : Handle) (c : Context) (k : Fault) : (raise h c k s).mem = s.mem := by
  cases c <;> rfl
@[simp] theorem raise_buf (s : State) (h : Handle) (c : Context) (k : Fault) : (raise h c k s).buf = s.buf := by
  cases c <;> rfl
@[simp] theorem raise_backing (s : State) (h : Handle) (c : Context) (k : Fault) :
    (raise h c k s).backing = s.backing := by
  cases c <;> rfl
@[simp] theorem raise_outs (s : State) (h : Handle) (c : Context) (k : Fault) : (raise h c k s).outs = s.outs := by
  cases c <;> rfl
@[simp] theorem raise_allocs (s : State) (h : Handle) (c : Context) (k : Fault) :
    (raise h c k s).allocs = s.allocs := by
  cases c <;> rfl
@[simp] theorem raise_nextHandle (s : State) (h : Handle) (c : Context) (k : Fault) :
    (raise h c k s).nextHandle = s.nextHandle := by
  cases c <;> rfl
@[simp] theorem raise_trace (s : State) (h : Handle) (c : Context) (k : Fault) : (raise h c k s).trace = s.trace := by
  cases c <;> rfl
@[simp] theorem raise_dmaTrace (s : State) (h : Handle) (c : Context) (k : Fault) :
    (raise h c k s).dmaTrace = s.dmaTrace := by
  cases c <;> rfl
@[simp] theorem raise_calls (s : State) (h : Handle) (c : Context) (k : Fault) : (raise h c k s).calls = s.calls := by
  cases c <;> rfl
@[simp] theorem raise_log (s : State) (h : Handle) (c : Context) (k : Fault) : (raise h c k s).log = s.log := by
  cases c <;> rfl
@[simp] theorem raise_returns (s : State) (h : Handle) (c : Context) (k : Fault) :
    (raise h c k s).returns = s.returns := by
  cases c <;> rfl
@[simp] theorem raise_threads (s : State) (h : Handle) (c : Context) (k : Fault) :
    (raise h c k s).threads = s.threads := by
  cases c <;> rfl
@[simp] theorem raise_nextTid (s : State) (h : Handle) (c : Context) (k : Fault) :
    (raise h c k s).nextTid = s.nextTid := by
  cases c <;> rfl
@[simp] theorem raise_activation (s : State) (h : Handle) (c : Context) (k : Fault) :
    (raise h c k s).activation = s.activation := by
  cases c <;> rfl
@[simp] theorem raise_port (s : State) (h : Handle) (c : Context) (k : Fault) : (raise h c k s).port = s.port := by
  cases c <;> rfl
@[simp] theorem raise_inputs (s : State) (h : Handle) (c : Context) (k : Fault) :
    (raise h c k s).inputs = s.inputs := by
  cases c <;> rfl

@[simp] theorem State.setDev_devs (s : State) (h : Handle) (d : Device) : (s.setDev h d).devs = s.devs.set h d := rfl

@[simp] theorem raise_faults (h : Handle) (c : Context) (k : Fault) (s : State) :
    (raise h c k s).faults = s.faults ++ [{ dev := h, ctx := c, fault := k }] := by
  cases c <;> rfl

/-! ## Updates of the environment -/

@[simp] theorem State.setCmdBlock_devs (s : State) (k : IoAddr) (b : CmdBlock) : (s.setCmdBlock k b).devs = s.devs :=
  rfl
@[simp] theorem State.setCmdBlock_mem (s : State) (k : IoAddr) (b : CmdBlock) : (s.setCmdBlock k b).mem = s.mem := rfl
@[simp] theorem State.setCmdBlock_buf (s : State) (k : IoAddr) (b : CmdBlock) : (s.setCmdBlock k b).buf = s.buf := rfl
@[simp] theorem State.setCmdBlock_backing (s : State) (k : IoAddr) (b : CmdBlock) :
    (s.setCmdBlock k b).backing = s.backing :=
  rfl
@[simp] theorem State.setCmdBlock_outs (s : State) (k : IoAddr) (b : CmdBlock) : (s.setCmdBlock k b).outs = s.outs :=
  rfl
@[simp] theorem State.setCmdBlock_allocs (s : State) (k : IoAddr) (b : CmdBlock) :
    (s.setCmdBlock k b).allocs = s.allocs :=
  rfl
@[simp] theorem State.setCmdBlock_nextHandle (s : State) (k : IoAddr) (b : CmdBlock) :
    (s.setCmdBlock k b).nextHandle = s.nextHandle :=
  rfl
@[simp] theorem State.setCmdBlock_trace (s : State) (k : IoAddr) (b : CmdBlock) : (s.setCmdBlock k b).trace = s.trace :=
  rfl
@[simp] theorem State.setCmdBlock_dmaTrace (s : State) (k : IoAddr) (b : CmdBlock) :
    (s.setCmdBlock k b).dmaTrace = s.dmaTrace :=
  rfl
@[simp] theorem State.setCmdBlock_calls (s : State) (k : IoAddr) (b : CmdBlock) : (s.setCmdBlock k b).calls = s.calls :=
  rfl
@[simp] theorem State.setCmdBlock_log (s : State) (k : IoAddr) (b : CmdBlock) : (s.setCmdBlock k b).log = s.log := rfl
@[simp] theorem State.setCmdBlock_returns (s : State) (k : IoAddr) (b : CmdBlock) :
    (s.setCmdBlock k b).returns = s.returns :=
  rfl
@[simp] theorem State.setCmdBlock_faults (s : State) (k : IoAddr) (b : CmdBlock) :
    (s.setCmdBlock k b).faults = s.faults :=
  rfl
@[simp] theorem State.setCmdBlock_threads (s : State) (k : IoAddr) (b : CmdBlock) :
    (s.setCmdBlock k b).threads = s.threads :=
  rfl
@[simp] theorem State.setCmdBlock_nextTid (s : State) (k : IoAddr) (b : CmdBlock) :
    (s.setCmdBlock k b).nextTid = s.nextTid :=
  rfl
@[simp] theorem State.setCmdBlock_activation (s : State) (k : IoAddr) (b : CmdBlock) :
    (s.setCmdBlock k b).activation = s.activation :=
  rfl
@[simp] theorem State.setCmdBlock_port (s : State) (k : IoAddr) (b : CmdBlock) : (s.setCmdBlock k b).port = s.port :=
  rfl
@[simp] theorem State.setCmdBlock_inputs (s : State) (k : IoAddr) (b : CmdBlock) :
    (s.setCmdBlock k b).inputs = s.inputs :=
  rfl

@[simp] theorem State.setDevctl_devs (s : State) (k : IoAddr) (b : Byte) : (s.setDevctl k b).devs = s.devs := rfl
@[simp] theorem State.setDevctl_mem (s : State) (k : IoAddr) (b : Byte) : (s.setDevctl k b).mem = s.mem := rfl
@[simp] theorem State.setDevctl_buf (s : State) (k : IoAddr) (b : Byte) : (s.setDevctl k b).buf = s.buf := rfl
@[simp] theorem State.setDevctl_backing (s : State) (k : IoAddr) (b : Byte) : (s.setDevctl k b).backing = s.backing :=
  rfl
@[simp] theorem State.setDevctl_outs (s : State) (k : IoAddr) (b : Byte) : (s.setDevctl k b).outs = s.outs := rfl
@[simp] theorem State.setDevctl_allocs (s : State) (k : IoAddr) (b : Byte) : (s.setDevctl k b).allocs = s.allocs := rfl
@[simp] theorem State.setDevctl_nextHandle (s : State) (k : IoAddr) (b : Byte) :
    (s.setDevctl k b).nextHandle = s.nextHandle :=
  rfl
@[simp] theorem State.setDevctl_trace (s : State) (k : IoAddr) (b : Byte) : (s.setDevctl k b).trace = s.trace := rfl
@[simp] theorem State.setDevctl_dmaTrace (s : State) (k : IoAddr) (b : Byte) :
    (s.setDevctl k b).dmaTrace = s.dmaTrace :=
  rfl
@[simp] theorem State.setDevctl_calls (s : State) (k : IoAddr) (b : Byte) : (s.setDevctl k b).calls = s.calls := rfl
@[simp] theorem State.setDevctl_log (s : State) (k : IoAddr) (b : Byte) : (s.setDevctl k b).log = s.log := rfl
@[simp] theorem State.setDevctl_returns (s : State) (k : IoAddr) (b : Byte) : (s.setDevctl k b).returns = s.returns :=
  rfl
@[simp] theorem State.setDevctl_faults (s : State) (k : IoAddr) (b : Byte) : (s.setDevctl k b).faults = s.faults := rfl
@[simp] theorem State.setDevctl_threads (s : State) (k : IoAddr) (b : Byte) : (s.setDevctl k b).threads = s.threads :=
  rfl
@[simp] theorem State.setDevctl_nextTid (s : State) (k : IoAddr) (b : Byte) : (s.setDevctl k b).nextTid = s.nextTid :=
  rfl
@[simp] theorem State.setDevctl_activation (s : State) (k : IoAddr) (b : Byte) :
    (s.setDevctl k b).activation = s.activation :=
  rfl
@[simp] theorem State.setDevctl_port (s : State) (k : IoAddr) (b : Byte) : (s.setDevctl k b).port = s.port := rfl
@[simp] theorem State.setDevctl_inputs (s : State) (k : IoAddr) (b : Byte) : (s.setDevctl k b).inputs = s.inputs := rfl

@[simp] theorem State.setBusMaster_devs (s : State) (k : IoAddr) (b : BusMaster) : (s.setBusMaster k b).devs = s.devs :=
  rfl
@[simp] theorem State.setBusMaster_mem (s : State) (k : IoAddr) (b : BusMaster) : (s.setBusMaster k b).mem = s.mem :=
  rfl
@[simp] theorem State.setBusMaster_buf (s : State) (k : IoAddr) (b : BusMaster) : (s.setBusMaster k b).buf = s.buf :=
  rfl
@[simp] theorem State.setBusMaster_backing (s : State) (k : IoAddr) (b : BusMaster) :
    (s.setBusMaster k b).backing = s.backing :=
  rfl
@[simp] theorem State.setBusMaster_outs (s : State) (k : IoAddr) (b : BusMaster) : (s.setBusMaster k b).outs = s.outs :=
  rfl
@[simp] theorem State.setBusMaster_allocs (s : State) (k : IoAddr) (b : BusMaster) :
    (s.setBusMaster k b).allocs = s.allocs :=
  rfl
@[simp] theorem State.setBusMaster_nextHandle (s : State) (k : IoAddr) (b : BusMaster) :
    (s.setBusMaster k b).nextHandle = s.nextHandle :=
  rfl
@[simp] theorem State.setBusMaster_trace (s : State) (k : IoAddr) (b : BusMaster) :
    (s.setBusMaster k b).trace = s.trace :=
  rfl
@[simp] theorem State.setBusMaster_dmaTrace (s : State) (k : IoAddr) (b : BusMaster) :
    (s.setBusMaster k b).dmaTrace = s.dmaTrace :=
  rfl
@[simp] theorem State.setBusMaster_calls (s : State) (k : IoAddr) (b : BusMaster) :
    (s.setBusMaster k b).calls = s.calls :=
  rfl
@[simp] theorem State.setBusMaster_log (s : State) (k : IoAddr) (b : BusMaster) : (s.setBusMaster k b).log = s.log :=
  rfl
@[simp] theorem State.setBusMaster_returns (s : State) (k : IoAddr) (b : BusMaster) :
    (s.setBusMaster k b).returns = s.returns :=
  rfl
@[simp] theorem State.setBusMaster_faults (s : State) (k : IoAddr) (b : BusMaster) :
    (s.setBusMaster k b).faults = s.faults :=
  rfl
@[simp] theorem State.setBusMaster_threads (s : State) (k : IoAddr) (b : BusMaster) :
    (s.setBusMaster k b).threads = s.threads :=
  rfl
@[simp] theorem State.setBusMaster_nextTid (s : State) (k : IoAddr) (b : BusMaster) :
    (s.setBusMaster k b).nextTid = s.nextTid :=
  rfl
@[simp] theorem State.setBusMaster_activation (s : State) (k : IoAddr) (b : BusMaster) :
    (s.setBusMaster k b).activation = s.activation :=
  rfl
@[simp] theorem State.setBusMaster_port (s : State) (k : IoAddr) (b : BusMaster) : (s.setBusMaster k b).port = s.port :=
  rfl
@[simp] theorem State.setBusMaster_inputs (s : State) (k : IoAddr) (b : BusMaster) :
    (s.setBusMaster k b).inputs = s.inputs :=
  rfl

@[simp] theorem State.setOwnPosition_devs (s : State) (h : Handle) (t : Taskfile) :
    (s.setOwnPosition h t).devs = s.devs :=
  rfl
@[simp] theorem State.setOwnPosition_mem (s : State) (h : Handle) (t : Taskfile) : (s.setOwnPosition h t).mem = s.mem :=
  rfl
@[simp] theorem State.setOwnPosition_buf (s : State) (h : Handle) (t : Taskfile) : (s.setOwnPosition h t).buf = s.buf :=
  rfl
@[simp] theorem State.setOwnPosition_backing (s : State) (h : Handle) (t : Taskfile) :
    (s.setOwnPosition h t).backing = s.backing :=
  rfl
@[simp] theorem State.setOwnPosition_outs (s : State) (h : Handle) (t : Taskfile) :
    (s.setOwnPosition h t).outs = s.outs :=
  rfl
@[simp] theorem State.setOwnPosition_allocs (s : State) (h : Handle) (t : Taskfile) :
    (s.setOwnPosition h t).allocs = s.allocs :=
  rfl
@[simp] theorem State.setOwnPosition_nextHandle (s : State) (h : Handle) (t : Taskfile) :
    (s.setOwnPosition h t).nextHandle = s.nextHandle :=
  rfl
@[simp] theorem State.setOwnPosition_trace (s : State) (h : Handle) (t : Taskfile) :
    (s.setOwnPosition h t).trace = s.trace :=
  rfl
@[simp] theorem State.setOwnPosition_dmaTrace (s : State) (h : Handle) (t : Taskfile) :
    (s.setOwnPosition h t).dmaTrace = s.dmaTrace :=
  rfl
@[simp] theorem State.setOwnPosition_calls (s : State) (h : Handle) (t : Taskfile) :
    (s.setOwnPosition h t).calls = s.calls :=
  rfl
@[simp] theorem State.setOwnPosition_log (s : State) (h : Handle) (t : Taskfile) : (s.setOwnPosition h t).log = s.log :=
  rfl
@[simp] theorem State.setOwnPosition_returns (s : State) (h : Handle) (t : Taskfile) :
    (s.setOwnPosition h t).returns = s.returns :=
  rfl
@[simp] theorem State.setOwnPosition_faults (s : State) (h : Handle) (t : Taskfile) :
    (s.setOwnPosition h t).faults = s.faults :=
  rfl
@[simp] theorem State.setOwnPosition_threads (s : State) (h : Handle) (t : Taskfile) :
    (s.setOwnPosition h t).threads = s.threads :=
  rfl
@[simp] theorem State.setOwnPosition_nextTid (s : State) (h : Handle) (t : Taskfile) :
    (s.setOwnPosition h t).nextTid = s.nextTid :=
  rfl
@[simp] theorem State.setOwnPosition_activation (s : State) (h : Handle) (t : Taskfile) :
    (s.setOwnPosition h t).activation = s.activation :=
  rfl
@[simp] theorem State.setOwnPosition_port (s : State) (h : Handle) (t : Taskfile) :
    (s.setOwnPosition h t).port = s.port :=
  rfl
@[simp] theorem State.setOwnPosition_inputs (s : State) (h : Handle) (t : Taskfile) :
    (s.setOwnPosition h t).inputs = s.inputs :=
  rfl

@[simp] theorem State.tookAnswer_devs (s : State) : (s.tookAnswer).devs = s.devs := by
  unfold State.tookAnswer; split <;> rfl
@[simp] theorem State.tookAnswer_mem (s : State) : (s.tookAnswer).mem = s.mem := by
  unfold State.tookAnswer; split <;> rfl
@[simp] theorem State.tookAnswer_buf (s : State) : (s.tookAnswer).buf = s.buf := by
  unfold State.tookAnswer; split <;> rfl
@[simp] theorem State.tookAnswer_backing (s : State) : (s.tookAnswer).backing = s.backing := by
  unfold State.tookAnswer; split <;> rfl
@[simp] theorem State.tookAnswer_outs (s : State) : (s.tookAnswer).outs = s.outs := by
  unfold State.tookAnswer; split <;> rfl
@[simp] theorem State.tookAnswer_allocs (s : State) : (s.tookAnswer).allocs = s.allocs := by
  unfold State.tookAnswer; split <;> rfl
@[simp] theorem State.tookAnswer_nextHandle (s : State) : (s.tookAnswer).nextHandle = s.nextHandle := by
  unfold State.tookAnswer; split <;> rfl
@[simp] theorem State.tookAnswer_trace (s : State) : (s.tookAnswer).trace = s.trace := by
  unfold State.tookAnswer; split <;> rfl
@[simp] theorem State.tookAnswer_dmaTrace (s : State) : (s.tookAnswer).dmaTrace = s.dmaTrace := by
  unfold State.tookAnswer; split <;> rfl
@[simp] theorem State.tookAnswer_calls (s : State) : (s.tookAnswer).calls = s.calls := by
  unfold State.tookAnswer; split <;> rfl
@[simp] theorem State.tookAnswer_log (s : State) : (s.tookAnswer).log = s.log := by
  unfold State.tookAnswer; split <;> rfl
@[simp] theorem State.tookAnswer_returns (s : State) : (s.tookAnswer).returns = s.returns := by
  unfold State.tookAnswer; split <;> rfl
@[simp] theorem State.tookAnswer_faults (s : State) : (s.tookAnswer).faults = s.faults := by
  unfold State.tookAnswer; split <;> rfl
@[simp] theorem State.tookAnswer_threads (s : State) : (s.tookAnswer).threads = s.threads := by
  unfold State.tookAnswer; split <;> rfl
@[simp] theorem State.tookAnswer_nextTid (s : State) : (s.tookAnswer).nextTid = s.nextTid := by
  unfold State.tookAnswer; split <;> rfl
@[simp] theorem State.tookAnswer_activation (s : State) : (s.tookAnswer).activation = s.activation := by
  unfold State.tookAnswer; split <;> rfl
@[simp] theorem State.tookAnswer_port (s : State) : (s.tookAnswer).port = s.port := by
  unfold State.tookAnswer; split <;> rfl
@[simp] theorem State.tookAnswer_inputs (s : State) : (s.tookAnswer).inputs = s.inputs := by
  unfold State.tookAnswer; split <;> rfl

@[simp] theorem State.tookTranslation_devs (s : State) (a n : Nat) : (s.tookTranslation a n).devs = s.devs := by
  simp only [State.tookTranslation]; repeat' split
  all_goals rfl
@[simp] theorem State.tookTranslation_mem (s : State) (a n : Nat) : (s.tookTranslation a n).mem = s.mem := by
  simp only [State.tookTranslation]; repeat' split
  all_goals rfl
@[simp] theorem State.tookTranslation_buf (s : State) (a n : Nat) : (s.tookTranslation a n).buf = s.buf := by
  simp only [State.tookTranslation]; repeat' split
  all_goals rfl
@[simp] theorem State.tookTranslation_backing (s : State) (a n : Nat) :
    (s.tookTranslation a n).backing = s.backing := by
  simp only [State.tookTranslation]; repeat' split
  all_goals rfl
@[simp] theorem State.tookTranslation_outs (s : State) (a n : Nat) : (s.tookTranslation a n).outs = s.outs := by
  simp only [State.tookTranslation]; repeat' split
  all_goals rfl
@[simp] theorem State.tookTranslation_allocs (s : State) (a n : Nat) : (s.tookTranslation a n).allocs = s.allocs := by
  simp only [State.tookTranslation]; repeat' split
  all_goals rfl
@[simp] theorem State.tookTranslation_nextHandle (s : State) (a n : Nat) :
    (s.tookTranslation a n).nextHandle = s.nextHandle := by
  simp only [State.tookTranslation]; repeat' split
  all_goals rfl
@[simp] theorem State.tookTranslation_trace (s : State) (a n : Nat) : (s.tookTranslation a n).trace = s.trace := by
  simp only [State.tookTranslation]; repeat' split
  all_goals rfl
@[simp] theorem State.tookTranslation_dmaTrace (s : State) (a n : Nat) :
    (s.tookTranslation a n).dmaTrace = s.dmaTrace := by
  simp only [State.tookTranslation]; repeat' split
  all_goals rfl
@[simp] theorem State.tookTranslation_calls (s : State) (a n : Nat) : (s.tookTranslation a n).calls = s.calls := by
  simp only [State.tookTranslation]; repeat' split
  all_goals rfl
@[simp] theorem State.tookTranslation_log (s : State) (a n : Nat) : (s.tookTranslation a n).log = s.log := by
  simp only [State.tookTranslation]; repeat' split
  all_goals rfl
@[simp] theorem State.tookTranslation_returns (s : State) (a n : Nat) :
    (s.tookTranslation a n).returns = s.returns := by
  simp only [State.tookTranslation]; repeat' split
  all_goals rfl
@[simp] theorem State.tookTranslation_faults (s : State) (a n : Nat) : (s.tookTranslation a n).faults = s.faults := by
  simp only [State.tookTranslation]; repeat' split
  all_goals rfl
@[simp] theorem State.tookTranslation_threads (s : State) (a n : Nat) :
    (s.tookTranslation a n).threads = s.threads := by
  simp only [State.tookTranslation]; repeat' split
  all_goals rfl
@[simp] theorem State.tookTranslation_nextTid (s : State) (a n : Nat) :
    (s.tookTranslation a n).nextTid = s.nextTid := by
  simp only [State.tookTranslation]; repeat' split
  all_goals rfl
@[simp] theorem State.tookTranslation_activation (s : State) (a n : Nat) :
    (s.tookTranslation a n).activation = s.activation := by
  simp only [State.tookTranslation]; repeat' split
  all_goals rfl
@[simp] theorem State.tookTranslation_port (s : State) (a n : Nat) : (s.tookTranslation a n).port = s.port := by
  simp only [State.tookTranslation]; repeat' split
  all_goals rfl
@[simp] theorem State.tookTranslation_inputs (s : State) (a n : Nat) : (s.tookTranslation a n).inputs = s.inputs := by
  simp only [State.tookTranslation]; repeat' split
  all_goals rfl

@[simp] theorem State.tookAllocation_devs (s : State) : (s.tookAllocation).devs = s.devs := by
  unfold State.tookAllocation; split <;> rfl
@[simp] theorem State.tookAllocation_mem (s : State) : (s.tookAllocation).mem = s.mem := by
  unfold State.tookAllocation; split <;> rfl
@[simp] theorem State.tookAllocation_buf (s : State) : (s.tookAllocation).buf = s.buf := by
  unfold State.tookAllocation; split <;> rfl
@[simp] theorem State.tookAllocation_backing (s : State) : (s.tookAllocation).backing = s.backing := by
  unfold State.tookAllocation; split <;> rfl
@[simp] theorem State.tookAllocation_outs (s : State) : (s.tookAllocation).outs = s.outs := by
  unfold State.tookAllocation; split <;> rfl
@[simp] theorem State.tookAllocation_allocs (s : State) : (s.tookAllocation).allocs = s.allocs := by
  unfold State.tookAllocation; split <;> rfl
@[simp] theorem State.tookAllocation_nextHandle (s : State) : (s.tookAllocation).nextHandle = s.nextHandle := by
  unfold State.tookAllocation; split <;> rfl
@[simp] theorem State.tookAllocation_trace (s : State) : (s.tookAllocation).trace = s.trace := by
  unfold State.tookAllocation; split <;> rfl
@[simp] theorem State.tookAllocation_dmaTrace (s : State) : (s.tookAllocation).dmaTrace = s.dmaTrace := by
  unfold State.tookAllocation; split <;> rfl
@[simp] theorem State.tookAllocation_calls (s : State) : (s.tookAllocation).calls = s.calls := by
  unfold State.tookAllocation; split <;> rfl
@[simp] theorem State.tookAllocation_log (s : State) : (s.tookAllocation).log = s.log := by
  unfold State.tookAllocation; split <;> rfl
@[simp] theorem State.tookAllocation_returns (s : State) : (s.tookAllocation).returns = s.returns := by
  unfold State.tookAllocation; split <;> rfl
@[simp] theorem State.tookAllocation_faults (s : State) : (s.tookAllocation).faults = s.faults := by
  unfold State.tookAllocation; split <;> rfl
@[simp] theorem State.tookAllocation_threads (s : State) : (s.tookAllocation).threads = s.threads := by
  unfold State.tookAllocation; split <;> rfl
@[simp] theorem State.tookAllocation_nextTid (s : State) : (s.tookAllocation).nextTid = s.nextTid := by
  unfold State.tookAllocation; split <;> rfl
@[simp] theorem State.tookAllocation_activation (s : State) : (s.tookAllocation).activation = s.activation := by
  unfold State.tookAllocation; split <;> rfl
@[simp] theorem State.tookAllocation_port (s : State) : (s.tookAllocation).port = s.port := by
  unfold State.tookAllocation; split <;> rfl
@[simp] theorem State.tookAllocation_inputs (s : State) : (s.tookAllocation).inputs = s.inputs := by
  unfold State.tookAllocation; split <;> rfl

@[simp] theorem State.tookRegistration_devs (s : State) : (s.tookRegistration).devs = s.devs := by
  unfold State.tookRegistration; split <;> rfl
@[simp] theorem State.tookRegistration_mem (s : State) : (s.tookRegistration).mem = s.mem := by
  unfold State.tookRegistration; split <;> rfl
@[simp] theorem State.tookRegistration_buf (s : State) : (s.tookRegistration).buf = s.buf := by
  unfold State.tookRegistration; split <;> rfl
@[simp] theorem State.tookRegistration_backing (s : State) : (s.tookRegistration).backing = s.backing := by
  unfold State.tookRegistration; split <;> rfl
@[simp] theorem State.tookRegistration_outs (s : State) : (s.tookRegistration).outs = s.outs := by
  unfold State.tookRegistration; split <;> rfl
@[simp] theorem State.tookRegistration_allocs (s : State) : (s.tookRegistration).allocs = s.allocs := by
  unfold State.tookRegistration; split <;> rfl
@[simp] theorem State.tookRegistration_nextHandle (s : State) : (s.tookRegistration).nextHandle = s.nextHandle := by
  unfold State.tookRegistration; split <;> rfl
@[simp] theorem State.tookRegistration_trace (s : State) : (s.tookRegistration).trace = s.trace := by
  unfold State.tookRegistration; split <;> rfl
@[simp] theorem State.tookRegistration_dmaTrace (s : State) : (s.tookRegistration).dmaTrace = s.dmaTrace := by
  unfold State.tookRegistration; split <;> rfl
@[simp] theorem State.tookRegistration_calls (s : State) : (s.tookRegistration).calls = s.calls := by
  unfold State.tookRegistration; split <;> rfl
@[simp] theorem State.tookRegistration_log (s : State) : (s.tookRegistration).log = s.log := by
  unfold State.tookRegistration; split <;> rfl
@[simp] theorem State.tookRegistration_returns (s : State) : (s.tookRegistration).returns = s.returns := by
  unfold State.tookRegistration; split <;> rfl
@[simp] theorem State.tookRegistration_faults (s : State) : (s.tookRegistration).faults = s.faults := by
  unfold State.tookRegistration; split <;> rfl
@[simp] theorem State.tookRegistration_threads (s : State) : (s.tookRegistration).threads = s.threads := by
  unfold State.tookRegistration; split <;> rfl
@[simp] theorem State.tookRegistration_nextTid (s : State) : (s.tookRegistration).nextTid = s.nextTid := by
  unfold State.tookRegistration; split <;> rfl
@[simp] theorem State.tookRegistration_activation (s : State) : (s.tookRegistration).activation = s.activation := by
  unfold State.tookRegistration; split <;> rfl
@[simp] theorem State.tookRegistration_port (s : State) : (s.tookRegistration).port = s.port := by
  unfold State.tookRegistration; split <;> rfl
@[simp] theorem State.tookRegistration_inputs (s : State) : (s.tookRegistration).inputs = s.inputs := by
  unfold State.tookRegistration; split <;> rfl

@[simp] theorem fifoWrite_devs (s : State) (dr : DeviceRegs) (d : Nat) (b : Byte) :
    (fifoWrite dr d b s).devs = s.devs :=
  rfl
@[simp] theorem fifoWrite_mem (s : State) (dr : DeviceRegs) (d : Nat) (b : Byte) : (fifoWrite dr d b s).mem = s.mem :=
  rfl
@[simp] theorem fifoWrite_buf (s : State) (dr : DeviceRegs) (d : Nat) (b : Byte) : (fifoWrite dr d b s).buf = s.buf :=
  rfl
@[simp] theorem fifoWrite_backing (s : State) (dr : DeviceRegs) (d : Nat) (b : Byte) :
    (fifoWrite dr d b s).backing = s.backing :=
  rfl
@[simp] theorem fifoWrite_outs (s : State) (dr : DeviceRegs) (d : Nat) (b : Byte) :
    (fifoWrite dr d b s).outs = s.outs :=
  rfl
@[simp] theorem fifoWrite_allocs (s : State) (dr : DeviceRegs) (d : Nat) (b : Byte) :
    (fifoWrite dr d b s).allocs = s.allocs :=
  rfl
@[simp] theorem fifoWrite_nextHandle (s : State) (dr : DeviceRegs) (d : Nat) (b : Byte) :
    (fifoWrite dr d b s).nextHandle = s.nextHandle :=
  rfl
@[simp] theorem fifoWrite_trace (s : State) (dr : DeviceRegs) (d : Nat) (b : Byte) :
    (fifoWrite dr d b s).trace = s.trace :=
  rfl
@[simp] theorem fifoWrite_dmaTrace (s : State) (dr : DeviceRegs) (d : Nat) (b : Byte) :
    (fifoWrite dr d b s).dmaTrace = s.dmaTrace :=
  rfl
@[simp] theorem fifoWrite_calls (s : State) (dr : DeviceRegs) (d : Nat) (b : Byte) :
    (fifoWrite dr d b s).calls = s.calls :=
  rfl
@[simp] theorem fifoWrite_log (s : State) (dr : DeviceRegs) (d : Nat) (b : Byte) : (fifoWrite dr d b s).log = s.log :=
  rfl
@[simp] theorem fifoWrite_returns (s : State) (dr : DeviceRegs) (d : Nat) (b : Byte) :
    (fifoWrite dr d b s).returns = s.returns :=
  rfl
@[simp] theorem fifoWrite_faults (s : State) (dr : DeviceRegs) (d : Nat) (b : Byte) :
    (fifoWrite dr d b s).faults = s.faults :=
  rfl
@[simp] theorem fifoWrite_threads (s : State) (dr : DeviceRegs) (d : Nat) (b : Byte) :
    (fifoWrite dr d b s).threads = s.threads :=
  rfl
@[simp] theorem fifoWrite_nextTid (s : State) (dr : DeviceRegs) (d : Nat) (b : Byte) :
    (fifoWrite dr d b s).nextTid = s.nextTid :=
  rfl
@[simp] theorem fifoWrite_activation (s : State) (dr : DeviceRegs) (d : Nat) (b : Byte) :
    (fifoWrite dr d b s).activation = s.activation :=
  rfl
@[simp] theorem fifoWrite_port (s : State) (dr : DeviceRegs) (d : Nat) (b : Byte) :
    (fifoWrite dr d b s).port = s.port :=
  rfl
@[simp] theorem fifoWrite_inputs (s : State) (dr : DeviceRegs) (d : Nat) (b : Byte) :
    (fifoWrite dr d b s).inputs = s.inputs :=
  rfl

@[simp] theorem commandWrite_devs (s : State) (dr : DeviceRegs) (d : Nat) (v : Dword) :
    (commandWrite dr d v s).devs = s.devs := by
  simp only [commandWrite]; repeat' split
  all_goals rfl
@[simp] theorem commandWrite_mem (s : State) (dr : DeviceRegs) (d : Nat) (v : Dword) :
    (commandWrite dr d v s).mem = s.mem := by
  simp only [commandWrite]; repeat' split
  all_goals rfl
@[simp] theorem commandWrite_buf (s : State) (dr : DeviceRegs) (d : Nat) (v : Dword) :
    (commandWrite dr d v s).buf = s.buf := by
  simp only [commandWrite]; repeat' split
  all_goals rfl
@[simp] theorem commandWrite_backing (s : State) (dr : DeviceRegs) (d : Nat) (v : Dword) :
    (commandWrite dr d v s).backing = s.backing := by
  simp only [commandWrite]; repeat' split
  all_goals rfl
@[simp] theorem commandWrite_outs (s : State) (dr : DeviceRegs) (d : Nat) (v : Dword) :
    (commandWrite dr d v s).outs = s.outs := by
  simp only [commandWrite]; repeat' split
  all_goals rfl
@[simp] theorem commandWrite_allocs (s : State) (dr : DeviceRegs) (d : Nat) (v : Dword) :
    (commandWrite dr d v s).allocs = s.allocs := by
  simp only [commandWrite]; repeat' split
  all_goals rfl
@[simp] theorem commandWrite_nextHandle (s : State) (dr : DeviceRegs) (d : Nat) (v : Dword) :
    (commandWrite dr d v s).nextHandle = s.nextHandle := by
  simp only [commandWrite]; repeat' split
  all_goals rfl
@[simp] theorem commandWrite_trace (s : State) (dr : DeviceRegs) (d : Nat) (v : Dword) :
    (commandWrite dr d v s).trace = s.trace := by
  simp only [commandWrite]; repeat' split
  all_goals rfl
@[simp] theorem commandWrite_dmaTrace (s : State) (dr : DeviceRegs) (d : Nat) (v : Dword) :
    (commandWrite dr d v s).dmaTrace = s.dmaTrace := by
  simp only [commandWrite]; repeat' split
  all_goals rfl
@[simp] theorem commandWrite_calls (s : State) (dr : DeviceRegs) (d : Nat) (v : Dword) :
    (commandWrite dr d v s).calls = s.calls := by
  simp only [commandWrite]; repeat' split
  all_goals rfl
@[simp] theorem commandWrite_log (s : State) (dr : DeviceRegs) (d : Nat) (v : Dword) :
    (commandWrite dr d v s).log = s.log := by
  simp only [commandWrite]; repeat' split
  all_goals rfl
@[simp] theorem commandWrite_returns (s : State) (dr : DeviceRegs) (d : Nat) (v : Dword) :
    (commandWrite dr d v s).returns = s.returns := by
  simp only [commandWrite]; repeat' split
  all_goals rfl
@[simp] theorem commandWrite_faults (s : State) (dr : DeviceRegs) (d : Nat) (v : Dword) :
    (commandWrite dr d v s).faults = s.faults := by
  simp only [commandWrite]; repeat' split
  all_goals rfl
@[simp] theorem commandWrite_threads (s : State) (dr : DeviceRegs) (d : Nat) (v : Dword) :
    (commandWrite dr d v s).threads = s.threads := by
  simp only [commandWrite]; repeat' split
  all_goals rfl
@[simp] theorem commandWrite_nextTid (s : State) (dr : DeviceRegs) (d : Nat) (v : Dword) :
    (commandWrite dr d v s).nextTid = s.nextTid := by
  simp only [commandWrite]; repeat' split
  all_goals rfl
@[simp] theorem commandWrite_activation (s : State) (dr : DeviceRegs) (d : Nat) (v : Dword) :
    (commandWrite dr d v s).activation = s.activation := by
  simp only [commandWrite]; repeat' split
  all_goals rfl
@[simp] theorem commandWrite_port (s : State) (dr : DeviceRegs) (d : Nat) (v : Dword) :
    (commandWrite dr d v s).port = s.port := by
  simp only [commandWrite]; repeat' split
  all_goals rfl
@[simp] theorem commandWrite_inputs (s : State) (dr : DeviceRegs) (d : Nat) (v : Dword) :
    (commandWrite dr d v s).inputs = s.inputs := by
  simp only [commandWrite]; repeat' split
  all_goals rfl

@[simp] theorem controlWrite_devs (s : State) (dr : DeviceRegs) (d : Nat) (v : Dword) :
    (controlWrite dr d v s).devs = s.devs := by
  simp only [controlWrite]; repeat' split
  all_goals rfl
@[simp] theorem controlWrite_mem (s : State) (dr : DeviceRegs) (d : Nat) (v : Dword) :
    (controlWrite dr d v s).mem = s.mem := by
  simp only [controlWrite]; repeat' split
  all_goals rfl
@[simp] theorem controlWrite_buf (s : State) (dr : DeviceRegs) (d : Nat) (v : Dword) :
    (controlWrite dr d v s).buf = s.buf := by
  simp only [controlWrite]; repeat' split
  all_goals rfl
@[simp] theorem controlWrite_backing (s : State) (dr : DeviceRegs) (d : Nat) (v : Dword) :
    (controlWrite dr d v s).backing = s.backing := by
  simp only [controlWrite]; repeat' split
  all_goals rfl
@[simp] theorem controlWrite_outs (s : State) (dr : DeviceRegs) (d : Nat) (v : Dword) :
    (controlWrite dr d v s).outs = s.outs := by
  simp only [controlWrite]; repeat' split
  all_goals rfl
@[simp] theorem controlWrite_allocs (s : State) (dr : DeviceRegs) (d : Nat) (v : Dword) :
    (controlWrite dr d v s).allocs = s.allocs := by
  simp only [controlWrite]; repeat' split
  all_goals rfl
@[simp] theorem controlWrite_nextHandle (s : State) (dr : DeviceRegs) (d : Nat) (v : Dword) :
    (controlWrite dr d v s).nextHandle = s.nextHandle := by
  simp only [controlWrite]; repeat' split
  all_goals rfl
@[simp] theorem controlWrite_trace (s : State) (dr : DeviceRegs) (d : Nat) (v : Dword) :
    (controlWrite dr d v s).trace = s.trace := by
  simp only [controlWrite]; repeat' split
  all_goals rfl
@[simp] theorem controlWrite_dmaTrace (s : State) (dr : DeviceRegs) (d : Nat) (v : Dword) :
    (controlWrite dr d v s).dmaTrace = s.dmaTrace := by
  simp only [controlWrite]; repeat' split
  all_goals rfl
@[simp] theorem controlWrite_calls (s : State) (dr : DeviceRegs) (d : Nat) (v : Dword) :
    (controlWrite dr d v s).calls = s.calls := by
  simp only [controlWrite]; repeat' split
  all_goals rfl
@[simp] theorem controlWrite_log (s : State) (dr : DeviceRegs) (d : Nat) (v : Dword) :
    (controlWrite dr d v s).log = s.log := by
  simp only [controlWrite]; repeat' split
  all_goals rfl
@[simp] theorem controlWrite_returns (s : State) (dr : DeviceRegs) (d : Nat) (v : Dword) :
    (controlWrite dr d v s).returns = s.returns := by
  simp only [controlWrite]; repeat' split
  all_goals rfl
@[simp] theorem controlWrite_faults (s : State) (dr : DeviceRegs) (d : Nat) (v : Dword) :
    (controlWrite dr d v s).faults = s.faults := by
  simp only [controlWrite]; repeat' split
  all_goals rfl
@[simp] theorem controlWrite_threads (s : State) (dr : DeviceRegs) (d : Nat) (v : Dword) :
    (controlWrite dr d v s).threads = s.threads := by
  simp only [controlWrite]; repeat' split
  all_goals rfl
@[simp] theorem controlWrite_nextTid (s : State) (dr : DeviceRegs) (d : Nat) (v : Dword) :
    (controlWrite dr d v s).nextTid = s.nextTid := by
  simp only [controlWrite]; repeat' split
  all_goals rfl
@[simp] theorem controlWrite_activation (s : State) (dr : DeviceRegs) (d : Nat) (v : Dword) :
    (controlWrite dr d v s).activation = s.activation := by
  simp only [controlWrite]; repeat' split
  all_goals rfl
@[simp] theorem controlWrite_port (s : State) (dr : DeviceRegs) (d : Nat) (v : Dword) :
    (controlWrite dr d v s).port = s.port := by
  simp only [controlWrite]; repeat' split
  all_goals rfl
@[simp] theorem controlWrite_inputs (s : State) (dr : DeviceRegs) (d : Nat) (v : Dword) :
    (controlWrite dr d v s).inputs = s.inputs := by
  simp only [controlWrite]; repeat' split
  all_goals rfl

@[simp] theorem busMasterWrite_devs (s : State) (dr : DeviceRegs) (wd : Width) (d : Nat) (v : Dword) :
    (busMasterWrite dr wd d v s).devs = s.devs := by
  simp only [busMasterWrite]; repeat' split
  all_goals rfl
@[simp] theorem busMasterWrite_mem (s : State) (dr : DeviceRegs) (wd : Width) (d : Nat) (v : Dword) :
    (busMasterWrite dr wd d v s).mem = s.mem := by
  simp only [busMasterWrite]; repeat' split
  all_goals rfl
@[simp] theorem busMasterWrite_buf (s : State) (dr : DeviceRegs) (wd : Width) (d : Nat) (v : Dword) :
    (busMasterWrite dr wd d v s).buf = s.buf := by
  simp only [busMasterWrite]; repeat' split
  all_goals rfl
@[simp] theorem busMasterWrite_backing (s : State) (dr : DeviceRegs) (wd : Width) (d : Nat) (v : Dword) :
    (busMasterWrite dr wd d v s).backing = s.backing := by
  simp only [busMasterWrite]; repeat' split
  all_goals rfl
@[simp] theorem busMasterWrite_outs (s : State) (dr : DeviceRegs) (wd : Width) (d : Nat) (v : Dword) :
    (busMasterWrite dr wd d v s).outs = s.outs := by
  simp only [busMasterWrite]; repeat' split
  all_goals rfl
@[simp] theorem busMasterWrite_allocs (s : State) (dr : DeviceRegs) (wd : Width) (d : Nat) (v : Dword) :
    (busMasterWrite dr wd d v s).allocs = s.allocs := by
  simp only [busMasterWrite]; repeat' split
  all_goals rfl
@[simp] theorem busMasterWrite_nextHandle (s : State) (dr : DeviceRegs) (wd : Width) (d : Nat) (v : Dword) :
    (busMasterWrite dr wd d v s).nextHandle = s.nextHandle := by
  simp only [busMasterWrite]; repeat' split
  all_goals rfl
@[simp] theorem busMasterWrite_trace (s : State) (dr : DeviceRegs) (wd : Width) (d : Nat) (v : Dword) :
    (busMasterWrite dr wd d v s).trace = s.trace := by
  simp only [busMasterWrite]; repeat' split
  all_goals rfl
@[simp] theorem busMasterWrite_dmaTrace (s : State) (dr : DeviceRegs) (wd : Width) (d : Nat) (v : Dword) :
    (busMasterWrite dr wd d v s).dmaTrace = s.dmaTrace := by
  simp only [busMasterWrite]; repeat' split
  all_goals rfl
@[simp] theorem busMasterWrite_calls (s : State) (dr : DeviceRegs) (wd : Width) (d : Nat) (v : Dword) :
    (busMasterWrite dr wd d v s).calls = s.calls := by
  simp only [busMasterWrite]; repeat' split
  all_goals rfl
@[simp] theorem busMasterWrite_log (s : State) (dr : DeviceRegs) (wd : Width) (d : Nat) (v : Dword) :
    (busMasterWrite dr wd d v s).log = s.log := by
  simp only [busMasterWrite]; repeat' split
  all_goals rfl
@[simp] theorem busMasterWrite_returns (s : State) (dr : DeviceRegs) (wd : Width) (d : Nat) (v : Dword) :
    (busMasterWrite dr wd d v s).returns = s.returns := by
  simp only [busMasterWrite]; repeat' split
  all_goals rfl
@[simp] theorem busMasterWrite_faults (s : State) (dr : DeviceRegs) (wd : Width) (d : Nat) (v : Dword) :
    (busMasterWrite dr wd d v s).faults = s.faults := by
  simp only [busMasterWrite]; repeat' split
  all_goals rfl
@[simp] theorem busMasterWrite_threads (s : State) (dr : DeviceRegs) (wd : Width) (d : Nat) (v : Dword) :
    (busMasterWrite dr wd d v s).threads = s.threads := by
  simp only [busMasterWrite]; repeat' split
  all_goals rfl
@[simp] theorem busMasterWrite_nextTid (s : State) (dr : DeviceRegs) (wd : Width) (d : Nat) (v : Dword) :
    (busMasterWrite dr wd d v s).nextTid = s.nextTid := by
  simp only [busMasterWrite]; repeat' split
  all_goals rfl
@[simp] theorem busMasterWrite_activation (s : State) (dr : DeviceRegs) (wd : Width) (d : Nat) (v : Dword) :
    (busMasterWrite dr wd d v s).activation = s.activation := by
  simp only [busMasterWrite]; repeat' split
  all_goals rfl
@[simp] theorem busMasterWrite_port (s : State) (dr : DeviceRegs) (wd : Width) (d : Nat) (v : Dword) :
    (busMasterWrite dr wd d v s).port = s.port := by
  simp only [busMasterWrite]; repeat' split
  all_goals rfl
@[simp] theorem busMasterWrite_inputs (s : State) (dr : DeviceRegs) (wd : Width) (d : Nat) (v : Dword) :
    (busMasterWrite dr wd d v s).inputs = s.inputs := by
  simp only [busMasterWrite]; repeat' split
  all_goals rfl

@[simp] theorem deviceWrite_devs (s : State) (dr : DeviceRegs) (wd : Width) (p : Port) (v : Dword) :
    (deviceWrite dr wd p v s).devs = s.devs := by
  unfold deviceWrite; split <;> simp
@[simp] theorem deviceWrite_mem (s : State) (dr : DeviceRegs) (wd : Width) (p : Port) (v : Dword) :
    (deviceWrite dr wd p v s).mem = s.mem := by
  unfold deviceWrite; split <;> simp
@[simp] theorem deviceWrite_buf (s : State) (dr : DeviceRegs) (wd : Width) (p : Port) (v : Dword) :
    (deviceWrite dr wd p v s).buf = s.buf := by
  unfold deviceWrite; split <;> simp
@[simp] theorem deviceWrite_backing (s : State) (dr : DeviceRegs) (wd : Width) (p : Port) (v : Dword) :
    (deviceWrite dr wd p v s).backing = s.backing := by
  unfold deviceWrite; split <;> simp
@[simp] theorem deviceWrite_outs (s : State) (dr : DeviceRegs) (wd : Width) (p : Port) (v : Dword) :
    (deviceWrite dr wd p v s).outs = s.outs := by
  unfold deviceWrite; split <;> simp
@[simp] theorem deviceWrite_allocs (s : State) (dr : DeviceRegs) (wd : Width) (p : Port) (v : Dword) :
    (deviceWrite dr wd p v s).allocs = s.allocs := by
  unfold deviceWrite; split <;> simp
@[simp] theorem deviceWrite_nextHandle (s : State) (dr : DeviceRegs) (wd : Width) (p : Port) (v : Dword) :
    (deviceWrite dr wd p v s).nextHandle = s.nextHandle := by
  unfold deviceWrite; split <;> simp
@[simp] theorem deviceWrite_trace (s : State) (dr : DeviceRegs) (wd : Width) (p : Port) (v : Dword) :
    (deviceWrite dr wd p v s).trace = s.trace := by
  unfold deviceWrite; split <;> simp
@[simp] theorem deviceWrite_dmaTrace (s : State) (dr : DeviceRegs) (wd : Width) (p : Port) (v : Dword) :
    (deviceWrite dr wd p v s).dmaTrace = s.dmaTrace := by
  unfold deviceWrite; split <;> simp
@[simp] theorem deviceWrite_calls (s : State) (dr : DeviceRegs) (wd : Width) (p : Port) (v : Dword) :
    (deviceWrite dr wd p v s).calls = s.calls := by
  unfold deviceWrite; split <;> simp
@[simp] theorem deviceWrite_log (s : State) (dr : DeviceRegs) (wd : Width) (p : Port) (v : Dword) :
    (deviceWrite dr wd p v s).log = s.log := by
  unfold deviceWrite; split <;> simp
@[simp] theorem deviceWrite_returns (s : State) (dr : DeviceRegs) (wd : Width) (p : Port) (v : Dword) :
    (deviceWrite dr wd p v s).returns = s.returns := by
  unfold deviceWrite; split <;> simp
@[simp] theorem deviceWrite_faults (s : State) (dr : DeviceRegs) (wd : Width) (p : Port) (v : Dword) :
    (deviceWrite dr wd p v s).faults = s.faults := by
  unfold deviceWrite; split <;> simp
@[simp] theorem deviceWrite_threads (s : State) (dr : DeviceRegs) (wd : Width) (p : Port) (v : Dword) :
    (deviceWrite dr wd p v s).threads = s.threads := by
  unfold deviceWrite; split <;> simp
@[simp] theorem deviceWrite_nextTid (s : State) (dr : DeviceRegs) (wd : Width) (p : Port) (v : Dword) :
    (deviceWrite dr wd p v s).nextTid = s.nextTid := by
  unfold deviceWrite; split <;> simp
@[simp] theorem deviceWrite_activation (s : State) (dr : DeviceRegs) (wd : Width) (p : Port) (v : Dword) :
    (deviceWrite dr wd p v s).activation = s.activation := by
  unfold deviceWrite; split <;> simp
@[simp] theorem deviceWrite_port (s : State) (dr : DeviceRegs) (wd : Width) (p : Port) (v : Dword) :
    (deviceWrite dr wd p v s).port = s.port := by
  unfold deviceWrite; split <;> simp
@[simp] theorem deviceWrite_inputs (s : State) (dr : DeviceRegs) (wd : Width) (p : Port) (v : Dword) :
    (deviceWrite dr wd p v s).inputs = s.inputs := by
  unfold deviceWrite; split <;> simp

@[simp] theorem State.tookAnswer_env_cmd (s : State) : (s.tookAnswer).env.cmd = s.env.cmd := by
  unfold State.tookAnswer; repeat' split
  all_goals rfl
@[simp] theorem State.tookAnswer_env_ctl (s : State) : (s.tookAnswer).env.ctl = s.env.ctl := by
  unfold State.tookAnswer; repeat' split
  all_goals rfl
@[simp] theorem State.tookAnswer_env_bm (s : State) : (s.tookAnswer).env.bm = s.env.bm := by
  unfold State.tookAnswer; repeat' split
  all_goals rfl
@[simp] theorem State.tookTranslation_env_cmd (s : State) (a n : Nat) : (s.tookTranslation a n).env.cmd = s.env.cmd := by
  unfold State.tookTranslation; repeat' split
  all_goals rfl
@[simp] theorem State.tookTranslation_env_ctl (s : State) (a n : Nat) : (s.tookTranslation a n).env.ctl = s.env.ctl := by
  unfold State.tookTranslation; repeat' split
  all_goals rfl
@[simp] theorem State.tookTranslation_env_bm (s : State) (a n : Nat) : (s.tookTranslation a n).env.bm = s.env.bm := by
  unfold State.tookTranslation; repeat' split
  all_goals rfl
@[simp] theorem State.tookAllocation_env_cmd (s : State) : (s.tookAllocation).env.cmd = s.env.cmd := by
  unfold State.tookAllocation; repeat' split
  all_goals rfl
@[simp] theorem State.tookAllocation_env_ctl (s : State) : (s.tookAllocation).env.ctl = s.env.ctl := by
  unfold State.tookAllocation; repeat' split
  all_goals rfl
@[simp] theorem State.tookAllocation_env_bm (s : State) : (s.tookAllocation).env.bm = s.env.bm := by
  unfold State.tookAllocation; repeat' split
  all_goals rfl
@[simp] theorem State.tookRegistration_env_cmd (s : State) : (s.tookRegistration).env.cmd = s.env.cmd := by
  unfold State.tookRegistration; repeat' split
  all_goals rfl
@[simp] theorem State.tookRegistration_env_ctl (s : State) : (s.tookRegistration).env.ctl = s.env.ctl := by
  unfold State.tookRegistration; repeat' split
  all_goals rfl
@[simp] theorem State.tookRegistration_env_bm (s : State) : (s.tookRegistration).env.bm = s.env.bm := by
  unfold State.tookRegistration; repeat' split
  all_goals rfl

/-! ## Port accesses -/

@[simp] theorem State.record_devs (s : State) (e : PortEvent) : (s.record e).devs = s.devs := rfl
@[simp] theorem State.record_env (s : State) (e : PortEvent) : (s.record e).env = s.env := rfl
@[simp] theorem State.record_mem (s : State) (e : PortEvent) : (s.record e).mem = s.mem := rfl
@[simp] theorem State.record_buf (s : State) (e : PortEvent) : (s.record e).buf = s.buf := rfl
@[simp] theorem State.record_backing (s : State) (e : PortEvent) : (s.record e).backing = s.backing := rfl
@[simp] theorem State.record_outs (s : State) (e : PortEvent) : (s.record e).outs = s.outs := rfl
@[simp] theorem State.record_allocs (s : State) (e : PortEvent) : (s.record e).allocs = s.allocs := rfl
@[simp] theorem State.record_nextHandle (s : State) (e : PortEvent) : (s.record e).nextHandle = s.nextHandle := rfl
@[simp] theorem State.record_dmaTrace (s : State) (e : PortEvent) : (s.record e).dmaTrace = s.dmaTrace := rfl
@[simp] theorem State.record_calls (s : State) (e : PortEvent) : (s.record e).calls = s.calls := rfl
@[simp] theorem State.record_log (s : State) (e : PortEvent) : (s.record e).log = s.log := rfl
@[simp] theorem State.record_returns (s : State) (e : PortEvent) : (s.record e).returns = s.returns := rfl
@[simp] theorem State.record_faults (s : State) (e : PortEvent) : (s.record e).faults = s.faults := rfl
@[simp] theorem State.record_threads (s : State) (e : PortEvent) : (s.record e).threads = s.threads := rfl
@[simp] theorem State.record_nextTid (s : State) (e : PortEvent) : (s.record e).nextTid = s.nextTid := rfl
@[simp] theorem State.record_activation (s : State) (e : PortEvent) : (s.record e).activation = s.activation := rfl
@[simp] theorem State.record_port (s : State) (e : PortEvent) : (s.record e).port = s.port := rfl
@[simp] theorem State.record_inputs (s : State) (e : PortEvent) : (s.record e).inputs = s.inputs := rfl

@[simp] theorem portWrite_devs (s : State) (h : Handle) (wd : Width) (p : Port) (v : Dword) :
    (portWrite h wd p v s).devs = s.devs := by
  simp [portWrite]
@[simp] theorem portWrite_mem (s : State) (h : Handle) (wd : Width) (p : Port) (v : Dword) :
    (portWrite h wd p v s).mem = s.mem := by
  simp [portWrite]
@[simp] theorem portWrite_buf (s : State) (h : Handle) (wd : Width) (p : Port) (v : Dword) :
    (portWrite h wd p v s).buf = s.buf := by
  simp [portWrite]
@[simp] theorem portWrite_backing (s : State) (h : Handle) (wd : Width) (p : Port) (v : Dword) :
    (portWrite h wd p v s).backing = s.backing := by
  simp [portWrite]
@[simp] theorem portWrite_outs (s : State) (h : Handle) (wd : Width) (p : Port) (v : Dword) :
    (portWrite h wd p v s).outs = s.outs := by
  simp [portWrite]
@[simp] theorem portWrite_allocs (s : State) (h : Handle) (wd : Width) (p : Port) (v : Dword) :
    (portWrite h wd p v s).allocs = s.allocs := by
  simp [portWrite]
@[simp] theorem portWrite_nextHandle (s : State) (h : Handle) (wd : Width) (p : Port) (v : Dword) :
    (portWrite h wd p v s).nextHandle = s.nextHandle := by
  simp [portWrite]
@[simp] theorem portWrite_dmaTrace (s : State) (h : Handle) (wd : Width) (p : Port) (v : Dword) :
    (portWrite h wd p v s).dmaTrace = s.dmaTrace := by
  simp [portWrite]
@[simp] theorem portWrite_calls (s : State) (h : Handle) (wd : Width) (p : Port) (v : Dword) :
    (portWrite h wd p v s).calls = s.calls := by
  simp [portWrite]
@[simp] theorem portWrite_log (s : State) (h : Handle) (wd : Width) (p : Port) (v : Dword) :
    (portWrite h wd p v s).log = s.log := by
  simp [portWrite]
@[simp] theorem portWrite_returns (s : State) (h : Handle) (wd : Width) (p : Port) (v : Dword) :
    (portWrite h wd p v s).returns = s.returns := by
  simp [portWrite]
@[simp] theorem portWrite_faults (s : State) (h : Handle) (wd : Width) (p : Port) (v : Dword) :
    (portWrite h wd p v s).faults = s.faults := by
  simp [portWrite]
@[simp] theorem portWrite_threads (s : State) (h : Handle) (wd : Width) (p : Port) (v : Dword) :
    (portWrite h wd p v s).threads = s.threads := by
  simp [portWrite]
@[simp] theorem portWrite_nextTid (s : State) (h : Handle) (wd : Width) (p : Port) (v : Dword) :
    (portWrite h wd p v s).nextTid = s.nextTid := by
  simp [portWrite]
@[simp] theorem portWrite_activation (s : State) (h : Handle) (wd : Width) (p : Port) (v : Dword) :
    (portWrite h wd p v s).activation = s.activation := by
  simp [portWrite]
@[simp] theorem portWrite_port (s : State) (h : Handle) (wd : Width) (p : Port) (v : Dword) :
    (portWrite h wd p v s).port = s.port := by
  simp [portWrite]
@[simp] theorem portWrite_inputs (s : State) (h : Handle) (wd : Width) (p : Port) (v : Dword) :
    (portWrite h wd p v s).inputs = s.inputs := by
  simp [portWrite]

@[simp] theorem portRead_devs (s : State) (h : Handle) (wd : Width) (p : Port) : (portRead h wd p s).devs = s.devs := by
  simp [portRead]
@[simp] theorem portRead_mem (s : State) (h : Handle) (wd : Width) (p : Port) : (portRead h wd p s).mem = s.mem := by
  simp [portRead]
@[simp] theorem portRead_buf (s : State) (h : Handle) (wd : Width) (p : Port) : (portRead h wd p s).buf = s.buf := by
  simp [portRead]
@[simp] theorem portRead_backing (s : State) (h : Handle) (wd : Width) (p : Port) :
    (portRead h wd p s).backing = s.backing := by
  simp [portRead]
@[simp] theorem portRead_outs (s : State) (h : Handle) (wd : Width) (p : Port) : (portRead h wd p s).outs = s.outs := by
  simp [portRead]
@[simp] theorem portRead_allocs (s : State) (h : Handle) (wd : Width) (p : Port) :
    (portRead h wd p s).allocs = s.allocs := by
  simp [portRead]
@[simp] theorem portRead_nextHandle (s : State) (h : Handle) (wd : Width) (p : Port) :
    (portRead h wd p s).nextHandle = s.nextHandle := by
  simp [portRead]
@[simp] theorem portRead_dmaTrace (s : State) (h : Handle) (wd : Width) (p : Port) :
    (portRead h wd p s).dmaTrace = s.dmaTrace := by
  simp [portRead]
@[simp] theorem portRead_calls (s : State) (h : Handle) (wd : Width) (p : Port) :
    (portRead h wd p s).calls = s.calls := by
  simp [portRead]
@[simp] theorem portRead_log (s : State) (h : Handle) (wd : Width) (p : Port) : (portRead h wd p s).log = s.log := by
  simp [portRead]
@[simp] theorem portRead_returns (s : State) (h : Handle) (wd : Width) (p : Port) :
    (portRead h wd p s).returns = s.returns := by
  simp [portRead]
@[simp] theorem portRead_faults (s : State) (h : Handle) (wd : Width) (p : Port) :
    (portRead h wd p s).faults = s.faults := by
  simp [portRead]
@[simp] theorem portRead_threads (s : State) (h : Handle) (wd : Width) (p : Port) :
    (portRead h wd p s).threads = s.threads := by
  simp [portRead]
@[simp] theorem portRead_nextTid (s : State) (h : Handle) (wd : Width) (p : Port) :
    (portRead h wd p s).nextTid = s.nextTid := by
  simp [portRead]
@[simp] theorem portRead_activation (s : State) (h : Handle) (wd : Width) (p : Port) :
    (portRead h wd p s).activation = s.activation := by
  simp [portRead]
@[simp] theorem portRead_port (s : State) (h : Handle) (wd : Width) (p : Port) : (portRead h wd p s).port = s.port := by
  simp [portRead]
@[simp] theorem portRead_inputs (s : State) (h : Handle) (wd : Width) (p : Port) :
    (portRead h wd p s).inputs = s.inputs := by
  simp [portRead]

@[simp] theorem State.record_trace (e : PortEvent) (s : State) : (s.record e).trace = s.trace ++ [e] := rfl

@[simp] theorem portWrite_trace (h : Handle) (wd : Width) (p : Port) (v : Dword) (s : State) :
    (portWrite h wd p v s).trace = s.trace ++ [.write wd (portAddr (s.dev h).dr p) (wd.trim v)] := by
  simp [portWrite]

@[simp] theorem portRead_trace (h : Handle) (wd : Width) (p : Port) (s : State) :
    (portRead h wd p s).trace = s.trace ++ [.read wd (portAddr (s.dev h).dr p) (portValue h wd p s)] := by
  simp [portRead]

/-! ## Memory, allocations and calls -/

@[simp] theorem State.called_devs (s : State) (c : Call) : (s.called c).devs = s.devs := rfl
@[simp] theorem State.called_env (s : State) (c : Call) : (s.called c).env = s.env := rfl
@[simp] theorem State.called_mem (s : State) (c : Call) : (s.called c).mem = s.mem := rfl
@[simp] theorem State.called_buf (s : State) (c : Call) : (s.called c).buf = s.buf := rfl
@[simp] theorem State.called_backing (s : State) (c : Call) : (s.called c).backing = s.backing := rfl
@[simp] theorem State.called_outs (s : State) (c : Call) : (s.called c).outs = s.outs := rfl
@[simp] theorem State.called_allocs (s : State) (c : Call) : (s.called c).allocs = s.allocs := rfl
@[simp] theorem State.called_nextHandle (s : State) (c : Call) : (s.called c).nextHandle = s.nextHandle := rfl
@[simp] theorem State.called_trace (s : State) (c : Call) : (s.called c).trace = s.trace := rfl
@[simp] theorem State.called_dmaTrace (s : State) (c : Call) : (s.called c).dmaTrace = s.dmaTrace := rfl
@[simp] theorem State.called_log (s : State) (c : Call) : (s.called c).log = s.log := rfl
@[simp] theorem State.called_returns (s : State) (c : Call) : (s.called c).returns = s.returns := rfl
@[simp] theorem State.called_faults (s : State) (c : Call) : (s.called c).faults = s.faults := rfl
@[simp] theorem State.called_threads (s : State) (c : Call) : (s.called c).threads = s.threads := rfl
@[simp] theorem State.called_nextTid (s : State) (c : Call) : (s.called c).nextTid = s.nextTid := rfl
@[simp] theorem State.called_activation (s : State) (c : Call) : (s.called c).activation = s.activation := rfl
@[simp] theorem State.called_port (s : State) (c : Call) : (s.called c).port = s.port := rfl
@[simp] theorem State.called_inputs (s : State) (c : Call) : (s.called c).inputs = s.inputs := rfl

@[simp] theorem memWrite_devs (s : State) (a n v : Nat) : (memWrite a n v s).devs = s.devs := rfl
@[simp] theorem memWrite_env (s : State) (a n v : Nat) : (memWrite a n v s).env = s.env := rfl
@[simp] theorem memWrite_buf (s : State) (a n v : Nat) : (memWrite a n v s).buf = s.buf := rfl
@[simp] theorem memWrite_backing (s : State) (a n v : Nat) : (memWrite a n v s).backing = s.backing := rfl
@[simp] theorem memWrite_outs (s : State) (a n v : Nat) : (memWrite a n v s).outs = s.outs := rfl
@[simp] theorem memWrite_allocs (s : State) (a n v : Nat) : (memWrite a n v s).allocs = s.allocs := rfl
@[simp] theorem memWrite_nextHandle (s : State) (a n v : Nat) : (memWrite a n v s).nextHandle = s.nextHandle := rfl
@[simp] theorem memWrite_trace (s : State) (a n v : Nat) : (memWrite a n v s).trace = s.trace := rfl
@[simp] theorem memWrite_dmaTrace (s : State) (a n v : Nat) : (memWrite a n v s).dmaTrace = s.dmaTrace := rfl
@[simp] theorem memWrite_calls (s : State) (a n v : Nat) : (memWrite a n v s).calls = s.calls := rfl
@[simp] theorem memWrite_log (s : State) (a n v : Nat) : (memWrite a n v s).log = s.log := rfl
@[simp] theorem memWrite_returns (s : State) (a n v : Nat) : (memWrite a n v s).returns = s.returns := rfl
@[simp] theorem memWrite_faults (s : State) (a n v : Nat) : (memWrite a n v s).faults = s.faults := rfl
@[simp] theorem memWrite_threads (s : State) (a n v : Nat) : (memWrite a n v s).threads = s.threads := rfl
@[simp] theorem memWrite_nextTid (s : State) (a n v : Nat) : (memWrite a n v s).nextTid = s.nextTid := rfl
@[simp] theorem memWrite_activation (s : State) (a n v : Nat) : (memWrite a n v s).activation = s.activation := rfl
@[simp] theorem memWrite_port (s : State) (a n v : Nat) : (memWrite a n v s).port = s.port := rfl
@[simp] theorem memWrite_inputs (s : State) (a n v : Nat) : (memWrite a n v s).inputs = s.inputs := rfl

@[simp] theorem State.writePlace_devs (s : State) (p : Place) (b : Byte) : (s.writePlace p b).devs = s.devs := by
  cases p <;> rfl
@[simp] theorem State.writePlace_env (s : State) (p : Place) (b : Byte) : (s.writePlace p b).env = s.env := by
  cases p <;> rfl
@[simp] theorem State.writePlace_backing (s : State) (p : Place) (b : Byte) :
    (s.writePlace p b).backing = s.backing := by
  cases p <;> rfl
@[simp] theorem State.writePlace_outs (s : State) (p : Place) (b : Byte) : (s.writePlace p b).outs = s.outs := by
  cases p <;> rfl
@[simp] theorem State.writePlace_allocs (s : State) (p : Place) (b : Byte) : (s.writePlace p b).allocs = s.allocs := by
  cases p <;> rfl
@[simp] theorem State.writePlace_nextHandle (s : State) (p : Place) (b : Byte) :
    (s.writePlace p b).nextHandle = s.nextHandle := by
  cases p <;> rfl
@[simp] theorem State.writePlace_trace (s : State) (p : Place) (b : Byte) : (s.writePlace p b).trace = s.trace := by
  cases p <;> rfl
@[simp] theorem State.writePlace_dmaTrace (s : State) (p : Place) (b : Byte) :
    (s.writePlace p b).dmaTrace = s.dmaTrace := by
  cases p <;> rfl
@[simp] theorem State.writePlace_calls (s : State) (p : Place) (b : Byte) : (s.writePlace p b).calls = s.calls := by
  cases p <;> rfl
@[simp] theorem State.writePlace_log (s : State) (p : Place) (b : Byte) : (s.writePlace p b).log = s.log := by
  cases p <;> rfl
@[simp] theorem State.writePlace_returns (s : State) (p : Place) (b : Byte) :
    (s.writePlace p b).returns = s.returns := by
  cases p <;> rfl
@[simp] theorem State.writePlace_faults (s : State) (p : Place) (b : Byte) : (s.writePlace p b).faults = s.faults := by
  cases p <;> rfl
@[simp] theorem State.writePlace_threads (s : State) (p : Place) (b : Byte) :
    (s.writePlace p b).threads = s.threads := by
  cases p <;> rfl
@[simp] theorem State.writePlace_nextTid (s : State) (p : Place) (b : Byte) :
    (s.writePlace p b).nextTid = s.nextTid := by
  cases p <;> rfl
@[simp] theorem State.writePlace_activation (s : State) (p : Place) (b : Byte) :
    (s.writePlace p b).activation = s.activation := by
  cases p <;> rfl
@[simp] theorem State.writePlace_port (s : State) (p : Place) (b : Byte) : (s.writePlace p b).port = s.port := by
  cases p <;> rfl
@[simp] theorem State.writePlace_inputs (s : State) (p : Place) (b : Byte) : (s.writePlace p b).inputs = s.inputs := by
  cases p <;> rfl

@[simp] theorem State.storeCaller_devs (s : State) (a : Nat) (b : Byte) : (s.storeCaller a b).devs = s.devs := by
  simp [State.storeCaller]
@[simp] theorem State.storeCaller_env (s : State) (a : Nat) (b : Byte) : (s.storeCaller a b).env = s.env := by
  simp [State.storeCaller]
@[simp] theorem State.storeCaller_backing (s : State) (a : Nat) (b : Byte) :
    (s.storeCaller a b).backing = s.backing := by
  simp [State.storeCaller]
@[simp] theorem State.storeCaller_outs (s : State) (a : Nat) (b : Byte) : (s.storeCaller a b).outs = s.outs := by
  simp [State.storeCaller]
@[simp] theorem State.storeCaller_allocs (s : State) (a : Nat) (b : Byte) : (s.storeCaller a b).allocs = s.allocs := by
  simp [State.storeCaller]
@[simp] theorem State.storeCaller_nextHandle (s : State) (a : Nat) (b : Byte) :
    (s.storeCaller a b).nextHandle = s.nextHandle := by
  simp [State.storeCaller]
@[simp] theorem State.storeCaller_trace (s : State) (a : Nat) (b : Byte) : (s.storeCaller a b).trace = s.trace := by
  simp [State.storeCaller]
@[simp] theorem State.storeCaller_dmaTrace (s : State) (a : Nat) (b : Byte) :
    (s.storeCaller a b).dmaTrace = s.dmaTrace := by
  simp [State.storeCaller]
@[simp] theorem State.storeCaller_calls (s : State) (a : Nat) (b : Byte) : (s.storeCaller a b).calls = s.calls := by
  simp [State.storeCaller]
@[simp] theorem State.storeCaller_log (s : State) (a : Nat) (b : Byte) : (s.storeCaller a b).log = s.log := by
  simp [State.storeCaller]
@[simp] theorem State.storeCaller_returns (s : State) (a : Nat) (b : Byte) :
    (s.storeCaller a b).returns = s.returns := by
  simp [State.storeCaller]
@[simp] theorem State.storeCaller_faults (s : State) (a : Nat) (b : Byte) : (s.storeCaller a b).faults = s.faults := by
  simp [State.storeCaller]
@[simp] theorem State.storeCaller_threads (s : State) (a : Nat) (b : Byte) :
    (s.storeCaller a b).threads = s.threads := by
  simp [State.storeCaller]
@[simp] theorem State.storeCaller_nextTid (s : State) (a : Nat) (b : Byte) :
    (s.storeCaller a b).nextTid = s.nextTid := by
  simp [State.storeCaller]
@[simp] theorem State.storeCaller_activation (s : State) (a : Nat) (b : Byte) :
    (s.storeCaller a b).activation = s.activation := by
  simp [State.storeCaller]
@[simp] theorem State.storeCaller_port (s : State) (a : Nat) (b : Byte) : (s.storeCaller a b).port = s.port := by
  simp [State.storeCaller]
@[simp] theorem State.storeCaller_inputs (s : State) (a : Nat) (b : Byte) : (s.storeCaller a b).inputs = s.inputs := by
  simp [State.storeCaller]

@[simp] theorem bufWrite16_devs (s : State) (a i : Nat) (w : Word) : (bufWrite16 s a i w).devs = s.devs := by
  simp [bufWrite16]
@[simp] theorem bufWrite16_env (s : State) (a i : Nat) (w : Word) : (bufWrite16 s a i w).env = s.env := by
  simp [bufWrite16]
@[simp] theorem bufWrite16_backing (s : State) (a i : Nat) (w : Word) : (bufWrite16 s a i w).backing = s.backing := by
  simp [bufWrite16]
@[simp] theorem bufWrite16_outs (s : State) (a i : Nat) (w : Word) : (bufWrite16 s a i w).outs = s.outs := by
  simp [bufWrite16]
@[simp] theorem bufWrite16_allocs (s : State) (a i : Nat) (w : Word) : (bufWrite16 s a i w).allocs = s.allocs := by
  simp [bufWrite16]
@[simp] theorem bufWrite16_nextHandle (s : State) (a i : Nat) (w : Word) :
    (bufWrite16 s a i w).nextHandle = s.nextHandle := by
  simp [bufWrite16]
@[simp] theorem bufWrite16_trace (s : State) (a i : Nat) (w : Word) : (bufWrite16 s a i w).trace = s.trace := by
  simp [bufWrite16]
@[simp] theorem bufWrite16_dmaTrace (s : State) (a i : Nat) (w : Word) :
    (bufWrite16 s a i w).dmaTrace = s.dmaTrace := by
  simp [bufWrite16]
@[simp] theorem bufWrite16_calls (s : State) (a i : Nat) (w : Word) : (bufWrite16 s a i w).calls = s.calls := by
  simp [bufWrite16]
@[simp] theorem bufWrite16_log (s : State) (a i : Nat) (w : Word) : (bufWrite16 s a i w).log = s.log := by
  simp [bufWrite16]
@[simp] theorem bufWrite16_returns (s : State) (a i : Nat) (w : Word) : (bufWrite16 s a i w).returns = s.returns := by
  simp [bufWrite16]
@[simp] theorem bufWrite16_faults (s : State) (a i : Nat) (w : Word) : (bufWrite16 s a i w).faults = s.faults := by
  simp [bufWrite16]
@[simp] theorem bufWrite16_threads (s : State) (a i : Nat) (w : Word) : (bufWrite16 s a i w).threads = s.threads := by
  simp [bufWrite16]
@[simp] theorem bufWrite16_nextTid (s : State) (a i : Nat) (w : Word) : (bufWrite16 s a i w).nextTid = s.nextTid := by
  simp [bufWrite16]
@[simp] theorem bufWrite16_activation (s : State) (a i : Nat) (w : Word) :
    (bufWrite16 s a i w).activation = s.activation := by
  simp [bufWrite16]
@[simp] theorem bufWrite16_port (s : State) (a i : Nat) (w : Word) : (bufWrite16 s a i w).port = s.port := by
  simp [bufWrite16]
@[simp] theorem bufWrite16_inputs (s : State) (a i : Nat) (w : Word) : (bufWrite16 s a i w).inputs = s.inputs := by
  simp [bufWrite16]

@[simp] theorem allocate_devs (s : State) (p : PhysAddr) (n : Nat) : (allocate p n s).devs = s.devs := rfl
@[simp] theorem allocate_env (s : State) (p : PhysAddr) (n : Nat) : (allocate p n s).env = s.env := rfl
@[simp] theorem allocate_buf (s : State) (p : PhysAddr) (n : Nat) : (allocate p n s).buf = s.buf := rfl
@[simp] theorem allocate_backing (s : State) (p : PhysAddr) (n : Nat) : (allocate p n s).backing = s.backing := rfl
@[simp] theorem allocate_outs (s : State) (p : PhysAddr) (n : Nat) : (allocate p n s).outs = s.outs := rfl
@[simp] theorem allocate_trace (s : State) (p : PhysAddr) (n : Nat) : (allocate p n s).trace = s.trace := rfl
@[simp] theorem allocate_dmaTrace (s : State) (p : PhysAddr) (n : Nat) : (allocate p n s).dmaTrace = s.dmaTrace := rfl
@[simp] theorem allocate_calls (s : State) (p : PhysAddr) (n : Nat) : (allocate p n s).calls = s.calls := rfl
@[simp] theorem allocate_log (s : State) (p : PhysAddr) (n : Nat) : (allocate p n s).log = s.log := rfl
@[simp] theorem allocate_returns (s : State) (p : PhysAddr) (n : Nat) : (allocate p n s).returns = s.returns := rfl
@[simp] theorem allocate_faults (s : State) (p : PhysAddr) (n : Nat) : (allocate p n s).faults = s.faults := rfl
@[simp] theorem allocate_threads (s : State) (p : PhysAddr) (n : Nat) : (allocate p n s).threads = s.threads := rfl
@[simp] theorem allocate_nextTid (s : State) (p : PhysAddr) (n : Nat) : (allocate p n s).nextTid = s.nextTid := rfl
@[simp] theorem allocate_activation (s : State) (p : PhysAddr) (n : Nat) : (allocate p n s).activation = s.activation :=
  rfl
@[simp] theorem allocate_port (s : State) (p : PhysAddr) (n : Nat) : (allocate p n s).port = s.port := rfl
@[simp] theorem allocate_inputs (s : State) (p : PhysAddr) (n : Nat) : (allocate p n s).inputs = s.inputs := rfl

@[simp] theorem giveBack_devs (s : State) (x : Nat) : (giveBack x s).devs = s.devs := by
  unfold giveBack; split <;> rfl
@[simp] theorem giveBack_env (s : State) (x : Nat) : (giveBack x s).env = s.env := by
  unfold giveBack; split <;> rfl
@[simp] theorem giveBack_buf (s : State) (x : Nat) : (giveBack x s).buf = s.buf := by
  unfold giveBack; split <;> rfl
@[simp] theorem giveBack_backing (s : State) (x : Nat) : (giveBack x s).backing = s.backing := by
  unfold giveBack; split <;> rfl
@[simp] theorem giveBack_outs (s : State) (x : Nat) : (giveBack x s).outs = s.outs := by
  unfold giveBack; split <;> rfl
@[simp] theorem giveBack_nextHandle (s : State) (x : Nat) : (giveBack x s).nextHandle = s.nextHandle := by
  unfold giveBack; split <;> rfl
@[simp] theorem giveBack_trace (s : State) (x : Nat) : (giveBack x s).trace = s.trace := by
  unfold giveBack; split <;> rfl
@[simp] theorem giveBack_dmaTrace (s : State) (x : Nat) : (giveBack x s).dmaTrace = s.dmaTrace := by
  unfold giveBack; split <;> rfl
@[simp] theorem giveBack_calls (s : State) (x : Nat) : (giveBack x s).calls = s.calls := by
  unfold giveBack; split <;> rfl
@[simp] theorem giveBack_log (s : State) (x : Nat) : (giveBack x s).log = s.log := by
  unfold giveBack; split <;> rfl
@[simp] theorem giveBack_returns (s : State) (x : Nat) : (giveBack x s).returns = s.returns := by
  unfold giveBack; split <;> rfl
@[simp] theorem giveBack_faults (s : State) (x : Nat) : (giveBack x s).faults = s.faults := by
  unfold giveBack; split <;> rfl
@[simp] theorem giveBack_threads (s : State) (x : Nat) : (giveBack x s).threads = s.threads := by
  unfold giveBack; split <;> rfl
@[simp] theorem giveBack_nextTid (s : State) (x : Nat) : (giveBack x s).nextTid = s.nextTid := by
  unfold giveBack; split <;> rfl
@[simp] theorem giveBack_activation (s : State) (x : Nat) : (giveBack x s).activation = s.activation := by
  unfold giveBack; split <;> rfl
@[simp] theorem giveBack_port (s : State) (x : Nat) : (giveBack x s).port = s.port := by
  unfold giveBack; split <;> rfl
@[simp] theorem giveBack_inputs (s : State) (x : Nat) : (giveBack x s).inputs = s.inputs := by
  unfold giveBack; split <;> rfl

@[simp] theorem release_devs (s : State) (x : Nat) : (release x s).devs = s.devs := by
  simp [release]
@[simp] theorem release_env (s : State) (x : Nat) : (release x s).env = s.env := by
  simp [release]
@[simp] theorem release_buf (s : State) (x : Nat) : (release x s).buf = s.buf := by
  simp [release]
@[simp] theorem release_backing (s : State) (x : Nat) : (release x s).backing = s.backing := by
  simp [release]
@[simp] theorem release_outs (s : State) (x : Nat) : (release x s).outs = s.outs := by
  simp [release]
@[simp] theorem release_nextHandle (s : State) (x : Nat) : (release x s).nextHandle = s.nextHandle := by
  simp [release]
@[simp] theorem release_trace (s : State) (x : Nat) : (release x s).trace = s.trace := by
  simp [release]
@[simp] theorem release_dmaTrace (s : State) (x : Nat) : (release x s).dmaTrace = s.dmaTrace := by
  simp [release]
@[simp] theorem release_log (s : State) (x : Nat) : (release x s).log = s.log := by
  simp [release]
@[simp] theorem release_returns (s : State) (x : Nat) : (release x s).returns = s.returns := by
  simp [release]
@[simp] theorem release_faults (s : State) (x : Nat) : (release x s).faults = s.faults := by
  simp [release]
@[simp] theorem release_threads (s : State) (x : Nat) : (release x s).threads = s.threads := by
  simp [release]
@[simp] theorem release_nextTid (s : State) (x : Nat) : (release x s).nextTid = s.nextTid := by
  simp [release]
@[simp] theorem release_activation (s : State) (x : Nat) : (release x s).activation = s.activation := by
  simp [release]
@[simp] theorem release_port (s : State) (x : Nat) : (release x s).port = s.port := by
  simp [release]
@[simp] theorem release_inputs (s : State) (x : Nat) : (release x s).inputs = s.inputs := by
  simp [release]

@[simp] theorem releaseTable_devs (s : State) (t : Option PrdTable) : (releaseTable t s).devs = s.devs := by
  cases t <;> simp [releaseTable]
@[simp] theorem releaseTable_env (s : State) (t : Option PrdTable) : (releaseTable t s).env = s.env := by
  cases t <;> simp [releaseTable]
@[simp] theorem releaseTable_buf (s : State) (t : Option PrdTable) : (releaseTable t s).buf = s.buf := by
  cases t <;> simp [releaseTable]
@[simp] theorem releaseTable_backing (s : State) (t : Option PrdTable) : (releaseTable t s).backing = s.backing := by
  cases t <;> simp [releaseTable]
@[simp] theorem releaseTable_outs (s : State) (t : Option PrdTable) : (releaseTable t s).outs = s.outs := by
  cases t <;> simp [releaseTable]
@[simp] theorem releaseTable_nextHandle (s : State) (t : Option PrdTable) :
    (releaseTable t s).nextHandle = s.nextHandle := by
  cases t <;> simp [releaseTable]
@[simp] theorem releaseTable_trace (s : State) (t : Option PrdTable) : (releaseTable t s).trace = s.trace := by
  cases t <;> simp [releaseTable]
@[simp] theorem releaseTable_dmaTrace (s : State) (t : Option PrdTable) : (releaseTable t s).dmaTrace = s.dmaTrace := by
  cases t <;> simp [releaseTable]
@[simp] theorem releaseTable_log (s : State) (t : Option PrdTable) : (releaseTable t s).log = s.log := by
  cases t <;> simp [releaseTable]
@[simp] theorem releaseTable_returns (s : State) (t : Option PrdTable) : (releaseTable t s).returns = s.returns := by
  cases t <;> simp [releaseTable]
@[simp] theorem releaseTable_faults (s : State) (t : Option PrdTable) : (releaseTable t s).faults = s.faults := by
  cases t <;> simp [releaseTable]
@[simp] theorem releaseTable_threads (s : State) (t : Option PrdTable) : (releaseTable t s).threads = s.threads := by
  cases t <;> simp [releaseTable]
@[simp] theorem releaseTable_nextTid (s : State) (t : Option PrdTable) : (releaseTable t s).nextTid = s.nextTid := by
  cases t <;> simp [releaseTable]
@[simp] theorem releaseTable_activation (s : State) (t : Option PrdTable) :
    (releaseTable t s).activation = s.activation := by
  cases t <;> simp [releaseTable]
@[simp] theorem releaseTable_port (s : State) (t : Option PrdTable) : (releaseTable t s).port = s.port := by
  cases t <;> simp [releaseTable]
@[simp] theorem releaseTable_inputs (s : State) (t : Option PrdTable) : (releaseTable t s).inputs = s.inputs := by
  cases t <;> simp [releaseTable]

@[simp] theorem State.called_calls (s : State) (c : Call) : (s.called c).calls = s.calls ++ [c] := rfl

@[simp] theorem release_calls (x : Nat) (s : State) : (release x s).calls = s.calls ++ [.free x] := by simp [release]

/-! ## Agents and the environment's own moves -/

@[simp] theorem handBack_devs (s : State) (h : Handle) (op : Instr) (r : Result) : (handBack h op r s).devs = s.devs :=
  rfl
@[simp] theorem handBack_env (s : State) (h : Handle) (op : Instr) (r : Result) : (handBack h op r s).env = s.env := rfl
@[simp] theorem handBack_mem (s : State) (h : Handle) (op : Instr) (r : Result) : (handBack h op r s).mem = s.mem := rfl
@[simp] theorem handBack_buf (s : State) (h : Handle) (op : Instr) (r : Result) : (handBack h op r s).buf = s.buf := rfl
@[simp] theorem handBack_backing (s : State) (h : Handle) (op : Instr) (r : Result) :
    (handBack h op r s).backing = s.backing :=
  rfl
@[simp] theorem handBack_outs (s : State) (h : Handle) (op : Instr) (r : Result) : (handBack h op r s).outs = s.outs :=
  rfl
@[simp] theorem handBack_allocs (s : State) (h : Handle) (op : Instr) (r : Result) :
    (handBack h op r s).allocs = s.allocs :=
  rfl
@[simp] theorem handBack_nextHandle (s : State) (h : Handle) (op : Instr) (r : Result) :
    (handBack h op r s).nextHandle = s.nextHandle :=
  rfl
@[simp] theorem handBack_trace (s : State) (h : Handle) (op : Instr) (r : Result) :
    (handBack h op r s).trace = s.trace :=
  rfl
@[simp] theorem handBack_dmaTrace (s : State) (h : Handle) (op : Instr) (r : Result) :
    (handBack h op r s).dmaTrace = s.dmaTrace :=
  rfl
@[simp] theorem handBack_calls (s : State) (h : Handle) (op : Instr) (r : Result) :
    (handBack h op r s).calls = s.calls :=
  rfl
@[simp] theorem handBack_log (s : State) (h : Handle) (op : Instr) (r : Result) : (handBack h op r s).log = s.log := rfl
@[simp] theorem handBack_faults (s : State) (h : Handle) (op : Instr) (r : Result) :
    (handBack h op r s).faults = s.faults :=
  rfl
@[simp] theorem handBack_threads (s : State) (h : Handle) (op : Instr) (r : Result) :
    (handBack h op r s).threads = s.threads :=
  rfl
@[simp] theorem handBack_nextTid (s : State) (h : Handle) (op : Instr) (r : Result) :
    (handBack h op r s).nextTid = s.nextTid :=
  rfl
@[simp] theorem handBack_activation (s : State) (h : Handle) (op : Instr) (r : Result) :
    (handBack h op r s).activation = s.activation :=
  rfl
@[simp] theorem handBack_port (s : State) (h : Handle) (op : Instr) (r : Result) : (handBack h op r s).port = s.port :=
  rfl
@[simp] theorem handBack_inputs (s : State) (h : Handle) (op : Instr) (r : Result) :
    (handBack h op r s).inputs = s.inputs :=
  rfl

@[simp] theorem suspend_devs (s : State) (t : Option Nat) (f : Frame) : (suspend t f s).devs = s.devs := by
  unfold suspend; repeat' split
  all_goals rfl
@[simp] theorem suspend_env (s : State) (t : Option Nat) (f : Frame) : (suspend t f s).env = s.env := by
  unfold suspend; repeat' split
  all_goals rfl
@[simp] theorem suspend_mem (s : State) (t : Option Nat) (f : Frame) : (suspend t f s).mem = s.mem := by
  unfold suspend; repeat' split
  all_goals rfl
@[simp] theorem suspend_buf (s : State) (t : Option Nat) (f : Frame) : (suspend t f s).buf = s.buf := by
  unfold suspend; repeat' split
  all_goals rfl
@[simp] theorem suspend_backing (s : State) (t : Option Nat) (f : Frame) : (suspend t f s).backing = s.backing := by
  unfold suspend; repeat' split
  all_goals rfl
@[simp] theorem suspend_outs (s : State) (t : Option Nat) (f : Frame) : (suspend t f s).outs = s.outs := by
  unfold suspend; repeat' split
  all_goals rfl
@[simp] theorem suspend_allocs (s : State) (t : Option Nat) (f : Frame) : (suspend t f s).allocs = s.allocs := by
  unfold suspend; repeat' split
  all_goals rfl
@[simp] theorem suspend_nextHandle (s : State) (t : Option Nat) (f : Frame) :
    (suspend t f s).nextHandle = s.nextHandle := by
  unfold suspend; repeat' split
  all_goals rfl
@[simp] theorem suspend_trace (s : State) (t : Option Nat) (f : Frame) : (suspend t f s).trace = s.trace := by
  unfold suspend; repeat' split
  all_goals rfl
@[simp] theorem suspend_dmaTrace (s : State) (t : Option Nat) (f : Frame) : (suspend t f s).dmaTrace = s.dmaTrace := by
  unfold suspend; repeat' split
  all_goals rfl
@[simp] theorem suspend_calls (s : State) (t : Option Nat) (f : Frame) : (suspend t f s).calls = s.calls := by
  unfold suspend; repeat' split
  all_goals rfl
@[simp] theorem suspend_log (s : State) (t : Option Nat) (f : Frame) : (suspend t f s).log = s.log := by
  unfold suspend; repeat' split
  all_goals rfl
@[simp] theorem suspend_returns (s : State) (t : Option Nat) (f : Frame) : (suspend t f s).returns = s.returns := by
  unfold suspend; repeat' split
  all_goals rfl
@[simp] theorem suspend_faults (s : State) (t : Option Nat) (f : Frame) : (suspend t f s).faults = s.faults := by
  unfold suspend; repeat' split
  all_goals rfl
@[simp] theorem suspend_port (s : State) (t : Option Nat) (f : Frame) : (suspend t f s).port = s.port := by
  unfold suspend; repeat' split
  all_goals rfl
@[simp] theorem suspend_inputs (s : State) (t : Option Nat) (f : Frame) : (suspend t f s).inputs = s.inputs := by
  unfold suspend; repeat' split
  all_goals rfl

@[simp] theorem engineMoved_devs (s : State) (h : Handle) (p : DmaProgress) (es : List DmaEvent) :
    (engineMoved h p es s).devs = s.devs :=
  rfl
@[simp] theorem engineMoved_mem (s : State) (h : Handle) (p : DmaProgress) (es : List DmaEvent) :
    (engineMoved h p es s).mem = s.mem :=
  rfl
@[simp] theorem engineMoved_buf (s : State) (h : Handle) (p : DmaProgress) (es : List DmaEvent) :
    (engineMoved h p es s).buf = s.buf :=
  rfl
@[simp] theorem engineMoved_backing (s : State) (h : Handle) (p : DmaProgress) (es : List DmaEvent) :
    (engineMoved h p es s).backing = s.backing :=
  rfl
@[simp] theorem engineMoved_outs (s : State) (h : Handle) (p : DmaProgress) (es : List DmaEvent) :
    (engineMoved h p es s).outs = s.outs :=
  rfl
@[simp] theorem engineMoved_allocs (s : State) (h : Handle) (p : DmaProgress) (es : List DmaEvent) :
    (engineMoved h p es s).allocs = s.allocs :=
  rfl
@[simp] theorem engineMoved_nextHandle (s : State) (h : Handle) (p : DmaProgress) (es : List DmaEvent) :
    (engineMoved h p es s).nextHandle = s.nextHandle :=
  rfl
@[simp] theorem engineMoved_trace (s : State) (h : Handle) (p : DmaProgress) (es : List DmaEvent) :
    (engineMoved h p es s).trace = s.trace :=
  rfl
@[simp] theorem engineMoved_calls (s : State) (h : Handle) (p : DmaProgress) (es : List DmaEvent) :
    (engineMoved h p es s).calls = s.calls :=
  rfl
@[simp] theorem engineMoved_log (s : State) (h : Handle) (p : DmaProgress) (es : List DmaEvent) :
    (engineMoved h p es s).log = s.log :=
  rfl
@[simp] theorem engineMoved_returns (s : State) (h : Handle) (p : DmaProgress) (es : List DmaEvent) :
    (engineMoved h p es s).returns = s.returns :=
  rfl
@[simp] theorem engineMoved_faults (s : State) (h : Handle) (p : DmaProgress) (es : List DmaEvent) :
    (engineMoved h p es s).faults = s.faults :=
  rfl
@[simp] theorem engineMoved_threads (s : State) (h : Handle) (p : DmaProgress) (es : List DmaEvent) :
    (engineMoved h p es s).threads = s.threads :=
  rfl
@[simp] theorem engineMoved_nextTid (s : State) (h : Handle) (p : DmaProgress) (es : List DmaEvent) :
    (engineMoved h p es s).nextTid = s.nextTid :=
  rfl
@[simp] theorem engineMoved_activation (s : State) (h : Handle) (p : DmaProgress) (es : List DmaEvent) :
    (engineMoved h p es s).activation = s.activation :=
  rfl
@[simp] theorem engineMoved_port (s : State) (h : Handle) (p : DmaProgress) (es : List DmaEvent) :
    (engineMoved h p es s).port = s.port :=
  rfl
@[simp] theorem engineMoved_inputs (s : State) (h : Handle) (p : DmaProgress) (es : List DmaEvent) :
    (engineMoved h p es s).inputs = s.inputs :=
  rfl

@[simp] theorem deviceFifo_devs (s : State) (k : IoAddr) (x : Bool) (d : Nat) (v : Fifo) :
    (deviceFifo k x d v s).devs = s.devs :=
  rfl
@[simp] theorem deviceFifo_mem (s : State) (k : IoAddr) (x : Bool) (d : Nat) (v : Fifo) :
    (deviceFifo k x d v s).mem = s.mem :=
  rfl
@[simp] theorem deviceFifo_buf (s : State) (k : IoAddr) (x : Bool) (d : Nat) (v : Fifo) :
    (deviceFifo k x d v s).buf = s.buf :=
  rfl
@[simp] theorem deviceFifo_backing (s : State) (k : IoAddr) (x : Bool) (d : Nat) (v : Fifo) :
    (deviceFifo k x d v s).backing = s.backing :=
  rfl
@[simp] theorem deviceFifo_outs (s : State) (k : IoAddr) (x : Bool) (d : Nat) (v : Fifo) :
    (deviceFifo k x d v s).outs = s.outs :=
  rfl
@[simp] theorem deviceFifo_allocs (s : State) (k : IoAddr) (x : Bool) (d : Nat) (v : Fifo) :
    (deviceFifo k x d v s).allocs = s.allocs :=
  rfl
@[simp] theorem deviceFifo_nextHandle (s : State) (k : IoAddr) (x : Bool) (d : Nat) (v : Fifo) :
    (deviceFifo k x d v s).nextHandle = s.nextHandle :=
  rfl
@[simp] theorem deviceFifo_trace (s : State) (k : IoAddr) (x : Bool) (d : Nat) (v : Fifo) :
    (deviceFifo k x d v s).trace = s.trace :=
  rfl
@[simp] theorem deviceFifo_dmaTrace (s : State) (k : IoAddr) (x : Bool) (d : Nat) (v : Fifo) :
    (deviceFifo k x d v s).dmaTrace = s.dmaTrace :=
  rfl
@[simp] theorem deviceFifo_calls (s : State) (k : IoAddr) (x : Bool) (d : Nat) (v : Fifo) :
    (deviceFifo k x d v s).calls = s.calls :=
  rfl
@[simp] theorem deviceFifo_log (s : State) (k : IoAddr) (x : Bool) (d : Nat) (v : Fifo) :
    (deviceFifo k x d v s).log = s.log :=
  rfl
@[simp] theorem deviceFifo_returns (s : State) (k : IoAddr) (x : Bool) (d : Nat) (v : Fifo) :
    (deviceFifo k x d v s).returns = s.returns :=
  rfl
@[simp] theorem deviceFifo_faults (s : State) (k : IoAddr) (x : Bool) (d : Nat) (v : Fifo) :
    (deviceFifo k x d v s).faults = s.faults :=
  rfl
@[simp] theorem deviceFifo_threads (s : State) (k : IoAddr) (x : Bool) (d : Nat) (v : Fifo) :
    (deviceFifo k x d v s).threads = s.threads :=
  rfl
@[simp] theorem deviceFifo_nextTid (s : State) (k : IoAddr) (x : Bool) (d : Nat) (v : Fifo) :
    (deviceFifo k x d v s).nextTid = s.nextTid :=
  rfl
@[simp] theorem deviceFifo_activation (s : State) (k : IoAddr) (x : Bool) (d : Nat) (v : Fifo) :
    (deviceFifo k x d v s).activation = s.activation :=
  rfl
@[simp] theorem deviceFifo_port (s : State) (k : IoAddr) (x : Bool) (d : Nat) (v : Fifo) :
    (deviceFifo k x d v s).port = s.port :=
  rfl
@[simp] theorem deviceFifo_inputs (s : State) (k : IoAddr) (x : Bool) (d : Nat) (v : Fifo) :
    (deviceFifo k x d v s).inputs = s.inputs :=
  rfl

@[simp] theorem backBuffer_devs (s : State) (a : Nat) (r : Pair) : (backBuffer a r s).devs = s.devs := rfl
@[simp] theorem backBuffer_env (s : State) (a : Nat) (r : Pair) : (backBuffer a r s).env = s.env := rfl
@[simp] theorem backBuffer_mem (s : State) (a : Nat) (r : Pair) : (backBuffer a r s).mem = s.mem := rfl
@[simp] theorem backBuffer_buf (s : State) (a : Nat) (r : Pair) : (backBuffer a r s).buf = s.buf := rfl
@[simp] theorem backBuffer_outs (s : State) (a : Nat) (r : Pair) : (backBuffer a r s).outs = s.outs := rfl
@[simp] theorem backBuffer_allocs (s : State) (a : Nat) (r : Pair) : (backBuffer a r s).allocs = s.allocs := rfl
@[simp] theorem backBuffer_nextHandle (s : State) (a : Nat) (r : Pair) : (backBuffer a r s).nextHandle = s.nextHandle :=
  rfl
@[simp] theorem backBuffer_trace (s : State) (a : Nat) (r : Pair) : (backBuffer a r s).trace = s.trace := rfl
@[simp] theorem backBuffer_dmaTrace (s : State) (a : Nat) (r : Pair) : (backBuffer a r s).dmaTrace = s.dmaTrace := rfl
@[simp] theorem backBuffer_calls (s : State) (a : Nat) (r : Pair) : (backBuffer a r s).calls = s.calls := rfl
@[simp] theorem backBuffer_log (s : State) (a : Nat) (r : Pair) : (backBuffer a r s).log = s.log := rfl
@[simp] theorem backBuffer_returns (s : State) (a : Nat) (r : Pair) : (backBuffer a r s).returns = s.returns := rfl
@[simp] theorem backBuffer_faults (s : State) (a : Nat) (r : Pair) : (backBuffer a r s).faults = s.faults := rfl
@[simp] theorem backBuffer_threads (s : State) (a : Nat) (r : Pair) : (backBuffer a r s).threads = s.threads := rfl
@[simp] theorem backBuffer_nextTid (s : State) (a : Nat) (r : Pair) : (backBuffer a r s).nextTid = s.nextTid := rfl
@[simp] theorem backBuffer_activation (s : State) (a : Nat) (r : Pair) : (backBuffer a r s).activation = s.activation :=
  rfl
@[simp] theorem backBuffer_port (s : State) (a : Nat) (r : Pair) : (backBuffer a r s).port = s.port := rfl
@[simp] theorem backBuffer_inputs (s : State) (a : Nat) (r : Pair) : (backBuffer a r s).inputs = s.inputs := rfl

@[simp] theorem handBack_returns (h : Handle) (op : Instr) (r : Result) (s : State) :
    (handBack h op r s).returns = s.returns ++ [{ dev := h, op := op, result := r }] := rfl

@[simp] theorem engineMoved_dmaTrace (s : State) (h : Handle) (p : DmaProgress) (es : List DmaEvent) :
    (engineMoved h p es s).dmaTrace = s.dmaTrace ++ es := rfl

/-! ## Reading a record after an update -/

@[simp] theorem State.dev_setDev_self (s : State) (h : Handle) (d : Device) : (s.setDev h d).dev h = d :=
  Devices.get_set_self _ _ _

theorem State.dev_setDev_other {h k : Handle} (s : State) (d : Device) (hk : k ≠ h) :
    (s.setDev h d).dev k = s.dev k := Devices.get_set_other _ _ hk

@[simp] theorem State.dev_setDr_self (s : State) (h : Handle) (dr : DeviceRegs) :
    (s.setDr h dr).dev h = { s.dev h with dr := dr } := Devices.get_set_self _ _ _

@[simp] theorem State.dev_setCt_self (s : State) (h : Handle) (ct : CurrentTransfer) :
    (s.setCt h ct).dev h = { s.dev h with ct := ct } := Devices.get_set_self _ _ _

@[simp] theorem State.dev_setPhase_self (s : State) (h : Handle) (p : Phase) :
    (s.setPhase h p).dev h = { s.dev h with phase := p } := Devices.get_set_self _ _ _

@[simp] theorem State.dev_setRegistered_self (s : State) (h : Handle) :
    (s.setRegistered h).dev h = { s.dev h with registered := true } := Devices.get_set_self _ _ _

@[simp] theorem dev_setEvent_self (s : State) (h : Handle) (b : Bool) :
    (setEvent h b s).dev h = { s.dev h with ct := { (s.dev h).ct with event := b } } := State.dev_setCt_self _ _ _

@[simp] theorem dev_storeTsm_self (s : State) (h : Handle) (t : TsmState) :
    (storeTsm h t s).dev h = { s.dev h with ct := { (s.dev h).ct with state := t } } := State.dev_setCt_self _ _ _

/-- A device's record depends on the device field alone. -/
theorem State.dev_congr {s t : State} (e : t.devs = s.devs) (h : Handle) : t.dev h = s.dev h := by
  simp [State.dev, e]

@[simp] theorem State.dev_portWrite (h k : Handle) (wd : Width) (p : Port) (v : Dword) (s : State) :
    (portWrite h wd p v s).dev k = s.dev k := State.dev_congr (by simp) k

@[simp] theorem State.dev_portRead (h k : Handle) (wd : Width) (p : Port) (s : State) :
    (portRead h wd p s).dev k = s.dev k := State.dev_congr (by simp) k

@[simp] theorem State.dev_record (k : Handle) (e : PortEvent) (s : State) : (s.record e).dev k = s.dev k := rfl

@[simp] theorem State.dev_called (k : Handle) (c : Call) (s : State) : (s.called c).dev k = s.dev k := rfl

@[simp] theorem State.dev_handBack (h k : Handle) (op : Instr) (r : Result) (s : State) :
    (handBack h op r s).dev k = s.dev k := rfl

/-- Raising a fault: a thread's fault leaves every record; the handler's is kept in its device's record, and nothing
else of it changes (R323). -/
theorem dev_raise (h k : Handle) (c : Context) (x : Fault) (s : State) :
    (raise h c x s).dev k =
      if c = .interrupt ∧ k = h then { s.dev k with handlerFault := some x } else s.dev k := by
  cases c
  · simp [raise, State.dev]
  · by_cases e : k = h
    · subst e; simp [raise, State.dev]
    · simp only [raise, e, and_false, if_false]
      exact State.dev_setDev_other _ _ e

end Sys2Proof.Machine
end

