-- ==== Sys2Proof/Laws/Table.lean ====
section
/-!
SUPPORT. The laws of sparse tables and of the byte memories: reading after a write, and the canonical form, which
every operation keeps.
-/
namespace Sys2Proof.Machine

/-! ## Lookup -/

@[simp] theorem Table.lookup_nil {α : Type} (k : Nat) : Table.lookup ([] : List (Nat × α)) k = none := rfl

@[simp] theorem Table.lookup_insert_self {α : Type} (t : List (Nat × α)) (k : Nat) (v : α) :
    Table.lookup (Table.insert t k v) k = some v := by
  induction t with
  | nil => simp [Table.insert, Table.lookup]
  | cons c t ih =>
    obtain ⟨a, w⟩ := c
    simp only [Table.insert]
    split
    · simp [Table.lookup]
    · split
      · simp [Table.lookup]
      · rename_i h; simp [Table.lookup, Ne.symm h, ih]

theorem Table.lookup_insert_other {α : Type} (t : List (Nat × α)) {k j : Nat} (v : α) (h : j ≠ k) :
    Table.lookup (Table.insert t k v) j = Table.lookup t j := by
  induction t with
  | nil => simp [Table.insert, Table.lookup, Ne.symm h]
  | cons c t ih =>
    obtain ⟨a, w⟩ := c
    simp only [Table.insert]
    split
    · simp [Table.lookup, Ne.symm h]
    · split
      · rename_i e; subst e; simp [Table.lookup, Ne.symm h]
      · simp [Table.lookup, ih]

theorem Table.lookup_filter {α : Type} (p : Nat → Bool) (t : List (Nat × α)) (j : Nat) :
    Table.lookup (t.filter (fun c => p c.1)) j = if p j then Table.lookup t j else none := by
  induction t with
  | nil => simp
  | cons c t ih =>
    obtain ⟨a, w⟩ := c
    by_cases hp : p a = true
    · by_cases e : a = j
      · subst e; simp [Table.lookup, hp]
      · simp [Table.lookup, hp, ih, e]
    · by_cases e : a = j
      · subst e; simp [hp, ih]
      · simp [Table.lookup, hp, ih, e]

@[simp] theorem Table.lookup_erase_self {α : Type} (t : List (Nat × α)) (k : Nat) :
    Table.lookup (Table.erase t k) k = none := by
  rw [Table.erase, Table.lookup_filter (fun a => a != k)]; simp

theorem Table.lookup_erase_other {α : Type} (t : List (Nat × α)) {k j : Nat} (h : j ≠ k) :
    Table.lookup (Table.erase t k) j = Table.lookup t j := by
  rw [Table.erase, Table.lookup_filter (fun a => a != k)]; simp [h]

theorem Table.lookup_eraseRange {α : Type} (t : List (Nat × α)) (a n j : Nat) :
    Table.lookup (Table.eraseRange t a n) j = if a ≤ j ∧ j < a + n then none else Table.lookup t j := by
  rw [Table.eraseRange, Table.lookup_filter (fun x => !(decide (a ≤ x) && decide (x < a + n)))]
  by_cases h1 : a ≤ j <;> by_cases h2 : j < a + n <;> simp [h1, h2]

/-! ## The canonical form -/

theorem Table.mem_insert {α : Type} {t : List (Nat × α)} {k : Nat} {v : α} {c : Nat × α}
    (h : c ∈ Table.insert t k v) : c = (k, v) ∨ c ∈ t := by
  induction t with
  | nil => simpa [Table.insert] using h
  | cons d t ih =>
    obtain ⟨a, w⟩ := d
    simp only [Table.insert] at h
    split at h
    · simpa using h
    · split at h
      · rcases List.mem_cons.1 h with h | h
        · exact .inl h
        · exact .inr (List.mem_cons_of_mem _ h)
      · rcases List.mem_cons.1 h with h | h
        · exact .inr (h ▸ List.mem_cons_self)
        · exact (ih h).imp_right (List.mem_cons_of_mem _)

theorem Table.sorted_insert {α : Type} {t : List (Nat × α)} (k : Nat) (v : α) (h : Table.Sorted t) :
    Table.Sorted (Table.insert t k v) := by
  induction t with
  | nil => simp [Table.insert, Table.Sorted]
  | cons d t ih =>
    obtain ⟨a, w⟩ := d
    obtain ⟨h1, h2⟩ := List.pairwise_cons.1 h
    simp only [Table.insert]
    split
    · rename_i hk
      refine List.pairwise_cons.2 ⟨fun c hc => ?_, h⟩
      rcases List.mem_cons.1 hc with rfl | hc
      · exact hk
      · exact Nat.lt_trans hk (h1 c hc)
    · split
      · rename_i e
        exact List.pairwise_cons.2 ⟨fun c hc => e ▸ h1 c hc, h2⟩
      · refine List.pairwise_cons.2 ⟨fun c hc => ?_, ih h2⟩
        rcases Table.mem_insert hc with rfl | hc
        · show a < k; omega
        · exact h1 c hc

theorem Table.sorted_filter {α : Type} {t : List (Nat × α)} (p : Nat × α → Bool) (h : Table.Sorted t) :
    Table.Sorted (t.filter p) := List.Pairwise.filter p h

theorem Table.sorted_erase {α : Type} {t : List (Nat × α)} (k : Nat) (h : Table.Sorted t) :
    Table.Sorted (Table.erase t k) := Table.sorted_filter _ h

theorem Table.sorted_eraseRange {α : Type} {t : List (Nat × α)} (a n : Nat) (h : Table.Sorted t) :
    Table.Sorted (Table.eraseRange t a n) := Table.sorted_filter _ h

theorem Table.canonical_put {α : Type} [DecidableEq α] {d : α} {t : List (Nat × α)} (k : Nat) (v : α)
    (h : Table.Canonical d t) : Table.Canonical d (Table.put d t k v) := by
  unfold Table.put
  split
  · exact ⟨Table.sorted_erase k h.1, fun c hc => h.2 c (List.mem_filter.1 hc).1⟩
  · rename_i hv
    refine ⟨Table.sorted_insert k v h.1, fun c hc => ?_⟩
    rcases Table.mem_insert hc with rfl | hc
    · exact hv
    · exact h.2 c hc

/-! ## Tables with a default -/

@[simp] theorem Table.getD_put_self {α : Type} [DecidableEq α] (d : α) (t : List (Nat × α)) (k : Nat) (v : α) :
    Table.getD d (Table.put d t k v) k = v := by
  unfold Table.put Table.getD
  split
  · rename_i h; simp [h]
  · simp

theorem Table.getD_put_other {α : Type} [DecidableEq α] (d : α) (t : List (Nat × α)) {k j : Nat} (v : α)
    (h : j ≠ k) : Table.getD d (Table.put d t k v) j = Table.getD d t j := by
  unfold Table.put Table.getD
  split
  · rw [Table.lookup_erase_other _ h]
  · rw [Table.lookup_insert_other _ _ h]

/-! ## Memories -/

@[simp] theorem Memory.read_write_self (m : Memory) (a : Nat) (b : Byte) :
    Memory.read (Memory.write m a b) a = some b := Table.lookup_insert_self _ _ _

theorem Memory.read_write_other (m : Memory) {a c : Nat} (b : Byte) (h : c ≠ a) :
    Memory.read (Memory.write m a b) c = Memory.read m c := Table.lookup_insert_other _ _ h

theorem Memory.read_forget (m : Memory) (a n c : Nat) :
    Memory.read (Memory.forget m a n) c = if a ≤ c ∧ c < a + n then none else Memory.read m c :=
  Table.lookup_eraseRange _ _ _ _

theorem Memory.read_writeLE_other (m : Memory) (a n v : Nat) {c : Nat} (h : c < a ∨ a + n ≤ c) :
    Memory.read (Memory.writeLE m a n v) c = Memory.read m c := by
  induction n generalizing m a v with
  | zero => rfl
  | succ n ih =>
    rw [Memory.writeLE, ih _ _ _ (by omega), Memory.read_write_other _ _ (by omega)]

/-- `MemRead` is the inverse of `MemWrite` (R64). -/
theorem Memory.readLE_writeLE (m : Memory) (a n v : Nat) :
    Memory.readLE (Memory.writeLE m a n v) a n = some (v % 256 ^ n) := by
  induction n generalizing m a v with
  | zero => simp [Memory.readLE, Nat.mod_one]
  | succ n ih =>
    have hb : Memory.read (Memory.writeLE m a (n + 1) v) a = some (BitVec.ofNat 8 v) := by
      rw [Memory.writeLE, Memory.read_writeLE_other _ _ _ _ (by omega), Memory.read_write_self]
    simp only [Memory.readLE, hb]
    rw [Memory.writeLE, ih]
    have e : v % 256 ^ (n + 1) = v % 256 + 256 * (v / 256 % 256 ^ n) := by
      rw [Nat.pow_succ, Nat.mul_comm (256 ^ n) 256, Nat.mod_mul]
    rw [e]; rfl

theorem Memory.wf_write {m : Memory} (a : Nat) (b : Byte) (h : Memory.wf m) : Memory.wf (Memory.write m a b) :=
  Table.sorted_insert a b h

theorem Memory.wf_forget {m : Memory} (a n : Nat) (h : Memory.wf m) : Memory.wf (Memory.forget m a n) :=
  Table.sorted_eraseRange a n h

theorem Memory.wf_writeLE {m : Memory} (a n v : Nat) (h : Memory.wf m) : Memory.wf (Memory.writeLE m a n v) := by
  induction n generalizing m a v with
  | zero => exact h
  | succ n ih => exact ih _ _ (Memory.wf_write _ _ h)

/-- The memory at reset is canonical. -/
theorem Memory.wf_reset : Memory.wf State.reset.mem := List.Pairwise.nil

theorem Memory.wf_writeBytes {m : Memory} (a : Nat) (bs : List Byte) (h : Memory.wf m) :
    Memory.wf (Memory.writeBytes m a bs) := by
  induction bs generalizing m a with
  | nil => exact h
  | cons b bs ih => exact ih _ (Memory.wf_write _ _ h)

/-- A byte outside the bytes stored reads as before. -/
theorem Memory.read_writeBytes_other (m : Memory) (a : Nat) (bs : List Byte) {x : Nat} (h : x < a ∨ a + bs.length ≤ x) :
    Memory.read (Memory.writeBytes m a bs) x = Memory.read m x := by
  induction bs generalizing m a with
  | nil => rfl
  | cons b bs ih =>
    simp only [List.length_cons] at h
    rw [Memory.writeBytes, ih _ _ (by omega), Memory.read_write_other _ _ (by omega)]

/-- Each of the bytes stored reads back. -/
theorem Memory.read_writeBytes (m : Memory) (a : Nat) (bs : List Byte) (j : Nat) (b : Byte) (h : bs[j]? = some b) :
    Memory.read (Memory.writeBytes m a bs) (a + j) = some b := by
  induction bs generalizing m a j with
  | nil => simp at h
  | cons c bs ih =>
    cases j with
    | zero =>
      simp only [List.getElem?_cons_zero, Option.some.injEq] at h
      subst h
      rw [Memory.writeBytes, Memory.read_writeBytes_other _ _ _ (by omega), Nat.add_zero, Memory.read_write_self]
    | succ j =>
      simp only [List.getElem?_cons_succ] at h
      rw [Memory.writeBytes, show a + (j + 1) = a + 1 + j by omega]
      exact ih _ _ _ h

end Sys2Proof.Machine
end

