-- ==== Sys2Proof/Laws/Ports.lean ====
section
/-!
SUPPORT. What a port access does to the environment's registers, and how they read afterwards.
-/
namespace Sys2Proof.Machine

/-! ## Bits and bytes -/

/-- One bit of a byte with one bit replaced. -/
theorem getLsbD_withFlag (v : Byte) (bit : Nat) (b : Bool) (i : Nat) (hi : i < 8) :
    (withFlag v bit b).getLsbD i = if i = bit then b else v.getLsbD i := by
  unfold withFlag
  have e : (1#8 <<< bit).getLsbD i = decide (i = bit) := by
    simp only [BitVec.getLsbD_shiftLeft, BitVec.getLsbD_one, hi, decide_true, Bool.true_and]
    by_cases h : i = bit
    · simp [h]
    · by_cases h2 : i < bit <;> simp [h, h2]; omega
  cases b <;> by_cases h : i = bit <;> simp only [BitVec.getLsbD_or, BitVec.getLsbD_and, BitVec.getLsbD_not, e, h] <;>
    simp [hi]
  all_goals (intros; omega)

@[simp] theorem byteAt_setWidth (b : Byte) : byteAt (b.setWidth 32) 0 = b := by
  apply BitVec.eq_of_getLsbD_eq
  intro i hi
  have h : i < 32 := by omega
  simp [byteAt, hi, h]

theorem toNat_ne {n : Nat} {a b : BitVec n} (h : a ≠ b) : a.toNat ≠ b.toNat := fun e => h (BitVec.eq_of_toNat_eq e)

/-! ## Reading a block after a store to one -/

@[simp] theorem State.cmdBlock_setCmdBlock_self (s : State) (k : IoAddr) (b : CmdBlock) :
    (s.setCmdBlock k b).cmdBlock k = b := Table.getD_put_self _ _ _ _

theorem State.cmdBlock_setCmdBlock_other (s : State) {k j : IoAddr} (b : CmdBlock) (h : j ≠ k) :
    (s.setCmdBlock k b).cmdBlock j = s.cmdBlock j := Table.getD_put_other _ _ _ (toNat_ne h)

@[simp] theorem State.devctl_setCmdBlock (s : State) (k j : IoAddr) (b : CmdBlock) :
    (s.setCmdBlock k b).devctl j = s.devctl j := rfl

@[simp] theorem State.busMaster_setCmdBlock (s : State) (k j : IoAddr) (b : CmdBlock) :
    (s.setCmdBlock k b).busMaster j = s.busMaster j := rfl

@[simp] theorem State.devctl_setDevctl_self (s : State) (k : IoAddr) (b : Byte) :
    (s.setDevctl k b).devctl k = b := Table.getD_put_self _ _ _ _

theorem State.devctl_setDevctl_other (s : State) {k j : IoAddr} (b : Byte) (h : j ≠ k) :
    (s.setDevctl k b).devctl j = s.devctl j := Table.getD_put_other _ _ _ (toNat_ne h)

@[simp] theorem State.cmdBlock_setDevctl (s : State) (k j : IoAddr) (b : Byte) :
    (s.setDevctl k b).cmdBlock j = s.cmdBlock j := rfl

@[simp] theorem State.busMaster_setDevctl (s : State) (k j : IoAddr) (b : Byte) :
    (s.setDevctl k b).busMaster j = s.busMaster j := rfl

@[simp] theorem State.busMaster_setBusMaster_self (s : State) (k : IoAddr) (b : BusMaster) :
    (s.setBusMaster k b).busMaster k = b := Table.getD_put_self _ _ _ _

theorem State.busMaster_setBusMaster_other (s : State) {k j : IoAddr} (b : BusMaster) (h : j ≠ k) :
    (s.setBusMaster k b).busMaster j = s.busMaster j := Table.getD_put_other _ _ _ (toNat_ne h)

@[simp] theorem State.cmdBlock_setBusMaster (s : State) (k j : IoAddr) (b : BusMaster) :
    (s.setBusMaster k b).cmdBlock j = s.cmdBlock j := rfl

@[simp] theorem State.devctl_setBusMaster (s : State) (k j : IoAddr) (b : BusMaster) :
    (s.setBusMaster k b).devctl j = s.devctl j := rfl

/-! ## Updates that leave the environment's registers -/

@[simp] theorem State.cmdBlock_record (s : State) (e : PortEvent) (k : IoAddr) :
    (s.record e).cmdBlock k = s.cmdBlock k := rfl

@[simp] theorem State.devctl_record (s : State) (e : PortEvent) (k : IoAddr) : (s.record e).devctl k = s.devctl k := rfl

@[simp] theorem State.busMaster_record (s : State) (e : PortEvent) (k : IoAddr) :
    (s.record e).busMaster k = s.busMaster k := rfl

@[simp] theorem State.cmdBlock_tookAnswer (s : State) (k : IoAddr) : s.tookAnswer.cmdBlock k = s.cmdBlock k := by
  simp [State.cmdBlock]

@[simp] theorem State.devctl_tookAnswer (s : State) (k : IoAddr) : s.tookAnswer.devctl k = s.devctl k := by
  simp [State.devctl]

@[simp] theorem State.busMaster_tookAnswer (s : State) (k : IoAddr) : s.tookAnswer.busMaster k = s.busMaster k := by
  simp [State.busMaster]

@[simp] theorem State.cmdBlock_portRead (h : Handle) (w : Width) (p : Port) (s : State) (k : IoAddr) :
    (portRead h w p s).cmdBlock k = s.cmdBlock k := by simp [portRead]

@[simp] theorem State.devctl_portRead (h : Handle) (w : Width) (p : Port) (s : State) (k : IoAddr) :
    (portRead h w p s).devctl k = s.devctl k := by simp [portRead]

@[simp] theorem State.busMaster_portRead (h : Handle) (w : Width) (p : Port) (s : State) (k : IoAddr) :
    (portRead h w p s).busMaster k = s.busMaster k := by simp [portRead]

@[simp] theorem State.cmdBlock_handBack (h : Handle) (i : Instr) (r : Result) (s : State) (k : IoAddr) :
    (handBack h i r s).cmdBlock k = s.cmdBlock k := rfl

@[simp] theorem State.devctl_handBack (h : Handle) (i : Instr) (r : Result) (s : State) (k : IoAddr) :
    (handBack h i r s).devctl k = s.devctl k := rfl

@[simp] theorem State.busMaster_handBack (h : Handle) (i : Instr) (r : Result) (s : State) (k : IoAddr) :
    (handBack h i r s).busMaster k = s.busMaster k := rfl

@[simp] theorem State.cmdBlock_setDev (s : State) (h : Handle) (d : Device) (k : IoAddr) :
    (s.setDev h d).cmdBlock k = s.cmdBlock k := rfl

@[simp] theorem State.devctl_setDev (s : State) (h : Handle) (d : Device) (k : IoAddr) :
    (s.setDev h d).devctl k = s.devctl k := rfl

@[simp] theorem State.busMaster_setDev (s : State) (h : Handle) (d : Device) (k : IoAddr) :
    (s.setDev h d).busMaster k = s.busMaster k := rfl

/-! ## A write to DEVCTL -/

/-- The write of a byte to DEVCTL: one event, and the device's copy holds the byte (R41, R155). -/
theorem portWrite_devctl (h : Handle) (b : Byte) (s : State) :
    portWrite h .w8 ⟨.control, 0⟩ (b.setWidth 32) s =
      (s.setDevctl (s.dev h).dr.ctrl b).record (.write .w8 (s.dev h).dr.ctrl (b.setWidth 32)) := by
  simp [portWrite, deviceWrite, controlWrite, Width.trim, portAddr, windowBase]

end Sys2Proof.Machine
end

