-- ==== Sys2Proof/Laws/Env.lean ====
section
/-!
SUPPORT. What the updates of the environment's registers leave of the environment and of the device records, one
lemma per field per update; and the answers the environment gives after each.
-/
namespace Sys2Proof.Machine

/-! ## Device records -/

@[simp] theorem State.dev_setCmdBlock (s : State) (k : IoAddr) (b : CmdBlock) (h : Handle) : (s.setCmdBlock k b).dev h = s.dev h := rfl
@[simp] theorem State.dev_setDevctl (s : State) (k : IoAddr) (b : Byte) (h : Handle) : (s.setDevctl k b).dev h = s.dev h := rfl
@[simp] theorem State.dev_setBusMaster (s : State) (k : IoAddr) (b : BusMaster) (h : Handle) : (s.setBusMaster k b).dev h = s.dev h := rfl
@[simp] theorem State.dev_tookAnswer (s : State) (h : Handle) : s.tookAnswer.dev h = s.dev h :=
  State.dev_congr (by simp) h
@[simp] theorem State.dev_tookTranslation (s : State) (a n : Nat) (h : Handle) : (s.tookTranslation a n).dev h = s.dev h :=
  State.dev_congr (by simp) h
@[simp] theorem State.dev_tookAllocation (s : State) (h : Handle) : s.tookAllocation.dev h = s.dev h :=
  State.dev_congr (by simp) h
@[simp] theorem State.dev_tookRegistration (s : State) (h : Handle) : s.tookRegistration.dev h = s.dev h :=
  State.dev_congr (by simp) h

/-! ## Device updates leave the environment's registers -/

@[simp] theorem State.cmdBlock_setRegistered (s : State) (h : Handle) (k : IoAddr) : (s.setRegistered h).cmdBlock k = s.cmdBlock k := rfl
@[simp] theorem State.cmdBlock_called (s : State) (c : Call) (k : IoAddr) : (s.called c).cmdBlock k = s.cmdBlock k := rfl
@[simp] theorem State.devctl_setRegistered (s : State) (h : Handle) (k : IoAddr) : (s.setRegistered h).devctl k = s.devctl k := rfl
@[simp] theorem State.devctl_called (s : State) (c : Call) (k : IoAddr) : (s.called c).devctl k = s.devctl k := rfl
@[simp] theorem State.busMaster_setRegistered (s : State) (h : Handle) (k : IoAddr) : (s.setRegistered h).busMaster k = s.busMaster k := rfl
@[simp] theorem State.busMaster_called (s : State) (c : Call) (k : IoAddr) : (s.called c).busMaster k = s.busMaster k := rfl
theorem State.dev_setRegistered_other {h k : Handle} (s : State) (hk : k ≠ h) : (s.setRegistered h).dev k = s.dev k :=
  State.dev_setDev_other s _ hk
@[simp] theorem State.cmdBlock_setDr (s : State) (h : Handle) (d : DeviceRegs) (k : IoAddr) :
    (s.setDr h d).cmdBlock k = s.cmdBlock k := rfl
@[simp] theorem State.devctl_setDr (s : State) (h : Handle) (d : DeviceRegs) (k : IoAddr) :
    (s.setDr h d).devctl k = s.devctl k := rfl
@[simp] theorem State.busMaster_setDr (s : State) (h : Handle) (d : DeviceRegs) (k : IoAddr) :
    (s.setDr h d).busMaster k = s.busMaster k := rfl
@[simp] theorem State.cmdBlock_setCt (s : State) (h : Handle) (d : CurrentTransfer) (k : IoAddr) :
    (s.setCt h d).cmdBlock k = s.cmdBlock k := rfl
@[simp] theorem State.devctl_setCt (s : State) (h : Handle) (d : CurrentTransfer) (k : IoAddr) :
    (s.setCt h d).devctl k = s.devctl k := rfl
@[simp] theorem State.busMaster_setCt (s : State) (h : Handle) (d : CurrentTransfer) (k : IoAddr) :
    (s.setCt h d).busMaster k = s.busMaster k := rfl
@[simp] theorem State.cmdBlock_setPhase (s : State) (h : Handle) (d : Phase) (k : IoAddr) :
    (s.setPhase h d).cmdBlock k = s.cmdBlock k := rfl
@[simp] theorem State.devctl_setPhase (s : State) (h : Handle) (d : Phase) (k : IoAddr) :
    (s.setPhase h d).devctl k = s.devctl k := rfl
@[simp] theorem State.busMaster_setPhase (s : State) (h : Handle) (d : Phase) (k : IoAddr) :
    (s.setPhase h d).busMaster k = s.busMaster k := rfl
theorem State.dev_setDr_other {h k : Handle} (s : State) (d : DeviceRegs) (hk : k ≠ h) : (s.setDr h d).dev k = s.dev k :=
  State.dev_setDev_other s _ hk
theorem State.dev_setCt_other {h k : Handle} (s : State) (d : CurrentTransfer) (hk : k ≠ h) : (s.setCt h d).dev k = s.dev k :=
  State.dev_setDev_other s _ hk
theorem State.dev_setPhase_other {h k : Handle} (s : State) (d : Phase) (hk : k ≠ h) : (s.setPhase h d).dev k = s.dev k :=
  State.dev_setDev_other s _ hk

/-! ## The environment -/

@[simp] theorem State.setCmdBlock_env_ctl (s : State) (k : IoAddr) (b : CmdBlock) : (s.setCmdBlock k b).env.ctl = s.env.ctl := rfl
@[simp] theorem State.setCmdBlock_env_bm (s : State) (k : IoAddr) (b : CmdBlock) : (s.setCmdBlock k b).env.bm = s.env.bm := rfl
@[simp] theorem State.setCmdBlock_env_answers (s : State) (k : IoAddr) (b : CmdBlock) : (s.setCmdBlock k b).env.answers = s.env.answers := rfl
@[simp] theorem State.setCmdBlock_env_translations (s : State) (k : IoAddr) (b : CmdBlock) : (s.setCmdBlock k b).env.translations = s.env.translations := rfl
@[simp] theorem State.setCmdBlock_env_allocations (s : State) (k : IoAddr) (b : CmdBlock) : (s.setCmdBlock k b).env.allocations = s.env.allocations := rfl
@[simp] theorem State.setCmdBlock_env_registrations (s : State) (k : IoAddr) (b : CmdBlock) : (s.setCmdBlock k b).env.registrations = s.env.registrations := rfl
@[simp] theorem State.setCmdBlock_env_drawn (s : State) (k : IoAddr) (b : CmdBlock) : (s.setCmdBlock k b).env.drawn = s.env.drawn := rfl
@[simp] theorem State.setDevctl_env_cmd (s : State) (k : IoAddr) (b : Byte) : (s.setDevctl k b).env.cmd = s.env.cmd := rfl
@[simp] theorem State.setDevctl_env_bm (s : State) (k : IoAddr) (b : Byte) : (s.setDevctl k b).env.bm = s.env.bm := rfl
@[simp] theorem State.setDevctl_env_answers (s : State) (k : IoAddr) (b : Byte) : (s.setDevctl k b).env.answers = s.env.answers := rfl
@[simp] theorem State.setDevctl_env_translations (s : State) (k : IoAddr) (b : Byte) : (s.setDevctl k b).env.translations = s.env.translations := rfl
@[simp] theorem State.setDevctl_env_allocations (s : State) (k : IoAddr) (b : Byte) : (s.setDevctl k b).env.allocations = s.env.allocations := rfl
@[simp] theorem State.setDevctl_env_registrations (s : State) (k : IoAddr) (b : Byte) : (s.setDevctl k b).env.registrations = s.env.registrations := rfl
@[simp] theorem State.setDevctl_env_drawn (s : State) (k : IoAddr) (b : Byte) : (s.setDevctl k b).env.drawn = s.env.drawn := rfl
@[simp] theorem State.setBusMaster_env_cmd (s : State) (k : IoAddr) (b : BusMaster) : (s.setBusMaster k b).env.cmd = s.env.cmd := rfl
@[simp] theorem State.setBusMaster_env_ctl (s : State) (k : IoAddr) (b : BusMaster) : (s.setBusMaster k b).env.ctl = s.env.ctl := rfl
@[simp] theorem State.setBusMaster_env_answers (s : State) (k : IoAddr) (b : BusMaster) : (s.setBusMaster k b).env.answers = s.env.answers := rfl
@[simp] theorem State.setBusMaster_env_translations (s : State) (k : IoAddr) (b : BusMaster) : (s.setBusMaster k b).env.translations = s.env.translations := rfl
@[simp] theorem State.setBusMaster_env_allocations (s : State) (k : IoAddr) (b : BusMaster) : (s.setBusMaster k b).env.allocations = s.env.allocations := rfl
@[simp] theorem State.setBusMaster_env_registrations (s : State) (k : IoAddr) (b : BusMaster) : (s.setBusMaster k b).env.registrations = s.env.registrations := rfl
@[simp] theorem State.setBusMaster_env_drawn (s : State) (k : IoAddr) (b : BusMaster) : (s.setBusMaster k b).env.drawn = s.env.drawn := rfl
@[simp] theorem State.tookAnswer_env_translations (s : State) : (s.tookAnswer).env.translations = s.env.translations := by
  unfold State.tookAnswer; repeat' split
  all_goals rfl
@[simp] theorem State.tookAnswer_env_allocations (s : State) : (s.tookAnswer).env.allocations = s.env.allocations := by
  unfold State.tookAnswer; repeat' split
  all_goals rfl
@[simp] theorem State.tookAnswer_env_registrations (s : State) : (s.tookAnswer).env.registrations = s.env.registrations := by
  unfold State.tookAnswer; repeat' split
  all_goals rfl
@[simp] theorem State.tookTranslation_env_answers (s : State) (a n : Nat) : (s.tookTranslation a n).env.answers = s.env.answers := by
  unfold State.tookTranslation; repeat' split
  all_goals rfl
@[simp] theorem State.tookTranslation_env_allocations (s : State) (a n : Nat) : (s.tookTranslation a n).env.allocations = s.env.allocations := by
  unfold State.tookTranslation; repeat' split
  all_goals rfl
@[simp] theorem State.tookTranslation_env_registrations (s : State) (a n : Nat) : (s.tookTranslation a n).env.registrations = s.env.registrations := by
  unfold State.tookTranslation; repeat' split
  all_goals rfl
@[simp] theorem State.tookAllocation_env_answers (s : State) : (s.tookAllocation).env.answers = s.env.answers := by
  unfold State.tookAllocation; repeat' split
  all_goals rfl
@[simp] theorem State.tookAllocation_env_translations (s : State) : (s.tookAllocation).env.translations = s.env.translations := by
  unfold State.tookAllocation; repeat' split
  all_goals rfl
@[simp] theorem State.tookAllocation_env_registrations (s : State) : (s.tookAllocation).env.registrations = s.env.registrations := by
  unfold State.tookAllocation; repeat' split
  all_goals rfl
@[simp] theorem State.tookRegistration_env_answers (s : State) : (s.tookRegistration).env.answers = s.env.answers := by
  unfold State.tookRegistration; repeat' split
  all_goals rfl
@[simp] theorem State.tookRegistration_env_translations (s : State) : (s.tookRegistration).env.translations = s.env.translations := by
  unfold State.tookRegistration; repeat' split
  all_goals rfl
@[simp] theorem State.tookRegistration_env_allocations (s : State) : (s.tookRegistration).env.allocations = s.env.allocations := by
  unfold State.tookRegistration; repeat' split
  all_goals rfl

/-! ## Port writes leave the answers -/

@[simp] theorem fifoWrite_env_answers (dr : DeviceRegs) (d : Nat) (b : Byte) (s : State) : (fifoWrite dr d b s).env.answers = s.env.answers := rfl
@[simp] theorem commandWrite_env_answers (dr : DeviceRegs) (d : Nat) (v : Dword) (s : State) :
    (commandWrite dr d v s).env.answers = s.env.answers := by
  simp only [commandWrite]; (repeat' split) <;> simp
@[simp] theorem controlWrite_env_answers (dr : DeviceRegs) (d : Nat) (v : Dword) (s : State) :
    (controlWrite dr d v s).env.answers = s.env.answers := by
  simp only [controlWrite]; (repeat' split) <;> simp
@[simp] theorem busMasterWrite_env_answers (dr : DeviceRegs) (w : Width) (d : Nat) (v : Dword) (s : State) :
    (busMasterWrite dr w d v s).env.answers = s.env.answers := by
  simp only [busMasterWrite]; (repeat' split) <;> simp
@[simp] theorem deviceWrite_env_answers (dr : DeviceRegs) (w : Width) (p : Port) (v : Dword) (s : State) :
    (deviceWrite dr w p v s).env.answers = s.env.answers := by
  simp only [deviceWrite]; (repeat' split) <;> simp
@[simp] theorem portWrite_env_answers (h : Handle) (w : Width) (p : Port) (v : Dword) (s : State) :
    (portWrite h w p v s).env.answers = s.env.answers := by simp [portWrite]
@[simp] theorem fifoWrite_env_translations (dr : DeviceRegs) (d : Nat) (b : Byte) (s : State) : (fifoWrite dr d b s).env.translations = s.env.translations := rfl
@[simp] theorem commandWrite_env_translations (dr : DeviceRegs) (d : Nat) (v : Dword) (s : State) :
    (commandWrite dr d v s).env.translations = s.env.translations := by
  simp only [commandWrite]; (repeat' split) <;> simp
@[simp] theorem controlWrite_env_translations (dr : DeviceRegs) (d : Nat) (v : Dword) (s : State) :
    (controlWrite dr d v s).env.translations = s.env.translations := by
  simp only [controlWrite]; (repeat' split) <;> simp
@[simp] theorem busMasterWrite_env_translations (dr : DeviceRegs) (w : Width) (d : Nat) (v : Dword) (s : State) :
    (busMasterWrite dr w d v s).env.translations = s.env.translations := by
  simp only [busMasterWrite]; (repeat' split) <;> simp
@[simp] theorem deviceWrite_env_translations (dr : DeviceRegs) (w : Width) (p : Port) (v : Dword) (s : State) :
    (deviceWrite dr w p v s).env.translations = s.env.translations := by
  simp only [deviceWrite]; (repeat' split) <;> simp
@[simp] theorem portWrite_env_translations (h : Handle) (w : Width) (p : Port) (v : Dword) (s : State) :
    (portWrite h w p v s).env.translations = s.env.translations := by simp [portWrite]
@[simp] theorem fifoWrite_env_allocations (dr : DeviceRegs) (d : Nat) (b : Byte) (s : State) : (fifoWrite dr d b s).env.allocations = s.env.allocations := rfl
@[simp] theorem commandWrite_env_allocations (dr : DeviceRegs) (d : Nat) (v : Dword) (s : State) :
    (commandWrite dr d v s).env.allocations = s.env.allocations := by
  simp only [commandWrite]; (repeat' split) <;> simp
@[simp] theorem controlWrite_env_allocations (dr : DeviceRegs) (d : Nat) (v : Dword) (s : State) :
    (controlWrite dr d v s).env.allocations = s.env.allocations := by
  simp only [controlWrite]; (repeat' split) <;> simp
@[simp] theorem busMasterWrite_env_allocations (dr : DeviceRegs) (w : Width) (d : Nat) (v : Dword) (s : State) :
    (busMasterWrite dr w d v s).env.allocations = s.env.allocations := by
  simp only [busMasterWrite]; (repeat' split) <;> simp
@[simp] theorem deviceWrite_env_allocations (dr : DeviceRegs) (w : Width) (p : Port) (v : Dword) (s : State) :
    (deviceWrite dr w p v s).env.allocations = s.env.allocations := by
  simp only [deviceWrite]; (repeat' split) <;> simp
@[simp] theorem portWrite_env_allocations (h : Handle) (w : Width) (p : Port) (v : Dword) (s : State) :
    (portWrite h w p v s).env.allocations = s.env.allocations := by simp [portWrite]
@[simp] theorem fifoWrite_env_registrations (dr : DeviceRegs) (d : Nat) (b : Byte) (s : State) : (fifoWrite dr d b s).env.registrations = s.env.registrations := rfl
@[simp] theorem commandWrite_env_registrations (dr : DeviceRegs) (d : Nat) (v : Dword) (s : State) :
    (commandWrite dr d v s).env.registrations = s.env.registrations := by
  simp only [commandWrite]; (repeat' split) <;> simp
@[simp] theorem controlWrite_env_registrations (dr : DeviceRegs) (d : Nat) (v : Dword) (s : State) :
    (controlWrite dr d v s).env.registrations = s.env.registrations := by
  simp only [controlWrite]; (repeat' split) <;> simp
@[simp] theorem busMasterWrite_env_registrations (dr : DeviceRegs) (w : Width) (d : Nat) (v : Dword) (s : State) :
    (busMasterWrite dr w d v s).env.registrations = s.env.registrations := by
  simp only [busMasterWrite]; (repeat' split) <;> simp
@[simp] theorem deviceWrite_env_registrations (dr : DeviceRegs) (w : Width) (p : Port) (v : Dword) (s : State) :
    (deviceWrite dr w p v s).env.registrations = s.env.registrations := by
  simp only [deviceWrite]; (repeat' split) <;> simp
@[simp] theorem portWrite_env_registrations (h : Handle) (w : Width) (p : Port) (v : Dword) (s : State) :
    (portWrite h w p v s).env.registrations = s.env.registrations := by simp [portWrite]
@[simp] theorem fifoWrite_env_drawn (dr : DeviceRegs) (d : Nat) (b : Byte) (s : State) : (fifoWrite dr d b s).env.drawn = s.env.drawn := rfl
@[simp] theorem commandWrite_env_drawn (dr : DeviceRegs) (d : Nat) (v : Dword) (s : State) :
    (commandWrite dr d v s).env.drawn = s.env.drawn := by
  simp only [commandWrite]; (repeat' split) <;> simp
@[simp] theorem controlWrite_env_drawn (dr : DeviceRegs) (d : Nat) (v : Dword) (s : State) :
    (controlWrite dr d v s).env.drawn = s.env.drawn := by
  simp only [controlWrite]; (repeat' split) <;> simp
@[simp] theorem busMasterWrite_env_drawn (dr : DeviceRegs) (w : Width) (d : Nat) (v : Dword) (s : State) :
    (busMasterWrite dr w d v s).env.drawn = s.env.drawn := by
  simp only [busMasterWrite]; (repeat' split) <;> simp
@[simp] theorem deviceWrite_env_drawn (dr : DeviceRegs) (w : Width) (p : Port) (v : Dword) (s : State) :
    (deviceWrite dr w p v s).env.drawn = s.env.drawn := by
  simp only [deviceWrite]; (repeat' split) <;> simp
@[simp] theorem portWrite_env_drawn (h : Handle) (w : Width) (p : Port) (v : Dword) (s : State) :
    (portWrite h w p v s).env.drawn = s.env.drawn := by simp [portWrite]

/-! ## Answers -/

/-- The next draw depends on the list of answers and on the counter alone. -/
theorem State.nextAnswer_congr {s t : State} (h1 : t.env.answers = s.env.answers) (h2 : t.env.drawn = s.env.drawn) :
    t.nextAnswer = s.nextAnswer := by simp [State.nextAnswer, h1, h2]

/-- A listed answer is given, and the next one is then the oldest. -/
theorem State.nextAnswer_cons {s : State} {a : Dword} {rest : List Dword} (h : s.env.answers = a :: rest) :
    s.nextAnswer = a := by simp [State.nextAnswer, h]

theorem State.tookAnswer_answers_cons {s : State} {a : Dword} {rest : List Dword} (h : s.env.answers = a :: rest) :
    s.tookAnswer.env.answers = rest := by simp [State.tookAnswer, h]

theorem State.tookAnswer_drawn_cons {s : State} {a : Dword} {rest : List Dword} (h : s.env.answers = a :: rest) :
    s.tookAnswer.env.drawn = s.env.drawn := by simp [State.tookAnswer, h]

@[simp] theorem State.nextAnswer_setCmdBlock (s : State) (k : IoAddr) (b : CmdBlock) : (s.setCmdBlock k b).nextAnswer = s.nextAnswer :=
  State.nextAnswer_congr (by simp) (by simp)
@[simp] theorem State.nextAnswer_setDevctl (s : State) (k : IoAddr) (b : Byte) : (s.setDevctl k b).nextAnswer = s.nextAnswer :=
  State.nextAnswer_congr (by simp) (by simp)
@[simp] theorem State.nextAnswer_setBusMaster (s : State) (k : IoAddr) (b : BusMaster) : (s.setBusMaster k b).nextAnswer = s.nextAnswer :=
  State.nextAnswer_congr (by simp) (by simp)
@[simp] theorem State.nextAnswer_record (s : State) (e : PortEvent) : (s.record e).nextAnswer = s.nextAnswer :=
  State.nextAnswer_congr (by simp) (by simp)
@[simp] theorem State.nextAnswer_called (s : State) (c : Call) : (s.called c).nextAnswer = s.nextAnswer :=
  State.nextAnswer_congr (by simp) (by simp)
@[simp] theorem State.nextAnswer_setRegistered (s : State) (h : Handle) : (s.setRegistered h).nextAnswer = s.nextAnswer :=
  State.nextAnswer_congr (by simp) (by simp)
@[simp] theorem State.nextAnswer_setDev (s : State) (h : Handle) (d : Device) : (s.setDev h d).nextAnswer = s.nextAnswer :=
  State.nextAnswer_congr (by simp) (by simp)
@[simp] theorem State.nextAnswer_setDr (s : State) (h : Handle) (d : DeviceRegs) : (s.setDr h d).nextAnswer = s.nextAnswer :=
  State.nextAnswer_congr (by simp) (by simp)
@[simp] theorem State.nextAnswer_setCt (s : State) (h : Handle) (d : CurrentTransfer) : (s.setCt h d).nextAnswer = s.nextAnswer :=
  State.nextAnswer_congr (by simp) (by simp)
@[simp] theorem State.nextAnswer_setPhase (s : State) (h : Handle) (d : Phase) : (s.setPhase h d).nextAnswer = s.nextAnswer :=
  State.nextAnswer_congr (by simp) (by simp)
@[simp] theorem State.nextAnswer_portWrite (h : Handle) (w : Width) (p : Port) (v : Dword) (s : State) : (portWrite h w p v s).nextAnswer = s.nextAnswer :=
  State.nextAnswer_congr (by simp) (by simp)

/-! ## Taking an answer commutes with the other updates -/

@[simp] theorem State.tookAnswer_setCmdBlock (s : State) (k : IoAddr) (b : CmdBlock) : (s.setCmdBlock k b).tookAnswer = s.tookAnswer.setCmdBlock k b := by
  cases h : s.env.answers <;> simp [State.tookAnswer, State.setCmdBlock, h]
@[simp] theorem State.tookAnswer_setDevctl (s : State) (k : IoAddr) (b : Byte) : (s.setDevctl k b).tookAnswer = s.tookAnswer.setDevctl k b := by
  cases h : s.env.answers <;> simp [State.tookAnswer, State.setDevctl, h]
@[simp] theorem State.tookAnswer_setBusMaster (s : State) (k : IoAddr) (b : BusMaster) : (s.setBusMaster k b).tookAnswer = s.tookAnswer.setBusMaster k b := by
  cases h : s.env.answers <;> simp [State.tookAnswer, State.setBusMaster, h]
@[simp] theorem State.tookAnswer_record (s : State) (e : PortEvent) : (s.record e).tookAnswer = s.tookAnswer.record e := by
  cases h : s.env.answers <;> simp [State.tookAnswer, State.record, h]
@[simp] theorem State.tookAnswer_setDr (s : State) (h : Handle) (d : DeviceRegs) :
    (s.setDr h d).tookAnswer = s.tookAnswer.setDr h d := by
  cases e : s.env.answers <;> simp [State.tookAnswer, State.setDr, State.setDev, State.dev, e]
@[simp] theorem State.tookAnswer_setCt (s : State) (h : Handle) (d : CurrentTransfer) :
    (s.setCt h d).tookAnswer = s.tookAnswer.setCt h d := by
  cases e : s.env.answers <;> simp [State.tookAnswer, State.setCt, State.setDev, State.dev, e]
@[simp] theorem State.tookAnswer_setPhase (s : State) (h : Handle) (d : Phase) :
    (s.setPhase h d).tookAnswer = s.tookAnswer.setPhase h d := by
  cases e : s.env.answers <;> simp [State.tookAnswer, State.setPhase, State.setDev, State.dev, e]

/-- The draw after a port read is the one after the draw that read took. -/
@[simp] theorem State.nextAnswer_portRead (h : Handle) (w : Width) (p : Port) (s : State) :
    (portRead h w p s).nextAnswer = s.tookAnswer.nextAnswer := by simp [portRead]

@[simp] theorem State.tookAnswer_portRead (h : Handle) (w : Width) (p : Port) (s : State) :
    (portRead h w p s).tookAnswer.nextAnswer = s.tookAnswer.tookAnswer.nextAnswer := by simp [portRead]

/-! ## The selected position and the IRQ bit -/

/-- After a device has been selected, the selected position is its own (R42, R183). -/
@[simp] theorem CmdBlock.current_select (m s : Taskfile) (sl : Bool) :
    CmdBlock.current { device := devSelByte sl, master := m, slave := s } = if sl then s else m := by
  cases sl <;> simp [CmdBlock.current, CmdBlock.position, CmdBlock.selectsSlave, devSelByte, flag, Config.devBit]

/-- The IRQ bit of a BUSSTATUS value. -/
@[simp] theorem irq_of_busStatus (v : Byte) (b : Bool) : (withFlag v Config.irqBit b).getLsbD Config.irqBit = b := by
  rw [getLsbD_withFlag _ _ _ _ (by decide)]; simp

/-! ## A raised fault -/

@[simp] theorem dev_raise_ct (h : Handle) (c : Context) (k : Fault) (s : State) :
    ((raise h c k s).dev h).ct = (s.dev h).ct := by
  cases c <;> simp [raise] <;> simp [State.dev]

@[simp] theorem dev_raise_dr (h : Handle) (c : Context) (k : Fault) (s : State) :
    ((raise h c k s).dev h).dr = (s.dev h).dr := by
  cases c <;> simp [raise] <;> simp [State.dev]

@[simp] theorem State.cmdBlock_raise (h : Handle) (c : Context) (k : Fault) (s : State) (x : IoAddr) :
    (raise h c k s).cmdBlock x = s.cmdBlock x := by cases c <;> rfl

@[simp] theorem State.devctl_raise (h : Handle) (c : Context) (k : Fault) (s : State) (x : IoAddr) :
    (raise h c k s).devctl x = s.devctl x := by cases c <;> rfl

@[simp] theorem State.busMaster_raise (h : Handle) (c : Context) (k : Fault) (s : State) (x : IoAddr) :
    (raise h c k s).busMaster x = s.busMaster x := by cases c <;> rfl

/-! ## A failed bring-up -/

@[simp] theorem failBringUp_env_cmd (h : Handle) (s : State) : (failBringUp h s).env.cmd = s.env.cmd := rfl
@[simp] theorem failBringUp_env_ctl (h : Handle) (s : State) : (failBringUp h s).env.ctl = s.env.ctl := rfl
@[simp] theorem failBringUp_env_bm (h : Handle) (s : State) : (failBringUp h s).env.bm = s.env.bm := rfl
@[simp] theorem failBringUp_env_answers (h : Handle) (s : State) : (failBringUp h s).env.answers = s.env.answers := rfl

theorem State.dev_failBringUp_other {h k : Handle} (s : State) (hk : k ≠ h) : (failBringUp h s).dev k = s.dev k :=
  State.dev_setDev_other s _ hk

@[simp] theorem State.phase_failBringUp (h : Handle) (s : State) : ((failBringUp h s).dev h).phase = .down := by
  have e : (failBringUp h s).dev h = unspecifiedDevice s.env.drawn (s.dev h) := State.dev_setDev_self s h _
  rw [e]; rfl

@[simp] theorem State.handlerFault_failBringUp (h : Handle) (s : State) :
    ((failBringUp h s).dev h).handlerFault = (s.dev h).handlerFault := by
  have e : (failBringUp h s).dev h = unspecifiedDevice s.env.drawn (s.dev h) := State.dev_setDev_self s h _
  rw [e]; rfl

/-! ## Giving an allocation back -/

@[simp] theorem State.dev_release (x : Nat) (s : State) (h : Handle) : (release x s).dev h = s.dev h :=
  State.dev_congr (by simp) h

@[simp] theorem State.dev_releaseTable (x : Option PrdTable) (s : State) (h : Handle) :
    (releaseTable x s).dev h = s.dev h := State.dev_congr (by simp) h

/-- `Free` of an owning pointer takes away exactly the allocations under its handle (R233). -/
theorem mem_releaseTable (p : Option PrdTable) (s : State) (x : Allocation) :
    x ∈ (releaseTable p s).allocs ↔ x ∈ s.allocs ∧ ∀ q, p = some q → x.handle ≠ q.handle := by
  cases p with
  | none => simp [releaseTable]
  | some q =>
    simp only [releaseTable, release, State.called, giveBack]
    split
    · simp
    · rename_i h
      simp only [List.find?_eq_none] at h
      simp only [Option.some.injEq, forall_eq', iff_self_and]
      intro hx e
      have := h x hx
      simp [e] at this

/-- `Free` of an owning pointer leaves every byte outside its allocation. -/
theorem read_releaseTable (p : Option PrdTable) (s : State) (a : Nat)
    (h : ∀ q x, p = some q → x ∈ s.allocs → x.handle = q.handle →
      a < x.phys.toNat ∨ x.phys.toNat + x.bytes ≤ a) :
    Memory.read (releaseTable p s).mem a = Memory.read s.mem a := by
  cases p with
  | none => rfl
  | some q =>
    simp only [releaseTable, release, State.called, giveBack]
    split
    · rename_i y hy
      have := h q y rfl (List.mem_of_find?_eq_some hy) (by simpa using List.find?_some hy)
      rw [Memory.read_forget, if_neg (by omega)]
    · rfl

/-- `Free` of an owning pointer leaves no stated value in its allocation, where no two live allocations share a
handle. -/
theorem read_releaseTable_freed (q : PrdTable) (s : State) {x : Allocation} (hx : x ∈ s.allocs)
    (hq : x.handle = q.handle) (hu : s.allocs.Pairwise (fun x y => x.handle ≠ y.handle)) {a : Nat}
    (h1 : x.phys.toNat ≤ a) (h2 : a < x.phys.toNat + x.bytes) :
    Memory.read (releaseTable (some q) s).mem a = none := by
  have hf : s.allocs.find? (fun y => y.handle == q.handle) = some x := by
    obtain ⟨l, r, e⟩ := List.append_of_mem hx
    rw [e, List.find?_append]
    have : l.find? (fun y => y.handle == q.handle) = none := by
      simp only [List.find?_eq_none]
      intro y hy
      rw [e, List.pairwise_append] at hu
      have := hu.2.2 y hy x (by simp)
      simp only [beq_iff_eq]
      rw [← hq]
      exact this
    simp [this, hq]
  simp only [releaseTable, release, State.called, giveBack, hf]
  rw [Memory.read_forget, if_pos ⟨h1, h2⟩]

/-! ## Writes to the named ports -/

/-- The write of a byte to DEVICE (R42, R143). -/
theorem portWrite_device (h : Handle) (b : Byte) (s : State) :
    portWrite h .w8 ⟨.command, 6⟩ (b.setWidth 32) s =
      (s.setCmdBlock (s.dev h).dr.base { s.cmdBlock (s.dev h).dr.base with device := b }).record
        (.write .w8 ((s.dev h).dr.base + 6#16) (b.setWidth 32)) := by
  simp [portWrite, deviceWrite, commandWrite, Width.trim, portAddr, windowBase]

@[simp] theorem portRead_env (h : Handle) (w : Width) (p : Port) (s : State) : (portRead h w p s).env = s.tookAnswer.env :=
  rfl

/-- The write of a byte to COMMAND (R145). -/
theorem portWrite_command (h : Handle) (b : Byte) (s : State) :
    portWrite h .w8 ⟨.command, 7⟩ (b.setWidth 32) s =
      (s.setCmdBlock (s.dev h).dr.base ((s.cmdBlock (s.dev h).dr.base).setCurrent
        ((s.cmdBlock (s.dev h).dr.base).current.takeCommand b (s.masked (s.dev h).dr)))).record
        (.write .w8 ((s.dev h).dr.base + 7#16) (b.setWidth 32)) := by
  simp [portWrite, deviceWrite, commandWrite, Width.trim, portAddr, windowBase]

/-- The write of a byte to BUSCMD (R159). -/
theorem portWrite_buscmd (h : Handle) (b : Byte) (s : State) :
    portWrite h .w8 ⟨.busMaster, 0⟩ (b.setWidth 32) s =
      (s.setBusMaster (s.dev h).dr.bm ((s.busMaster (s.dev h).dr.bm).takeCommand b)).record
        (.write .w8 (s.dev h).dr.bm (b.setWidth 32)) := by
  simp [portWrite, deviceWrite, busMasterWrite, Width.trim, portAddr, windowBase]

/-- The write of a byte to BUSSTATUS: a 1 in the IRQ bit clears it (R163). -/
theorem portWrite_busStatus (h : Handle) (b : Byte) (s : State) :
    portWrite h .w8 ⟨.busMaster, 2⟩ (b.setWidth 32) s =
      (s.setBusMaster (s.dev h).dr.bm
        { s.busMaster (s.dev h).dr.bm with irq := (s.busMaster (s.dev h).dr.bm).irq && !flag b Config.irqBit }).record
        (.write .w8 ((s.dev h).dr.bm + 2#16) (b.setWidth 32)) := by
  simp [portWrite, deviceWrite, busMasterWrite, Width.trim, portAddr, windowBase, flag, Config.irqBit]

/-- The doubleword write of PRDTADDR (R129). -/
theorem portWrite_prdt (h : Handle) (v : Dword) (s : State) :
    portWrite h .w32 ⟨.busMaster, 4⟩ v s =
      (s.setBusMaster (s.dev h).dr.bm { s.busMaster (s.dev h).dr.bm with prdtaddr := v }).record
        (.write .w32 ((s.dev h).dr.bm + 4#16) v) := by
  simp [portWrite, deviceWrite, busMasterWrite, BusMaster.writeAddr, Width.trim, portAddr, windowBase]

/-- A word written to DATA goes to the device: one event and nothing kept (R128). -/
theorem portWrite_data (h : Handle) (v : Word) (s : State) :
    portWrite h .w16 ⟨.command, 0⟩ (v.setWidth 32) s = s.record (.write .w16 (s.dev h).dr.base (v.setWidth 32)) := by
  simp [portWrite, deviceWrite, commandWrite, Width.trim, portAddr, windowBase]

/-- A byte written to a FIFO port under the bracket's HOB bit, or outside a bracket (R40). -/
theorem portWrite_fifo (h : Handle) (n : Nat) (hn : n = 2 ∨ n = 3 ∨ n = 4 ∨ n = 5) (b : Byte) (s : State) :
    portWrite h .w8 ⟨.command, n⟩ (b.setWidth 32) s =
      (fifoWrite (s.dev h).dr n b s).record
        (.write .w8 ((s.dev h).dr.base + BitVec.ofNat 16 n) (b.setWidth 32)) := by
  rcases hn with rfl | rfl | rfl | rfl <;>
    simp [portWrite, deviceWrite, commandWrite, Width.trim, portAddr, windowBase]

/-! ## Reads of the named ports -/

/-- STATUS: the draw's low byte, or 0x00 where no device is (R45, R144). -/
theorem portValue_status (h : Handle) (s : State) :
    portValue h .w8 ⟨.command, 7⟩ s =
      if (s.cmdBlock (s.dev h).dr.base).current.absent then 0#32
      else (s.nextAnswer.setWidth 8 : Byte).setWidth 32 := by
  simp only [portValue, deviceAnswer, commandAnswer, Width.trim]
  simp
  split <;> simp

/-- BUSSTATUS: the draw with the IRQ bit in bit 2 (R43, R162). -/
theorem portValue_busStatus (h : Handle) (s : State) :
    portValue h .w8 ⟨.busMaster, 2⟩ s =
      (withFlag (byteAt s.nextAnswer 0) Config.irqBit (s.busMaster (s.dev h).dr.bm).irq).setWidth 32 := by
  simp [portValue, deviceAnswer, busMasterAnswer, Width.trim]

/-- A word of DATA: the draw's low 16 bits (R128). -/
theorem portValue_data (h : Handle) (s : State) :
    portValue h .w16 ⟨.command, 0⟩ s = (s.nextAnswer.setWidth 16 : Word).setWidth 32 := by
  simp [portValue, deviceAnswer, commandAnswer, Width.trim]

end Sys2Proof.Machine
end

