-- ==== Sys2Proof/Laws/Places.lean ====
section
/-!
SUPPORT. Where the bytes of a caller's buffer live and how they read after a store (spec/20_memory.md R66, R83): a byte that
a physical run backs is the byte of physical memory the DMA engine moves.
-/
namespace Sys2Proof.Machine

/-- A place depends on the backing runs alone. -/
theorem State.place_congr {s t : State} (h : t.backing = s.backing) (a : Nat) : t.place a = s.place a := by
  simp [State.place, h]

/-- What a place holds depends on the two memories alone. -/
theorem State.readPlace_congr {s t : State} (h1 : t.mem = s.mem) (h2 : t.buf = s.buf) (p : Place) :
    t.readPlace p = s.readPlace p := by
  cases p <;> simp [State.readPlace, h1, h2]

/-- A byte of a buffer depends on the backing runs and the two memories alone. -/
theorem State.callerByte_congr {s t : State} (h1 : t.mem = s.mem) (h2 : t.buf = s.buf) (h3 : t.backing = s.backing)
    (a : Nat) : t.callerByte a = s.callerByte a := by
  simp [State.callerByte, State.place_congr h3, State.readPlace_congr h1 h2]

@[simp] theorem State.place_storeCaller (s : State) (a c : Nat) (b : Byte) : (s.storeCaller a b).place c = s.place c :=
  State.place_congr (by simp) c

@[simp] theorem State.place_bufWrite16 (s : State) (a i c : Nat) (w : Word) : (bufWrite16 s a i w).place c = s.place c :=
  State.place_congr (by simp) c

/-- A place reads back what is stored there. -/
@[simp] theorem State.readPlace_writePlace_self (s : State) (p : Place) (b : Byte) :
    (s.writePlace p b).readPlace p = some b := by
  cases p <;> simp [State.writePlace, State.readPlace]

/-- A store leaves every other place. -/
theorem State.readPlace_writePlace_other (s : State) {p q : Place} (b : Byte) (h : q ≠ p) :
    (s.writePlace p b).readPlace q = s.readPlace q := by
  cases p <;> cases q <;> simp only [State.writePlace, State.readPlace]
  · exact Memory.read_write_other _ _ (fun e => h (by rw [e]))
  · exact Memory.read_write_other _ _ (fun e => h (by rw [e]))

/-- The two bytes of a stored word leave every other place. -/
theorem readPlace_bufWrite16_other (s : State) (a i : Nat) (w : Word) {q : Place} (h1 : q ≠ s.place (a + 2 * i))
    (h2 : q ≠ s.place (a + 2 * i + 1)) : (bufWrite16 s a i w).readPlace q = s.readPlace q := by
  rw [bufWrite16, State.storeCaller, State.place_storeCaller, State.readPlace_writePlace_other _ _ h2,
    State.storeCaller, State.readPlace_writePlace_other _ _ h1]

/-- The high byte of a stored word reads back; the low one too, where the two have different places. -/
theorem readPlace_bufWrite16 (s : State) (a i : Nat) (w : Word) :
    (bufWrite16 s a i w).readPlace (s.place (a + 2 * i + 1)) = some (byteAt w 1) ∧
      (s.place (a + 2 * i) ≠ s.place (a + 2 * i + 1) →
        (bufWrite16 s a i w).readPlace (s.place (a + 2 * i)) = some (byteAt w 0)) := by
  rw [bufWrite16, State.storeCaller, State.place_storeCaller]
  refine ⟨State.readPlace_writePlace_self _ _ _, fun h => ?_⟩
  rw [State.readPlace_writePlace_other _ _ h, State.storeCaller, State.readPlace_writePlace_self]

/-- A buffer word reads back as written where its two bytes have different places (R66). -/
theorem bufRead16_bufWrite16 (s : State) (a i : Nat) (w : Word) (h : s.place (a + 2 * i) ≠ s.place (a + 2 * i + 1)) :
    bufRead16 (bufWrite16 s a i w) a i = w := by
  obtain ⟨h1, h2⟩ := readPlace_bufWrite16 s a i w
  simp only [bufRead16, State.callerByte, State.place_bufWrite16, h1, h2 h, Option.getD_some]
  apply BitVec.eq_of_getLsbD_eq
  intro j hj
  simp only [byteAt, BitVec.getLsbD_append, BitVec.getLsbD_extractLsb']
  by_cases h : j < 8
  · simp [h]
  · have h1 : j - 8 < 8 := by omega
    have h2 : 8 + (j - 8) = j := by omega
    simp [h, h1, h2]

/-- Storing a byte of a buffer keeps both memories in canonical form. -/
theorem State.wf_storeCaller {s : State} (a : Nat) (b : Byte) (h1 : Memory.wf s.mem) (h2 : Memory.wf s.buf) :
    Memory.wf (s.storeCaller a b).mem ∧ Memory.wf (s.storeCaller a b).buf := by
  unfold State.storeCaller
  cases s.place a
  · exact ⟨h1, Memory.wf_write _ _ h2⟩
  · exact ⟨Memory.wf_write _ _ h1, h2⟩

/-- The buffer with the words `ws` stored from word `i` on (R66). -/
def fillWords (s : State) (buffer : Nat) : Nat → List Word → State
  | _, [] => s
  | i, w :: ws => fillWords (bufWrite16 s buffer i w) buffer (i + 1) ws

@[simp] theorem place_fillWords (s : State) (b i : Nat) (ws : List Word) (c : Nat) :
    (fillWords s b i ws).place c = s.place c := by
  induction ws generalizing s i with
  | nil => rfl
  | cons w ws ih => rw [fillWords, ih, State.place_bufWrite16]

/-- The stores touch the two memories alone. -/
theorem fillWords_eq (s : State) (b i : Nat) (ws : List Word) :
    fillWords s b i ws = { s with mem := (fillWords s b i ws).mem, buf := (fillWords s b i ws).buf } := by
  induction ws generalizing s i with
  | nil => rfl
  | cons w ws ih =>
    rw [fillWords, ih]
    simp

@[simp] theorem fillWords_devs (s : State) (b i : Nat) (ws : List Word) : (fillWords s b i ws).devs = s.devs := by
  rw [fillWords_eq]
@[simp] theorem fillWords_env (s : State) (b i : Nat) (ws : List Word) : (fillWords s b i ws).env = s.env := by
  rw [fillWords_eq]
@[simp] theorem fillWords_backing (s : State) (b i : Nat) (ws : List Word) : (fillWords s b i ws).backing = s.backing := by
  rw [fillWords_eq]
@[simp] theorem fillWords_outs (s : State) (b i : Nat) (ws : List Word) : (fillWords s b i ws).outs = s.outs := by
  rw [fillWords_eq]
@[simp] theorem fillWords_allocs (s : State) (b i : Nat) (ws : List Word) : (fillWords s b i ws).allocs = s.allocs := by
  rw [fillWords_eq]
@[simp] theorem fillWords_nextHandle (s : State) (b i : Nat) (ws : List Word) : (fillWords s b i ws).nextHandle = s.nextHandle := by
  rw [fillWords_eq]
@[simp] theorem fillWords_trace (s : State) (b i : Nat) (ws : List Word) : (fillWords s b i ws).trace = s.trace := by
  rw [fillWords_eq]
@[simp] theorem fillWords_dmaTrace (s : State) (b i : Nat) (ws : List Word) : (fillWords s b i ws).dmaTrace = s.dmaTrace := by
  rw [fillWords_eq]
@[simp] theorem fillWords_calls (s : State) (b i : Nat) (ws : List Word) : (fillWords s b i ws).calls = s.calls := by
  rw [fillWords_eq]
@[simp] theorem fillWords_log (s : State) (b i : Nat) (ws : List Word) : (fillWords s b i ws).log = s.log := by
  rw [fillWords_eq]
@[simp] theorem fillWords_returns (s : State) (b i : Nat) (ws : List Word) : (fillWords s b i ws).returns = s.returns := by
  rw [fillWords_eq]
@[simp] theorem fillWords_faults (s : State) (b i : Nat) (ws : List Word) : (fillWords s b i ws).faults = s.faults := by
  rw [fillWords_eq]
@[simp] theorem fillWords_threads (s : State) (b i : Nat) (ws : List Word) : (fillWords s b i ws).threads = s.threads := by
  rw [fillWords_eq]
@[simp] theorem fillWords_nextTid (s : State) (b i : Nat) (ws : List Word) : (fillWords s b i ws).nextTid = s.nextTid := by
  rw [fillWords_eq]
@[simp] theorem fillWords_activation (s : State) (b i : Nat) (ws : List Word) : (fillWords s b i ws).activation = s.activation := by
  rw [fillWords_eq]
@[simp] theorem fillWords_port (s : State) (b i : Nat) (ws : List Word) : (fillWords s b i ws).port = s.port := by
  rw [fillWords_eq]
@[simp] theorem fillWords_inputs (s : State) (b i : Nat) (ws : List Word) : (fillWords s b i ws).inputs = s.inputs := by
  rw [fillWords_eq]

/-- A place that none of the bytes of the words stored has reads as before. -/
theorem readPlace_fillWords_other (s : State) (b i : Nat) (ws : List Word) {q : Place}
    (h : ∀ k, 2 * i ≤ k → k < 2 * (i + ws.length) → q ≠ s.place (b + k)) :
    (fillWords s b i ws).readPlace q = s.readPlace q := by
  induction ws generalizing s i with
  | nil => rfl
  | cons w ws ih =>
    simp only [List.length_cons] at h
    rw [fillWords, ih _ _ (fun k h1 h2 => by rw [State.place_bufWrite16]; exact h k (by omega) (by omega)),
      readPlace_bufWrite16_other _ _ _ _ (h _ (by omega) (by omega))
        (by rw [Nat.add_assoc]; exact h _ (by omega) (by omega))]

/-- Each byte of the words stored reads back at its place, if no later byte of them has the same place. -/
theorem readPlace_fillWords (s : State) (b i : Nat) (ws : List Word) (j : Nat) (w : Word) (hw : ws[j]? = some w) :
    ((∀ k, 2 * (i + j) < k → k < 2 * (i + ws.length) → s.place (b + 2 * (i + j)) ≠ s.place (b + k)) →
      (fillWords s b i ws).readPlace (s.place (b + 2 * (i + j))) = some (byteAt w 0)) ∧
    ((∀ k, 2 * (i + j) + 1 < k → k < 2 * (i + ws.length) → s.place (b + 2 * (i + j) + 1) ≠ s.place (b + k)) →
      (fillWords s b i ws).readPlace (s.place (b + 2 * (i + j) + 1)) = some (byteAt w 1)) := by
  induction ws generalizing s i j with
  | nil => simp at hw
  | cons v ws ih =>
    cases j with
    | zero =>
      simp only [List.getElem?_cons_zero, Option.some.injEq] at hw
      subst hw
      obtain ⟨e1, e2⟩ := readPlace_bufWrite16 s b i v
      simp only [Nat.add_zero, List.length_cons, fillWords]
      refine ⟨fun h => ?_, fun h => ?_⟩
      · rw [readPlace_fillWords_other _ _ _ _
          (fun k h1 h2 => by rw [State.place_bufWrite16]; exact h k (by omega) (by omega))]
        refine e2 ?_
        rw [Nat.add_assoc]
        exact h _ (by omega) (by omega)
      · rw [readPlace_fillWords_other _ _ _ _
          (fun k h1 h2 => by rw [State.place_bufWrite16]; exact h k (by omega) (by omega)), e1]
    | succ j =>
      simp only [List.getElem?_cons_succ] at hw
      obtain ⟨e1, e2⟩ := ih (bufWrite16 s b i v) (i + 1) j hw
      simp only [State.place_bufWrite16, List.length_cons, fillWords, show i + 1 + j = i + (j + 1) by omega,
        show i + 1 + ws.length = i + (ws.length + 1) by omega] at e1 e2 ⊢
      exact ⟨e1, e2⟩

end Sys2Proof.Machine
end

