-- ==== Sys2Proof/Laws/Sequence.lean ====
section
/-!
SUPPORT. What a step of a sequence, a run of steps, the end of a run and `issue` can do, each said once.
-/
namespace Sys2Proof.Machine

/-! ## Running -/

@[simp] theorem runFrame_zero (f : Frame) (s : State) : runFrame 0 f s = (.running f, s) := rfl

/-- A step that goes on is followed by the rest of the run. -/
theorem runFrame_running {n : Nat} {f f1 : Frame} {s s1 : State} (h : frameStep f s = (.running f1, s1)) :
    runFrame (n + 1) f s = runFrame n f1 s1 := by simp [runFrame, h]

/-- A step that returns ends the run. -/
theorem runFrame_returned {n : Nat} {f : Frame} {s s1 : State} {r : Result}
    (h : frameStep f s = (.returned r, s1)) : runFrame (n + 1) f s = (.returned r, s1) := by simp [runFrame, h]

/-- A step that raises ends the run. -/
theorem runFrame_raised {n : Nat} {f : Frame} {s s1 : State} {k : Fault}
    (h : frameStep f s = (.raised k, s1)) : runFrame (n + 1) f s = (.raised k, s1) := by simp [runFrame, h]

/-- A run of `m + n` steps is a run of `m` steps, and of `n` more where it still goes on. -/
theorem runFrame_add (m n : Nat) (f : Frame) (s : State) :
    runFrame (m + n) f s =
      match runFrame m f s with
      | (.running f1, s1) => runFrame n f1 s1
      | r => r := by
  induction m generalizing f s with
  | zero => simp
  | succ m ih =>
    rw [Nat.add_right_comm]
    simp only [runFrame]
    split
    · exact ih _ _
    · rename_i r h
      split
      · rename_i h2; exact absurd h2 (h _ _)
      · rfl

/-- A property of states that every step keeps is kept by a run. -/
theorem runFrame_keeps {P : State → Prop} (hs : ∀ f s, P s → P (frameStep f s).2) (n : Nat) (f : Frame) (s : State)
    (h : P s) : P (runFrame n f s).2 := by
  induction n generalizing f s with
  | zero => exact h
  | succ n ih =>
    have h1 := hs f s h
    simp only [runFrame]
    split
    · rename_i f1 s1 e; exact ih f1 s1 (by simpa [e] using h1)
    · exact h1

/-! ## issue -/

/-- If `issue` answers a next state, the request was accepted and its steps were run. -/
theorem issue_next {i : Instr} {prog : List Micro} {s t : State} (h : issue i prog s = .next t) :
    refusal i s = none ∧ endedAgent s = none ∧ t = runRequest i prog s := by
  unfold issue at h
  split at h
  · cases h
  · split at h
    · cases h
    · injection h with h; exact ⟨by assumption, by assumption, h.symm⟩

/-- An accepted request is run. -/
theorem issue_accepted {i : Instr} {prog : List Micro} {s : State} (h1 : refusal i s = none)
    (h2 : endedAgent s = none) : issue i prog s = .next (runRequest i prog s) := by
  simp [issue, h1, h2]

/-! ## The end of a run -/

@[simp] theorem settle_returned (t : Option Nat) (f : Frame) (r : Result) (s : State) :
    settle t f (.returned r, s) = handBack f.ops.dev f.op r s := rfl

@[simp] theorem settle_raised (t : Option Nat) (f : Frame) (k : Fault) (s : State) :
    settle t f (.raised k, s) = raise f.ops.dev f.ctx k s := rfl

@[simp] theorem settle_running (t : Option Nat) (f g : Frame) (s : State) :
    settle t f (.running g, s) = suspend t g s := rfl

end Sys2Proof.Machine
end

