-- ==== Sys2Proof/Laws/Loops.lean ====
section
/-!
SUPPORT. The loops of the sequences, each said once: the waits (spec/41_primitives.md R180 to R182, R188) and the
polled buffer loop (R185, R186), over the answers the environment has listed.
-/
namespace Sys2Proof.Machine

/-! ## Reads whose answer is listed -/

/-- The state after one read whose event is `e`, with `rest` the answers left. -/
def State.readAs (s : State) (e : PortEvent) (rest : List Dword) : State :=
  { s with env := { s.env with answers := rest }, trace := s.trace ++ [e] }

/-- The event of a byte read from STATUS of a device. -/
def statusEvent (s : State) (h : Handle) (v : Byte) : PortEvent :=
  .read .w8 ((s.dev h).dr.base + 7#16) (v.setWidth 32)

/-- The byte a read of STATUS gives where the draw is `a` (R45). -/
def CmdBlock.seen (blk : CmdBlock) (a : Dword) : Byte := if blk.current.absent then 0#8 else a.setWidth 8

/-- The byte a read of STATUS of device `h` gives where the draw is `a`. -/
def State.seen (s : State) (h : Handle) (a : Dword) : Byte := (s.cmdBlock (s.dev h).dr.base).seen a

/-- Where a device is at the selected position, the byte is the draw's. -/
theorem State.seen_present {s : State} {h : Handle} (hp : (s.cmdBlock (s.dev h).dr.base).current.absent = false)
    (a : Dword) : s.seen h a = a.setWidth 8 := by simp [State.seen, CmdBlock.seen, hp]

/-- The value of a read of STATUS whose answer is listed. -/
theorem portValue_status_seen {h : Handle} {s : State} {a : Dword} {rest : List Dword}
    (ha : s.env.answers = a :: rest) : portValue h .w8 statusPort s = (s.seen h a).setWidth 32 := by
  simp only [statusPort, Config.statusOffset, portValue_status, State.nextAnswer, ha, State.seen, CmdBlock.seen]
  split <;> rfl

/-- A read of STATUS whose answer is listed. -/
theorem portRead_status_seen {h : Handle} {s : State} {a : Dword} {rest : List Dword}
    (ha : s.env.answers = a :: rest) :
    portRead h .w8 statusPort s = s.readAs (statusEvent s h (s.seen h a)) rest := by
  unfold portRead
  rw [portValue_status_seen ha]
  simp [statusPort, State.tookAnswer, ha, State.record, State.readAs, statusEvent, portAddr, windowBase]

/-- A read of STATUS whose answer is listed, where a device is at the selected position. -/
theorem portRead_status_listed {h : Handle} {s : State} {a : Dword} {rest : List Dword}
    (ha : s.env.answers = a :: rest) (hp : (s.cmdBlock (s.dev h).dr.base).current.absent = false) :
    portRead h .w8 statusPort s = s.readAs (statusEvent s h (a.setWidth 8)) rest := by
  rw [portRead_status_seen ha, State.seen_present hp]

/-- The value of that read. -/
theorem portValue_status_listed {h : Handle} {s : State} {a : Dword} {rest : List Dword}
    (ha : s.env.answers = a :: rest) (hp : (s.cmdBlock (s.dev h).dr.base).current.absent = false) :
    portValue h .w8 statusPort s = (a.setWidth 8 : Byte).setWidth 32 := by
  rw [portValue_status_seen ha, State.seen_present hp]

/-- A word read from DATA whose answer is listed. -/
theorem portRead_data_listed {h : Handle} {s : State} {a : Dword} {rest : List Dword}
    (ha : s.env.answers = a :: rest) :
    portRead h .w16 dataPort s =
      s.readAs (.read .w16 (s.dev h).dr.base ((a.setWidth 16 : Word).setWidth 32)) rest := by
  simp [portRead, dataPort, portValue_data, State.nextAnswer, State.tookAnswer, ha, State.record, State.readAs,
    portAddr, windowBase]

theorem portValue_data_listed {h : Handle} {s : State} {a : Dword} {rest : List Dword}
    (ha : s.env.answers = a :: rest) :
    portValue h .w16 dataPort s = (a.setWidth 16 : Word).setWidth 32 := by
  simp [dataPort, portValue_data, State.nextAnswer, ha]

/-- One bit of a byte read. -/
theorem flag_byte (b : Byte) {bit : Nat} (h : bit < 8) : flag (b.setWidth 32) bit = b.getLsbD bit := by
  have h2 : bit < 32 := by omega
  simp [flag, h2]

/-- One bit of a STATUS value as the waits test it. -/
theorem flag_status (a : Dword) {bit : Nat} (h : bit < 8) :
    flag ((a.setWidth 8 : Byte).setWidth 32) bit = a.getLsbD bit := by
  have h2 : bit < 32 := by omega
  simp [flag, h, h2]

@[simp] theorem State.readAs_dev (s : State) (e : PortEvent) (rest : List Dword) (h : Handle) :
    (s.readAs e rest).dev h = s.dev h := rfl
@[simp] theorem State.readAs_cmdBlock (s : State) (e : PortEvent) (rest : List Dword) (k : IoAddr) :
    (s.readAs e rest).cmdBlock k = s.cmdBlock k := rfl
@[simp] theorem State.readAs_answers (s : State) (e : PortEvent) (rest : List Dword) :
    (s.readAs e rest).env.answers = rest := rfl
@[simp] theorem statusEvent_readAs (s : State) (e : PortEvent) (rest : List Dword) (h : Handle) (v : Byte) :
    statusEvent (s.readAs e rest) h v = statusEvent s h v := rfl

/-- The state after the reads whose events are `es`. -/
def State.readsAs (s : State) (es : List PortEvent) (rest : List Dword) : State :=
  { s with env := { s.env with answers := rest }, trace := s.trace ++ es }

theorem State.readAs_readsAs (s : State) (e : PortEvent) (r1 : List Dword) (es : List PortEvent) (r2 : List Dword) :
    (s.readAs e r1).readsAs es r2 = s.readsAs (e :: es) r2 := by simp [State.readAs, State.readsAs]

/-! ## The waits -/

/-- A wait that the last of the listed reads ends: `early` do not show the bit, `last` does. -/
theorem runFrame_wait {f : Frame} {ps : List Micro} {bit : Nat} {want : Bool} (hb : bit < 8)
    (hf : f.prog = .waitStatus bit want :: ps) (n : Nat) (early : List Dword) (last : Dword) (rest : List Dword)
    (s : State) (ha : s.env.answers = early ++ last :: rest)
    (he : ∀ v ∈ early, (s.seen f.ops.dev v).getLsbD bit ≠ want) (hl : (s.seen f.ops.dev last).getLsbD bit = want) :
    runFrame (early.length + 1 + n) f s =
      runFrame n { f with prog := ps }
        (s.readsAs ((early ++ [last]).map (fun v => statusEvent s f.ops.dev (s.seen f.ops.dev v))) rest) := by
  induction early generalizing s with
  | nil =>
    have hs : frameStep f s = (.running { f with prog := ps }, s.readAs (statusEvent s f.ops.dev (s.seen f.ops.dev last)) rest) := by
      simp only [frameStep, hf, microStep]
      simp only [List.nil_append] at ha
      rw [portValue_status_seen ha, portRead_status_seen ha, flag_byte _ hb]
      simp [hl]
    simp only [List.length_nil, Nat.zero_add, Nat.add_comm 1 n, List.nil_append, List.map]
    rw [runFrame_running hs]; rfl
  | cons a early ih =>
    simp only [List.cons_append] at ha
    have hs : frameStep f s = (.running f, s.readAs (statusEvent s f.ops.dev (s.seen f.ops.dev a)) (early ++ last :: rest)) := by
      simp only [frameStep, hf, microStep]
      rw [portValue_status_seen ha, portRead_status_seen ha, flag_byte _ hb]
      rw [if_neg (he a (by simp))]
      simp [stay, ← hf]
    have e1 : (a :: early).length + 1 + n = (early.length + 1 + n) + 1 := by simp; omega
    rw [e1, runFrame_running hs, ih (s.readAs _ (early ++ last :: rest)) rfl
      (fun v hv => he v (by simp [hv])) hl, State.readAs_readsAs]
    simp [State.seen]

/-- A wait none of whose reads shows the bit stays where it is. -/
theorem runFrame_wait_stays {f : Frame} {ps : List Micro} {bit : Nat} {want : Bool} (hb : bit < 8)
    (hf : f.prog = .waitStatus bit want :: ps) (early rest : List Dword)
    (s : State) (ha : s.env.answers = early ++ rest) (he : ∀ v ∈ early, (s.seen f.ops.dev v).getLsbD bit ≠ want) :
    runFrame early.length f s =
      (.running f, s.readsAs (early.map (fun v => statusEvent s f.ops.dev (s.seen f.ops.dev v))) rest) := by
  induction early generalizing s with
  | nil => simp only [List.nil_append] at ha; simp [State.readsAs, ← ha]
  | cons a early ih =>
    simp only [List.cons_append] at ha
    have hs : frameStep f s = (.running f, s.readAs (statusEvent s f.ops.dev (s.seen f.ops.dev a)) (early ++ rest)) := by
      simp only [frameStep, hf, microStep]
      rw [portValue_status_seen ha, portRead_status_seen ha, flag_byte _ hb]
      rw [if_neg (he a (by simp))]
      simp [stay, ← hf]
    rw [List.length_cons, runFrame_running hs, ih (s.readAs _ (early ++ rest)) rfl
      (fun v hv => he v (by simp [hv])), State.readAs_readsAs]
    simp [State.seen]

/-! ## The polled buffer loop -/

/-- The events of one word of a polled read. -/
def pioReadEvents (s : State) (h : Handle) (w : Dword × Dword × Dword) : List PortEvent :=
  [statusEvent s h (w.1.setWidth 8), statusEvent s h (w.2.1.setWidth 8),
    .read .w16 (s.dev h).dr.base ((w.2.2.setWidth 16 : Word).setWidth 32)]

/-- The events of a polled read depend on the device's record alone. -/
theorem pioReadEvents_congr {s t : State} {h : Handle} (e : t.dev h = s.dev h) :
    pioReadEvents t h = pioReadEvents s h := by
  funext w
  simp [pioReadEvents, statusEvent, e]

/-- The answers one word of a polled read takes. -/
def pioReadAnswers (w : Dword × Dword × Dword) : List Dword := [w.1, w.2.1, w.2.2]

/-- The frame with other steps to take. -/
def Frame.setProg (f : Frame) (p : List Micro) : Frame := { f with prog := p }

/-- The frame with another value read last. -/
def Frame.setAcc (f : Frame) (a : Dword) : Frame := { f with acc := a }

/-- The frame with more identification words. -/
def Frame.addId (f : Frame) (ws : List Word) : Frame := { f with idbuf := f.idbuf ++ ws }

/-- S1 of one word, the device idle at once. -/
theorem frameStep_pio_idle {f : Frame} {ps : List Micro} {isWrite : Bool} {target : PioTarget} {i words : Nat}
    (hf : f.prog = .pio .idle isWrite target i words :: ps) (hi : i < words) {a : Dword} {rest : List Dword} {s : State}
    (hp : (s.cmdBlock (s.dev f.ops.dev).dr.base).current.absent = false) (ha : s.env.answers = a :: rest)
    (h1 : a.getLsbD 7 = false) :
    frameStep f s = (.running (f.setProg (.pio .drq isWrite target i words :: ps)),
      s.readAs (statusEvent s f.ops.dev (a.setWidth 8)) rest) := by
  simp only [frameStep, hf, microStep, pioStep]
  rw [portValue_status_listed ha hp, portRead_status_listed ha hp, flag_status _ (by decide : Config.busyBit < 8),
    show a.getLsbD Config.busyBit = false from h1]
  simp [Nat.not_le.2 hi, stay, Frame.setProg]

/-- S2 of one word, the device offering data at once. -/
theorem frameStep_pio_drq {f : Frame} {ps : List Micro} {isWrite : Bool} {target : PioTarget} {i words : Nat}
    (hf : f.prog = .pio .drq isWrite target i words :: ps) {b : Dword} {rest : List Dword} {s : State}
    (hp : (s.cmdBlock (s.dev f.ops.dev).dr.base).current.absent = false) (hb : s.env.answers = b :: rest)
    (h2 : b.getLsbD 3 = true) :
    frameStep f s = (.running (f.setProg (.pio .take isWrite target i words :: ps)),
      s.readAs (statusEvent s f.ops.dev (b.setWidth 8)) rest) := by
  simp only [frameStep, hf, microStep, pioStep]
  rw [portValue_status_listed hb hp, portRead_status_listed hb hp, flag_status _ (by decide : Config.drqBit < 8),
    show b.getLsbD Config.drqBit = true from h2]
  simp [stay, Frame.setProg]

/-- The two waits of one word, the device ready at once. -/
theorem runFrame_pio_waits {f : Frame} {ps : List Micro} {isWrite : Bool} {target : PioTarget} {i words : Nat}
    (hf : f.prog = .pio .idle isWrite target i words :: ps) (hi : i < words) (n : Nat) (a b : Dword)
    (rest : List Dword) (s : State) (hp : (s.cmdBlock (s.dev f.ops.dev).dr.base).current.absent = false)
    (ha : s.env.answers = a :: b :: rest) (h1 : a.getLsbD 7 = false) (h2 : b.getLsbD 3 = true) :
    runFrame (n + 2) f s =
      runFrame n (f.setProg (.pio .take isWrite target i words :: ps))
        (s.readsAs [statusEvent s f.ops.dev (a.setWidth 8), statusEvent s f.ops.dev (b.setWidth 8)] rest) := by
  rw [runFrame_running (frameStep_pio_idle hf hi hp ha h1),
    runFrame_running (frameStep_pio_drq (f := f.setProg (.pio .drq isWrite target i words :: ps)) rfl
      (s := s.readAs (statusEvent s f.ops.dev (a.setWidth 8)) (b :: rest)) hp rfl h2)]
  simp [State.readAs, State.readsAs, Frame.setProg, statusEvent, State.dev]

/-- S3 of a polled read: the word is in the frame. -/
theorem frameStep_pio_take {f : Frame} {ps : List Micro} {target : PioTarget} {i words : Nat} {d : Dword}
    {rest : List Dword} {s : State} (ha : s.env.answers = d :: rest) :
    frameStep (f.setProg (.pio .take false target i words :: ps)) s =
      (.running ((f.setAcc ((d.setWidth 16 : Word).setWidth 32)).setProg (.pio .put false target i words :: ps)),
        s.readAs (.read .w16 (s.dev f.ops.dev).dr.base ((d.setWidth 16 : Word).setWidth 32)) rest) := by
  simp only [frameStep, microStep, pioStep, Frame.setProg]
  rw [portValue_data_listed ha, portRead_data_listed ha]
  simp [stay, Frame.setAcc]

/-- The answers and the trace of a state matter to no store of a buffer word. -/
theorem bufWrite16_readsAs (s : State) (es : List PortEvent) (rest : List Dword) (b i : Nat) (w : Word) :
    bufWrite16 (s.readsAs es rest) b i w = (bufWrite16 s b i w).readsAs es rest := by
  have h : ∀ (t : State) (p : Place) (x : Byte), (t.readsAs es rest).writePlace p x = (t.writePlace p x).readsAs es rest :=
    fun t p x => by cases p <;> rfl
  have g : ∀ (t : State) (c : Nat), (t.readsAs es rest).place c = t.place c := fun t c => rfl
  simp only [bufWrite16, State.storeCaller, h, g]

theorem fillWords_readsAs (s : State) (es : List PortEvent) (rest : List Dword) (b i : Nat) (ws : List Word) :
    fillWords (s.readsAs es rest) b i ws = (fillWords s b i ws).readsAs es rest := by
  induction ws generalizing s i with
  | nil => rfl
  | cons w ws ih => rw [fillWords, bufWrite16_readsAs, ih]; rfl

/-- A polled read into the caller's buffer, 4 steps a word (R185). -/
theorem runFrame_pio_read {words : Nat} {ps : List Micro} (ws : List (Dword × Dword × Dword))
    (rest : List Dword) (i : Nat) (f : Frame) (hf : f.prog = .pio .idle false .caller i words :: ps)
    (hi : i + ws.length = words)
    (s : State) (hp : ws ≠ [] → (s.cmdBlock (s.dev f.ops.dev).dr.base).current.absent = false)
    (ha : s.env.answers = ws.flatMap pioReadAnswers ++ rest)
    (hw : ∀ w ∈ ws, w.1.getLsbD 7 = false ∧ w.2.1.getLsbD 3 = true) :
    ∃ a, ∀ n, runFrame (4 * ws.length + 1 + n) f s =
      runFrame n ((f.setAcc a).setProg ps)
        (fillWords (s.readsAs (ws.flatMap (pioReadEvents s f.ops.dev)) rest) f.ops.buffer i
          (ws.map (fun w => w.2.2.setWidth 16))) := by
  induction ws generalizing f s i with
  | nil =>
    refine ⟨f.acc, fun n => ?_⟩
    have s1 : frameStep f s = (.running (f.setProg ps), s) := by
      simp only [List.length_nil, Nat.add_zero] at hi
      simp [frameStep, hf, microStep, pioStep, hi, Frame.setProg]
    simp only [List.flatMap_nil, List.nil_append] at ha
    simp only [List.length_nil, Nat.mul_zero, Nat.zero_add, Nat.add_comm 1 n]
    rw [runFrame_running s1]
    simp [State.readsAs, fillWords, Frame.setAcc, ← ha]
  | cons w ws ih =>
    obtain ⟨a, b, d⟩ := w
    obtain ⟨h1, h2⟩ := hw (a, b, d) (by simp)
    simp only [List.length_cons] at hi
    simp only [List.flatMap_cons, pioReadAnswers, List.cons_append, List.nil_append] at ha
    let s2 := s.readsAs (pioReadEvents s f.ops.dev (a, b, d)) (ws.flatMap pioReadAnswers ++ rest)
    let s3 := bufWrite16 s2 f.ops.buffer i (d.setWidth 16)
    let f3 := (f.setAcc ((d.setWidth 16 : Word).setWidth 32)).setProg (.pio .idle false .caller (i + 1) words :: ps)
    have e3 : ∀ n, runFrame (n + 2) (f.setProg (.pio .take false .caller i words :: ps))
        (s.readsAs [statusEvent s f.ops.dev (a.setWidth 8), statusEvent s f.ops.dev (b.setWidth 8)]
          (d :: (ws.flatMap pioReadAnswers ++ rest))) = runFrame n f3 s3 := by
      intro n
      rw [show n + 2 = n + 1 + 1 from rfl, runFrame_running (frameStep_pio_take (rest := ws.flatMap pioReadAnswers ++ rest) rfl)]
      apply runFrame_running
      have hw16 : (((d.setWidth 16 : Word).setWidth 32 : Dword).setWidth 16 : Word) = d.setWidth 16 := by
        apply BitVec.eq_of_getLsbD_eq; intro j hj; simp [hj]
      simp only [frameStep, microStep, pioStep, Frame.setProg, Frame.setAcc, hw16]
      simp [stay, State.readAs, State.readsAs, pioReadEvents, State.dev, s3, s2, f3, Frame.setProg, Frame.setAcc]
    have hd : s3.dev f3.ops.dev = s.dev f.ops.dev := State.dev_congr (by simp [s3]; rfl) _
    have hc : ∀ k, s3.cmdBlock k = s.cmdBlock k := fun k => by
      have : s3.env.cmd = s.env.cmd := by simp [s3]; rfl
      simp [State.cmdBlock, this]
    obtain ⟨a', e4⟩ := ih (i + 1) f3 rfl (by omega) s3 (fun _ => by rw [hd, hc]; exact hp (by simp)) (by simp [s3]; rfl)
      (fun v hv => hw v (by simp [hv]))
    refine ⟨a', fun n => ?_⟩
    have e1 : 4 * ((a, b, d) :: ws).length + 1 + n = (4 * ws.length + 1 + n + 2) + 2 := by simp; omega
    rw [e1, runFrame_pio_waits hf (by omega) _ a b _ s (hp (by simp)) ha h1 h2, e3, e4, pioReadEvents_congr hd]
    simp only [List.map_cons, List.flatMap_cons, fillWords, fillWords_readsAs, bufWrite16_readsAs, s3, s2]
    simp [State.readsAs, Frame.setProg, Frame.setAcc, f3]

/-- A polled read into the identification buffer (R257). -/
theorem runFrame_pio_identify {words : Nat} {ps : List Micro} (ws : List (Dword × Dword × Dword))
    (rest : List Dword) (i : Nat) (f : Frame) (hf : f.prog = .pio .idle false .identify i words :: ps)
    (hi : i + ws.length = words)
    (s : State) (hp : ws ≠ [] → (s.cmdBlock (s.dev f.ops.dev).dr.base).current.absent = false)
    (ha : s.env.answers = ws.flatMap pioReadAnswers ++ rest)
    (hw : ∀ w ∈ ws, w.1.getLsbD 7 = false ∧ w.2.1.getLsbD 3 = true) :
    ∃ a, ∀ n, runFrame (4 * ws.length + 1 + n) f s =
      runFrame n (((f.addId (ws.map (fun w => w.2.2.setWidth 16))).setAcc a).setProg ps)
        (s.readsAs (ws.flatMap (pioReadEvents s f.ops.dev)) rest) := by
  induction ws generalizing f s i with
  | nil =>
    refine ⟨f.acc, fun n => ?_⟩
    have s1 : frameStep f s = (.running ((f.addId []).setProg ps), s) := by
      simp only [List.length_nil, Nat.add_zero] at hi
      simp [frameStep, hf, microStep, pioStep, hi, Frame.setProg, Frame.addId]
    simp only [List.flatMap_nil, List.nil_append] at ha
    simp only [List.length_nil, Nat.mul_zero, Nat.zero_add, Nat.add_comm 1 n]
    rw [runFrame_running s1]
    simp [State.readsAs, Frame.setAcc, Frame.addId, ← ha]
  | cons w ws ih =>
    obtain ⟨a, b, d⟩ := w
    obtain ⟨h1, h2⟩ := hw (a, b, d) (by simp)
    simp only [List.length_cons] at hi
    simp only [List.flatMap_cons, pioReadAnswers, List.cons_append, List.nil_append] at ha
    let s3 := s.readsAs (pioReadEvents s f.ops.dev (a, b, d)) (ws.flatMap pioReadAnswers ++ rest)
    let f3 := ((f.addId [d.setWidth 16]).setAcc ((d.setWidth 16 : Word).setWidth 32)).setProg
      (.pio .idle false .identify (i + 1) words :: ps)
    have e3 : ∀ n, runFrame (n + 2) (f.setProg (.pio .take false .identify i words :: ps))
        (s.readsAs [statusEvent s f.ops.dev (a.setWidth 8), statusEvent s f.ops.dev (b.setWidth 8)]
          (d :: (ws.flatMap pioReadAnswers ++ rest))) = runFrame n f3 s3 := by
      intro n
      rw [show n + 2 = n + 1 + 1 from rfl, runFrame_running (frameStep_pio_take (rest := ws.flatMap pioReadAnswers ++ rest) rfl)]
      apply runFrame_running
      have hw16 : (((d.setWidth 16 : Word).setWidth 32 : Dword).setWidth 16 : Word) = d.setWidth 16 := by
        apply BitVec.eq_of_getLsbD_eq; intro j hj; simp [hj]
      simp only [frameStep, microStep, pioStep, Frame.setProg, Frame.setAcc, hw16]
      simp [stay, State.readAs, State.readsAs, pioReadEvents, State.dev, s3, f3, Frame.setProg, Frame.setAcc, Frame.addId]
    obtain ⟨a', e4⟩ := ih (i + 1) f3 rfl (by omega) s3 (fun _ => hp (by simp)) rfl (fun v hv => hw v (by simp [hv]))
    refine ⟨a', fun n => ?_⟩
    have e1 : 4 * ((a, b, d) :: ws).length + 1 + n = (4 * ws.length + 1 + n + 2) + 2 := by simp; omega
    have he : pioReadEvents s3 f3.ops.dev = pioReadEvents s f.ops.dev := rfl
    rw [e1, runFrame_pio_waits hf (by omega) _ a b _ s (hp (by simp)) ha h1 h2, e3, e4, he]
    simp [State.readsAs, Frame.setProg, Frame.addId, Frame.setAcc, s3, f3]

/-- The events of one word of a polled write: the word at index `i` of the buffer. -/
def pioWriteEvents (s : State) (f : Frame) (w : (Dword × Dword) × Nat) : List PortEvent :=
  [statusEvent s f.ops.dev (w.1.1.setWidth 8), statusEvent s f.ops.dev (w.1.2.setWidth 8),
    .write .w16 (s.dev f.ops.dev).dr.base ((bufRead16 s f.ops.buffer w.2).setWidth 32)]

/-- A polled write of the caller's buffer, 4 steps a word (R186). -/
theorem runFrame_pio_write {words : Nat} {ps : List Micro} (ws : List (Dword × Dword))
    (rest : List Dword) (i : Nat) (f : Frame) (hf : f.prog = .pio .idle true .caller i words :: ps)
    (hi : i + ws.length = words)
    (s : State) (hp : ws ≠ [] → (s.cmdBlock (s.dev f.ops.dev).dr.base).current.absent = false)
    (ha : s.env.answers = ws.flatMap (fun w => [w.1, w.2]) ++ rest)
    (hw : ∀ w ∈ ws, w.1.getLsbD 7 = false ∧ w.2.getLsbD 3 = true) :
    ∃ a, ∀ n, runFrame (4 * ws.length + 1 + n) f s =
      runFrame n ((f.setAcc a).setProg ps) (s.readsAs ((ws.zipIdx i).flatMap (pioWriteEvents s f)) rest) := by
  induction ws generalizing f s i with
  | nil =>
    refine ⟨f.acc, fun n => ?_⟩
    have s1 : frameStep f s = (.running (f.setProg ps), s) := by
      simp only [List.length_nil, Nat.add_zero] at hi
      simp [frameStep, hf, microStep, pioStep, hi, Frame.setProg]
    simp only [List.flatMap_nil, List.nil_append] at ha
    simp only [List.length_nil, Nat.mul_zero, Nat.zero_add, Nat.add_comm 1 n]
    rw [runFrame_running s1]
    simp [State.readsAs, Frame.setAcc, ← ha]
  | cons w ws ih =>
    obtain ⟨a, b⟩ := w
    obtain ⟨h1, h2⟩ := hw (a, b) (by simp)
    simp only [List.length_cons] at hi
    simp only [List.flatMap_cons, List.cons_append, List.nil_append] at ha
    let w16 := bufRead16 s f.ops.buffer i
    let s2 := s.readsAs [statusEvent s f.ops.dev (a.setWidth 8), statusEvent s f.ops.dev (b.setWidth 8)]
      (ws.flatMap (fun w => [w.1, w.2]) ++ rest)
    let s3 := s.readsAs (pioWriteEvents s f ((a, b), i)) (ws.flatMap (fun w => [w.1, w.2]) ++ rest)
    let f3 := (f.setAcc (w16.setWidth 32)).setProg (.pio .idle true .caller (i + 1) words :: ps)
    have e3 : ∀ n, runFrame (n + 2) (f.setProg (.pio .take true .caller i words :: ps)) s2 = runFrame n f3 s3 := by
      intro n
      have e : frameStep (f.setProg (.pio .take true .caller i words :: ps)) s2 =
          (.running ((f.setAcc (w16.setWidth 32)).setProg (.pio .put true .caller i words :: ps)), s2) := by
        simp only [frameStep, microStep, pioStep, Frame.setProg]; rfl
      rw [show n + 2 = n + 1 + 1 from rfl, runFrame_running e]
      apply runFrame_running
      have e5 : (f.setAcc (w16.setWidth 32)).acc = w16.setWidth 32 := rfl
      simp only [frameStep, microStep, pioStep, Frame.setProg, if_true, e5, dataPort, Config.dataOffset, portWrite_data]
      simp [stay, State.readsAs, State.record, Frame.setProg, Frame.setAcc, pioWriteEvents, State.dev, s3, s2, f3, w16]
    obtain ⟨a', e4⟩ := ih (i + 1) f3 rfl (by omega) s3 (fun _ => hp (by simp)) rfl (fun v hv => hw v (by simp [hv]))
    refine ⟨a', fun n => ?_⟩
    have e1 : 4 * ((a, b) :: ws).length + 1 + n = (4 * ws.length + 1 + n + 2) + 2 := by simp; omega
    have he : pioWriteEvents s3 f3 = pioWriteEvents s f := rfl
    rw [e1, runFrame_pio_waits hf (by omega) _ a b _ s (hp (by simp)) ha h1 h2, e3, e4, he]
    simp [State.readsAs, Frame.setProg, Frame.setAcc, s3, f3, List.zipIdx_cons]

end Sys2Proof.Machine
end

