-- ==== Sys2Proof/Laws/Builder.lean ====
section
/-!
SUPPORT. What the Descriptor-Table Builder can do, said once: the checks of a pair, its split, the loop as one pass over
the pairs, the stores and how the table reads afterwards, and the steps as that pass (spec/42_descriptor_builder.md R202
to R215).
-/
namespace Sys2Proof.Machine

/-! ## One pair -/

/-- A pair every check accepts, whatever its index: R203 to R205 and R207 hold of it, and it clips to something. -/
theorem pairStop_none {i : Nat} {p : Pair} {r : Nat} :
    pairStop i p r = none ↔
      p.addr.toNat ≤ 0xFFFFFFFF ∧ p.addr.toNat % 2 = 0 ∧ p.len % 2 = 0 ∧ p.len ≤ 65536 ∧ 0 < min p.len r ∧
        p.addr.toNat + min p.len r ≤ 2 ^ 32 := by
  unfold pairStop clip Config.maxPhysAddr Config.pairAlign Config.maxPairSpan Config.prdAddrLimit
  by_cases h1 : 0xFFFFFFFF < p.addr.toNat
  · rw [if_pos h1]; simp; omega
  rw [if_neg h1]
  by_cases h2 : p.addr.toNat % 2 ≠ 0 ∨ p.len % 2 ≠ 0
  · rw [if_pos h2]; simp; omega
  rw [if_neg h2]
  by_cases h3 : 65536 < p.len
  · rw [if_pos h3]; simp; omega
  rw [if_neg h3]
  by_cases h4 : min p.len r = 0
  · rw [if_pos h4]; simp; omega
  rw [if_neg h4]
  by_cases h5 : 2 ^ 32 < p.addr.toNat + min p.len r
  · rw [if_pos h5]; simp; omega
  rw [if_neg h5]
  simp; omega

/-- What holds of each emitted entry (R208, R214). -/
structure Entry.Good (e : Entry) : Prop where
  block : e.addr % 65536 + e.len ≤ 65536
  even : e.addr % 2 = 0
  low : e.addr + e.len ≤ 2 ^ 32
  pos : 1 ≤ e.len

/-- The bytes a list of entries covers. -/
def entryBytes (es : List Entry) : Nat := (es.map (·.len)).sum

@[simp] theorem entryBytes_nil : entryBytes [] = 0 := rfl

@[simp] theorem entryBytes_cons (e : Entry) (es : List Entry) : entryBytes (e :: es) = e.len + entryBytes es := by
  simp [entryBytes]

@[simp] theorem entryBytes_append (a b : List Entry) : entryBytes (a ++ b) = entryBytes a + entryBytes b := by
  simp [entryBytes]

/-- The entries of an accepted pair (R208). -/
theorem splitPair_good {a c : Nat} (h1 : a % 2 = 0) (h2 : 0 < c) (h3 : c ≤ 65536) (h4 : a + c ≤ 2 ^ 32) :
    (∀ e ∈ splitPair a c, e.Good) ∧ entryBytes (splitPair a c) = c ∧ 1 ≤ (splitPair a c).length ∧
      (splitPair a c).length ≤ 2 ∧ (c % 2 = 0 → ∀ e ∈ splitPair a c, e.len % 2 = 0) := by
  unfold splitPair crosses Config.boundary
  by_cases h : 65536 < a % 65536 + c
  · rw [if_pos (by simpa using h)]
    refine ⟨?_, ?_, by simp, by simp, ?_⟩
    · intro e he
      simp only [List.mem_cons, List.not_mem_nil, or_false] at he
      rcases he with rfl | rfl <;> constructor <;> simp only <;> omega
    · simp; omega
    · intro hc e he
      simp only [List.mem_cons, List.not_mem_nil, or_false] at he
      rcases he with rfl | rfl <;> simp only <;> omega
  · rw [if_neg (by simpa using h)]
    refine ⟨?_, by simp, by simp, by simp, ?_⟩
    · intro e he
      simp only [List.mem_cons, List.not_mem_nil, or_false] at he
      subst he
      constructor <;> simp only <;> omega
    · intro hc e he
      simp only [List.mem_cons, List.not_mem_nil, or_false] at he
      subst he
      exact hc

/-- The two tests of the boundary agree: the interval runs past its 64 KB block exactly when its last byte lies in
another one (R208). -/
theorem splitPair_eq {a c : Nat} (h2 : 0 < c) (h3 : c ≤ 65536) :
    splitPair a c =
      if a / 65536 = (a + c - 1) / 65536 then [{ addr := a, len := c }]
      else [{ addr := a, len := 65536 - a % 65536 },
        { addr := a + (65536 - a % 65536), len := c - (65536 - a % 65536) }] := by
  unfold splitPair crosses Config.boundary
  by_cases h : 65536 < a % 65536 + c
  · rw [if_pos (by simpa using h), if_neg (by omega)]
  · rw [if_neg (by simpa using h), if_pos (by omega)]

/-! ## The loop -/

/-- The loop as one pass over the pairs from index `i` on, `n` bytes to cover: the entries it emits, and the bytes left
at its end or the stop of the first pair that fails a check (R202 to R210). -/
def buildLoop : Nat → List Pair → Nat → List Entry × Except BuildStop Nat
  | _, [], n => ([], .ok n)
  | i, p :: ps, n =>
    match pairStop i p n with
    | some b => ([], .error b)
    | none =>
      let r := buildLoop (i + 1) ps (n - clip p n)
      (splitPair p.addr.toNat (clip p n) ++ r.1, r.2)

/-- However the loop ends, it has emitted at most two entries a pair. -/
theorem buildLoop_length (i : Nat) (ps : List Pair) (n : Nat) : (buildLoop i ps n).1.length ≤ 2 * ps.length := by
  induction ps generalizing i n with
  | nil => simp [buildLoop]
  | cons p ps ih =>
    simp only [buildLoop]
    split
    · simp
    · rename_i h
      obtain ⟨h1, h2, h3, h4, h5, h6⟩ := pairStop_none.1 h
      have := (splitPair_good h2 h5 (show min p.len n ≤ 65536 by omega) h6).2.2.2.1
      have h' := ih (i + 1) (n - clip p n)
      simp only [List.length_append, List.length_cons, clip] at *
      omega

/-- A loop that runs to its end: its entries are good, they cover what it has taken off, and there are N to 2N of
them. -/
theorem buildLoop_ok {i : Nat} {ps : List Pair} {n r : Nat} (h : (buildLoop i ps n).2 = .ok r) :
    (∀ e ∈ (buildLoop i ps n).1, e.Good ∧ e.len ≤ 65536) ∧ entryBytes (buildLoop i ps n).1 + r = n ∧
      ps.length ≤ (buildLoop i ps n).1.length ∧
      (n % 2 = 0 → ∀ e ∈ (buildLoop i ps n).1, e.len % 2 = 0) := by
  induction ps generalizing i n with
  | nil => simp [buildLoop] at *; omega
  | cons p ps ih =>
    simp only [buildLoop] at *
    split at h
    · cases h
    · rename_i hp
      simp only at h
      obtain ⟨h1, h2, h3, h4, h5, h6⟩ := pairStop_none.1 hp
      obtain ⟨a1, a2, a3, a4, a5⟩ := splitPair_good h2 h5 (show min p.len n ≤ 65536 by omega) h6
      obtain ⟨b1, b2, b3, b4⟩ := ih h
      simp only [clip, List.mem_append, entryBytes_append, List.length_append, List.length_cons] at *
      refine ⟨?_, by omega, by omega, ?_⟩
      · rintro e (he | he)
        · have := a1 e he
          exact ⟨this, by have := this.block; omega⟩
        · exact b1 e he
      · rintro hn e (he | he)
        · exact a5 (by omega) e he
        · exact b4 (by omega) e he

/-- The loop over pairs that pass their checks goes on with the pairs after them. -/
theorem buildLoop_pass {i : Nat} {p : Pair} {ps : List Pair} {n : Nat} (h : pairStop i p n = none) :
    buildLoop i (p :: ps) n =
      (splitPair p.addr.toNat (clip p n) ++ (buildLoop (i + 1) ps (n - clip p n)).1,
        (buildLoop (i + 1) ps (n - clip p n)).2) := by simp [buildLoop, h]

/-- The loop stops at a pair that fails a check. -/
theorem buildLoop_stop {i : Nat} {p : Pair} {ps : List Pair} {n : Nat} {b : BuildStop} (h : pairStop i p n = some b) :
    buildLoop i (p :: ps) n = ([], .error b) := by simp [buildLoop, h]

/-! ## The stores -/

/-- Memory after the three stores of an entry (R210). -/
def storeEntry (m : Memory) (a : Nat) (e : Entry) : Memory :=
  ((m.writeLE a 4 (e.addr % 2 ^ 32)).writeLE (a + 4) 2 (e.len % 2 ^ 16)).writeLE (a + 6) 2 (entryFlags false)

/-- Memory after the stores of a list of entries. -/
def storeEntries (m : Memory) (a : Nat) : List Entry → Memory
  | [] => m
  | e :: es => storeEntries (storeEntry m a e) (a + Config.prdEntryBytes) es

/-- Memory after entry `k - 1` of the table at `t` has been marked (R211 S2). -/
def markLast (m : Memory) (t k : Nat) : Memory := m.writeLE (t + Config.prdEntryBytes * (k - 1) + 6) 2 (entryFlags true)

theorem storeEntries_append (m : Memory) (a : Nat) (x y : List Entry) :
    storeEntries m a (x ++ y) = storeEntries (storeEntries m a x) (a + Config.prdEntryBytes * x.length) y := by
  induction x generalizing m a with
  | nil => rfl
  | cons e x ih =>
    rw [List.cons_append, storeEntries, ih, storeEntries, List.length_cons]
    congr 1
    rw [Nat.mul_succ]
    omega

/-- The stores of one entry leave every byte outside its eight. -/
theorem read_storeEntry_other (m : Memory) (a : Nat) (e : Entry) {x : Nat} (h : x < a ∨ a + 8 ≤ x) :
    Memory.read (storeEntry m a e) x = Memory.read m x := by
  unfold storeEntry
  rw [Memory.read_writeLE_other _ _ _ _ (by omega), Memory.read_writeLE_other _ _ _ _ (by omega),
    Memory.read_writeLE_other _ _ _ _ (by omega)]

/-- The stores of a list of entries leave every byte outside them. -/
theorem read_storeEntries_other (m : Memory) (a : Nat) (es : List Entry) {x : Nat} (h : x < a ∨ a + 8 * es.length ≤ x) :
    Memory.read (storeEntries m a es) x = Memory.read m x := by
  induction es generalizing m a with
  | nil => rfl
  | cons e es ih =>
    simp only [List.length_cons] at h
    rw [storeEntries, Config.prdEntryBytes, ih _ _ (by omega), read_storeEntry_other _ _ _ (by omega)]

/-- A number reads as it did where no byte of it has changed. -/
theorem readLE_congr {m m' : Memory} {a n : Nat} (h : ∀ x, a ≤ x → x < a + n → Memory.read m' x = Memory.read m x) :
    Memory.readLE m' a n = Memory.readLE m a n := by
  induction n generalizing a with
  | zero => rfl
  | succ n ih =>
    simp only [Memory.readLE]
    rw [h a (by omega) (by omega), ih (fun x h1 h2 => h x (by omega) (by omega))]

/-- The fields of a stored entry. -/
theorem readLE_storeEntry (m : Memory) (a : Nat) (e : Entry) :
    Memory.readLE (storeEntry m a e) a 4 = some (e.addr % 2 ^ 32) ∧
      Memory.readLE (storeEntry m a e) (a + 4) 2 = some (e.len % 65536) ∧
      Memory.readLE (storeEntry m a e) (a + 6) 2 = some 0 := by
  unfold storeEntry
  refine ⟨?_, ?_, ?_⟩
  · rw [readLE_congr (m := m.writeLE a 4 (e.addr % 2 ^ 32)), Memory.readLE_writeLE]
    · congr 1; omega
    · intro x h1 h2
      rw [Memory.read_writeLE_other _ _ _ _ (by omega), Memory.read_writeLE_other _ _ _ _ (by omega)]
  · rw [readLE_congr (m := (m.writeLE a 4 (e.addr % 2 ^ 32)).writeLE (a + 4) 2 (e.len % 2 ^ 16)),
      Memory.readLE_writeLE]
    · congr 1; omega
    · intro x h1 h2
      rw [Memory.read_writeLE_other _ _ _ _ (by omega)]
  · rw [Memory.readLE_writeLE]; rfl

/-- The fields of the entries of a stored list, the flag of every one clear (R210). -/
theorem readLE_storeEntries (m : Memory) (a : Nat) (es : List Entry) (j : Nat) (e : Entry) (h : es[j]? = some e) :
    Memory.readLE (storeEntries m a es) (a + 8 * j) 4 = some (e.addr % 2 ^ 32) ∧
      Memory.readLE (storeEntries m a es) (a + 8 * j + 4) 2 = some (e.len % 65536) ∧
      Memory.readLE (storeEntries m a es) (a + 8 * j + 6) 2 = some 0 := by
  induction es generalizing m a j with
  | nil => simp at h
  | cons d es ih =>
    cases j with
    | zero =>
      simp only [List.getElem?_cons_zero, Option.some.injEq] at h
      subst h
      have e1 := readLE_storeEntry m a d
      simp only [storeEntries, Config.prdEntryBytes, Nat.mul_zero, Nat.add_zero]
      refine ⟨?_, ?_, ?_⟩
      · rw [readLE_congr fun x _ _ => read_storeEntries_other _ _ _ (by omega)]; exact e1.1
      · rw [readLE_congr fun x _ _ => read_storeEntries_other _ _ _ (by omega)]; exact e1.2.1
      · rw [readLE_congr fun x _ _ => read_storeEntries_other _ _ _ (by omega)]; exact e1.2.2
    | succ j =>
      simp only [List.getElem?_cons_succ] at h
      have e1 := ih (storeEntry m a d) (a + 8) j h
      rw [show a + 8 + 8 * j = a + 8 * (j + 1) by omega] at e1
      exact e1

/-- Marking the last entry leaves every byte outside its flags. -/
theorem read_markLast_other (m : Memory) (t k : Nat) {x : Nat}
    (h : x < t + 8 * (k - 1) + 6 ∨ t + 8 * (k - 1) + 8 ≤ x) : Memory.read (markLast m t k) x = Memory.read m x := by
  unfold markLast
  exact Memory.read_writeLE_other _ _ _ _ (by simpa [Config.prdEntryBytes] using h)

/-- The table after the loop and the mark: every field of every entry, the last one marked (R95, R210, R211). -/
theorem readLE_table (m : Memory) (a : Nat) (es : List Entry) (j : Nat) (e : Entry) (h : es[j]? = some e) :
    Memory.readLE (markLast (storeEntries m a es) a es.length) (a + 8 * j) 4 = some (e.addr % 2 ^ 32) ∧
      Memory.readLE (markLast (storeEntries m a es) a es.length) (a + 8 * j + 4) 2 = some (e.len % 65536) ∧
      Memory.readLE (markLast (storeEntries m a es) a es.length) (a + 8 * j + 6) 2 =
        some (if j + 1 = es.length then 0x8000 else 0) := by
  obtain ⟨h1, h2, h3⟩ := readLE_storeEntries m a es j e h
  have hj : j < es.length := by
    rcases Nat.lt_or_ge j es.length with h' | h'
    · exact h'
    · rw [List.getElem?_eq_none h'] at h; cases h
  refine ⟨?_, ?_, ?_⟩
  · rw [readLE_congr fun x _ _ => read_markLast_other _ _ _ (by omega)]; exact h1
  · rw [readLE_congr fun x _ _ => read_markLast_other _ _ _ (by omega)]; exact h2
  · split
    · rename_i hl
      rw [show a + 8 * j + 6 = a + 8 * (es.length - 1) + 6 by omega, markLast, Config.prdEntryBytes,
        Memory.readLE_writeLE]
      rfl
    · rw [readLE_congr fun x _ _ => read_markLast_other _ _ _ (by omega)]; exact h3

/-! ## The steps -/

/-- The stores of a list of entries, three steps each (R210). -/
theorem runFrame_tableStores (es : List Entry) (a n : Nat) (rest : List Micro) (f : Frame) (s : State) :
    runFrame (3 * es.length + n) (f.setProg (tableStores a es ++ rest)) s =
      runFrame n (f.setProg rest) { s with mem := storeEntries s.mem a es } := by
  induction es generalizing a s with
  | nil => simp [tableStores, storeEntries]
  | cons e es ih =>
    rw [show 3 * (e :: es).length + n = 3 * es.length + n + 1 + 1 + 1 by simp only [List.length_cons]; omega]
    simp only [tableStores, entryStores, List.cons_append, List.nil_append]
    rw [runFrame_running rfl, runFrame_running rfl, runFrame_running rfl]
    exact ih _ _

/-- What the loop puts ahead at its end. -/
def loopNext (i : Nat) (ps : List Pair) : Except BuildStop Nat → List Micro
  | .ok left => [.buildPair (i + ps.length) left]
  | .error b => buildAbort b

/-- The table the builder is filling, `k` entries more. -/
def PrdTable.grown (t : PrdTable) (k : Nat) : PrdTable := { t with entries := t.entries + k }

/-- The frame with another table. -/
def Frame.setTable (f : Frame) (t : PrdTable) : Frame := { f with table := some t }

/-- The turns of the loop are one pass over the pairs, at most 7 steps each. -/
theorem runFrame_buildLoop (l : List Pair) (i n : Nat) (t : PrdTable) (rest : List Micro) (f : Frame) (s : State)
    (hl : f.pairs.drop i = l) :
    ∃ k ≤ 7 * l.length, ∀ m,
      runFrame (k + m) ((f.setTable t).setProg (.buildPair i n :: rest)) s =
        runFrame m ((f.setTable (t.grown (buildLoop i l n).1.length)).setProg
          (loopNext i l (buildLoop i l n).2 ++ rest))
          { s with mem := storeEntries s.mem (t.phys.toNat + Config.prdEntryBytes * t.entries) (buildLoop i l n).1 } := by
  induction l generalizing i n t s with
  | nil => exact ⟨0, Nat.le_refl _, fun m => by simp [buildLoop, loopNext, storeEntries, PrdTable.grown]⟩
  | cons p l ih =>
    have hp : f.pairs[i]? = some p := by
      have h := congrArg List.head? hl
      rwa [List.head?_drop, List.head?_cons] at h
    have ht : f.pairs.drop (i + 1) = l := by rw [← List.drop_drop, hl]; rfl
    cases hs : pairStop i p n with
    | some b =>
      refine ⟨1, by simp only [List.length_cons]; omega, fun m => ?_⟩
      rw [Nat.add_comm, buildLoop_stop hs, runFrame_running (f1 := (f.setTable t).setProg (buildAbort b ++ rest)) (s1 := s)]
      · rfl
      · simp [frameStep, Frame.setProg, Frame.setTable, microStep, Frame.building, buildTurn, hp, hs]
    | none =>
      obtain ⟨k, hk, h⟩ := ih (i + 1) (n - clip p n) (t.grown (splitPair p.addr.toNat (clip p n)).length)
        { s with
          mem := storeEntries s.mem (t.phys.toNat + Config.prdEntryBytes * t.entries)
            (splitPair p.addr.toNat (clip p n)) } ht
      have hn : (splitPair p.addr.toNat (clip p n)).length ≤ 2 := by unfold splitPair; split <;> simp
      refine ⟨1 + 3 * (splitPair p.addr.toNat (clip p n)).length + k, by simp only [List.length_cons]; omega,
        fun m => ?_⟩
      rw [buildLoop_pass hs, show 1 + 3 * (splitPair p.addr.toNat (clip p n)).length + k + m =
        3 * (splitPair p.addr.toNat (clip p n)).length + (k + m) + 1 by omega,
        runFrame_running (f1 := (f.setTable (t.grown (splitPair p.addr.toNat (clip p n)).length)).setProg
          (tableStores (t.phys.toNat + Config.prdEntryBytes * t.entries) (splitPair p.addr.toNat (clip p n)) ++
            (.buildPair (i + 1) (n - clip p n) :: rest))) (s1 := s),
        runFrame_tableStores, h m]
      · have e : loopNext (i + 1) l (buildLoop (i + 1) l (n - clip p n)).2 =
            loopNext i (p :: l) (buildLoop (i + 1) l (n - clip p n)).2 := by
          cases (buildLoop (i + 1) l (n - clip p n)).2 <;> simp [loopNext, Nat.add_assoc, Nat.add_comm 1]
        rw [e]
        simp only [PrdTable.grown, List.length_append, storeEntries_append, Nat.mul_add, Nat.add_assoc]
      · simp [frameStep, Frame.setProg, Frame.setTable, microStep, Frame.building, buildTurn, hp, hs, PrdTable.grown]

/-- Giving back the newest allocation, its handle not in use before: the list of allocations is the old one. -/
theorem release_newest {s : State} {x : Allocation} {l : List Allocation} (hs : s.allocs = l ++ [x])
    (hl : ∀ y ∈ l, y.handle ≠ x.handle) :
    release x.handle s =
      { s with allocs := l, mem := s.mem.forget x.phys.toNat x.bytes, calls := s.calls ++ [.free x.handle] } := by
  have hf : s.allocs.find? (fun a => a.handle == x.handle) = some x := by
    rw [hs, List.find?_append]
    have : l.find? (fun a => a.handle == x.handle) = none := by
      simp only [List.find?_eq_none]
      intro y hy
      simpa using hl y hy
    simp [this]
  have hk : s.allocs.filter (fun b => b.handle != x.handle) = l := by
    rw [hs, List.filter_append, List.filter_eq_self.2]
    · simp
    · intro y hy
      simpa using hl y hy
  simp [release, giveBack, State.called, hf, hk]

/-! ## The whole operation -/

/-- How BUILD_PRDT ends once its table at `phys` is allocated: with the entries of the table, or with a stop (R203 to
R212). -/
def buildEnd (ps : List Pair) (n : Nat) (phys : PhysAddr) : Except BuildStop (List Entry) :=
  match (buildLoop 0 ps n).2 with
  | .error b => .error b
  | .ok left =>
    if left ≠ 0 then .error (.fault (.remainingNonzero left))
    else if Config.prdtMaxAddr < phys.toNat then .error (.status .tableAddressOutOfRange)
    else .ok (buildLoop 0 ps n).1

/-- How a stop of the builder ends its sequence (R200). -/
def BuildStop.ends : BuildStop → Progress
  | .status st => .returned (.status st)
  | .fault k => .raised k

/-- The state after the call of `Alloc` that gives `phys` for `ps` (R201). -/
def tableAllocated (ps : List Pair) (phys : PhysAddr) (s : State) : State :=
  allocate phys (2 * ps.length * Config.prdEntryBytes)
    (s.tookAllocation.called (.alloc (2 * ps.length * Config.prdEntryBytes) Config.prdtAllocAlign))

/-- The two steps that give an allocation back and stop (R213). -/
theorem runFrame_abort (b : BuildStop) (m : Nat) (t : PrdTable) (rest : List Micro) (f : Frame) (s : State) :
    runFrame (2 + m) ((f.setTable t).setProg (buildAbort b ++ rest)) s = (b.ends, release t.handle s) := by
  rw [show 2 + m = m + 1 + 1 by omega]
  cases b <;> rfl

/-- BUILD_PRDT step by step, its table allocated: it ends as `buildEnd` says, in at most 7 steps a pair and 6; the table
is in memory, or the allocation is given back and no byte outside it has changed (R201 to R215). -/
theorem runFrame_build (f : Frame) (n : Nat) (rest : List Micro) (s : State) (phys : PhysAddr) (hps : f.pairs ≠ [])
    (ha : s.nextAllocation = some phys) :
    let s1 := tableAllocated f.pairs phys s
    match buildEnd f.pairs n phys with
    | .ok es => ∃ k ≤ 7 * f.pairs.length + 4, ∀ m,
        runFrame (k + m) (f.setProg (.buildAlloc n :: rest)) s =
          runFrame m ((f.setTable { handle := s.nextHandle, phys := phys, entries := es.length }).setProg rest)
            { s1 with mem := markLast (storeEntries s1.mem phys.toNat es) phys.toNat es.length }
    | .error b => ∃ k ≤ 7 * f.pairs.length + 6, ∃ mem : Memory,
        (∀ x, x < phys.toNat ∨ phys.toNat + 16 * f.pairs.length ≤ x → mem.read x = s1.mem.read x) ∧
        ∀ m, runFrame (k + m) (f.setProg (.buildAlloc n :: rest)) s =
          (b.ends, release s.nextHandle { s1 with mem := mem }) := by
  intro s1
  obtain ⟨k, hk, hrun⟩ := runFrame_buildLoop f.pairs 0 n { handle := s.nextHandle, phys := phys, entries := 0 } rest f s1 rfl
  have hlen := buildLoop_length 0 f.pairs n
  have h0 : ∀ m, runFrame (1 + k + m) (f.setProg (.buildAlloc n :: rest)) s =
      runFrame m ((f.setTable { handle := s.nextHandle, phys := phys, entries := (buildLoop 0 f.pairs n).1.length }).setProg
        (loopNext 0 f.pairs (buildLoop 0 f.pairs n).2 ++ rest))
        { s1 with mem := storeEntries s1.mem phys.toNat (buildLoop 0 f.pairs n).1 } := by
    intro m
    rw [show 1 + k + m = k + m + 1 by omega, runFrame_running (f1 := (f.setTable
      { handle := s.nextHandle, phys := phys, entries := 0 }).setProg (.buildPair 0 n :: rest)) (s1 := s1), hrun m]
    · simp [PrdTable.grown]
    · simp [frameStep, Frame.setProg, Frame.setTable, microStep, hps, ha, s1, tableAllocated]
  have hout : ∀ x, x < phys.toNat ∨ phys.toNat + 16 * f.pairs.length ≤ x →
      Memory.read (storeEntries s1.mem phys.toNat (buildLoop 0 f.pairs n).1) x = s1.mem.read x := by
    intro x hx
    exact read_storeEntries_other _ _ _ (by omega)
  unfold buildEnd
  cases hr : (buildLoop 0 f.pairs n).2 with
  | error b =>
    refine ⟨1 + k + 2, by omega, _, hout, fun m => ?_⟩
    rw [show 1 + k + 2 + m = 1 + k + (2 + m) by omega, h0, hr]
    exact runFrame_abort _ _ _ _ _ _
  | ok left =>
    simp only [hr, loopNext, Nat.zero_add, List.cons_append, List.nil_append] at h0
    by_cases hl : left ≠ 0
    · simp only [if_pos hl]
      refine ⟨1 + k + 3, by omega, _, hout, fun m => ?_⟩
      rw [show 1 + k + 3 + m = 1 + k + (2 + m + 1) by omega, h0, runFrame_running (f1 := (f.setTable
        { handle := s.nextHandle, phys := phys, entries := (buildLoop 0 f.pairs n).1.length }).setProg
          (buildAbort (.fault (.remainingNonzero left)) ++ rest)) (s1 := { s1 with
            mem := storeEntries s1.mem phys.toNat (buildLoop 0 f.pairs n).1 })]
      · exact runFrame_abort _ _ _ _ _ _
      · simp [frameStep, Frame.setProg, Frame.setTable, microStep, Frame.building, buildTurn, hl]
    · simp only [if_neg hl]
      have h1 : ∀ m, runFrame (1 + k + 2 + m) (f.setProg (.buildAlloc n :: rest)) s =
          runFrame m ((f.setTable { handle := s.nextHandle, phys := phys, entries := (buildLoop 0 f.pairs n).1.length }).setProg
            (.buildCheck :: rest))
            { s1 with
              mem := markLast (storeEntries s1.mem phys.toNat (buildLoop 0 f.pairs n).1) phys.toNat
                (buildLoop 0 f.pairs n).1.length } := by
        intro m
        rw [show 1 + k + 2 + m = 1 + k + (m + 1 + 1) by omega, h0, runFrame_running (f1 := (f.setTable
          { handle := s.nextHandle, phys := phys, entries := (buildLoop 0 f.pairs n).1.length }).setProg
            (markStore phys.toNat (buildLoop 0 f.pairs n).1.length :: .buildCheck :: rest)) (s1 := { s1 with
              mem := storeEntries s1.mem phys.toNat (buildLoop 0 f.pairs n).1 })]
        · rfl
        · simp [frameStep, Frame.setProg, Frame.setTable, microStep, Frame.building, buildTurn, hl]
      by_cases hp : Config.prdtMaxAddr < phys.toNat
      · simp only [if_pos hp]
        refine ⟨1 + k + 5, by omega, markLast (storeEntries s1.mem phys.toNat (buildLoop 0 f.pairs n).1) phys.toNat
          (buildLoop 0 f.pairs n).1.length, ?_, fun m => ?_⟩
        rotate_left
        · rw [show 1 + k + 5 + m = 1 + k + 2 + (2 + m + 1) by omega, h1, runFrame_running (f1 := (f.setTable
            { handle := s.nextHandle, phys := phys, entries := (buildLoop 0 f.pairs n).1.length }).setProg
              (buildAbort (.status .tableAddressOutOfRange) ++ rest)) (s1 := { s1 with
                mem := markLast (storeEntries s1.mem phys.toNat (buildLoop 0 f.pairs n).1) phys.toNat
                  (buildLoop 0 f.pairs n).1.length })]
          · exact runFrame_abort _ _ _ _ _ _
          · simp [frameStep, Frame.setProg, Frame.setTable, microStep, Frame.building, hp]
        · intro x hx
          have h1 := (buildLoop_ok hr).2.2.1
          have h2 := List.length_pos_iff.2 hps
          rw [read_markLast_other _ _ _ (by omega)]
          exact hout x hx
      · simp only [if_neg hp]
        refine ⟨1 + k + 3, by omega, fun m => ?_⟩
        rw [show 1 + k + 3 + m = 1 + k + 2 + (m + 1) by omega, h1]
        apply runFrame_running
        simp [frameStep, Frame.setProg, Frame.setTable, microStep, Frame.building, hp]

end Sys2Proof.Machine
end

