-- ==== Sys2Proof/Laws/PerInstr.lean ====
section
/-!
SUPPORT. The round trip of the encoding, one lemma per operation (spec/30_encoding.md R91 to R99).
-/
namespace Sys2Proof.Laws.RoundTrip

/-- The decoder reads an operation back from its own word. -/
def Statement (i : Sys2Proof.Instr) : Prop := Sys2Proof.decode (Sys2Proof.encode i) = .instr i

theorem rdData : Statement .rdData := rfl
theorem wrData : Statement .wrData := rfl
theorem rdError : Statement .rdError := rfl
theorem wrFeatures : Statement .wrFeatures := rfl
theorem rdSeccount0 : Statement .rdSeccount0 := rfl
theorem wrSeccount0 : Statement .wrSeccount0 := rfl
theorem rdLba0 : Statement .rdLba0 := rfl
theorem wrLba0 : Statement .wrLba0 := rfl
theorem rdLba1 : Statement .rdLba1 := rfl
theorem wrLba1 : Statement .wrLba1 := rfl
theorem rdLba2 : Statement .rdLba2 := rfl
theorem wrLba2 : Statement .wrLba2 := rfl
theorem rdDevice : Statement .rdDevice := rfl
theorem wrDevice : Statement .wrDevice := rfl
theorem rdStatus : Statement .rdStatus := rfl
theorem wrCommand : Statement .wrCommand := rfl
theorem rdSeccount1 : Statement .rdSeccount1 := rfl
theorem wrSeccount1 : Statement .wrSeccount1 := rfl
theorem rdLba3 : Statement .rdLba3 := rfl
theorem wrLba3 : Statement .wrLba3 := rfl
theorem rdLba4 : Statement .rdLba4 := rfl
theorem wrLba4 : Statement .wrLba4 := rfl
theorem rdLba5 : Statement .rdLba5 := rfl
theorem wrLba5 : Statement .wrLba5 := rfl
theorem rdAltstatus : Statement .rdAltstatus := rfl
theorem wrDevctl : Statement .wrDevctl := rfl
theorem rdCtl1 : Statement .rdCtl1 := rfl
theorem wrCtl1 : Statement .wrCtl1 := rfl
theorem rdBuscmd : Statement .rdBuscmd := rfl
theorem wrBuscmd : Statement .wrBuscmd := rfl
theorem rdBm1 : Statement .rdBm1 := rfl
theorem wrBm1 : Statement .wrBm1 := rfl
theorem rdBusstatus : Statement .rdBusstatus := rfl
theorem wrBusstatus : Statement .wrBusstatus := rfl
theorem rdBm3 : Statement .rdBm3 := rfl
theorem wrBm3 : Statement .wrBm3 := rfl
theorem rdPrdtaddr0 : Statement .rdPrdtaddr0 := rfl
theorem wrPrdtaddr0 : Statement .wrPrdtaddr0 := rfl
theorem rdPrdtaddr1 : Statement .rdPrdtaddr1 := rfl
theorem wrPrdtaddr1 : Statement .wrPrdtaddr1 := rfl
theorem rdPrdtaddr2 : Statement .rdPrdtaddr2 := rfl
theorem wrPrdtaddr2 : Statement .wrPrdtaddr2 := rfl
theorem rdPrdtaddr3 : Statement .rdPrdtaddr3 := rfl
theorem wrPrdtaddr3 : Statement .wrPrdtaddr3 := rfl
theorem rd16Data : Statement .rd16Data := rfl
theorem wr16Data : Statement .wr16Data := rfl
theorem wr32Prdtaddr : Statement .wr32Prdtaddr := rfl
theorem identify : Statement .identify := rfl
theorem readSectorsExt : Statement .readSectorsExt := rfl
theorem writeSectorsExt : Statement .writeSectorsExt := rfl
theorem readDmaExt : Statement .readDmaExt := rfl
theorem writeDmaExt : Statement .writeDmaExt := rfl
theorem initDevice (secondary slave : Bool) : Statement (.initDevice secondary slave) := by cases secondary <;> cases slave <;> rfl
theorem transferSectors (async isWrite : Bool) : Statement (.transferSectors async isWrite) := by cases async <;> cases isWrite <;> rfl
theorem waitIdle : Statement .waitIdle := rfl
theorem waitDrq : Statement .waitDrq := rfl
theorem waitReady : Statement .waitReady := rfl
theorem selectDevice : Statement .selectDevice := rfl
theorem programNien (suppress : Bool) : Statement (.programNien suppress) := by cases suppress <;> rfl
theorem pioBufferRead : Statement .pioBufferRead := rfl
theorem pioBufferWrite : Statement .pioBufferWrite := rfl
theorem buildPrdt : Statement .buildPrdt := rfl
theorem tsmSubmit : Statement .tsmSubmit := rfl
theorem tsmComplete : Statement .tsmComplete := rfl
theorem tsmConsume : Statement .tsmConsume := rfl
theorem irqHandler : Statement .irqHandler := rfl
theorem stopDma : Statement .stopDma := rfl

end Sys2Proof.Laws.RoundTrip
end

