-- ==== Sys2Proof/Laws/Steps.lean ====
section
/-!
SUPPORT. What every step of every sequence leaves, said once for all steps (spec/10_state.md R36, spec/20_memory.md
R79): the scheduler's data, the other devices' records, the growth of the histories, the canonical form of the
data, the context discipline.
-/
namespace Sys2Proof.Machine

/-! ## What a step never touches -/

/-- The scheduler's data and the outputs a step leaves to the end of its sequence. -/
def SameAgents (s t : State) : Prop :=
  t.returns = s.returns ∧ t.faults = s.faults ∧ t.threads = s.threads ∧ t.nextTid = s.nextTid ∧
    t.activation = s.activation ∧ t.port = s.port ∧ t.inputs = s.inputs

theorem SameAgents.refl (s : State) : SameAgents s s := ⟨rfl, rfl, rfl, rfl, rfl, rfl, rfl⟩

theorem pioStep_sameAgents (st : PioPhase) (w : Bool) (tg : PioTarget) (i n : Nat) (f : Frame) (s : State) :
    SameAgents s (pioStep st w tg i n f s).2 := by
  simp only [pioStep]
  repeat' split
  all_goals simp [SameAgents]

theorem microStep_sameAgents (m : Micro) (f : Frame) (s : State) : SameAgents s (microStep m f s).2 := by
  cases m
  case pio => exact pioStep_sameAgents ..
  case buildStop b => cases b <;> exact SameAgents.refl s
  all_goals
    simp only [microStep, bringUpFails]
    repeat' split
  all_goals simp [SameAgents]

/-! ## Histories grow -/

/-- The port events, the calls and the log so far stay, and new ones come after them; the engine's accesses stay. -/
def Grows (s t : State) : Prop :=
  s.trace <+: t.trace ∧ s.log <+: t.log ∧ s.calls <+: t.calls ∧ t.dmaTrace = s.dmaTrace

theorem Grows.refl (s : State) : Grows s s :=
  ⟨List.prefix_refl _, List.prefix_refl _, List.prefix_refl _, rfl⟩

theorem portWrite_grows (h : Handle) (w : Width) (p : Port) (v : Dword) (s : State) : Grows s (portWrite h w p v s) := by
  simp [Grows]

theorem portRead_grows (h : Handle) (w : Width) (p : Port) (s : State) : Grows s (portRead h w p s) := by
  simp [Grows]

theorem pioStep_grows (st : PioPhase) (w : Bool) (tg : PioTarget) (i n : Nat) (f : Frame) (s : State) :
    Grows s (pioStep st w tg i n f s).2 := by
  simp only [pioStep]
  repeat' split
  all_goals simp [Grows]

theorem releaseTable_grows (t : Option PrdTable) (s : State) : Grows s (releaseTable t s) := by
  cases t <;> simp [Grows, releaseTable]

theorem microStep_grows (m : Micro) (f : Frame) (s : State) : Grows s (microStep m f s).2 := by
  cases m
  case pio => exact pioStep_grows ..
  case buildStop b => cases b <;> exact Grows.refl s
  case consumeFree => exact releaseTable_grows _ s
  all_goals
    simp only [microStep, bringUpFails]
    repeat' split
  all_goals simp [Grows]

/-! ## The other devices' records -/

/-- Every record but that of `h` is as before. -/
def OthersKept (h : Handle) (s t : State) : Prop := ∀ k, k ≠ h → t.dev k = s.dev k

theorem OthersKept.of_eq {h : Handle} {s t : State} (e : t.devs = s.devs) : OthersKept h s t :=
  fun k _ => State.dev_congr e k

theorem setDev_othersKept (h : Handle) (d : Device) (s : State) : OthersKept h s (s.setDev h d) :=
  fun _ hk => State.dev_setDev_other s d hk

theorem pioStep_devs (st : PioPhase) (w : Bool) (tg : PioTarget) (i n : Nat) (f : Frame) (s : State) :
    (pioStep st w tg i n f s).2.devs = s.devs := by
  simp only [pioStep]
  repeat' split
  all_goals simp

theorem failBringUp_othersKept (h : Handle) (s : State) : OthersKept h s (failBringUp h s) :=
  fun _ hk => State.dev_setDev_other s _ hk

theorem microStep_othersKept (m : Micro) (f : Frame) (s : State) : OthersKept f.ops.dev s (microStep m f s).2 := by
  cases m
  case pio => exact OthersKept.of_eq (pioStep_devs ..)
  case buildStop b => cases b <;> exact OthersKept.of_eq rfl
  all_goals
    simp only [microStep, bringUpFails, storeTsm, setEvent, casFinished, State.setCt, State.setDr,
      State.setPhase, State.setRegistered]
    repeat' split
  all_goals
    intro k hk
    first
      | rfl
      | (simp [State.dev_setDev_other _ _ hk, State.dev_failBringUp_other _ hk]; done)
      | (apply State.dev_congr; simp)

/-! ## The canonical form -/

/-- The data of the machine in canonical form, but for the suspended threads. -/
def Tidy (s : State) : Prop :=
  Memory.wf s.mem ∧ Memory.wf s.buf ∧ Table.Sorted s.backing ∧ Table.Sorted s.outs ∧ Table.Canonical CmdBlock.reset s.env.cmd ∧
    Table.Canonical devctlReset s.env.ctl ∧ Table.Canonical BusMaster.reset s.env.bm

theorem Tidy.of_eq {s t : State} (h : Tidy s) (h1 : t.mem = s.mem) (h2 : t.buf = s.buf)
    (h0 : t.backing = s.backing) (h3 : t.outs = s.outs) (h4 : t.env.cmd = s.env.cmd) (h5 : t.env.ctl = s.env.ctl) (h6 : t.env.bm = s.env.bm) : Tidy t := by
  unfold Tidy at *
  rwa [h1, h2, h0, h3, h4, h5, h6]

theorem setCmdBlock_tidy {s : State} (k : IoAddr) (b : CmdBlock) (h : Tidy s) : Tidy (s.setCmdBlock k b) := by
  obtain ⟨h1, h2, h0, h3, h4, h5, h6⟩ := h
  exact ⟨h1, h2, h0, h3, Table.canonical_put _ _ h4, h5, h6⟩

theorem setDevctl_tidy {s : State} (k : IoAddr) (b : Byte) (h : Tidy s) : Tidy (s.setDevctl k b) := by
  obtain ⟨h1, h2, h0, h3, h4, h5, h6⟩ := h
  exact ⟨h1, h2, h0, h3, h4, Table.canonical_put _ _ h5, h6⟩

theorem setBusMaster_tidy {s : State} (k : IoAddr) (b : BusMaster) (h : Tidy s) : Tidy (s.setBusMaster k b) := by
  obtain ⟨h1, h2, h0, h3, h4, h5, h6⟩ := h
  exact ⟨h1, h2, h0, h3, h4, h5, Table.canonical_put _ _ h6⟩

theorem deviceWrite_tidy {s : State} (dr : DeviceRegs) (w : Width) (p : Port) (v : Dword) (h : Tidy s) :
    Tidy (deviceWrite dr w p v s) := by
  unfold deviceWrite
  split
  · simp only [commandWrite]
    repeat' split
    all_goals first | exact setCmdBlock_tidy _ _ h | exact h
  · simp only [controlWrite]
    split <;> first | exact setDevctl_tidy _ _ h | exact h
  · simp only [busMasterWrite]
    repeat' split
    all_goals first | exact setBusMaster_tidy _ _ h | exact h

theorem portWrite_tidy {s : State} (h : Handle) (w : Width) (p : Port) (v : Dword) (hs : Tidy s) :
    Tidy (portWrite h w p v s) :=
  (deviceWrite_tidy (s.dev h).dr w p (w.trim v) hs).of_eq rfl rfl rfl rfl rfl rfl rfl

theorem portRead_tidy {s : State} (h : Handle) (w : Width) (p : Port) (hs : Tidy s) : Tidy (portRead h w p s) :=
  hs.of_eq (by simp) (by simp) (by simp) (by simp) (by unfold portRead State.tookAnswer; split <;> rfl)
    (by unfold portRead State.tookAnswer; split <;> rfl) (by unfold portRead State.tookAnswer; split <;> rfl)

theorem release_tidy {s : State} (x : Nat) (h : Tidy s) : Tidy (release x s) := by
  unfold release State.called giveBack
  split
  · obtain ⟨h1, h2, h0, h3, h4, h5, h6⟩ := h
    exact ⟨Memory.wf_forget _ _ h1, h2, h0, h3, h4, h5, h6⟩
  · exact h

theorem releaseTable_tidy {s : State} (t : Option PrdTable) (h : Tidy s) : Tidy (releaseTable t s) := by
  cases t
  · exact h
  · exact release_tidy _ h

theorem storeCaller_tidy {s : State} (a : Nat) (b : Byte) (h : Tidy s) : Tidy (s.storeCaller a b) := by
  obtain ⟨g1, g2⟩ := State.wf_storeCaller a b h.1 h.2.1
  exact ⟨g1, g2, by simpa using h.2.2⟩

theorem bufWrite16_tidy {s : State} (a i : Nat) (w : Word) (h : Tidy s) : Tidy (bufWrite16 s a i w) :=
  storeCaller_tidy _ _ (storeCaller_tidy _ _ h)

theorem allocate_tidy {s : State} (p : PhysAddr) (n : Nat) (h : Tidy s) : Tidy (allocate p n s) := by
  obtain ⟨h1, h2, h0, h3, h4, h5, h6⟩ := h
  exact ⟨Memory.wf_forget _ _ h1, h2, h0, h3, h4, h5, h6⟩

theorem memWrite_tidy {s : State} (a n v : Nat) (h : Tidy s) : Tidy (memWrite a n v s) := by
  obtain ⟨h1, h2, h0, h3, h4, h5, h6⟩ := h
  exact ⟨Memory.wf_writeLE _ _ _ h1, h2, h0, h3, h4, h5, h6⟩

theorem pioStep_tidy {s : State} (st : PioPhase) (w : Bool) (tg : PioTarget) (i n : Nat) (f : Frame) (hs : Tidy s) :
    Tidy (pioStep st w tg i n f s).2 := by
  have h1 := fun w p => portRead_tidy f.ops.dev w p hs
  simp only [pioStep]
  repeat' split
  all_goals first
    | exact hs
    | exact h1 _ _
    | exact portWrite_tidy _ _ _ _ hs
    | exact bufWrite16_tidy _ _ _ hs

theorem microStep_tidy {s : State} (m : Micro) (f : Frame) (hs : Tidy s) : Tidy (microStep m f s).2 := by
  cases m
  case pio => exact pioStep_tidy _ _ _ _ _ _ hs
  case consumeFree => exact releaseTable_tidy _ hs
  case buildFree => exact release_tidy _ hs
  case buildStop b => cases b <;> exact hs
  case memWrite a n v => exact memWrite_tidy a n v hs
  case reportCount =>
    obtain ⟨g1, g2, g0, g3, g4, g5, g6⟩ := hs
    exact ⟨g1, g2, g0, Table.sorted_insert _ _ g3, g4, g5, g6⟩
  all_goals
    simp only [microStep, bringUpFails]
    repeat' split
  all_goals first
    | exact hs
    | exact portWrite_tidy _ _ _ _ hs
    | exact portRead_tidy _ _ _ hs
    | exact allocate_tidy _ _ (hs.of_eq (by simp) (by simp) (by simp) (by simp) (by simp) (by simp) (by simp))
    | exact hs.of_eq (by simp) (by simp) (by simp) (by simp) (by simp) (by simp) (by simp)

/-! ## Allocation handles stay fresh -/

/-- No two live allocations share a handle, and every handle in use has been given out. -/
def FreshAllocs (s : State) : Prop :=
  s.allocs.Pairwise (fun x y => x.handle ≠ y.handle) ∧ ∀ x ∈ s.allocs, x.handle < s.nextHandle

theorem FreshAllocs.of_eq {s t : State} (h : FreshAllocs s) (h1 : t.allocs = s.allocs)
    (h2 : t.nextHandle = s.nextHandle) : FreshAllocs t := by
  unfold FreshAllocs at *
  rwa [h1, h2]

theorem allocate_fresh {s : State} (a : PhysAddr) (n : Nat) (h : FreshAllocs s) : FreshAllocs (allocate a n s) := by
  obtain ⟨h1, h2⟩ := h
  refine ⟨?_, ?_⟩
  · show (s.allocs ++ _).Pairwise _
    refine List.pairwise_append.2 ⟨h1, by simp, fun x hx y hy => ?_⟩
    simp only [List.mem_singleton] at hy
    subst hy
    exact Nat.ne_of_lt (h2 x hx)
  · intro x hx
    rcases List.mem_append.1 hx with hx | hx
    · exact Nat.lt_succ_of_lt (h2 x hx)
    · simp only [List.mem_singleton] at hx
      subst hx
      exact Nat.lt_succ_self _

theorem release_fresh {s : State} (x : Nat) (h : FreshAllocs s) : FreshAllocs (release x s) := by
  obtain ⟨h1, h2⟩ := h
  unfold release State.called giveBack
  split
  · exact ⟨h1.filter _, fun y hy => h2 y (List.mem_filter.1 hy).1⟩
  · exact ⟨h1, h2⟩

theorem pioStep_allocs (st : PioPhase) (w : Bool) (tg : PioTarget) (i n : Nat) (f : Frame) (s : State) :
    (pioStep st w tg i n f s).2.allocs = s.allocs ∧ (pioStep st w tg i n f s).2.nextHandle = s.nextHandle := by
  simp only [pioStep]
  repeat' split
  all_goals simp

theorem microStep_fresh {s : State} (m : Micro) (f : Frame) (h : FreshAllocs s) : FreshAllocs (microStep m f s).2 := by
  cases m
  case pio => exact h.of_eq (pioStep_allocs ..).1 (pioStep_allocs ..).2
  case buildFree => exact release_fresh _ h
  case buildStop b => cases b <;> exact h
  case consumeFree =>
    show FreshAllocs (releaseTable (s.dev f.ops.dev).ct.prdt s)
    cases (s.dev f.ops.dev).ct.prdt
    · exact h
    · exact release_fresh _ h
  all_goals
    simp only [microStep, bringUpFails]
    repeat' split
  all_goals first
    | exact allocate_fresh _ _ (h.of_eq (by simp) (by simp))
    | exact h.of_eq (by simp) (by simp)

/-! ## The frame after a step -/

/-- The steps of BUILD_PRDT (R201 to R213). -/
def builderStep : Micro → Bool
  | .buildPair _ _ => true
  | .memWrite _ _ _ => true
  | .buildCheck => true
  | .buildFree => true
  | .buildStop _ => true
  | _ => false

/-- The steps a turn of the builder's loop puts ahead are the builder's. -/
theorem buildTurn_steps (ps : List Pair) (t : PrdTable) (i r : Nat) :
    ∀ m ∈ (buildTurn ps t i r).2, builderStep m = true := by
  have hs : ∀ (es : List Entry) (a : Nat), ∀ m ∈ tableStores a es, builderStep m = true := by
    intro es
    induction es with
    | nil => intro a m hm; cases hm
    | cons e es ih =>
      intro a m hm
      rcases List.mem_append.1 hm with hm | hm
      · simp only [entryStores, List.mem_cons, List.not_mem_nil, or_false] at hm
        rcases hm with rfl | rfl | rfl <;> rfl
      · exact ih _ m hm
  unfold buildTurn
  repeat' split
  all_goals
    intro m hm
    simp only [buildAbort, markStore, List.mem_append, List.mem_cons, List.not_mem_nil, or_false] at hm
  · rcases hm with rfl | rfl <;> rfl
  · rcases hm with hm | rfl
    · exact hs _ _ m hm
    · rfl
  · rcases hm with rfl | rfl <;> rfl
  · rcases hm with rfl | rfl <;> rfl

/-- A step keeps its operation, operands and context. -/
theorem microStep_frame {m : Micro} {f g : Frame} {s t : State} (h : microStep m f s = (.running g, t)) :
    g.op = f.op ∧ g.ops = f.ops ∧ g.ctx = f.ctx := by
  cases m
  case buildStop b => cases b <;> cases h
  all_goals simp only [microStep, pioStep, bringUpFails, stay] at h
  all_goals
    repeat' split at h
  all_goals
    simp only [Prod.mk.injEq, Progress.running.injEq, reduceCtorEq, false_and] at h
    try (obtain ⟨rfl, -⟩ := h; exact ⟨rfl, rfl, rfl⟩)

/-- A class of steps is closed if it holds what its steps put ahead in their place: the polled loop its stages, the
builder's first step and turns the builder's steps, the handler's test the two steps of the error path. -/
structure StepClass (P : Micro → Bool) : Prop where
  pio : ∀ a b c d e a' d', P (.pio a b c d e) = true → P (.pio a' b c d' e) = true
  alloc : ∀ n, P (.buildAlloc n) = true → ∀ m, builderStep m = true → P m = true
  pair : ∀ i r, P (.buildPair i r) = true → ∀ m, builderStep m = true → P m = true
  check : P .buildCheck = true → ∀ m, builderStep m = true → P m = true
  test : P .statusTest = true → P (.inp .w8 errorPort) = true ∧ P .logAndHalt = true

/-- The steps ahead after a step stay inside a closed class of steps. -/
theorem microStep_class {P : Micro → Bool} (hP : StepClass P) {m : Micro} {f g : Frame} {s t : State}
    (hm : P m = true) (hf : ∀ x ∈ f.prog, P x = true) (h : microStep m f s = (.running g, t)) :
    ∀ x ∈ g.prog, P x = true := by
  have keep : ∀ m', P m' = true → ∀ x ∈ m' :: f.prog, P x = true := by
    intro m' h' x hx
    rcases List.mem_cons.1 hx with rfl | hx
    · exact h'
    · exact hf x hx
  cases m
  case buildStop b => cases b <;> cases h
  case buildPair i r =>
    simp only [microStep, Prod.mk.injEq, Progress.running.injEq] at h
    obtain ⟨rfl, -⟩ := h
    intro x hx
    rcases List.mem_append.1 hx with hx | hx
    · exact hP.pair i r hm x (buildTurn_steps _ _ _ _ x hx)
    · exact hf x hx
  all_goals simp only [microStep, pioStep, bringUpFails, stay] at h
  all_goals
    repeat' split at h
  all_goals
    simp only [Prod.mk.injEq, Progress.running.injEq, reduceCtorEq, false_and] at h
  all_goals try (obtain ⟨rfl, -⟩ := h)
  all_goals first
    | exact hf
    | exact keep _ hm
    | exact keep _ (hP.pio _ _ _ _ _ _ _ hm)
    | exact keep _ (hP.alloc _ hm _ rfl)
    | (intro x hx
       simp only [List.mem_cons, List.not_mem_nil, or_false] at hx
       rcases hx with rfl | rfl
       · exact (hP.test hm).1
       · exact (hP.test hm).2)
    | (intro x hx
       simp only [buildAbort, List.cons_append, List.nil_append, List.mem_cons] at hx
       rcases hx with rfl | rfl | hx
       · exact hP.check hm _ rfl
       · exact hP.check hm _ rfl
       · exact hf x hx)

end Sys2Proof.Machine
end

