-- ==== Sys2Proof/Laws/Runs.lean ====
section
/-!
SUPPORT. What a run of steps leaves, for every frame and any number of steps; and what `exec` is for every operation: its
list of steps, issued.
-/
namespace Sys2Proof.Machine

/-- A frame either has no step left, or takes the first step of its list. -/
theorem frameStep_micro (f : Frame) (s : State) :
    frameStep f s = (.returned .done, s) ∨
      ∃ m rest, f.prog = m :: rest ∧ frameStep f s = microStep m { f with prog := rest } s := by
  unfold frameStep
  split
  · exact .inl rfl
  · rename_i m rest h; exact .inr ⟨m, rest, h, rfl⟩

/-- A run never touches the scheduler's data and the outputs left to the end of its sequence. -/
theorem runFrame_sameAgents (n : Nat) (f : Frame) (s : State) : SameAgents s (runFrame n f s).2 := by
  apply runFrame_keeps (P := fun t => SameAgents s t) _ n f s (SameAgents.refl s)
  intro f t h
  have e : SameAgents t (frameStep f t).2 := by
    rcases frameStep_micro f t with e | ⟨m, rest, _, e⟩ <;> rw [e]
    · exact SameAgents.refl t
    · exact microStep_sameAgents _ _ _
  unfold SameAgents at *
  simp [h, e]

/-- A run keeps the canonical form of the data. -/
theorem runFrame_tidy (n : Nat) (f : Frame) {s : State} (h : Tidy s) : Tidy (runFrame n f s).2 := by
  apply runFrame_keeps _ n f s h
  intro f t h
  rcases frameStep_micro f t with e | ⟨m, rest, _, e⟩ <;> rw [e]
  · exact h
  · exact microStep_tidy _ _ h

/-- A run keeps the handles of the live allocations apart. -/
theorem runFrame_fresh (n : Nat) (f : Frame) {s : State} (h : FreshAllocs s) : FreshAllocs (runFrame n f s).2 := by
  apply runFrame_keeps _ n f s h
  intro f t h
  rcases frameStep_micro f t with e | ⟨m, rest, _, e⟩ <;> rw [e]
  · exact h
  · exact microStep_fresh _ _ h

/-- The histories grow at their end. -/
theorem runFrame_grows (n : Nat) (f : Frame) (s : State) : Grows s (runFrame n f s).2 := by
  apply runFrame_keeps (P := fun t => Grows s t) _ n f s (Grows.refl s)
  intro f t h
  have e : Grows t (frameStep f t).2 := by
    rcases frameStep_micro f t with e | ⟨m, rest, _, e⟩ <;> rw [e]
    · exact Grows.refl t
    · exact microStep_grows _ _ _
  exact ⟨h.1.trans e.1, h.2.1.trans e.2.1, h.2.2.1.trans e.2.2.1, e.2.2.2.trans h.2.2.2⟩

/-- A frame that still runs has its operation, its operands and its context, and only steps of the closed class its steps
were of. -/
theorem runFrame_class {P : Micro → Bool} (hP : StepClass P) (n : Nat) :
    ∀ (f : Frame) (s : State) (g : Frame) (t : State), (∀ x ∈ f.prog, P x = true) →
      runFrame n f s = (.running g, t) → g.op = f.op ∧ g.ops = f.ops ∧ g.ctx = f.ctx ∧ ∀ x ∈ g.prog, P x = true := by
  induction n with
  | zero => intro f s g t hf h; simp at h; obtain ⟨rfl, -⟩ := h; exact ⟨rfl, rfl, rfl, hf⟩
  | succ n ih =>
    intro f s g t hf h
    simp only [runFrame] at h
    rcases frameStep_micro f s with e | ⟨m, rest, e1, e⟩
    · rw [e] at h; cases h
    · rw [e] at h
      split at h
      · rename_i f1 s1 e2
        have hm : P m = true := hf m (by simp [e1])
        have hr : ∀ x ∈ rest, P x = true := fun x hx => hf x (by simp [e1, hx])
        have h1 := microStep_class hP (f := { f with prog := rest }) hm hr e2
        have h2 := microStep_frame e2
        obtain ⟨a, b, c, d⟩ := ih f1 s1 g t h1 h
        exact ⟨a.trans h2.1, b.trans h2.2.1, c.trans h2.2.2, d⟩
      · rename_i hne; rw [h] at hne; exact absurd rfl (hne g t)

/-- A run of a device's sequence leaves the records of the other devices. -/
theorem runFrame_othersKept (n : Nat) (f : Frame) (s : State) : OthersKept f.ops.dev s (runFrame n f s).2 := by
  induction n generalizing f s with
  | zero => intro k _; rfl
  | succ n ih =>
    simp only [runFrame]
    rcases frameStep_micro f s with e | ⟨m, rest, e1, e⟩
    · rw [e]; intro k _; rfl
    · have h1 := microStep_othersKept m { f with prog := rest } s
      rw [e]
      split
      · rename_i f1 s1 e2
        have h2 := microStep_frame e2
        rw [e2] at h1
        intro k hk
        rw [ih f1 s1 k (by rw [h2.2.1]; exact hk), h1 k hk]
      · exact h1

/-- What holds of the list of steps of every operation: the steps are of the class of the contexts that may call the
operation (R301, R341) and of those it may take (R20, R22, R25, R235); the first is one that may come first and each is
followed as it must be (R233, R281 to R283); no bring-up succeeds before it has created CurrentTransfer (R261); and a transfer checks its parameters first
(R271). -/
structure Program (i : Instr) (prog : List Micro) : Prop where
  thread : threadMay i = true → prog.all Safety.threadStep = true
  interrupt : interruptMay i = true → prog.all Safety.interruptStep = true
  own : prog.all (Safety.stepOf i) = true
  linked : Safety.linked prog = true
  entry : Safety.mayPrecede 0 (Safety.headStage prog) = true
  opened : Safety.endsOpened prog = false
  checked : ∀ a w, i = .transferSectors a w → prog.head? = some .paramCheck

/-- The steps of a transfer, one by one. -/
theorem transfer_program (async isWrite : Bool) (o : Operands) :
    Program (.transferSectors async isWrite) (transferSteps async isWrite o) := by
  refine ⟨fun _ => ?_, fun h => (by cases h), ?_, ?_, rfl, ?_, fun _ _ _ => rfl⟩
  all_goals
    cases async <;>
      simp [transferSteps, transferPrologue, programNien, programParameters, writeRegister, route, dmaSetup, dmaFinish,
        tsmConsume, buildSteps, waitIdle, waitReady, Safety.threadStep, Safety.stepOf, Safety.bringUpStep,
        Safety.submitterStep, Safety.completionStep, Safety.nienStep, Safety.isBringUp, Safety.submits,
        Safety.writesNien, Safety.linked, Safety.mayPrecede, Safety.stage, Safety.headStage, Safety.endsOpened]

/-- Every operation's meaning is its list of steps, issued. -/
theorem exec_eq_issue (i : Instr) (s : State) : ∃ prog, exec i s = issue i prog s ∧ Program i prog := by
  cases i
  case transferSectors a w => exact ⟨_, rfl, transfer_program a w _⟩
  all_goals first
    | exact ⟨_, rfl, fun _ => rfl, fun _ => rfl, rfl, rfl, rfl, rfl, fun _ _ h => by cases h⟩
    | exact ⟨_, rfl, fun _ => rfl, (fun h => by cases h), rfl, rfl, rfl, rfl, fun _ _ h => by cases h⟩
    | exact ⟨_, rfl, (fun h => by cases h), fun _ => rfl, rfl, rfl, rfl, rfl, fun _ _ h => by cases h⟩

/-- The class of thread steps is closed. -/
theorem threadStep_closed : StepClass Safety.threadStep where
  pio _ _ _ _ _ _ _ _ := rfl
  alloc _ _ m hm := by cases m <;> first | rfl | cases hm
  pair _ _ _ m hm := by cases m <;> first | rfl | cases hm
  check _ m hm := by cases m <;> first | rfl | cases hm
  test h := by cases h

/-- So is the class of interrupt steps. -/
theorem interruptStep_closed : StepClass Safety.interruptStep where
  pio _ _ _ _ _ _ _ h := by cases h
  alloc _ h := by cases h
  pair _ _ h := by cases h
  check h := by cases h
  test _ := ⟨rfl, rfl⟩

/-- So are the steps an operation may take. -/
theorem stepOf_closed (i : Instr) : StepClass (Safety.stepOf i) where
  pio _ _ _ _ _ _ _ _ := rfl
  alloc _ _ m hm := by cases m <;> first | rfl | cases hm
  pair _ _ _ m hm := by cases m <;> first | rfl | cases hm
  check _ m hm := by cases m <;> first | rfl | cases hm
  test _ := ⟨rfl, rfl⟩

end Sys2Proof.Machine
end

