-- ==== Sys2Proof/Laws/Turns.lean ====
section
/-!
SUPPORT. What one step of the machine can do, said once: it runs a sequence for its slice, it raises the fault of a byte
access out of range, or it is a move of the environment, which leaves every record of the block.
-/
namespace Sys2Proof.Machine

/-- A turn that runs a sequence in the state `s0`: the frame of a request, of a resumed thread or of the resumed
activation; `tid` is the thread's number, where it has one. -/
structure Running (s s0 : State) (tid : Option Nat) (f : Frame) : Prop where
  works : Safety.works s f.op f.ctx f.ops.dev
  kept : s0 = { s with inputs := s0.inputs, port := s0.port, threads := s0.threads, activation := none }
  threads : (tid = none ∧ s0.threads = s.threads) ∨
    ∃ k, tid = some k ∧ Table.lookup s.threads k = some f ∧ s0.threads = Table.erase s.threads k
  disciplined : Safety.disciplined s →
    (f.ctx = .thread → ∀ m ∈ f.prog, Safety.threadStep m = true) ∧
      (f.ctx = .interrupt → ∀ m ∈ f.prog, Safety.interruptStep m = true) ∧
      (∀ m ∈ f.prog, Safety.stepOf f.op m = true) ∧ (tid ≠ none → f.ctx = .thread)

/-- A sequence that a request starts: its list of steps is its operation's. -/
def Started (s : State) (f : Frame) : Prop :=
  Program f.op f.prog ∧ f.table = none ∧
    ∃ r rest, s.inputs = .call r :: rest ∧ decode r.word = .instr f.op ∧ f.ops = r.ops ∧ f.ctx = r.ctx

/-- A sequence that goes on: a suspended thread's or the activation's. -/
def Resumed (s : State) (tid : Option Nat) (f : Frame) : Prop :=
  (∃ k, tid = some k ∧ (k, f) ∈ s.threads) ∨ (tid = none ∧ s.activation = some f)

/-- What a move of the environment leaves: everything but the environment's registers, the memories, the backing runs,
the engine's accesses and the turns; and the data stays in its canonical form. -/
def EnvironmentMoved (s t : State) : Prop :=
  t = { s with
    env := t.env, mem := t.mem, buf := t.buf, backing := t.backing, dmaTrace := t.dmaTrace, inputs := t.inputs } ∧
    s.dmaTrace <+: t.dmaTrace ∧ (Tidy s → Tidy t)

theorem lookup_mem {α : Type} {l : List (Nat × α)} {k : Nat} {v : α} (h : Table.lookup l k = some v) : (k, v) ∈ l := by
  induction l with
  | nil => cases h
  | cons c l ih =>
    simp only [Table.lookup] at h
    split at h
    · rename_i e
      cases h
      obtain ⟨a, b⟩ := c
      simp at e
      subst e
      exact List.mem_cons_self
    · exact List.mem_cons_of_mem _ (ih h)

/-- What becomes of a sequence that still runs: it is suspended, under its thread's number or as the activation. -/
theorem settle_suspended (tid : Option Nat) (f0 f : Frame) (s : State) :
    (settle tid f0 (.running f, s)).threads =
        (if f.ctx = .interrupt then s.threads else Table.insert s.threads (tid.getD s.nextTid) f) ∧
      (settle tid f0 (.running f, s)).activation = (if f.ctx = .interrupt then some f else s.activation) ∧
      (settle tid f0 (.running f, s)).nextTid =
        if f.ctx = .thread ∧ tid = none then s.nextTid + 1 else s.nextTid := by
  cases h : f.ctx <;> cases tid <;> simp [settle, suspend, h]

/-- A sequence that has ended leaves the other agents as they were. -/
theorem settle_ended (tid : Option Nat) (f0 : Frame) {p : Progress} (s : State) (h : ∀ f, p ≠ .running f) :
    (settle tid f0 (p, s)).threads = s.threads ∧ (settle tid f0 (p, s)).activation = s.activation ∧
      (settle tid f0 (p, s)).nextTid = s.nextTid := by
  cases p
  case running f => exact absurd rfl (h f)
  all_goals simp [settle]

/-- The end of a turn writes no CurrentTransfer and no phase. -/
theorem settle_dev (tid : Option Nat) (f0 : Frame) (p : Progress) (s : State) (k : Handle) :
    ((settle tid f0 (p, s)).dev k).ct = (s.dev k).ct ∧ ((settle tid f0 (p, s)).dev k).phase = (s.dev k).phase := by
  cases p
  case running f => simp only [settle]; rw [State.dev_congr (suspend_devs s tid f)]; exact ⟨rfl, rfl⟩
  case returned => simp [settle]
  case raised x =>
    simp only [settle, dev_raise]
    split <;> simp_all

/-- The end of a turn keeps the data in its canonical form and the handles of the live allocations apart. -/
theorem settle_tidy (tid : Option Nat) (f0 : Frame) (p : Progress) {s : State} (h : Tidy s) :
    Tidy (settle tid f0 (p, s)) := by
  cases p <;> exact h.of_eq (by simp [settle]) (by simp [settle]) (by simp [settle]) (by simp [settle]) (by simp [settle])
    (by simp [settle]) (by simp [settle])

theorem settle_fresh (tid : Option Nat) (f0 : Frame) (p : Progress) {s : State} (h : FreshAllocs s) :
    FreshAllocs (settle tid f0 (p, s)) := by
  cases p <;> exact h.of_eq (by simp [settle]) (by simp [settle])

/-- A request that is run. -/
theorem exec_cases {i : Instr} {s t : State} (h : exec i s = .next t) :
    ∃ prog, Program i prog ∧ contextAllows s.port.ctx i = true ∧
      t = settle none (startFrame i prog s.port) (runFrame s.port.slice (startFrame i prog s.port) s) := by
  obtain ⟨prog, e, hp⟩ := exec_eq_issue i s
  rw [e] at h
  obtain ⟨h1, -, rfl⟩ := issue_next h
  refine ⟨prog, hp, ?_, rfl⟩
  unfold refusal at h1
  cases hc : contextAllows s.port.ctx i
  · simp [hc] at h1
  · rfl

/-- A request whose word decodes to an operation, run. -/
theorem call_cases {s t : State} {r : Request} {rest : List Turn} {i : Instr} (hi : s.inputs = .call r :: rest)
    (ha : s.activation = none) (hd : decode r.word = .instr i)
    (h : exec i { s with inputs := rest, port := r } = .next t) :
    ∃ s0 f n, Running s s0 none f ∧ Started s f ∧ t = settle none f (runFrame n f s0) := by
  obtain ⟨prog, hp, hc, rfl⟩ := exec_cases h
  refine ⟨{ s with inputs := rest, port := r }, startFrame i prog r, r.slice,
    ⟨.inl ⟨r, rest, hi, hd, rfl, rfl⟩, by rw [← ha], .inl ⟨rfl, rfl⟩, fun _ => ⟨?_, ?_, ?_, ?_⟩⟩,
    ⟨hp, rfl, r, rest, hi, hd, rfl, rfl⟩, rfl⟩
  · intro e
    replace e : r.ctx = .thread := e
    simp only [contextAllows, e] at hc
    exact List.all_eq_true.1 (hp.thread hc)
  · intro e
    replace e : r.ctx = .interrupt := e
    simp only [contextAllows, e] at hc
    exact List.all_eq_true.1 (hp.interrupt hc)
  · exact List.all_eq_true.1 hp.own
  · exact fun e => absurd rfl e

/-- The moves of the environment. -/
theorem environment_cases {s t : State} {u : Turn} (h : takeTurn u s = .next t)
    (h1 : ∀ r, u ≠ .call r) (h2 : ∀ k n, u ≠ .resume k n) (h3 : ∀ n, u ≠ .resumeHandler n) : EnvironmentMoved s t := by
  cases u
  case call r => exact absurd rfl (h1 r)
  case resume k n => exact absurd rfl (h2 k n)
  case resumeHandler n => exact absurd rfl (h3 n)
  case signal d =>
    simp only [takeTurn, deviceSignal] at h
    split at h
    · cases h
      exact ⟨rfl, List.prefix_refl _, fun ht => setBusMaster_tidy _ _ (setCmdBlock_tidy _ _ ht)⟩
    · cases h
  case fifo => cases h; exact ⟨rfl, List.prefix_refl _, fun ht => setCmdBlock_tidy _ _ ht⟩
  case dmaFetch d =>
    simp only [takeTurn, dmaFetch] at h
    split at h
    · split at h
      · cases h; exact ⟨rfl, List.prefix_append _ _, fun ht => setBusMaster_tidy _ _ ht⟩
      · cases h
    · cases h
  case dmaStore d bs =>
    simp only [takeTurn, dmaStore] at h
    split at h
    · split at h
      · cases h
        exact ⟨rfl, List.prefix_append _ _, fun ht => ⟨Memory.wf_writeBytes _ _ ht.1, (setBusMaster_tidy _ _ ht).2⟩⟩
      · cases h
    · cases h
  case dmaLoad d n =>
    simp only [takeTurn, dmaLoad] at h
    split at h
    · split at h
      · cases h; exact ⟨rfl, List.prefix_append _ _, fun ht => setBusMaster_tidy _ _ ht⟩
      · cases h
    · cases h
  case bufStore a b =>
    cases h
    refine ⟨?_, by simp, fun ht => storeCaller_tidy _ _ ht⟩
    unfold State.storeCaller
    cases s.place a <;> rfl
  case back a r =>
    cases h
    exact ⟨rfl, List.prefix_refl _, fun ht => ⟨ht.1, ht.2.1, Table.sorted_insert _ _ ht.2.2.1, ht.2.2.2⟩⟩

/-- What one step can do. -/
theorem step_cases {s t : State} (h : step s = .next t) :
    (s.inputs = [] ∧ t = s) ∨
    (∃ s0 tid f n, Running s s0 tid f ∧ (Started s f ∧ tid = none ∨ Resumed s tid f) ∧
      t = settle tid f (runFrame n f s0)) ∨
    (∃ r rest k, s.inputs = .call r :: rest ∧ r.ctx = .thread ∧
      t = raise r.ops.dev .thread k { s with inputs := rest, port := r }) ∨
    EnvironmentMoved s t := by
  unfold step at h
  split at h
  · rename_i hi; cases h; exact .inl ⟨hi, rfl⟩
  rename_i u rest hi
  cases u
  case call r =>
    simp only [takeTurn, unlessInterrupt] at h
    split at h
    · cases h
    rename_i ha
    simp only [takeCall] at h
    split at h
    · rename_i i hd
      obtain ⟨s0, f, n, h1, h2, h3⟩ := call_cases hi ha hd h
      exact .inr (.inl ⟨s0, none, f, n, h1, .inl ⟨h2, rfl⟩, h3⟩)
    · unfold execOutOfRange at h
      split at h
      · cases h
      · rename_i hc
        split at h
        · cases h; exact .inr (.inr (.inl ⟨r, rest, _, hi, hc, rfl⟩))
        · cases h
    · cases h
  case resume k n =>
    simp only [takeTurn, unlessInterrupt] at h
    split at h
    · cases h
    rename_i ha
    simp only [resumeThread] at h
    split at h
    · cases h
    · rename_i f hf
      cases h
      have hm := lookup_mem hf
      refine .inr (.inl ⟨_, some k, f, n, ⟨.inr (.inl ⟨k, n, rest, f, hi, hf, rfl, rfl, rfl⟩), ?_,
        .inr ⟨k, rfl, hf, rfl⟩, fun hd => ?_⟩, .inr (.inl ⟨k, rfl, hm⟩), rfl⟩)
      · replace ha : s.activation = none := ha
        rw [← ha]
      · obtain ⟨hc, hp⟩ := hd.1 (k, f) hm
        exact ⟨fun _ m h' => (hp m h').1, (fun e => by rw [hc] at e; cases e), fun m h' => (hp m h').2, fun _ => hc⟩
  case resumeHandler n =>
    simp only [takeTurn, resumeActivation] at h
    split at h
    · cases h
    · rename_i f hf
      cases h
      replace hf : s.activation = some f := hf
      refine .inr (.inl ⟨{ s with inputs := rest, activation := none }, none, f, n, ⟨.inr (.inr ⟨n, rest, f, hi, hf, rfl, rfl, rfl⟩), rfl, .inl ⟨rfl, rfl⟩,
        fun hd => ?_⟩, .inr (.inr ⟨rfl, hf⟩), rfl⟩)
      obtain ⟨hc, hp⟩ := hd.2 f hf
      exact ⟨(fun e => by rw [hc] at e; cases e), fun _ m h' => (hp m h').1, fun m h' => (hp m h').2,
        fun e => absurd rfl e⟩
  all_goals
    have e := environment_cases h (fun _ h' => by cases h') (fun _ _ h' => by cases h') (fun _ h' => by cases h')
    refine .inr (.inr (.inr ⟨?_, e.2⟩))
    have e1 := e.1
    exact e1.trans rfl

end Sys2Proof.Machine
end

