-- ==== Sys2Proof/Laws/Transfers.lean ====
section
/-!
SUPPORT. What a step and a slice of a sequence can do to the CurrentTransfer of its device,
    said once for the thread side and
once for the handler side (spec/43_transfer_state_machine.md R230 to R235; spec/10_state.md R24).
-/
namespace Sys2Proof.Machine

open Sys2Proof.Safety

/-- What a thread that has the steps `p` ahead knows of its device's CurrentTransfer: `Safety.Knows` on a list of
    steps. -/
structure Established (p : List Micro) (ct : CurrentTransfer) : Prop where
  linked : linked p = true
  fin : 5 ≤ headStage p → ct.state = .finished
  nul : headStage p = 7 → ct.prdt = none
  op : endsOpened p = true → ct.state = .free ∧ ct.prdt = none

/-- Is a list of steps at the submitter's window (`Safety.inWindow`)? -/
def AtWindow (p : List Micro) : Prop := headStage p = 2 ∨ headStage p = 3

/-- The steps ahead of a sequence after a step; none where it has ended. -/
def ahead : Progress → List Micro
  | .running f => f.prog
  | _ => []

/-- Nothing is asked of a sequence with no step ahead. -/
theorem Established.nil (ct) : Established [] ct := ⟨rfl, fun h => (by simp [headStage] at h),
    fun h => (by simp [headStage] at h), fun h => (by cases h)⟩

/-- A step of the builder has no stage. -/
theorem builderStep_stage {m} (h : builderStep m = true) : stage m = 0 ∧ m ≠ .openTransfer ∧ m ≠ .initSucceed :=
    by cases m <;> simp_all [builderStep, stage]

/-- A step that neither creates CurrentTransfer nor ends a bring-up decides nothing. -/
theorem endsOpened_cons {m : Micro} {p} (h1 : m ≠ .openTransfer) (h2 : m ≠ .initSucceed) : endsOpened (m :: p) =
    endsOpened p := by
  cases m <;> simp_all [endsOpened]

/-- Steps of the builder in front of linked ones are linked with them. -/
theorem linked_append {bs rest : List Micro} (hb : ∀ m ∈ bs,
    builderStep m = true) (hl : linked rest = true) (h0 : mayPrecede 0 (headStage rest) = true) :
   linked (bs ++ rest) = true ∧ mayPrecede 0 (headStage (bs ++ rest)) = true ∧
       endsOpened (bs ++ rest) = endsOpened rest ∧ (bs ≠ [] → headStage (bs ++ rest) = 0):= by
  induction bs with
  | nil => exact ⟨hl, h0, rfl, fun h => absurd rfl h⟩
  | cons m bs ih =>
    obtain ⟨a, b, c, _⟩ := ih (fun x hx => hb x (by simp [hx]))
    obtain ⟨d, e, g⟩ := builderStep_stage (hb m (by simp))
    refine ⟨by simp [linked, d, a, b], by simp [headStage, d, mayPrecede], by rw [List.cons_append,
        endsOpened_cons e g, c], fun _ => d⟩

/-- There are seven stages. -/
theorem stage_le_seven (m) : stage m ≤ 7 := by cases m <;> simp [stage]

/-- There are seven stages. -/
theorem headStage_le_seven (p) : headStage p ≤ 7 := by cases p with
  | nil => exact Nat.zero_le _
  | cons m p => exact stage_le_seven m
/-- Established of the rest, for a step of no stage. -/
theorem Established.tail {m p ct} (h : Established (m :: p) ct) (hs : stage m = 0) (h1 : m ≠ .openTransfer) (h2 : m ≠
    .initSucceed) : Established p ct ∧ mayPrecede 0 (headStage p) = true := by
  obtain ⟨a, b, c, d⟩ := h
  simp [Safety.linked, hs] at a
  have hp := a.1
  refine ⟨⟨a.2, fun h => ?_, fun h => ?_, fun h => d (by rw [endsOpened_cons h1 h2]; exact h)⟩, hp⟩
  · exfalso
    have := headStage_le_seven p
    generalize headStage p = n at *
    interval_cases n <;> simp [mayPrecede] at hp
  · exfalso; rw [h] at hp; simp [mayPrecede] at hp

/-- What is established stays so when a step of no stage is replaced by steps of the builder. -/
theorem Established.builder {m p ct bs} (h : Established (m :: p) ct) (hm : builderStep m = true ∨ stage m = 0 ∧
    m ≠ .openTransfer ∧ m ≠ .initSucceed) (hb : ∀ m ∈ bs, builderStep m = true) : Established (bs ++ p) ct := by
  have h3 : stage m = 0 ∧ m ≠ .openTransfer ∧ m ≠ .initSucceed := hm.elim builderStep_stage id
  obtain ⟨h4, h5⟩ := h.tail h3.1 h3.2.1 h3.2.2
  by_cases he : bs = []
  · subst he; exact h4
  obtain ⟨a, b, c, d⟩ := linked_append hb h4.linked h5
  have := d he
  exact ⟨a, fun h => by omega, fun h => by omega, fun h => h4.op (by rw [← c]; exact h)⟩

/-- How a thread's sequence of operation `i` may move `ct.state`: a submitter's arcs, or a bring-up's (R230). -/
def ThreadArc (i : Instr) (a b : CurrentTransfer) (ph : Phase) : Prop :=
  b.state = a.state ∨ (submits i = true ∧ (b.state = .inProgress ∨ (a.state = .finished ∧ b.state = .free))) ∨
   (isBringUp i = true ∧ (b.state = .free ∨ ph = .down))

/-- The clause of R24 on one device, a thread with the steps `p` ahead running on it. -/
def WindowOk (d : Device) (p : List Micro) : Prop := d.phase = .up → d.ct.prdt ≠ none → d.ct.state ≠ .free ∨ AtWindow p

/-- What a thread's step does to CurrentTransfer of its device: it keeps what is established, keeps R24,
    and moves the state along an arc. -/
structure StepTransfer (i : Instr) (m : Micro) (q : List Micro) (d : Device) (p : Progress) (e : Device) : Prop where
  j : ∀ g, p = .running g → Established g.prog e.ct
  w : WindowOk d (m :: q) → WindowOk e (ahead p)
  arc : ThreadArc i d.ct e.ct e.phase
  run : ∀ g, p = .running g → ThreadArc i d.ct e.ct .up

/-- After the pointer's store comes PRDTADDR. -/
theorem headStage_after_setPrdt {m p ct} (h : Established (m :: p) ct) (hs : stage m = 1) : headStage p = 2 := by
  have := h.linked
  simp [linked, hs] at this
  have hp := this.1
  have := headStage_le_seven p
  generalize headStage p = n at *
  interval_cases n <;> simp [mayPrecede] at hp ⊢

/-- After PRDTADDR comes the store of InProgress. -/
theorem headStage_after_outPrdt {m p ct} (h : Established (m :: p) ct) (hs : stage m = 2) : headStage p = 3 := by
  have := h.linked
  simp [linked, hs] at this
  have hp := this.1
  have := headStage_le_seven p
  generalize headStage p = n at *
  interval_cases n <;> simp [mayPrecede] at hp ⊢

/-- A step that has no stage and is not one of bring-up's two. -/
def Unstaged (m : Micro) : Prop := stage m = 0 ∧ m ≠ .openTransfer ∧ m ≠ .initSucceed

/-- A step of no stage that leaves `ct` and may put steps of the builder ahead. -/
theorem transfer_same {i : Instr} {d e : Device} {m : Micro} {p : List Micro} {bs} (h : Established (m :: p) d.ct)
    (h3 : Unstaged m)
   (hb : ∀ m ∈ bs, builderStep m = true) {g : Frame} (hg : g.prog = bs ++ p) (hd : e.ct = d.ct) (hp : e.phase =
       d.phase ∨ e.phase ≠ .up):
   StepTransfer i m p d (.running g) e := by
  refine ⟨fun g' eq => ?_, ?_, .inl (by rw [hd]), fun _ _ => .inl (by rw [hd])⟩
  · cases eq; rw [hd, hg]; exact h.builder (.inr h3) hb
  · intro hw a b
    rcases hp with hp | hp
    · rw [hd] at b ⊢
      rcases hw (by rw [← hp]; exact a) b with c | c
      · exact .inl c
      · simp [AtWindow, headStage, h3.1] at c
    · exact absurd a hp

/-- A step that stays where it is. -/
theorem transfer_stay {i : Instr} {d e : Device} {m : Micro} {p : List Micro} (h : Established (m :: p) d.ct) 
   {g : Frame} {m'} (hs : m' = m ∨ (Unstaged m' ∧
       Unstaged m)) (hg : g.prog = m' :: p) (hd : e.ct.state = d.ct.state ∧
       e.ct.prdt = d.ct.prdt) (hp : e.phase = d.phase):
   StepTransfer i m p d (.running g) e := by
  refine ⟨fun g' e' => ?_, ?_, .inl hd.1, fun _ _ => .inl hd.1⟩
  · cases e'; rw [hg]
    rcases hs with rfl | ⟨⟨a, b, c⟩, a', b', c'⟩
    · exact ⟨h.linked, by rw [hd.1]; exact h.fin, by rw [hd.2]; exact h.nul, by rw [hd.1, hd.2]; exact h.op⟩
    · obtain ⟨x, y⟩ := h.tail a' b' c'
      refine ⟨by simp [linked, a, x.linked, y], fun e => by simp [headStage, a] at e, fun e => by simp [headStage,
          a] at e, fun e => ?_⟩
      rw [hd.1, hd.2]; exact x.op (by rw [← endsOpened_cons b c]; exact e)
  · intro hw a b
    rw [hd.2] at b
    rw [hd.1]
    rw [hp] at a
    rcases hw a b with c | c
    · exact .inl c
    · right; show AtWindow g.prog; rw [hg]
      rcases hs with rfl | ⟨⟨a, b, c'⟩, a', b', c''⟩
      · exact c
      · simp [AtWindow, headStage, a'] at c

/-- A step that ends the sequence and leaves `ct`. -/
theorem transfer_end {i : Instr} {d e : Device} {m : Micro} {p : List Micro} {r : Progress} (hr : ∀ g,
    r ≠ .running g) (h3 : stage m ≠ 2 ∧ stage m ≠ 3)
   (hd : e.ct = d.ct) (hp : e.phase = d.phase ) : StepTransfer i m p d r e := by
  refine ⟨fun g' eq => absurd eq (hr g'), ?_, .inl (by rw [hd]), fun g' eq => absurd eq (hr g')⟩
  · intro hw a b
    rw [hd] at b ⊢
    rw [hp] at a
    rcases hw a b with c | c
    · exact .inl c
    · simp [AtWindow, headStage, h3] at c

/-- A bring-up that fails. -/
theorem transfer_down {i : Instr} {d e : Device} {m : Micro} {p : List Micro} {r : Progress} (hr : ∀ g,
    r ≠ .running g) (hi : isBringUp i = true)
   (hp : e.phase = .down ) : StepTransfer i m p d r e :=
  ⟨fun g' eq => absurd eq (hr g'), fun _ a => (by rw [hp] at a; cases a), .inr (.inr ⟨hi, .inr hp⟩),
      fun g' eq => absurd eq (hr g')⟩

/-- A failed bring-up leaves its device down. -/
theorem failBringUp_phase (h s) : ((failBringUp h s).dev h).phase = .down := by simp [failBringUp,
    unspecifiedDevice, State.dev, State.setDev]

/-- Where a bring-up's end stands ahead, its step is ahead. -/
theorem endsOpened_mem {p} (h : endsOpened p = true) : Micro.initSucceed ∈ p := by
  induction p with
  | nil => cases h
  | cons m p ih => cases m <;> simp_all [endsOpened]

/-- No operation is a bring-up and a submitter's. -/
theorem not_bringUp_and_submits {i} (h : isBringUp i = true) (h2 : submits i = true) : False :=
    by cases i <;> simp_all [isBringUp, submits]

/-- Every step of a thread's sequence does to CurrentTransfer what `StepTransfer` says. -/
theorem microStep_transfer (m : Micro) (p : List Micro) (f : Frame) (s : State) (hf : f.prog = p) (hs : Safety.stepOf
    f.op m = true) (hall : ∀ x ∈ p,
    Safety.stepOf f.op x = true) (ht : threadStep m = true) (h : Established (m :: p) (s.dev f.ops.dev).ct):
    StepTransfer f.op m p (s.dev f.ops.dev) (microStep m f s).1 ((microStep m f s).2.dev f.ops.dev) := by
  have keep : ∀ (g : Frame) (t : State), Unstaged m → g.prog = p → (t.dev f.ops.dev).ct = (s.dev f.ops.dev).ct →
      (t.dev f.ops.dev).phase = (s.dev f.ops.dev).phase ∨ (t.dev f.ops.dev).phase ≠ .up →
      StepTransfer f.op m p (s.dev f.ops.dev) (.running g) (t.dev f.ops.dev) :=
    fun g t a b c d => transfer_same (bs := []) h a (fun _ h => by cases h) b c d
  have hb : bringUpStep m = true → isBringUp f.op = true := by
    intro e; simp [stepOf, e] at hs; exact hs.1.1.1
  have hsub : submitterStep m = true → submits f.op = true := by
    intro e; simp [stepOf, e] at hs; exact hs.1.1.2
  have hno : submitterStep m = true → endsOpened p = true → False := by
    intro a b
    have hm := endsOpened_mem b
    have := hall _ hm
    simp [stepOf, bringUpStep] at this
    exact not_bringUp_and_submits this.1.1.1 (hsub a)
  cases m
  case irqTest => cases ht
  case statusTest => cases ht
  case logAndHalt => cases ht
  case complete => cases ht
  case signal => cases ht
  case pio a b c x y =>
    have hd : ∀ t : State, t.devs = s.devs → (t.dev f.ops.dev) = s.dev f.ops.dev := fun t e => State.dev_congr e _
    have e1 := hd _ (pioStep_devs a b c x y f s)
    rw [show microStep (.pio a b c x y) f s = pioStep a b c x y f s from rfl, e1]
    have stayed : ∀ (g : Frame) a' x', g.prog = f.prog →
        StepTransfer f.op (.pio a b c x y) p (s.dev f.ops.dev) (stay (.pio a' b c x' y) g) (s.dev f.ops.dev) := by
      intro g a' x' hg
      exact transfer_stay (m' := .pio a' b c x' y) h (.inr ⟨⟨rfl, by simp, by simp⟩, ⟨rfl, by simp,
          by simp⟩⟩) (by rw [hg, hf]) ⟨rfl, rfl⟩ rfl
    simp only [pioStep]
    repeat' split
    all_goals first
      | exact keep f s ⟨rfl, by simp, by simp⟩ hf rfl (.inl rfl)
      | exact stayed _ _ _ rfl
  case buildPair j r =>
    exact transfer_same (bs := (buildTurn f.pairs f.building j r).2) h ⟨rfl, by simp,
        by simp⟩ (buildTurn_steps _ _ _ _) (by simp [hf]) rfl (.inl rfl)
  case buildAlloc n =>
    simp only [microStep]
    split
    · exact transfer_end (fun g e => by cases e) (by simp [stage]) rfl rfl
    · split
      · exact transfer_end (fun g e => by cases e) (by simp [stage]) (by simp) (by simp)
      · refine transfer_same (bs := [.buildPair 0 n]) h ⟨rfl, by simp,
          by simp⟩ (by simp [builderStep]) (by simp [hf]) ?_ (.inl ?_)
        · exact congrArg Device.ct (State.dev_congr (by simp) _)
        · exact congrArg Device.phase (State.dev_congr (by simp) _)
  case buildCheck =>
    simp only [microStep]
    split
    · exact transfer_same (bs := buildAbort (.status .tableAddressOutOfRange)) h ⟨rfl, by simp,
        by simp⟩ (by simp [buildAbort, builderStep]) (by simp [hf]) rfl (.inl rfl)
    · exact keep _ _ ⟨rfl, by simp, by simp⟩ hf rfl (.inl rfl)
  case buildStop b => cases b <;> exact transfer_end (fun g e => by cases e) (by simp [stage]) rfl rfl
  case waitStatus bit want =>
    simp only [microStep]
    split
    · exact keep _ _ ⟨rfl, by simp, by simp⟩ hf (by simp) (.inl (by simp))
    · exact transfer_stay h (.inl rfl) (by rw [← hf]) ⟨by simp, by simp⟩ (by simp)
  case identPoll =>
    simp only [microStep, bringUpFails]
    split
    · exact transfer_down (fun g e => by cases e) (hb rfl) (failBringUp_phase _ _)
    · split
      · exact keep _ _ ⟨rfl, by simp, by simp⟩ hf rfl (.inl rfl)
      · exact transfer_stay h (.inl rfl) (by rw [← hf]) ⟨by simp, by simp⟩ (by simp)
  case eventWait =>
    simp only [microStep]
    split
    · refine ⟨fun g' e => ?_, ?_, .inl (by simp), fun _ _ => .inl (by simp)⟩
      · cases e
        have := h.tail (by rfl) (by simp) (by simp)
        rw [hf]
        simp
        exact ⟨this.1.linked, this.1.fin, this.1.nul, this.1.op⟩
      · intro hw a b
        simp at a b ⊢
        rcases hw a b with c | c
        · exact .inl c
        · simp [AtWindow, headStage, stage] at c
    · exact transfer_stay h (.inl rfl) (by rw [← hf]) ⟨rfl, rfl⟩ rfl
  case setPrdt =>
    simp only [microStep]
    have e2 := headStage_after_setPrdt h rfl
    have hl := h.linked
    simp [linked] at hl
    refine ⟨fun g' e => ?_, ?_, .inl (by simp), fun _ _ => .inl (by simp)⟩
    · cases e
      rw [hf]
      refine ⟨hl.2, by rw [e2]; simp, by rw [e2]; simp, fun hh => ?_⟩
      exact absurd hh (fun hh => hno rfl hh)
    · intro hw a b
      right; show AtWindow f.prog; rw [hf]; exact .inl e2
  case outPrdt =>
    have e2 := headStage_after_outPrdt h rfl
    have hl := h.linked
    simp [linked] at hl
    refine ⟨fun g' e => ?_, ?_, .inl (by simp [microStep]), fun _ _ => .inl (by simp [microStep])⟩
    · cases e
      rw [show f.prog = p from hf]
      refine ⟨hl.2, by rw [e2]; simp, by rw [e2]; simp, fun hh => ?_⟩
      simp [microStep]
      exact h.op (by rw [endsOpened_cons (by simp) (by simp)]; exact hh)
    · intro hw a b
      right; show AtWindow f.prog; rw [hf]; exact .inr e2
  case submit =>
    have hl := h.linked
    simp [linked] at hl
    refine ⟨fun g' e => ?_, ?_, .inr (.inl ⟨hsub rfl, .inl (by simp [microStep])⟩), fun _ _ => .inr (.inl ⟨hsub rfl,
        .inl (by simp [microStep])⟩)⟩
    · cases e
      rw [show f.prog = p from hf]
      have : headStage p < 5 := by
        have hp := hl.1; have := headStage_le_seven p; generalize headStage p = n at *
        interval_cases n <;> simp [mayPrecede, stage] at hp ⊢
      exact ⟨hl.2, fun _ => by omega, fun _ => by omega, fun hh => absurd hh (fun hh => hno rfl hh)⟩
    · intro hw a b
      left; simp [microStep]
  case consumeCheck =>
    simp only [microStep]
    split
    · rename_i hfin
      have hl := h.linked
      simp [linked] at hl
      refine ⟨fun g' e => ?_, ?_, .inl rfl, fun _ _ => .inl rfl⟩
      · cases e
        rw [hf]
        have : headStage p ≠ 7 := by
          have hp := hl.1; have := headStage_le_seven p; generalize headStage p = n at *
          interval_cases n <;> simp [mayPrecede, stage] at hp ⊢
        exact ⟨hl.2, fun _ => hfin, fun h => absurd h this,
            fun hh => h.op (by rw [endsOpened_cons (by simp) (by simp)]; exact hh)⟩
      · intro hw _ _; left; rw [hfin]; simp
    · exact transfer_end (fun g e => by cases e) (by simp [stage]) rfl rfl
  case consumeFree =>
    have hfin := h.fin (by simp [headStage, stage])
    have hl := h.linked
    simp [linked] at hl
    refine ⟨fun g' e => ?_, ?_, .inl (by simp [microStep]), fun _ _ => .inl (by simp [microStep])⟩
    · cases e
      rw [show f.prog = p from hf]
      have : headStage p ≠ 7 := by
        have hp := hl.1; have := headStage_le_seven p; generalize headStage p = n at *
        interval_cases n <;> simp [mayPrecede, stage] at hp ⊢
      exact ⟨hl.2, fun _ => by simp [microStep, hfin], fun h => absurd h this, fun hh => by
        simp [microStep]
        exact h.op (by rw [endsOpened_cons (by simp) (by simp)]; exact hh)⟩
    · intro hw _ _; left; simp [microStep, hfin]
  case consumeClear =>
    have hfin := h.fin (by simp [headStage, stage])
    have hl := h.linked
    simp [linked] at hl
    refine ⟨fun g' e => ?_, ?_, .inl (by simp [microStep]), fun _ _ => .inl (by simp [microStep])⟩
    · cases e
      rw [show f.prog = p from hf]
      exact ⟨hl.2, fun _ => by simp [microStep, hfin], fun h => by simp [microStep], fun hh => by
        simp [microStep]
        exact (h.op (by rw [endsOpened_cons (by simp) (by simp)]; exact hh)).1⟩
    · intro hw _ b; simp [microStep] at b
  case consumeReset bb =>
    have hfin := h.fin (by simp [headStage, stage])
    have hnul := h.nul (by simp [headStage, stage])
    have hl := h.linked
    simp [linked] at hl
    have h5 : headStage p < 5 := by
      have hp := hl.1; have := headStage_le_seven p; generalize headStage p = n at *
      interval_cases n <;> simp [mayPrecede, stage] at hp ⊢
    have key : ThreadArc f.op (s.dev f.ops.dev).ct ((microStep (.consumeReset bb) f s).2.dev f.ops.dev).ct .up := by
      cases bb
      · exact .inl rfl
      · exact .inr (.inl ⟨hsub rfl, .inr ⟨hfin, by simp [microStep]⟩⟩)
    refine ⟨fun g' e => ?_, ?_, ?_, fun _ _ => key⟩
    · cases e
      rw [show f.prog = p from hf]
      refine ⟨hl.2, fun _ => by omega, fun _ => by omega, fun hh => ?_⟩
      have := h.op (by rw [endsOpened_cons (by simp) (by simp)]; exact hh)
      rw [hfin] at this; cases this.1
    · intro hw _ b
      exfalso; apply b
      cases bb <;> simp [microStep, hnul]
    · cases bb
      · exact .inl rfl
      · exact .inr (.inl ⟨hsub rfl, .inr ⟨hfin, by simp [microStep]⟩⟩)
  case openTransfer =>
    have hl := h.linked
    simp [linked] at hl
    have h5 : headStage p < 5 := by
      have hp := hl.1; have := headStage_le_seven p; generalize headStage p = n at *
      interval_cases n <;> simp [mayPrecede, stage] at hp ⊢
    refine ⟨fun g' e => ?_, ?_, .inr (.inr ⟨hb rfl, .inl (by simp [microStep])⟩), fun _ _ => .inr (.inr ⟨hb rfl,
        .inl (by simp [microStep])⟩)⟩
    · cases e
      rw [show f.prog = p from hf]
      exact ⟨hl.2, fun _ => by omega, fun _ => by omega, fun _ => by simp [microStep]⟩
    · intro hw _ b; simp [microStep] at b
  case initSucceed =>
    have := h.op rfl
    refine ⟨fun g' eq => (by cases eq), ?_, .inl (by simp [microStep]), fun _ _ => .inl (by simp [microStep])⟩
    intro hw _ b
    exfalso; apply b
    simp [microStep, this.2]
  case resolve =>
    exact keep _ _ ⟨rfl, by simp, by simp⟩ hf (by simp [microStep]) (.inr (by simp [microStep]))
  all_goals
    simp only [microStep, bringUpFails]
    repeat' split
  all_goals first
    | exact keep _ _ ⟨rfl, by simp, by simp⟩ hf rfl (.inl rfl)
    | exact transfer_down (fun g e => by cases e) (hb rfl) (failBringUp_phase _ _)
    | exact transfer_end (fun g e => by cases e) (by simp [stage]) rfl rfl
    | (refine keep _ _ ⟨rfl, by simp, by simp⟩ hf ?_ (.inl ?_) <;> simp)

/-- How a handler's sequence may move `ct`: the state from InProgress to Finished (R230, R232). -/
def HandlerArc (i : Instr) (a b : CurrentTransfer) : Prop := b.prdt = a.prdt ∧
    (b.state = a.state ∨ (completes i = true ∧ a.state = .inProgress ∧ b.state = .finished))

/-- A step of the interrupt context moves the state along the handler's arc alone. -/
theorem microStep_handler (m : Micro) (f : Frame) (s : State) (hs : Safety.stepOf f.op m = true) (ht : interruptStep
    m = true) :
  HandlerArc f.op (s.dev f.ops.dev).ct ((microStep m f s).2.dev f.ops.dev).ct ∧
      ((microStep m f s).2.dev f.ops.dev).phase = (s.dev f.ops.dev).phase := by
  have hc : completionStep m = true → completes f.op = true := by
    intro e; simp [stepOf, e] at hs; exact hs.1.2
  cases m <;> simp [interruptStep] at ht
  case complete =>
    simp only [microStep]
    split
    · rename_i h
      exact ⟨⟨by simp [casFinished, h], .inr ⟨hc rfl, h, by simp [casFinished, h]⟩⟩, by simp [casFinished, h]⟩
    · rename_i h
      exact ⟨⟨by simp [casFinished, h], .inl (by simp [casFinished, h])⟩, by simp [casFinished, h]⟩
  all_goals
    simp only [microStep]
    repeat' split
  all_goals first | (simp [HandlerArc]; done) | exact ⟨⟨rfl, .inl rfl⟩, rfl⟩

/-- Two steps of one sequence move the state along one arc. -/
theorem ThreadArc.trans {i a b c ph} (h1 : ThreadArc i a b .up) (h2 : ThreadArc i b c ph) : ThreadArc i a c ph := by
  unfold ThreadArc at *
  have hx : submits i = true → isBringUp i = false := by cases i <;> simp [submits, isBringUp]
  rcases h1 with h1 | ⟨h1, h1'⟩ | ⟨h1, h1' | h1'⟩
  · rw [h1] at h2; exact h2
  · rw [hx h1, h1] at h2 ⊢
    rcases h2 with h2 | ⟨_, h2⟩ | ⟨h2, _⟩
    · rw [h2]; rcases h1' with h | h
      · simp [h]
      · simp [h]
    · rcases h1' with h | h <;> rcases h2 with h2 | h2
      · simp [h2]
      · rw [h] at h2; cases h2.1
      · simp [h2]
      · rw [h.2] at h2; cases h2.1
    · cases h2
  · rw [h1] at h2
    rcases h2 with h2 | ⟨h, _⟩ | ⟨_, h2⟩
    · rw [h2]; exact .inr (.inr ⟨h1, .inl h1'⟩)
    · have := hx h; rw [h1] at this; cases this
    · exact .inr (.inr ⟨h1, h2⟩)
  · cases h1'

/-- A slice of an activation moves the state along the handler's arc alone. -/
theorem runFrame_handler (n : Nat) : ∀ (f : Frame) (s : State), (∀ m ∈ f.prog, stepOf f.op m = true) →
    (∀ m ∈ f.prog, interruptStep m = true) →
   HandlerArc f.op (s.dev f.ops.dev).ct ((runFrame n f s).2.dev f.ops.dev).ct ∧
       ((runFrame n f s).2.dev f.ops.dev).phase = (s.dev f.ops.dev).phase := by
  induction n with
  | zero => intro f s _ _; exact ⟨⟨rfl, .inl rfl⟩, rfl⟩
  | succ n ih =>
    intro f s h1 h2
    simp only [runFrame]
    rcases frameStep_micro f s with e | ⟨m, rest, e1, e⟩
    · rw [e]; exact ⟨⟨rfl, .inl rfl⟩, rfl⟩
    · rw [e]
      obtain ⟨⟨a, b⟩, c⟩ := microStep_handler m { f with prog := rest } s (h1 m (by simp [e1])) (h2 m (by simp [e1]))
      split
      · rename_i f1 s1 e2
        have h3 := microStep_frame e2
        have h4 := microStep_class (stepOf_closed f.op) (f := { f with prog :=
            rest }) (h1 m (by simp [e1])) (fun x hx => h1 x (by simp [e1, hx])) e2
        have h5 := microStep_class interruptStep_closed (f := { f with prog :=
            rest }) (h2 m (by simp [e1])) (fun x hx => h2 x (by simp [e1, hx])) e2
        have h6 := ih f1 s1 (by rw [h3.1]; exact h4) h5
        rw [h3.1, h3.2.1] at h6
        rw [e2] at a b c
        obtain ⟨⟨x, y⟩, z⟩ := h6
        simp only at a b c
        refine ⟨⟨x.trans a, ?_⟩, z.trans c⟩
        rcases b with b | ⟨b1, b2, b3⟩
        · rw [b] at y; exact y
        · rcases y with y | ⟨_, y, _⟩
          · exact .inr ⟨b1, b2, by rw [y, b3]⟩
          · rw [b3] at y; cases y
      · exact ⟨⟨a, b⟩, c⟩

/-- What a thread's slice does to CurrentTransfer of its device. -/
structure RunTransfer (i : Instr) (q : List Micro) (d : Device) (p : Progress) (e : Device) : Prop where
  j : ∀ g, p = .running g → Established g.prog e.ct
  w : WindowOk d q → WindowOk e (ahead p)
  arc : ThreadArc i d.ct e.ct e.phase

/-- A slice of a thread does to CurrentTransfer what `RunTransfer` says. -/
theorem runFrame_transfer (n : Nat) : ∀ (f : Frame) (s : State), (∀ m ∈ f.prog, stepOf f.op m = true) →
    (∀ m ∈ f.prog, threadStep m = true) →
   Established f.prog (s.dev f.ops.dev).ct→
   RunTransfer f.op f.prog (s.dev f.ops.dev) (runFrame n f s).1 ((runFrame n f s).2.dev f.ops.dev) := by
  induction n with
  | zero => intro f s _ _ hj; exact ⟨fun g e => (by cases e; exact hj), id, .inl rfl⟩
  | succ n ih =>
    intro f s h1 h2 hj
    simp only [runFrame]
    have hfm : (f.prog = [] ∧ frameStep f s = (.returned .done, s)) ∨ ∃ m rest, f.prog = m :: rest ∧
        frameStep f s = microStep m { f with prog := rest } s := by
      unfold frameStep; split
      · rename_i h; exact .inl ⟨h, rfl⟩
      · rename_i m rest h; exact .inr ⟨m, rest, h, rfl⟩
    rcases hfm with ⟨e0, e⟩ | ⟨m, rest, e1, e⟩
    · rw [e]; refine ⟨fun g e => (by cases e), ?_, .inl rfl⟩
      intro hw a b
      rcases hw a b with c | c
      · exact .inl c
      · rw [e0] at c; simp [AtWindow, headStage] at c
    · rw [e]
      rw [e1] at hj ⊢
      have o := microStep_transfer m rest { f with prog :=
          rest } s rfl (h1 m (by simp [e1])) (fun x hx => h1 x (by simp [e1, hx])) (h2 m (by simp [e1])) hj
      split
      · rename_i f1 s1 e2
        have h3 := microStep_frame e2
        have h4 := microStep_class (stepOf_closed f.op) (f := { f with prog :=
            rest }) (h1 m (by simp [e1])) (fun x hx => h1 x (by simp [e1, hx])) e2
        have h5 := microStep_class threadStep_closed (f := { f with prog :=
            rest }) (h2 m (by simp [e1])) (fun x hx => h2 x (by simp [e1, hx])) e2
        rw [e2] at o
        have h6 := ih f1 s1 (by rw [h3.1]; exact h4) h5 (by rw [h3.2.1]; exact o.j f1 rfl)
        rw [h3.1, h3.2.1] at h6
        exact ⟨h6.j, fun hw => h6.w (o.w hw), (o.run f1 rfl).trans h6.arc⟩
      · exact ⟨o.j, o.w, o.arc⟩

/-- A step that is none of bring-up's, the submitter's or the handler's leaves every `ct` and every phase. -/
theorem microStep_no_transfer {m : Micro} {f : Frame} {s : State} (h1 : bringUpStep m = false)
    (h2 : submitterStep m = false) (h3 : completionStep m = false) (k) :
   ((microStep m f s).2.dev k).ct = (s.dev k).ct ∧ ((microStep m f s).2.dev k).phase = (s.dev k).phase := by
  cases m <;> simp [bringUpStep, submitterStep, completionStep] at h1 h2 h3
  case pio a b c x y =>
    have e1 := State.dev_congr (pioStep_devs a b c x y f s) k
    rw [show microStep (.pio a b c x y) f s = pioStep a b c x y f s from rfl, e1]
    exact ⟨rfl, rfl⟩
  case buildStop b => cases b <;> exact ⟨rfl, rfl⟩
  case setNien b =>
    simp only [microStep]
    by_cases hk : k = f.ops.dev
    · subst hk; simp
    · rw [State.dev_setDr_other _ _ hk]; exact ⟨rfl, rfl⟩
  all_goals
    simp only [microStep]
    repeat' split
  all_goals first
    | exact ⟨rfl, rfl⟩
    | (simp; done)
    | exact ⟨congrArg Device.ct (State.dev_congr (by simp) _), congrArg Device.phase (State.dev_congr (by simp) _)⟩

/-- BUILD_PRDT leaves every `ct` and every phase (R200). -/
theorem runFrame_builder (n : Nat) : ∀ (f : Frame) (s : State), (∀ m ∈ f.prog, stepOf f.op m = true) →
    f.op = .buildPrdt → ∀ k,
   ((runFrame n f s).2.dev k).ct = (s.dev k).ct ∧ ((runFrame n f s).2.dev k).phase = (s.dev k).phase := by
  induction n with
  | zero => intro f s _ _ k; exact ⟨rfl, rfl⟩
  | succ n ih =>
    intro f s h1 ho k
    simp only [runFrame]
    rcases frameStep_micro f s with e | ⟨m, rest, e1, e⟩
    · rw [e]; exact ⟨rfl, rfl⟩
    · rw [e]
      have hm := h1 m (by simp [e1])
      rw [ho] at hm
      have hm' : bringUpStep m = false ∧ submitterStep m = false ∧ completionStep m = false := by
        simp [stepOf, isBringUp, submits, completes] at hm
        exact ⟨hm.1.1.1, hm.1.1.2, hm.1.2⟩
      have hp := microStep_no_transfer (f := { f with prog := rest }) (s := s) hm'.1 hm'.2.1 hm'.2.2 k
      split
      · rename_i f1 s1 e2
        have h3 := microStep_frame e2
        have h4 := microStep_class (stepOf_closed f.op) (f := { f with prog :=
            rest }) (h1 m (by simp [e1])) (fun x hx => h1 x (by simp [e1, hx])) e2
        have h6 := ih f1 s1 (by rw [h3.1]; exact h4) (by rw [h3.1]; exact ho) k
        rw [e2] at hp
        exact ⟨h6.1.trans hp.1, h6.2.trans hp.2⟩
      · exact hp

end Sys2Proof.Machine
end

