-- ==== Sys2Proof/Laws/Views.lean ====
section
/-!
SUPPORT. A run of register accesses seen as a whole: what a sequence of one device has made of its command block, its
DEVCTL and its answers, and which port events it has made; one lemma for each kind of step. The parameter writes of
a transfer (spec/45_orchestrator.md R272 to R277) are run with them.
-/
namespace Sys2Proof.Machine

/-- Everything but the device records, the command and control blocks, the answers and the trace is as before. -/
structure SameElse (s u : State) : Prop where
  bm : u.env.bm = s.env.bm
  translations : u.env.translations = s.env.translations
  allocations : u.env.allocations = s.env.allocations
  registrations : u.env.registrations = s.env.registrations
  drawn : u.env.drawn = s.env.drawn
  mem : u.mem = s.mem
  buf : u.buf = s.buf
  backing : u.backing = s.backing
  outs : u.outs = s.outs
  allocs : u.allocs = s.allocs
  nextHandle : u.nextHandle = s.nextHandle
  dmaTrace : u.dmaTrace = s.dmaTrace
  calls : u.calls = s.calls
  log : u.log = s.log
  returns : u.returns = s.returns
  faults : u.faults = s.faults
  threads : u.threads = s.threads
  nextTid : u.nextTid = s.nextTid
  activation : u.activation = s.activation
  port : u.port = s.port
  inputs : u.inputs = s.inputs

/-- `u` is `s` after steps of device `h` that made the events `evs`: the device's record is `d`, its command block
`blk`, its DEVCTL `ctl`; the other blocks are as they were, and the answers still listed are `ans`. -/
structure View (h : Handle) (s u : State) (d : Device) (blk : CmdBlock) (ctl : Byte) (ans : List Dword)
    (evs : List PortEvent) : Prop where
  dev : u.dev h = d
  others : ∀ k, k ≠ h → u.dev k = s.dev k
  cmd : u.cmdBlock d.dr.base = blk
  devctl : u.devctl d.dr.ctrl = ctl
  answers : u.env.answers = ans
  trace : u.trace = s.trace ++ evs
  otherBlocks : ∀ k, k ≠ d.dr.base → u.cmdBlock k = s.cmdBlock k
  otherCtls : ∀ k, k ≠ d.dr.ctrl → u.devctl k = s.devctl k
  same : SameElse s u

/-- Before any step. -/
theorem View.start (h : Handle) (s : State) :
    View h s s (s.dev h) (s.cmdBlock (s.dev h).dr.base) (s.devctl (s.dev h).dr.ctrl) s.env.answers [] :=
  ⟨rfl, fun _ _ => rfl, rfl, rfl, rfl, by simp, fun _ _ => rfl, fun _ _ => rfl, by constructor <;> rfl⟩

variable {h : Handle} {s u : State} {d : Device} {blk : CmdBlock} {ctl : Byte} {ans : List Dword}
  {evs : List PortEvent}

/-- The value of a read of STATUS. -/
theorem View.value_status {a : Dword} (v : View h s u d blk ctl (a :: ans) evs) :
    portValue h .w8 statusPort u = (blk.seen a).setWidth 32 := by
  rw [show statusPort = ⟨.command, 7⟩ from rfl, portValue_status, v.dev, v.cmd, State.nextAnswer_cons v.answers, CmdBlock.seen]
  split <;> rfl

/-- A read of STATUS. -/
theorem View.read_status {a : Dword} (v : View h s u d blk ctl (a :: ans) evs) :
    View h s (portRead h .w8 statusPort u) d blk ctl ans
      (evs ++ [.read .w8 (d.dr.base + 7#16) ((blk.seen a).setWidth 32)]) := by
  have e := v.value_status
  have ha : u.tookAnswer = { u with env := { u.env with answers := ans } } := by simp [State.tookAnswer, v.answers]
  have hp : portRead h .w8 statusPort u = { u with
      env := { u.env with answers := ans },
      trace := u.trace ++ [.read .w8 (d.dr.base + 7#16) ((blk.seen a).setWidth 32)] } := by
    unfold portRead
    rw [e, ha]
    simp [State.record, v.dev, portAddr, windowBase, statusPort]
  rw [hp]
  obtain ⟨h1, h2, h3, h4, h5, h6, h8, h9, h7⟩ := v
  exact ⟨h1, h2, h3, h4, rfl, by simp [h6], h8, h9, by cases h7; constructor <;> assumption⟩

/-- A byte written to DEVCTL. -/
theorem View.write_devctl (v : View h s u d blk ctl ans evs) (b : Byte) :
    View h s (portWrite h .w8 devctlPort (b.setWidth 32) u) d blk b ans
      (evs ++ [.write .w8 d.dr.ctrl (b.setWidth 32)]) := by
  rw [show devctlPort = ⟨.control, 0⟩ from rfl, portWrite_devctl]
  obtain ⟨h1, h2, h3, h4, h5, h6, h8, h9, h7⟩ := v
  refine ⟨h1, h2, by rw [h1]; exact h3, by rw [h1]; exact State.devctl_setDevctl_self _ _ _, h5,
    by simp [State.record, State.setDevctl, h6, h1],
    fun k hk => h8 k hk, fun k hk => (State.devctl_setDevctl_other u _ (by rw [h1]; exact hk)).trans (h9 k hk), by cases h7; constructor <;> assumption⟩

/-- The command block after a write: any write that replaces it. -/
theorem View.set_block (v : View h s u d blk ctl ans evs) (c : CmdBlock) (e : PortEvent) :
    View h s ((u.setCmdBlock d.dr.base c).record e) d c ctl ans (evs ++ [e]) := by
  obtain ⟨h1, h2, h3, h4, h5, h6, h8, h9, h7⟩ := v
  exact ⟨h1, h2, State.cmdBlock_setCmdBlock_self _ _ _, h4, h5, by simp [State.record, State.setCmdBlock, h6],
    fun k hk => (State.cmdBlock_setCmdBlock_other u _ hk).trans (h8 k hk), fun k hk => h9 k hk, by cases h7; constructor <;> assumption⟩

/-- A byte written to DEVICE. -/
theorem View.write_device (v : View h s u d blk ctl ans evs) (b : Byte) :
    View h s (portWrite h .w8 devicePort (b.setWidth 32) u) d { blk with device := b } ctl ans
      (evs ++ [.write .w8 (d.dr.base + 6#16) (b.setWidth 32)]) := by
  rw [show devicePort = ⟨.command, 6⟩ from rfl, portWrite_device, v.dev, v.cmd]
  exact v.set_block _ _

/-- A byte written to COMMAND. -/
theorem View.write_command (v : View h s u d blk ctl ans evs) (b : Byte) :
    View h s (portWrite h .w8 ⟨.command, 7⟩ (b.setWidth 32) u) d
      (blk.setCurrent (blk.current.takeCommand b (flag ctl Config.nienBit))) ctl ans
      (evs ++ [.write .w8 (d.dr.base + 7#16) (b.setWidth 32)]) := by
  rw [portWrite_command, v.dev, v.cmd, State.masked, v.devctl]
  exact v.set_block _ _

/-- The command block after a byte is written to a two-deep register (R40). -/
def CmdBlock.push (blk : CmdBlock) (n : Nat) (hob : Bool) (b : Byte) : CmdBlock :=
  blk.setCurrent (blk.current.setFifo n ((blk.current.fifo n).write Config.fifoModel hob b))

/-- A byte written to a two-deep register. -/
theorem View.write_fifo (v : View h s u d blk ctl ans evs) {n : Nat} (hn : n = 2 ∨ n = 3 ∨ n = 4 ∨ n = 5) (b : Byte) :
    View h s (portWrite h .w8 ⟨.command, n⟩ (b.setWidth 32) u) d (blk.push n (flag ctl Config.hobBit) b) ctl ans
      (evs ++ [.write .w8 (d.dr.base + BitVec.ofNat 16 n) (b.setWidth 32)]) := by
  rw [portWrite_fifo _ _ hn, fifoWrite, v.dev, v.cmd, State.hob, v.devctl]
  exact v.set_block _ _

/-- The flag of DeviceRegisters set. -/
theorem View.set_nien (v : View h s u d blk ctl ans evs) (b : Bool) :
    View h s (u.setDr h { d.dr with nien := b }) { d with dr := { d.dr with nien := b } } blk ctl ans evs := by
  obtain ⟨h1, h2, h3, h4, h5, h6, h8, h9, h7⟩ := v
  refine ⟨?_, fun k hk => ?_, h3, h4, h5, h6, h8, h9, by cases h7; constructor <;> assumption⟩
  · simp [State.setDr, h1]
  · rw [State.dev_setDr_other _ _ hk, h2 k hk]

/-! ## Steps of a frame -/

variable {f : Frame}

/-- A wait whose first read shows the bit. -/
theorem View.run_wait {a : Dword} (v : View h s u d blk ctl (a :: ans) evs) (hf : f.ops.dev = h) {bit : Nat}
    {want : Bool} (hb : bit < 8) (hv : (blk.seen a).getLsbD bit = want) :
    ∃ u2, (∀ n ps, runFrame (n + 1) (f.setProg (.waitStatus bit want :: ps)) u = runFrame n (f.setProg ps) u2) ∧
      View h s u2 d blk ctl ans (evs ++ [.read .w8 (d.dr.base + 7#16) ((blk.seen a).setWidth 32)]) := by
  refine ⟨_, fun n ps => ?_, v.read_status⟩
  apply runFrame_running
  have hl : flag ((blk.seen a).setWidth 32) bit = want := by
    have : bit < 32 := by omega
    simpa [flag, hb, this] using hv
  subst hf
  simp only [frameStep, microStep, v.value_status, hl, if_true, Frame.setProg]

/-- Selecting the device. -/
theorem View.run_select (v : View h s u d blk ctl ans evs) (hf : f.ops.dev = h) :
    ∃ u2, (∀ n ps, runFrame (n + 1) (f.setProg (.outSelect :: ps)) u = runFrame n (f.setProg ps) u2) ∧
      View h s u2 d { blk with device := devSelByte d.dr.slave } ctl ans
        (evs ++ [.write .w8 (d.dr.base + 6#16) ((devSelByte d.dr.slave).setWidth 32)]) := by
  refine ⟨_, fun n ps => ?_, v.write_device _⟩
  apply runFrame_running
  subst hf
  simp only [frameStep, microStep, v.dev, Frame.setProg]

/-- PROGRAM_NIEN's two steps. -/
theorem View.run_nien (v : View h s u d blk ctl ans evs) (hf : f.ops.dev = h) (b : Bool) :
    ∃ u2, (∀ n ps, runFrame (n + 2) (f.setProg (.setNien b :: .outNien :: ps)) u = runFrame n (f.setProg ps) u2) ∧
      View h s u2 { d with dr := { d.dr with nien := b } } blk (nienByte b) ans
        (evs ++ [.write .w8 d.dr.ctrl ((nienByte b).setWidth 32)]) := by
  have v1 := v.set_nien b
  refine ⟨_, fun n ps => ?_, v1.write_devctl _⟩
  have e1 : frameStep (f.setProg (.setNien b :: .outNien :: ps)) u =
      (.running (f.setProg (.outNien :: ps)), u.setDr h { d.dr with nien := b }) := by
    subst hf
    simp only [frameStep, microStep, v.dev, Frame.setProg]
  rw [show n + 2 = (n + 1) + 1 from rfl, runFrame_running e1]
  apply runFrame_running
  subst hf
  simp only [frameStep, microStep, v1.dev, Frame.setProg]

/-- A byte written to a two-deep register inside a HOB bracket (R123). -/
theorem View.run_bracket (v : View h s u d blk ctl ans evs) (hf : f.ops.dev = h) {k : Nat}
    (hk : k = 2 ∨ k = 3 ∨ k = 4 ∨ k = 5) (b : Byte) :
    ∃ u2, (∀ n ps, runFrame (n + 3)
        (f.setProg (.outHob :: .out .w8 ⟨.command, k⟩ (b.setWidth 32) :: .outNien :: ps)) u =
          runFrame n (f.setProg ps) u2) ∧
      View h s u2 d (blk.push k true b) (nienByte d.dr.nien) ans
        (evs ++ [.write .w8 d.dr.ctrl ((hobByte d.dr.nien).setWidth 32),
          .write .w8 (d.dr.base + BitVec.ofNat 16 k) (b.setWidth 32),
          .write .w8 d.dr.ctrl ((nienByte d.dr.nien).setWidth 32)]) := by
  have v1 := v.write_devctl (hobByte d.dr.nien)
  have v2 := v1.write_fifo hk b
  have v3 := v2.write_devctl (nienByte d.dr.nien)
  have hh : flag (hobByte d.dr.nien) Config.hobBit = true := by cases d.dr.nien <;> rfl
  rw [hh] at v3
  refine ⟨_, fun n ps => ?_, by simpa using v3⟩
  have e1 : frameStep (f.setProg (.outHob :: .out .w8 ⟨.command, k⟩ (b.setWidth 32) :: .outNien :: ps)) u =
      (.running (f.setProg (.out .w8 ⟨.command, k⟩ (b.setWidth 32) :: .outNien :: ps)),
      portWrite h .w8 devctlPort ((hobByte d.dr.nien).setWidth 32) u) := by
    subst hf
    simp only [frameStep, microStep, v.dev, Frame.setProg]
  rw [show n + 3 = (n + 2) + 1 from rfl, runFrame_running e1]
  have e2 : frameStep (f.setProg (.out .w8 ⟨.command, k⟩ (b.setWidth 32) :: .outNien :: ps))
      (portWrite h .w8 devctlPort ((hobByte d.dr.nien).setWidth 32) u) =
      (.running (f.setProg (.outNien :: ps)), portWrite h .w8 ⟨.command, k⟩ (b.setWidth 32)
        (portWrite h .w8 devctlPort ((hobByte d.dr.nien).setWidth 32) u)) := by
    subst hf
    simp only [frameStep, microStep, Frame.setProg]
  rw [show n + 2 = (n + 1) + 1 from rfl, runFrame_running e2]
  apply runFrame_running
  subst hf
  simp only [frameStep, microStep, v2.dev, Frame.setProg]

/-- A byte written to a two-deep register outside a bracket, HOB clear. -/
theorem View.run_fifo (v : View h s u d blk ctl ans evs) (hf : f.ops.dev = h) {k : Nat}
    (hk : k = 2 ∨ k = 3 ∨ k = 4 ∨ k = 5) (b : Byte) (hc : flag ctl Config.hobBit = false) :
    ∃ u2, (∀ n ps, runFrame (n + 1) (f.setProg (.out .w8 ⟨.command, k⟩ (b.setWidth 32) :: ps)) u =
        runFrame n (f.setProg ps) u2) ∧
      View h s u2 d (blk.push k false b) ctl ans
        (evs ++ [.write .w8 (d.dr.base + BitVec.ofNat 16 k) (b.setWidth 32)]) := by
  have v1 := v.write_fifo hk b
  rw [hc] at v1
  refine ⟨_, fun n ps => ?_, v1⟩
  apply runFrame_running
  subst hf
  simp only [frameStep, microStep, Frame.setProg]

/-- A byte written to COMMAND. -/
theorem View.run_command (v : View h s u d blk ctl ans evs) (hf : f.ops.dev = h) (b : Byte) :
    ∃ u2, (∀ n ps, runFrame (n + 1) (f.setProg (.out .w8 ⟨.command, 7⟩ (b.setWidth 32) :: ps)) u =
        runFrame n (f.setProg ps) u2) ∧
      View h s u2 d (blk.setCurrent (blk.current.takeCommand b (flag ctl Config.nienBit))) ctl ans
        (evs ++ [.write .w8 (d.dr.base + 7#16) (b.setWidth 32)]) := by
  refine ⟨_, fun n ps => ?_, v.write_command b⟩
  apply runFrame_running
  subst hf
  simp only [frameStep, microStep, Frame.setProg]

/-! ## The parameter writes of a transfer -/

/-- The command block after the eight parameter writes (R276). -/
def CmdBlock.programmed (blk : CmdBlock) (start : Lba) (count : Word) : CmdBlock :=
  (((((((blk.push 2 true (byteAt count 1)).push 3 true (byteAt start 3)).push 4 true (byteAt start 4)).push 5 true
    (byteAt start 5)).push 2 false (byteAt count 0)).push 3 false (byteAt start 0)).push 4 false
    (byteAt start 1)).push 5 false (byteAt start 2)

/-- The events of one bracketed write. -/
def bracketEvents (dr : DeviceRegs) (k : Nat) (b : Byte) : List PortEvent :=
  [.write .w8 dr.ctrl ((hobByte dr.nien).setWidth 32), .write .w8 (dr.base + BitVec.ofNat 16 k) (b.setWidth 32),
    .write .w8 dr.ctrl ((nienByte dr.nien).setWidth 32)]

/-- The events of the eight parameter writes. -/
def programmedEvents (dr : DeviceRegs) (start : Lba) (count : Word) : List PortEvent :=
  bracketEvents dr 2 (byteAt count 1) ++ bracketEvents dr 3 (byteAt start 3) ++ bracketEvents dr 4 (byteAt start 4) ++
    bracketEvents dr 5 (byteAt start 5) ++
    [.write .w8 (dr.base + 2#16) ((byteAt count 0).setWidth 32), .write .w8 (dr.base + 3#16) ((byteAt start 0).setWidth 32),
      .write .w8 (dr.base + 4#16) ((byteAt start 1).setWidth 32),
      .write .w8 (dr.base + 5#16) ((byteAt start 2).setWidth 32)]

/-- The steps of the eight parameter writes. -/
theorem programParameters_eq (start : Lba) (count : Word) (ps : List Micro) :
    programParameters start count ++ ps =
      .outHob :: .out .w8 ⟨.command, 2⟩ ((byteAt count 1).setWidth 32) :: .outNien ::
      .outHob :: .out .w8 ⟨.command, 3⟩ ((byteAt start 3).setWidth 32) :: .outNien ::
      .outHob :: .out .w8 ⟨.command, 4⟩ ((byteAt start 4).setWidth 32) :: .outNien ::
      .outHob :: .out .w8 ⟨.command, 5⟩ ((byteAt start 5).setWidth 32) :: .outNien ::
      .out .w8 ⟨.command, 2⟩ ((byteAt count 0).setWidth 32) :: .out .w8 ⟨.command, 3⟩ ((byteAt start 0).setWidth 32) ::
      .out .w8 ⟨.command, 4⟩ ((byteAt start 1).setWidth 32) ::
      .out .w8 ⟨.command, 5⟩ ((byteAt start 2).setWidth 32) :: ps := rfl

/-- The eight parameter writes, 16 steps (R276, R97). -/
theorem View.run_program (v : View h s u d blk ctl ans evs) (hf : f.ops.dev = h) (start : Lba) (count : Word) :
    ∃ u2, (∀ n ps, runFrame (n + 16) (f.setProg (programParameters start count ++ ps)) u =
        runFrame n (f.setProg ps) u2) ∧
      View h s u2 d (blk.programmed start count) (nienByte d.dr.nien) ans
        (evs ++ programmedEvents d.dr start count) := by
  have hc : flag (nienByte d.dr.nien) Config.hobBit = false := by cases d.dr.nien <;> rfl
  obtain ⟨u1, r1, v1⟩ := v.run_bracket hf (k := 2) (by simp) (byteAt count 1)
  obtain ⟨u2, r2, v2⟩ := v1.run_bracket hf (k := 3) (by simp) (byteAt start 3)
  obtain ⟨u3, r3, v3⟩ := v2.run_bracket hf (k := 4) (by simp) (byteAt start 4)
  obtain ⟨u4, r4, v4⟩ := v3.run_bracket hf (k := 5) (by simp) (byteAt start 5)
  obtain ⟨u5, r5, v5⟩ := v4.run_fifo hf (k := 2) (by simp) (byteAt count 0) hc
  obtain ⟨u6, r6, v6⟩ := v5.run_fifo hf (k := 3) (by simp) (byteAt start 0) hc
  obtain ⟨u7, r7, v7⟩ := v6.run_fifo hf (k := 4) (by simp) (byteAt start 1) hc
  obtain ⟨u8, r8, v8⟩ := v7.run_fifo hf (k := 5) (by simp) (byteAt start 2) hc
  refine ⟨u8, fun n ps => ?_, ?_⟩
  · rw [programParameters_eq, show n + 16 = n + 13 + 3 from rfl, r1, show n + 13 = n + 10 + 3 from rfl, r2, show n + 10 = n + 7 + 3 from rfl,
      r3, show n + 7 = n + 4 + 3 from rfl, r4,
      show n + 4 = n + 3 + 1 from rfl, r5, show n + 3 = n + 2 + 1 from rfl, r6, show n + 2 = n + 1 + 1 from rfl, r7, r8]
  · simpa [CmdBlock.programmed, programmedEvents, bracketEvents] using v8

/-- The steps S1 to S6 of a transfer whose device is ready at once, 22 steps: it is idle before and after it is
selected, and ready after (R272, R273, R276, R277). -/
theorem View.run_prologue {a b c : Dword} (v : View h s u d blk ctl (a :: b :: c :: ans) evs) (hf : f.ops.dev = h)
    (async : Bool) (o : Operands) (ha : (blk.seen a).getLsbD 7 = false)
    (hb : (CmdBlock.seen { blk with device := devSelByte d.dr.slave } b).getLsbD 7 = false)
    (hc : (CmdBlock.seen { blk with device := devSelByte d.dr.slave } c).getLsbD 6 = true) :
    ∃ u2, (∀ n ps, runFrame (n + 22) (f.setProg (transferPrologue async o ++ ps)) u = runFrame n (f.setProg ps) u2) ∧
      View h s u2 { d with dr := { d.dr with nien := !async } }
        (CmdBlock.programmed { blk with device := devSelByte d.dr.slave } o.startSector o.sectorCount)
        (nienByte (!async)) ans
        (evs ++ ([.read .w8 (d.dr.base + 7#16) ((blk.seen a).setWidth 32),
          .write .w8 (d.dr.base + 6#16) ((devSelByte d.dr.slave).setWidth 32),
          .read .w8 (d.dr.base + 7#16)
            ((CmdBlock.seen { blk with device := devSelByte d.dr.slave } b).setWidth 32),
          .read .w8 (d.dr.base + 7#16)
            ((CmdBlock.seen { blk with device := devSelByte d.dr.slave } c).setWidth 32),
          .write .w8 d.dr.ctrl ((nienByte (!async)).setWidth 32)] ++
          programmedEvents { d.dr with nien := !async } o.startSector o.sectorCount)) := by
  obtain ⟨u1, r1, v1⟩ := v.run_wait hf (bit := 7) (by decide) ha
  obtain ⟨u2, r2, v2⟩ := v1.run_select hf
  obtain ⟨u3, r3, v3⟩ := v2.run_wait hf (bit := 7) (by decide) hb
  obtain ⟨u4, r4, v4⟩ := v3.run_wait hf (bit := 6) (by decide) hc
  obtain ⟨u5, r5, v5⟩ := v4.run_nien hf (!async)
  obtain ⟨u6, r6, v6⟩ := v5.run_program hf o.startSector o.sectorCount
  refine ⟨u6, fun n ps => ?_, by simpa using v6⟩
  have e : transferPrologue async o ++ ps = .waitStatus 7 false :: .outSelect :: .waitStatus 7 false ::
      .waitStatus 6 true :: .setNien (!async) :: .outNien :: (programParameters o.startSector o.sectorCount ++ ps) := by
    simp [transferPrologue, waitIdle, waitReady, programNien, Config.busyBit, Config.drdyBit]
  rw [e, show n + 22 = n + 21 + 1 from rfl, r1, show n + 21 = n + 20 + 1 from rfl, r2,
    show n + 20 = n + 19 + 1 from rfl, r3, show n + 19 = n + 18 + 1 from rfl, r4, show n + 18 = n + 16 + 2 from rfl, r5,
    r6]

end Sys2Proof.Machine
end

