-- ==== Sys2Proof/Tests/Slice0.lean ====
section
/-!
SUPPORT. The model's own tests. The expected values are those of spec/95_test_vectors.md (M, K, W, PB, B, T, I, H, O and
the programs P) and of the encoding tables of spec/30_encoding.md; and for every statement with hypotheses a witness
that meets them.
-/
namespace Sys2Proof.Tests

open Sys2Proof Sys2Proof.Machine Sys2Proof.Statement

/-! ## Small states -/

/-- The primary master of the vectors, brought up. -/
def primaryMaster : Device :=
  { dr := { base := 0x01F0#16, ctrl := 0x03F6#16, bm := 0xC000#16, nien := false, secondary := false, slave := false
            totalSectors := 0#48, irq := .legacy 14 }
    ct := CurrentTransfer.reset, phase := .up, registered := true, handlerFault := none }

/-- The secondary slave of the vectors, brought up. -/
def secondarySlave : Device :=
  { dr := { base := 0x0170#16, ctrl := 0x0376#16, bm := 0xC008#16, nien := false, secondary := true, slave := true
            totalSectors := 0#48, irq := .legacy 15 }
    ct := CurrentTransfer.reset, phase := .up, registered := true, handlerFault := none }

/-- The operands of a request on the device `h`, all pointers valid. -/
def operands (h : Handle) : Operands :=
  { Operands.zero with dev := h, devValid := true, bufValid := true, outValid := true }

/-- A state with both devices up, a request with these operands latched, and these answers listed. -/
def ready (ctx : Context) (slice : Nat) (o : Operands) (answers : List Dword) : State :=
  { State.reset with
    devs := { State.reset.devs with d0 := primaryMaster, d1 := secondarySlave }
    env := { Env.reset with answers := answers }
    port := { word := ⟨.acc, []⟩, ops := o, ctx := ctx, slice := slice } }

/-- A thread's request on the primary master. -/
def thread (o : Operands) (answers : List Dword) : State := ready .thread 64 o answers

/-- A delivery to the primary master whose IRQ bit and transfer state are given. -/
def delivery (irq : Bool) (t : TsmState) (answers : List Dword) : State :=
  let s := ready .interrupt 64 (operands .d0) answers
  let s1 := { s with devs := { s.devs with d0 := { primaryMaster with ct := { state := t, event := false, prdt := none } } } }
  if irq then { s1 with env := { s1.env with bm := [(0xC000, { BusMaster.reset with irq := true })] } } else s1

/-- The primary master with `dr.nien` set. -/
def suppressed (s : State) : State :=
  { s with devs := { s.devs with d0 := { primaryMaster with dr := { primaryMaster.dr with nien := true } } } }

/-- What a test looks at: the port events, the results and the faults of a next state. -/
def seen (o : Host.Outcome State Fault Refusal) : Option (List PortEvent × List Result × List Fault) :=
  match o with
  | .next t => some (t.trace, t.returns.map (·.result), t.faults.map (·.fault))
  | _ => none

/-- One field of a next state. -/
def after {α : Type} (o : Host.Outcome State Fault Refusal) (f : State → α) : Option α :=
  match o with
  | .next t => some (f t)
  | _ => none

/-- The refusal of an outcome. -/
def refusedWith (o : Host.Outcome State Fault Refusal) : Option Refusal :=
  match o with
  | .refused r => some r
  | _ => none

/-! ## WellFormed: one ill-formed request for each check -/

/-- A request with a word and otherwise zero operands. -/
def bare (word : PortWord) : Request := { word := word, ops := Operands.zero, ctx := .thread, slice := 0 }

theorem test_wellFormed_refuses_a_word_of_three_bytes :
    Request.WellFormed (bare ⟨.acc, [0x07#8, 0x00#8, 0x00#8]⟩) .rdStatus = false := by decide

theorem test_wellFormed_refuses_bits_above_an_acc_word :
    Request.WellFormed (bare ⟨.acc, [0x07#8, 0x08#8]⟩) .rdStatus = false := by decide

theorem test_wellFormed_refuses_a_word_count_of_zero :
    Request.WellFormed (bare ⟨.req, [0x08#8]⟩) .pioBufferRead = false := by decide

theorem test_wellFormed_accepts : Request.WellFormed (bare ⟨.acc, [0x07#8, 0x00#8]⟩) .rdStatus = true := by decide

/-! ## Decoding: words written out from the tables of R91, R93, R98 and R99 -/

/-- The byte reads: size 00, w 0, the offset (R91, R93). -/
theorem test_decode_byte_reads :
    decode ⟨.acc, [0b00000000#8, 0b00000000#8]⟩ = .instr .rdData ∧
    decode ⟨.acc, [0b00000001#8, 0b00000000#8]⟩ = .instr .rdError ∧
    decode ⟨.acc, [0b00000010#8, 0b00000000#8]⟩ = .instr .rdSeccount0 ∧
    decode ⟨.acc, [0b00000011#8, 0b00000000#8]⟩ = .instr .rdLba0 ∧
    decode ⟨.acc, [0b00000100#8, 0b00000000#8]⟩ = .instr .rdLba1 ∧
    decode ⟨.acc, [0b00000101#8, 0b00000000#8]⟩ = .instr .rdLba2 ∧
    decode ⟨.acc, [0b00000110#8, 0b00000000#8]⟩ = .instr .rdDevice ∧
    decode ⟨.acc, [0b00000111#8, 0b00000000#8]⟩ = .instr .rdStatus ∧
    decode ⟨.acc, [0b00001000#8, 0b00000000#8]⟩ = .instr .rdSeccount1 ∧
    decode ⟨.acc, [0b00001001#8, 0b00000000#8]⟩ = .instr .rdLba3 ∧
    decode ⟨.acc, [0b00001010#8, 0b00000000#8]⟩ = .instr .rdLba4 ∧
    decode ⟨.acc, [0b00001011#8, 0b00000000#8]⟩ = .instr .rdLba5 ∧
    decode ⟨.acc, [0b00001100#8, 0b00000000#8]⟩ = .instr .rdAltstatus ∧
    decode ⟨.acc, [0b00001101#8, 0b00000000#8]⟩ = .instr .rdCtl1 ∧
    decode ⟨.acc, [0b00001110#8, 0b00000000#8]⟩ = .instr .rdBuscmd ∧
    decode ⟨.acc, [0b00001111#8, 0b00000000#8]⟩ = .instr .rdBm1 ∧
    decode ⟨.acc, [0b00010000#8, 0b00000000#8]⟩ = .instr .rdBusstatus ∧
    decode ⟨.acc, [0b00010001#8, 0b00000000#8]⟩ = .instr .rdBm3 ∧
    decode ⟨.acc, [0b00010010#8, 0b00000000#8]⟩ = .instr .rdPrdtaddr0 ∧
    decode ⟨.acc, [0b00010011#8, 0b00000000#8]⟩ = .instr .rdPrdtaddr1 ∧
    decode ⟨.acc, [0b00010100#8, 0b00000000#8]⟩ = .instr .rdPrdtaddr2 ∧
    decode ⟨.acc, [0b00010101#8, 0b00000000#8]⟩ = .instr .rdPrdtaddr3 := by decide

/-- The byte writes: size 00, w 1, the offset (R91, R93). -/
theorem test_decode_byte_writes :
    decode ⟨.acc, [0b00000000#8, 0b00000001#8]⟩ = .instr .wrData ∧
    decode ⟨.acc, [0b00000001#8, 0b00000001#8]⟩ = .instr .wrFeatures ∧
    decode ⟨.acc, [0b00000010#8, 0b00000001#8]⟩ = .instr .wrSeccount0 ∧
    decode ⟨.acc, [0b00000011#8, 0b00000001#8]⟩ = .instr .wrLba0 ∧
    decode ⟨.acc, [0b00000100#8, 0b00000001#8]⟩ = .instr .wrLba1 ∧
    decode ⟨.acc, [0b00000101#8, 0b00000001#8]⟩ = .instr .wrLba2 ∧
    decode ⟨.acc, [0b00000110#8, 0b00000001#8]⟩ = .instr .wrDevice ∧
    decode ⟨.acc, [0b00000111#8, 0b00000001#8]⟩ = .instr .wrCommand ∧
    decode ⟨.acc, [0b00001000#8, 0b00000001#8]⟩ = .instr .wrSeccount1 ∧
    decode ⟨.acc, [0b00001001#8, 0b00000001#8]⟩ = .instr .wrLba3 ∧
    decode ⟨.acc, [0b00001010#8, 0b00000001#8]⟩ = .instr .wrLba4 ∧
    decode ⟨.acc, [0b00001011#8, 0b00000001#8]⟩ = .instr .wrLba5 ∧
    decode ⟨.acc, [0b00001100#8, 0b00000001#8]⟩ = .instr .wrDevctl ∧
    decode ⟨.acc, [0b00001101#8, 0b00000001#8]⟩ = .instr .wrCtl1 ∧
    decode ⟨.acc, [0b00001110#8, 0b00000001#8]⟩ = .instr .wrBuscmd ∧
    decode ⟨.acc, [0b00001111#8, 0b00000001#8]⟩ = .instr .wrBm1 ∧
    decode ⟨.acc, [0b00010000#8, 0b00000001#8]⟩ = .instr .wrBusstatus ∧
    decode ⟨.acc, [0b00010001#8, 0b00000001#8]⟩ = .instr .wrBm3 ∧
    decode ⟨.acc, [0b00010010#8, 0b00000001#8]⟩ = .instr .wrPrdtaddr0 ∧
    decode ⟨.acc, [0b00010011#8, 0b00000001#8]⟩ = .instr .wrPrdtaddr1 ∧
    decode ⟨.acc, [0b00010100#8, 0b00000001#8]⟩ = .instr .wrPrdtaddr2 ∧
    decode ⟨.acc, [0b00010101#8, 0b00000001#8]⟩ = .instr .wrPrdtaddr3 := by decide

/-- The wide accesses 0x200, 0x300 and 0x512 (R94). -/
theorem test_decode_wide_accesses :
    decode ⟨.acc, [0b00000000#8, 0b00000010#8]⟩ = .instr .rd16Data ∧
    decode ⟨.acc, [0b00000000#8, 0b00000011#8]⟩ = .instr .wr16Data ∧
    decode ⟨.acc, [0b00010010#8, 0b00000101#8]⟩ = .instr .wr32Prdtaddr := by decide

/-- The five CMD bytes (R98). -/
theorem test_decode_commands :
    decode ⟨.cmd, [0b11101100#8]⟩ = .instr .identify ∧ decode ⟨.cmd, [0b00100100#8]⟩ = .instr .readSectorsExt ∧
    decode ⟨.cmd, [0b00110100#8]⟩ = .instr .writeSectorsExt ∧ decode ⟨.cmd, [0b00100101#8]⟩ = .instr .readDmaExt ∧
    decode ⟨.cmd, [0b00110101#8]⟩ = .instr .writeDmaExt := by decide

/-- The REQ words: `f1` in bit 5, `f0` in bit 4, `op` below (R99). -/
theorem test_decode_requests :
    decode ⟨.req, [0b00000001#8]⟩ = .instr (.initDevice false false) ∧ decode ⟨.req, [0b00010001#8]⟩ = .instr (.initDevice true false) ∧
    decode ⟨.req, [0b00100001#8]⟩ = .instr (.initDevice false true) ∧ decode ⟨.req, [0b00110001#8]⟩ = .instr (.initDevice true true) ∧
    decode ⟨.req, [0b00000010#8]⟩ = .instr (.transferSectors false false) ∧
    decode ⟨.req, [0b00010010#8]⟩ = .instr (.transferSectors true false) ∧
    decode ⟨.req, [0b00100010#8]⟩ = .instr (.transferSectors false true) ∧
    decode ⟨.req, [0b00110010#8]⟩ = .instr (.transferSectors true true) ∧
    decode ⟨.req, [0b00000011#8]⟩ = .instr .waitIdle ∧ decode ⟨.req, [0b00000100#8]⟩ = .instr .waitDrq ∧
    decode ⟨.req, [0b00000101#8]⟩ = .instr .waitReady ∧ decode ⟨.req, [0b00000110#8]⟩ = .instr .selectDevice ∧
    decode ⟨.req, [0b00000111#8]⟩ = .instr (.programNien false) ∧ decode ⟨.req, [0b00010111#8]⟩ = .instr (.programNien true) ∧
    decode ⟨.req, [0b00001000#8]⟩ = .instr .pioBufferRead ∧ decode ⟨.req, [0b00101000#8]⟩ = .instr .pioBufferWrite ∧
    decode ⟨.req, [0b00001001#8]⟩ = .instr .buildPrdt ∧ decode ⟨.req, [0b00001010#8]⟩ = .instr .tsmSubmit ∧
    decode ⟨.req, [0b00001011#8]⟩ = .instr .tsmComplete ∧ decode ⟨.req, [0b00001100#8]⟩ = .instr .tsmConsume ∧
    decode ⟨.req, [0b00001101#8]⟩ = .instr .irqHandler ∧ decode ⟨.req, [0b00001110#8]⟩ = .instr .stopDma := by decide

/-- Words that select no operation are refused, each by the name of its case (R94, R101; M-22 to M-24). -/
theorem test_decode_refuses :
    decode ⟨.acc, [0x07#8, 0x02#8]⟩ = .illegal .accWordNotData ∧ decode ⟨.acc, [0x12#8, 0x04#8]⟩ = .illegal .accDwordNotPrdtaddr ∧
    decode ⟨.acc, [0x00#8, 0x06#8]⟩ = .illegal .accReservedSize ∧ decode ⟨.acc, [0x07#8, 0x08#8]⟩ = .illegal .accUpperBits ∧
    decode ⟨.req, [0x00#8]⟩ = .illegal .reservedByte ∧ decode ⟨.req, [0x0F#8]⟩ = .illegal .reservedByte ∧
    decode ⟨.req, [0x18#8]⟩ = .illegal .reservedByte ∧ decode ⟨.req, [0x41#8]⟩ = .illegal .reservedByte ∧
    decode ⟨.req, [0x24#8]⟩ = .illegal .reservedByte ∧ decode ⟨.req, [0xEC#8]⟩ = .illegal .reservedByte ∧
    decode ⟨.cmd, [0x31#8]⟩ = .illegal .unknownCommand ∧ decode ⟨.req, [0x31#8, 0x00#8]⟩ = .illegal .badLength ∧
    decode ⟨.acc, []⟩ = .illegal .badLength := by decide

/-- M-19 and M-20: a byte access past the last range decodes and faults (R94, R126). -/
theorem test_decode_out_of_range :
    decode ⟨.acc, [0x16#8, 0x01#8]⟩ = .outOfRange true 0x16#8 ∧ decode ⟨.acc, [0xFF#8, 0x00#8]⟩ = .outOfRange false 0xFF#8 := by decide

/-- The host's numbering: bit 0 of the word is bit 0 of its first byte. -/
theorem test_decodeTableWord : decodeTableWord 11 0x512 = some .wr32Prdtaddr ∧ decodeTableWord 8 0x31 = some (.initDevice true true) := by
  decide

/-! ## Register accesses (2.1) -/

/-- M-1: one read at `dr.base + 7`. -/
theorem test_rdStatus :
    seen (exec .rdStatus (thread (operands .d0) [0xFFFFFF50#32])) =
      some ([.read .w8 0x01F7#16 0x50#32], [.byte 0x50#8], []) := by decide

/-- RD DATA: one read at `dr.base` (R130). -/
theorem test_rdData :
    seen (exec .rdData (thread (operands .d0) [0xAB#32])) =
      some ([.read .w8 0x01F0#16 0xAB#32], [.byte 0xAB#8], []) := by decide

/-- RD ERROR: one read at `dr.base + 1` (R132). -/
theorem test_rdError :
    seen (exec .rdError (thread (operands .d0) [0x04#32])) =
      some ([.read .w8 0x01F1#16 0x04#32], [.byte 0x04#8], []) := by decide

/-- M-4. -/
theorem test_rdAltstatus :
    seen (exec .rdAltstatus (thread (operands .d0) [0x51#32])) =
      some ([.read .w8 0x03F6#16 0x51#32], [.byte 0x51#8], []) := by decide

/-- M-17. -/
theorem test_rdCtl1 :
    seen (exec .rdCtl1 (thread (operands .d0) [0x77#32])) =
      some ([.read .w8 0x03F7#16 0x77#32], [.byte 0x77#8], []) := by decide

/-- M-18. -/
theorem test_rdBm1 :
    seen (exec .rdBm1 (thread (operands .d0) [0x99#32])) =
      some ([.read .w8 0xC001#16 0x99#32], [.byte 0x99#8], []) := by decide

/-- RD BM3: one read at `dr.bm + 3` (R164). -/
theorem test_rdBm3 :
    seen (exec .rdBm3 (thread (operands .d0) [0x9A#32])) =
      some ([.read .w8 0xC003#16 0x9A#32], [.byte 0x9A#8], []) := by decide

/-- RD BUSCMD: one read at `dr.bm` (R158). -/
theorem test_rdBuscmd :
    seen (exec .rdBuscmd (thread (operands .d0) [0x09#32])) =
      some ([.read .w8 0xC000#16 0x09#32], [.byte 0x09#8], []) := by decide

/-- M-10: the secondary slave; the IRQ bit is clear, the other bits are the draw's. -/
theorem test_rdBusstatus :
    seen (exec .rdBusstatus (ready .thread 64 (operands .d1) [0x65#32])) =
      some ([.read .w8 0xC00A#16 0x61#32], [.byte 0x61#8], []) := by decide

/-- RD DEVICE: bits 6 and 4 are those last written, 0 here; the others the draw's (R142). -/
theorem test_rdDevice :
    seen (exec .rdDevice (thread (operands .d0) [0xFF#32])) =
      some ([.read .w8 0x01F6#16 0xAF#32], [.byte 0xAF#8], []) := by decide

/-- A command block whose selected position holds 0x12 above 0x34 in each two-deep register. -/
def filledBlock : CmdBlock :=
  { CmdBlock.reset with master := { Taskfile.reset with
      seccount := { hi := 0x12#8, lo := 0x34#8 }, lba0 := { hi := 0x13#8, lo := 0x35#8 },
      lba1 := { hi := 0x14#8, lo := 0x36#8 }, lba2 := { hi := 0x15#8, lo := 0x37#8 } } }

/-- The primary channel with that block and DEVCTL at `ctl`. -/
def filled (ctl : Byte) (o : Operands) : State :=
  let s := thread o []
  { s with env := { s.env with cmd := [(0x01F0, filledBlock)], ctl := [(0x03F6, ctl)], answers := [0#32] } }

/-- The low half with HOB clear, the high half with HOB set (R40). -/
theorem test_rdSeccount0 :
    seen (exec .rdSeccount0 (filled 0x02#8 (operands .d0))) =
      some ([.read .w8 0x01F2#16 0x34#32], [.byte 0x34#8], []) ∧
    seen (exec .rdSeccount0 (filled 0x80#8 (operands .d0))) =
      some ([.read .w8 0x01F2#16 0x12#32], [.byte 0x12#8], []) := by decide

/-- The low half with HOB clear, the high half with HOB set (R40). -/
theorem test_rdLba0 :
    seen (exec .rdLba0 (filled 0x02#8 (operands .d0))) =
      some ([.read .w8 0x01F3#16 0x35#32], [.byte 0x35#8], []) ∧
    seen (exec .rdLba0 (filled 0x80#8 (operands .d0))) =
      some ([.read .w8 0x01F3#16 0x13#32], [.byte 0x13#8], []) := by decide

/-- The low half with HOB clear, the high half with HOB set (R40). -/
theorem test_rdLba1 :
    seen (exec .rdLba1 (filled 0x02#8 (operands .d0))) =
      some ([.read .w8 0x01F4#16 0x36#32], [.byte 0x36#8], []) ∧
    seen (exec .rdLba1 (filled 0x80#8 (operands .d0))) =
      some ([.read .w8 0x01F4#16 0x14#32], [.byte 0x14#8], []) := by decide

/-- The low half with HOB clear, the high half with HOB set (R40). -/
theorem test_rdLba2 :
    seen (exec .rdLba2 (filled 0x02#8 (operands .d0))) =
      some ([.read .w8 0x01F5#16 0x37#32], [.byte 0x37#8], []) ∧
    seen (exec .rdLba2 (filled 0x80#8 (operands .d0))) =
      some ([.read .w8 0x01F5#16 0x15#32], [.byte 0x15#8], []) := by decide

/-- M-7: the bracket carries `dr.nien`; the device holds 0x02 afterwards. -/
theorem test_rdSeccount1 :
    seen (exec .rdSeccount1 (suppressed (filled 0x00#8 (operands .d0)))) =
      some ([.write .w8 0x03F6#16 0x82#32, .read .w8 0x01F2#16 0x12#32, .write .w8 0x03F6#16 0x02#32],
        [.byte 0x12#8], []) ∧
    after (exec .rdSeccount1 (suppressed (filled 0x00#8 (operands .d0)))) (·.devctl 0x03F6#16) = some 0x02#8 := by decide

/-- As M-7 for LBA3: the bracket carries `dr.nien`; the device holds 0x02 afterwards. -/
theorem test_rdLba3 :
    seen (exec .rdLba3 (suppressed (filled 0x00#8 (operands .d0)))) =
      some ([.write .w8 0x03F6#16 0x82#32, .read .w8 0x01F3#16 0x13#32, .write .w8 0x03F6#16 0x02#32],
        [.byte 0x13#8], []) ∧
    after (exec .rdLba3 (suppressed (filled 0x00#8 (operands .d0)))) (·.devctl 0x03F6#16) = some 0x02#8 := by decide

/-- As M-7 for LBA4: the bracket carries `dr.nien`; the device holds 0x02 afterwards. -/
theorem test_rdLba4 :
    seen (exec .rdLba4 (suppressed (filled 0x00#8 (operands .d0)))) =
      some ([.write .w8 0x03F6#16 0x82#32, .read .w8 0x01F4#16 0x14#32, .write .w8 0x03F6#16 0x02#32],
        [.byte 0x14#8], []) ∧
    after (exec .rdLba4 (suppressed (filled 0x00#8 (operands .d0)))) (·.devctl 0x03F6#16) = some 0x02#8 := by decide

/-- M-8, with `dr.nien = 1`: the bracket carries `dr.nien`; the device holds 0x02 afterwards. -/
theorem test_rdLba5 :
    seen (exec .rdLba5 (suppressed (filled 0x00#8 (operands .d0)))) =
      some ([.write .w8 0x03F6#16 0x82#32, .read .w8 0x01F5#16 0x15#32, .write .w8 0x03F6#16 0x02#32],
        [.byte 0x15#8], []) ∧
    after (exec .rdLba5 (suppressed (filled 0x00#8 (operands .d0)))) (·.devctl 0x03F6#16) = some 0x02#8 := by decide

/-- The primary master's bus-master block with PRDTADDR 0x12345678. -/
def withPrdt (o : Operands) : State :=
  let s := thread o [0#32]
  { s with env := { s.env with bm := [(0xC000, { BusMaster.reset with prdtaddr := 0x12345678#32 })] } }

/-- Byte lane 0 of PRDTADDR (R166 to R172). -/
theorem test_rdPrdtaddr0 :
    seen (exec .rdPrdtaddr0 (withPrdt (operands .d0))) =
      some ([.read .w8 0xC004#16 0x78#32], [.byte 0x78#8], []) := by decide

/-- byte lane 0 is replaced, the others stay. -/
theorem test_wrPrdtaddr0 :
    seen (exec .wrPrdtaddr0 (withPrdt { operands .d0 with data := 0x20#32 })) =
      some ([.write .w8 0xC004#16 0x20#32], [.done], []) ∧
    after (exec .wrPrdtaddr0 (withPrdt { operands .d0 with data := 0x20#32 })) (fun t => (t.busMaster 0xC000#16).prdtaddr) =
      some 0x12345620#32 := by decide

/-- Byte lane 1 of PRDTADDR (R166 to R172). -/
theorem test_rdPrdtaddr1 :
    seen (exec .rdPrdtaddr1 (withPrdt (operands .d0))) =
      some ([.read .w8 0xC005#16 0x56#32], [.byte 0x56#8], []) := by decide

/-- byte lane 1 is replaced, the others stay. -/
theorem test_wrPrdtaddr1 :
    seen (exec .wrPrdtaddr1 (withPrdt { operands .d0 with data := 0x20#32 })) =
      some ([.write .w8 0xC005#16 0x20#32], [.done], []) ∧
    after (exec .wrPrdtaddr1 (withPrdt { operands .d0 with data := 0x20#32 })) (fun t => (t.busMaster 0xC000#16).prdtaddr) =
      some 0x12342078#32 := by decide

/-- Byte lane 2 of PRDTADDR (R166 to R172). -/
theorem test_rdPrdtaddr2 :
    seen (exec .rdPrdtaddr2 (withPrdt (operands .d0))) =
      some ([.read .w8 0xC006#16 0x34#32], [.byte 0x34#8], []) := by decide

/-- M-13: byte lane 2 is replaced, the others stay. -/
theorem test_wrPrdtaddr2 :
    seen (exec .wrPrdtaddr2 (withPrdt { operands .d0 with data := 0x20#32 })) =
      some ([.write .w8 0xC006#16 0x20#32], [.done], []) ∧
    after (exec .wrPrdtaddr2 (withPrdt { operands .d0 with data := 0x20#32 })) (fun t => (t.busMaster 0xC000#16).prdtaddr) =
      some 0x12205678#32 := by decide

/-- Byte lane 3 of PRDTADDR (R166 to R172). -/
theorem test_rdPrdtaddr3 :
    seen (exec .rdPrdtaddr3 (withPrdt (operands .d0))) =
      some ([.read .w8 0xC007#16 0x12#32], [.byte 0x12#8], []) := by decide

/-- byte lane 3 is replaced, the others stay. -/
theorem test_wrPrdtaddr3 :
    seen (exec .wrPrdtaddr3 (withPrdt { operands .d0 with data := 0x20#32 })) =
      some ([.write .w8 0xC007#16 0x20#32], [.done], []) ∧
    after (exec .wrPrdtaddr3 (withPrdt { operands .d0 with data := 0x20#32 })) (fun t => (t.busMaster 0xC000#16).prdtaddr) =
      some 0x20345678#32 := by decide

/-- WR DATA: one write at `dr.base` (R131). -/
theorem test_wrData :
    seen (exec .wrData (thread { operands .d0 with data := 0x5A#32 } [])) =
      some ([.write .w8 0x01F0#16 0x5A#32], [.done], []) := by decide

/-- WR FEATURES: the register holds the byte (R133). -/
theorem test_wrFeatures :
    seen (exec .wrFeatures (thread { operands .d0 with data := 0x5A#32 } [])) =
      some ([.write .w8 0x01F1#16 0x5A#32], [.done], []) ∧
    after (exec .wrFeatures (thread { operands .d0 with data := 0x5A#32 } [])) (fun t => (t.cmdBlock 0x01F0#16).current.features) = some 0x5A#8 := by decide

/-- WR DEVICE: the latch selects the slave (R143). -/
theorem test_wrDevice :
    seen (exec .wrDevice (thread { operands .d0 with data := 0x50#32 } [])) =
      some ([.write .w8 0x01F6#16 0x50#32], [.done], []) ∧
    after (exec .wrDevice (thread { operands .d0 with data := 0x50#32 } [])) (fun t => (t.cmdBlock 0x01F0#16).selectsSlave) = some true := by decide

/-- M-2. -/
theorem test_wrCommand :
    seen (exec .wrCommand (thread { operands .d0 with data := 0x25#32 } [])) =
      some ([.write .w8 0x01F7#16 0x25#32], [.done], []) ∧
    after (exec .wrCommand (thread { operands .d0 with data := 0x25#32 } [])) (fun t => (t.cmdBlock 0x01F0#16).current.command) = some 0x25#8 := by decide

/-- M-3. -/
theorem test_wrDevctl :
    seen (exec .wrDevctl (thread { operands .d0 with data := 0x02#32 } [])) =
      some ([.write .w8 0x03F6#16 0x02#32], [.done], []) ∧
    after (exec .wrDevctl (thread { operands .d0 with data := 0x02#32 } [])) (·.devctl 0x03F6#16) = some 0x02#8 := by decide

/-- WR CTL1: one write, no effect kept (R157). -/
theorem test_wrCtl1 :
    seen (exec .wrCtl1 (thread { operands .d0 with data := 0x11#32 } [])) =
      some ([.write .w8 0x03F7#16 0x11#32], [.done], []) := by decide

/-- M-11. -/
theorem test_wrBuscmd :
    seen (exec .wrBuscmd (thread { operands .d0 with data := 0x09#32 } [])) =
      some ([.write .w8 0xC000#16 0x09#32], [.done], []) ∧
    after (exec .wrBuscmd (thread { operands .d0 with data := 0x09#32 } [])) (fun t => (t.busMaster 0xC000#16).buscmd) = some 0x09#8 := by decide

/-- WR BM1: one write, no effect kept (R161). -/
theorem test_wrBm1 :
    seen (exec .wrBm1 (thread { operands .d0 with data := 0x11#32 } [])) =
      some ([.write .w8 0xC001#16 0x11#32], [.done], []) := by decide

/-- WR BM3: one write, no effect kept (R165). -/
theorem test_wrBm3 :
    seen (exec .wrBm3 (thread { operands .d0 with data := 0x11#32 } [])) =
      some ([.write .w8 0xC003#16 0x11#32], [.done], []) := by decide

/-- M-12: the 1 in bit 2 clears the IRQ bit; a byte without it leaves the bit (R163). -/
theorem test_wrBusstatus :
    seen (exec .wrBusstatus
      { delivery true .free [] with port := { word := ⟨.acc, []⟩, ops := { operands .d0 with data := 4#32 }, ctx := .thread, slice := 2 } }) =
      some ([.write .w8 0xC002#16 0x04#32], [.done], []) ∧
    [4#32, 0xFB#32].map (fun v => after (exec .wrBusstatus
      { delivery true .free [] with port := { word := ⟨.acc, []⟩, ops := { operands .d0 with data := v }, ctx := .thread, slice := 2 } })
      (fun t => (t.busMaster 0xC000#16).irq)) = [some false, some true] := by decide

/-- WR SECCOUNT0: one write at `dr.base + 2`, no bracket. -/
theorem test_wrSeccount0 :
    seen (exec .wrSeccount0 (thread { operands .d0 with data := 0x78#32 } [])) =
      some ([.write .w8 0x01F2#16 0x78#32], [.done], []) := by decide

/-- WR LBA0: one write at `dr.base + 3`, no bracket. -/
theorem test_wrLba0 :
    seen (exec .wrLba0 (thread { operands .d0 with data := 0x78#32 } [])) =
      some ([.write .w8 0x01F3#16 0x78#32], [.done], []) := by decide

/-- WR LBA1: one write at `dr.base + 4`, no bracket. -/
theorem test_wrLba1 :
    seen (exec .wrLba1 (thread { operands .d0 with data := 0x78#32 } [])) =
      some ([.write .w8 0x01F4#16 0x78#32], [.done], []) := by decide

/-- WR LBA2: one write at `dr.base + 5`, no bracket. -/
theorem test_wrLba2 :
    seen (exec .wrLba2 (thread { operands .d0 with data := 0x78#32 } [])) =
      some ([.write .w8 0x01F5#16 0x78#32], [.done], []) := by decide

/-- As M-6 for SECCOUNT1: the bracket with `dr.nien = 0`. -/
theorem test_wrSeccount1 :
    seen (exec .wrSeccount1 (thread { operands .d0 with data := 0x12#32 } [])) =
      some ([.write .w8 0x03F6#16 0x80#32, .write .w8 0x01F2#16 0x12#32, .write .w8 0x03F6#16 0x00#32], [.done], []) := by decide

/-- M-6: the bracket with `dr.nien = 0`. -/
theorem test_wrLba3 :
    seen (exec .wrLba3 (thread { operands .d0 with data := 0x12#32 } [])) =
      some ([.write .w8 0x03F6#16 0x80#32, .write .w8 0x01F3#16 0x12#32, .write .w8 0x03F6#16 0x00#32], [.done], []) := by decide

/-- As M-9, on the primary master: the bracket with `dr.nien = 0`. -/
theorem test_wrLba4 :
    seen (exec .wrLba4 (thread { operands .d0 with data := 0x12#32 } [])) =
      some ([.write .w8 0x03F6#16 0x80#32, .write .w8 0x01F4#16 0x12#32, .write .w8 0x03F6#16 0x00#32], [.done], []) := by decide

/-- As M-6 for LBA5: the bracket with `dr.nien = 0`. -/
theorem test_wrLba5 :
    seen (exec .wrLba5 (thread { operands .d0 with data := 0x12#32 } [])) =
      some ([.write .w8 0x03F6#16 0x80#32, .write .w8 0x01F5#16 0x12#32, .write .w8 0x03F6#16 0x00#32], [.done], []) := by decide

/-- M-5: the bracket with `dr.nien = 1`. -/
theorem test_wrLba3_nien :
    seen (exec .wrLba3 (suppressed (thread { operands .d0 with data := 0x12#32 } []))) =
      some ([.write .w8 0x03F6#16 0x82#32, .write .w8 0x01F3#16 0x12#32, .write .w8 0x03F6#16 0x02#32], [.done], []) := by decide

/-- M-14. -/
theorem test_wr32Prdtaddr :
    seen (exec .wr32Prdtaddr (thread { operands .d0 with data := 0x00200000#32 } [])) =
      some ([.write .w32 0xC004#16 0x00200000#32], [.done], []) ∧
    after (exec .wr32Prdtaddr (thread { operands .d0 with data := 0x00200000#32 } []))
      (fun t => (t.busMaster 0xC000#16).prdtaddr) = some 0x00200000#32 := by decide

/-- M-15. -/
theorem test_rd16Data :
    seen (exec .rd16Data (thread (operands .d0) [0xBEEF#32])) =
      some ([.read .w16 0x01F0#16 0xBEEF#32], [.word 0xBEEF#16], []) := by decide

/-- M-16. -/
theorem test_wr16Data :
    seen (exec .wr16Data (thread { operands .d0 with data := 0x1234#32 } [])) =
      some ([.write .w16 0x01F0#16 0x1234#32], [.done], []) := by decide

/-- M-21: `dr.base = 0xFFFC`, STATUS is at 0x0003. -/
theorem test_address_wraps :
    seen (exec .rdStatus
      { thread (operands .d0) [0x50#32] with
        devs := { State.reset.devs with d0 := { primaryMaster with dr := { primaryMaster.dr with base := 0xFFFC#16 } } } }) =
      some ([.read .w8 0x0003#16 0x50#32], [.byte 0x50#8], []) := by decide

/-- M-19: no port event, the fault with the offset. -/
theorem test_out_of_range_faults :
    seen (takeCall { word := ⟨.acc, [0x16#8, 0x01#8]⟩, ops := operands .d0, ctx := .thread, slice := 4 } (thread (operands .d0) [])) =
      some ([], [], [.unreachableOffset 0x16#8]) := by decide

/-- The boundaries of the four ranges (R92): 0x07, 0x08, 0x0B, 0x0C, 0x0D, 0x0E, 0x15, 0x16. -/
theorem test_routes :
    [0x07, 0x08, 0x0B, 0x0C, 0x0D, 0x0E, 0x15].map
      (fun off => (route off).map (fun r => (portAddr primaryMaster.dr r.port, r.bracketed))) =
      [some (0x01F7#16, false), some (0x01F2#16, true), some (0x01F5#16, true), some (0x03F6#16, false),
        some (0x03F7#16, false), some (0xC000#16, false), some (0xC007#16, false)] ∧ route 0x16 = none := by decide

/-! ## Commands and constants (2.2) -/

/-- One write of the command byte to COMMAND (K-5 to K-9). -/
theorem test_identify :
    seen (exec .identify (thread (operands .d0) [])) = some ([.write .w8 0x01F7#16 0xEC#32], [.done], []) := by decide

/-- One write of the command byte to COMMAND (K-5 to K-9). -/
theorem test_readSectorsExt :
    seen (exec .readSectorsExt (thread (operands .d0) [])) = some ([.write .w8 0x01F7#16 0x24#32], [.done], []) := by decide

/-- One write of the command byte to COMMAND (K-5 to K-9). -/
theorem test_writeSectorsExt :
    seen (exec .writeSectorsExt (thread (operands .d0) [])) = some ([.write .w8 0x01F7#16 0x34#32], [.done], []) := by decide

/-- One write of the command byte to COMMAND (K-5 to K-9). -/
theorem test_readDmaExt :
    seen (exec .readDmaExt (thread (operands .d0) [])) = some ([.write .w8 0x01F7#16 0x25#32], [.done], []) := by decide

/-- One write of the command byte to COMMAND (K-5 to K-9). -/
theorem test_writeDmaExt :
    seen (exec .writeDmaExt (thread (operands .d0) [])) = some ([.write .w8 0x01F7#16 0x35#32], [.done], []) := by decide

/-- K-1 to K-13. -/
theorem test_constant_bytes :
    [devSelByte false, devSelByte true, nienByte false, nienByte true, hobByte false, hobByte true, cmdByte false false,
      cmdByte true false, cmdByte false true, cmdByte true true, startByte false, startByte true,
      Config.stopByte, Config.ackByte] =
      [0x40#8, 0x50#8, 0x00#8, 0x02#8, 0x80#8, 0x82#8, 0x24#8, 0x34#8, 0x25#8, 0x35#8, 0x09#8, 0x01#8, 0x00#8, 0x04#8] := by decide

/-- K-14 and K-19: the bytes of the sector address and of the count, the least significant first. -/
theorem test_parameter_split :
    (List.range 6).map (byteAt 0xABCDEF012345#48) = [0x45#8, 0x23#8, 0x01#8, 0xEF#8, 0xCD#8, 0xAB#8] ∧
    (List.range 2).map (byteAt 0x0100#16) = [0x00#8, 0x01#8] := by decide

/-! ## Primitives (2.3, 2.4) -/

/-- W-2: three reads; W-4: ERR does not matter. -/
theorem test_waitIdle :
    seen (exec .waitIdle (thread (operands .d0) [0x80#32, 0xD0#32, 0x50#32])) =
      some ([.read .w8 0x01F7#16 0x80#32, .read .w8 0x01F7#16 0xD0#32, .read .w8 0x01F7#16 0x50#32], [.done], []) ∧
    seen (exec .waitIdle (thread (operands .d0) [0x51#32])) = some ([.read .w8 0x01F7#16 0x51#32], [.done], []) := by decide

/-- W-6 and W-7: BUSY is not tested. -/
theorem test_waitDrq :
    seen (exec .waitDrq (thread (operands .d0) [0x50#32, 0x58#32])) =
      some ([.read .w8 0x01F7#16 0x50#32, .read .w8 0x01F7#16 0x58#32], [.done], []) ∧
    seen (exec .waitDrq (thread (operands .d0) [0x88#32])) = some ([.read .w8 0x01F7#16 0x88#32], [.done], []) := by decide

/-- W-9. -/
theorem test_waitReady :
    seen (exec .waitReady (thread (operands .d0) [0x10#32, 0x50#32])) =
      some ([.read .w8 0x01F7#16 0x10#32, .read .w8 0x01F7#16 0x50#32], [.done], []) := by decide

/-- W-5: BUSY for ever; after a slice of three steps the thread waits at the same step. -/
theorem test_waitIdle_stuck :
    seen (exec .waitIdle (ready .thread 3 (operands .d0) [0x80#32, 0x80#32, 0x80#32])) =
      some ([.read .w8 0x01F7#16 0x80#32, .read .w8 0x01F7#16 0x80#32, .read .w8 0x01F7#16 0x80#32], [], []) ∧
    after (exec .waitIdle (ready .thread 3 (operands .d0) [0x80#32, 0x80#32, 0x80#32]))
      (fun t => t.threads.map (·.2.prog)) = some [[.waitStatus 7 false, .ret .done]] := by decide

/-- The select byte of the slave at its channel's DEVICE (R183). -/
theorem test_selectDevice :
    seen (exec .selectDevice (ready .thread 64 (operands .d1) [])) = some ([.write .w8 0x0176#16 0x50#32], [.done], []) := by decide

/-- The flag, then DEVCTL (R184). -/
theorem test_programNien :
    seen (exec (.programNien true) (thread (operands .d0) [])) = some ([.write .w8 0x03F6#16 0x02#32], [.done], []) ∧
    after (exec (.programNien true) (thread (operands .d0) [])) (fun t => (t.dev .d0).dr.nien) = some true := by decide

/-- R187. -/
theorem test_stopDma :
    seen (exec .stopDma (thread (operands .d0) [])) = some ([.write .w8 0xC000#16 0x00#32], [.done], []) := by decide

/-- PB-1: the low byte of the word at the lower address. -/
theorem test_pioBufferRead :
    seen (exec .pioBufferRead (thread { operands .d0 with words := 1, buffer := 10 } [0x58#32, 0x58#32, 0xBEEF#32])) =
      some ([.read .w8 0x01F7#16 0x58#32, .read .w8 0x01F7#16 0x58#32, .read .w16 0x01F0#16 0xBEEF#32], [.done], []) ∧
    after (exec .pioBufferRead (thread { operands .d0 with words := 1, buffer := 10 } [0x58#32, 0x58#32, 0xBEEF#32])) (·.buf) =
      some [(10, 0xEF#8), (11, 0xBE#8)] := by decide

/-- PB-2. -/
theorem test_pioBufferWrite :
    seen (exec .pioBufferWrite
      { thread { operands .d0 with words := 1 } [0x58#32, 0x58#32] with buf := [(0, 0x34#8), (1, 0x12#8)] }) =
      some ([.read .w8 0x01F7#16 0x58#32, .read .w8 0x01F7#16 0x58#32, .write .w16 0x01F0#16 0x1234#32], [.done], []) := by decide

/-! ## The builder (2.5) -/

/-- BUILD_PRDT on pairs, a request size and an answer of the allocator. -/
def building (ps : List Pair) (n : Nat) (a : Option PhysAddr) : State :=
  let s := thread { operands .d0 with pairs := ps, totalBytes := n } []
  { s with env := { s.env with allocations := [a] } }

/-- What the builder returned or raised. -/
def built (ps : List Pair) (n : Nat) (a : Option PhysAddr) : Option (List Result × List Fault) :=
  after (exec .buildPrdt (building ps n a)) (fun t => (t.returns.map (·.result), t.faults.map (·.fault)))

/-- The bytes of memory after it. -/
def tableBytes (ps : List Pair) (n : Nat) (a : Option PhysAddr) : Option (List Byte) :=
  after (exec .buildPrdt (building ps n a)) (fun t => t.mem.map (·.2))

/-- A vector of the builder: the pairs, the request size, the allocator's answer. -/
abbrev BuilderVector := List Pair × Nat × Option PhysAddr

/-- B-2 to B-5, B-9 (splits and counts), B-7, B-8 (clipping), B-11, B-25 (ends at 4 GB), B-28 (a table near 4 GB). -/
def tables : List BuilderVector := [
      ([⟨0x00100000#64, 512⟩, ⟨0x00300000#64, 1536⟩], 2048, some 0x00200000#64),
      ([⟨0x0001FF00#64, 0x200⟩], 512, some 0x00200000#64),
      ([⟨0x0001FE00#64, 0x200⟩], 512, some 0x00200000#64),
      ([⟨0x00040000#64, 65536⟩], 65536, some 0x00200000#64),
      ([⟨0x0001FFFE#64, 4⟩], 4, some 0x00200000#64),
      ([⟨0x00100000#64, 4096⟩], 512, some 0x00200000#64),
      ([⟨0x0001FF00#64, 0x1000⟩], 256, some 0x00200000#64),
      ([⟨0xFFFFFE00#64, 0x200⟩], 512, some 0x00200000#64),
      ([⟨0xFFFFFE00#64, 0x400⟩], 512, some 0x00200000#64),
      ([⟨0x00100000#64, 512⟩], 512, some 0xFFFFFFF8#64)]

theorem test_buildPrdt_tables :
    tables.map (fun v => built v.1 v.2.1 v.2.2) = [
      some ([.table { handle := 0, phys := 0x00200000#64, entries := 2 }], []),
      some ([.table { handle := 0, phys := 0x00200000#64, entries := 2 }], []),
      some ([.table { handle := 0, phys := 0x00200000#64, entries := 1 }], []),
      some ([.table { handle := 0, phys := 0x00200000#64, entries := 1 }], []),
      some ([.table { handle := 0, phys := 0x00200000#64, entries := 2 }], []),
      some ([.table { handle := 0, phys := 0x00200000#64, entries := 1 }], []),
      some ([.table { handle := 0, phys := 0x00200000#64, entries := 1 }], []),
      some ([.table { handle := 0, phys := 0x00200000#64, entries := 1 }], []),
      some ([.table { handle := 0, phys := 0x00200000#64, entries := 1 }], []),
      some ([.table { handle := 0, phys := 0xFFFFFFF8#64, entries := 1 }], [])] ∧
    tables.map (fun v => tableBytes v.1 v.2.1 v.2.2) = [
      some [0x00#8, 0x00#8, 0x10#8, 0x00#8, 0x00#8, 0x02#8, 0x00#8, 0x00#8, 0x00#8, 0x00#8, 0x30#8, 0x00#8, 0x00#8, 0x06#8, 0x00#8, 0x80#8],
      some [0x00#8, 0xFF#8, 0x01#8, 0x00#8, 0x00#8, 0x01#8, 0x00#8, 0x00#8, 0x00#8, 0x00#8, 0x02#8, 0x00#8, 0x00#8, 0x01#8, 0x00#8, 0x80#8],
      some [0x00#8, 0xFE#8, 0x01#8, 0x00#8, 0x00#8, 0x02#8, 0x00#8, 0x80#8],
      some [0x00#8, 0x00#8, 0x04#8, 0x00#8, 0x00#8, 0x00#8, 0x00#8, 0x80#8],
      some [0xFE#8, 0xFF#8, 0x01#8, 0x00#8, 0x02#8, 0x00#8, 0x00#8, 0x00#8, 0x00#8, 0x00#8, 0x02#8, 0x00#8, 0x02#8, 0x00#8, 0x00#8, 0x80#8],
      some [0x00#8, 0x00#8, 0x10#8, 0x00#8, 0x00#8, 0x02#8, 0x00#8, 0x80#8],
      some [0x00#8, 0xFF#8, 0x01#8, 0x00#8, 0x00#8, 0x01#8, 0x00#8, 0x80#8],
      some [0x00#8, 0xFE#8, 0xFF#8, 0xFF#8, 0x00#8, 0x02#8, 0x00#8, 0x80#8],
      some [0x00#8, 0xFE#8, 0xFF#8, 0xFF#8, 0x00#8, 0x02#8, 0x00#8, 0x80#8],
      some [0x00#8, 0x00#8, 0x10#8, 0x00#8, 0x00#8, 0x02#8, 0x00#8, 0x80#8]] := by decide

/-- B-12 to B-17, B-20, B-26, B-27 (statuses), B-19, B-21 to B-24 (faults). -/
def stops : List BuilderVector := [
      ([⟨0x100000000#64, 512⟩], 512, some 0x00200000#64),
      ([⟨0x00100001#64, 512⟩], 512, some 0x00200000#64),
      ([⟨0x00100000#64, 511⟩], 512, some 0x00200000#64),
      ([⟨0x00100000#64, 65538⟩], 65536, some 0x00200000#64),
      ([⟨0x00100000#64, 65537⟩], 65536, some 0x00200000#64),
      ([⟨0x100000001#64, 70001⟩], 512, some 0x00200000#64),
      ([⟨0x00100000#64, 512⟩, ⟨0x00300001#64, 512⟩], 1024, some 0x00200000#64),
      ([⟨0x00100000#64, 512⟩], 512, none),
      ([⟨0x00100000#64, 512⟩], 512, some 0x100000000#64),
      ([⟨0x00100000#64, 512⟩, ⟨0x00200000#64, 512⟩], 512, some 0x00200000#64),
      ([⟨0x00100000#64, 512⟩], 1024, some 0x00200000#64),
      ([], 512, some 0x00200000#64),
      ([⟨0x00100000#64, 0⟩, ⟨0x00100000#64, 512⟩], 512, some 0x00200000#64),
      ([⟨0xFFFFFE00#64, 0x400⟩], 1024, some 0x00200000#64)]

/-- The first check that fails decides, and no byte of the table survives. -/
theorem test_buildPrdt_stops :
    stops.map (fun v => built v.1 v.2.1 v.2.2) = [
      some ([.status .physicalAddressOutOfRange], []),
      some ([.status .misaligned], []),
      some ([.status .misaligned], []),
      some ([.status .spanTooLarge], []),
      some ([.status .misaligned], []),
      some ([.status .physicalAddressOutOfRange], []),
      some ([.status .misaligned], []),
      some ([.status .allocationFailure], []),
      some ([.status .tableAddressOutOfRange], []),
      some ([], [.emptyEntry 1]),
      some ([], [.remainingNonzero 512]),
      some ([], [.remainingNonzero 512]),
      some ([], [.emptyEntry 0]),
      some ([], [.addressTruncation 0])] ∧
    stops.map (fun v => tableBytes v.1 v.2.1 v.2.2) = List.replicate 14 (some []) := by decide

/-! ## The transfer state machine (2.6) -/

/-- The primary master with a transfer state and a table pointer. -/
def inState (ctx : Context) (t : TsmState) (p : Option PrdTable) : State :=
  let s := ready ctx 8 (operands .d0) []
  { s with
    devs := { s.devs with d0 := { primaryMaster with ct := { state := t, event := false, prdt := p } } }
    mem := [(0x200000, 0x11#8), (0x200010, 0x22#8)]
    allocs := [{ handle := 3, phys := 0x00200000#64, bytes := 16, align := 0 }]
    nextHandle := 4 }

/-- A table in that state's allocation. -/
def someTable : PrdTable := { handle := 3, phys := 0x00200000#64, entries := 1 }

/-- T-1 to T-3: InProgress from every state, silently. -/
theorem test_tsmSubmit :
    [TsmState.free, .inProgress, .finished].map (fun t => after (exec .tsmSubmit (inState .thread t none))
      (fun u => ((u.dev .d0).ct.state, u.faults))) = List.replicate 3 (some (.inProgress, [])) := by decide

/-- T-4 to T-6. -/
theorem test_tsmComplete :
    [TsmState.free, .inProgress, .finished].map (fun t => after (exec .tsmComplete (inState .interrupt t none))
      (fun u => ((u.dev .d0).ct.state, u.faults.map (·.fault)))) =
      [some (.free, [.casFailed .free]), some (.finished, []), some (.finished, [.casFailed .finished])] := by decide

/-- T-9: the table is given back with its bytes, the pointer null, the state Free. -/
theorem test_tsmConsume :
    after (exec .tsmConsume (inState .thread .finished (some someTable)))
      (fun u => ((u.dev .d0).ct, u.allocs, u.faults)) = some ({ state := .free, event := false, prdt := none }, [], []) ∧
    after (exec .tsmConsume (inState .thread .finished (some someTable))) (·.mem) = some [(0x200010, 0x22#8)] := by decide

/-- T-7 and T-8: unchanged, the table not freed. -/
theorem test_tsmConsume_faults :
    [TsmState.free, .inProgress].map (fun t => after (exec .tsmConsume (inState .thread t (some someTable)))
      (fun u => ((u.dev .d0).ct.prdt, u.allocs.length, u.faults.map (·.fault)))) =
      [some (some someTable, 1, [.consumeNotFinished .free]), some (some someTable, 1, [.consumeNotFinished .inProgress])] := by decide

/-! ## Bring-up (2.7) -/

/-- INIT_DEVICE of a device that is not brought up. -/
def bringing (slice : Nat) (pci : PciInfo) (answers : List Dword) : State :=
  { ready .thread slice { operands .d2 with pci := pci } answers with port :=
      { word := ⟨.acc, []⟩, ops := { operands .d2 with pci := pci }, ctx := .thread, slice := slice } }

/-- Legacy addresses with the bus master of the vectors. -/
def legacy : PciInfo := { usePci := false, cmdBase := 0#16, ctrlBase := 0#16, bmBase := 0xC000#16, irqRoute := 0 }

/-- I-1: a first STATUS of 0x00. -/
theorem test_initDevice_absent :
    seen (exec (.initDevice false false) (bringing 64 legacy [0x00#32])) =
      some ([.write .w8 0x03F6#16 0x02#32, .write .w8 0x01F6#16 0x40#32, .write .w8 0x01F7#16 0xEC#32, .read .w8 0x01F7#16 0x00#32],
        [.status .deviceDoesNotExist], []) := by decide

/-- I-3: ERR is tested on every pass of the poll. -/
theorem test_initDevice_error :
    seen (exec (.initDevice false false) (bringing 64 legacy [0xD0#32, 0x51#32])) =
      some ([.write .w8 0x03F6#16 0x02#32, .write .w8 0x01F6#16 0x40#32, .write .w8 0x01F7#16 0xEC#32, .read .w8 0x01F7#16 0xD0#32, .read .w8 0x01F7#16 0x51#32],
        [.status .deviceNotSupported], []) := by decide

/-- I-4: bit 10 of word 83; the sector count from words 100 to 103, word 103 dropped. -/
theorem test_identification :
    supports48 ((List.replicate 256 0#16).set 83 0x0400#16) = true ∧
    supports48 ((List.replicate 256 0#16).set 83 0xFBFF#16) = false ∧
    identSectors (((((List.replicate 256 0#16).set 100 0x5678#16).set 101 0x1234#16).set 102 0x00AB#16).set 103 0xFFFF#16) =
      0x00AB12345678#48 := by decide

/-- I-7 and I-8: legacy addresses of the secondary channel; the PCI addresses. -/
theorem test_resolve :
    (let r := resolveRegs DeviceRegs.reset legacy true true; (r.base, r.ctrl, r.bm, r.slave)) = (0x0170#16, 0x0376#16, 0xC000#16, true) ∧
    (let r := resolveRegs DeviceRegs.reset ⟨true, 0xD000#16, 0xD402#16, 0xD800#16, 7⟩ false false; (r.base, r.ctrl, r.bm, irqLine ⟨true, 0xD000#16, 0xD402#16, 0xD800#16, 7⟩ false)) =
      (0xD000#16, 0xD402#16, 0xD800#16, .pci 7) := by decide

/-! ## The handler (2.8) -/

/-- H-2: the error and active bits do not matter; H-4: the acknowledge byte is 0x04 whatever the other bits are. -/
theorem test_irqHandler :
    seen (exec .irqHandler (delivery false .inProgress [0x03#32])) =
      some ([.write .w8 0x01F6#16 0x40#32, .read .w8 0xC002#16 0x03#32], [.handled false], []) ∧
    seen (exec .irqHandler (delivery true .inProgress [0x65#32, 0x50#32])) =
      some ([.write .w8 0x01F6#16 0x40#32, .read .w8 0xC002#16 0x65#32, .read .w8 0x01F7#16 0x50#32, .write .w8 0xC000#16 0x00#32, .write .w8 0xC002#16 0x04#32],
        [.handled true], []) ∧
    after (exec .irqHandler (delivery true .inProgress [0x65#32, 0x50#32])) (fun t => (t.dev .d0).ct) =
      some { state := .finished, event := true, prdt := none } := by decide

/-- H-5: DF before ERR, no ERROR read; H-6: the log record; H-7: the engine stopped, no acknowledge. -/
theorem test_irqHandler_faults :
    seen (exec .irqHandler (delivery true .inProgress [0x04#32, 0x71#32])) =
      some ([.write .w8 0x01F6#16 0x40#32, .read .w8 0xC002#16 0x04#32, .read .w8 0x01F7#16 0x71#32], [], [.deviceFault 0x71#8]) ∧
    seen (exec .irqHandler (delivery true .inProgress [0x04#32, 0x51#32, 0x04#32])) =
      some ([.write .w8 0x01F6#16 0x40#32, .read .w8 0xC002#16 0x04#32, .read .w8 0x01F7#16 0x51#32, .read .w8 0x01F1#16 0x04#32], [],
        [.runtimeDeviceError 0x51#8 0x04#8]) ∧
    after (exec .irqHandler (delivery true .inProgress [0x04#32, 0x51#32, 0x04#32])) (·.log) =
      some [{ status := 0x51#8, error := 0x04#8 }] ∧
    seen (exec .irqHandler (delivery true .free [0x04#32, 0x50#32])) =
      some ([.write .w8 0x01F6#16 0x40#32, .read .w8 0xC002#16 0x04#32, .read .w8 0x01F7#16 0x50#32, .write .w8 0xC000#16 0x00#32], [], [.casFailed .free]) := by decide

/-! ## The orchestrator (2.9, 3) -/

/-- The state of P1: an asynchronous read of one sector; a request of `n` sectors and what `Translate` and `Alloc` answer. -/
def program1 (n : Word) (ps : List Pair) : State :=
  let s := suppressed (thread { operands .d0 with startSector := 0x000012345678#48, sectorCount := n }
    (List.replicate 3 0x50#32))
  { s with env := { s.env with translations := [ps], allocations := [some 0x00200000#64] } }

/-- P1: the 24 port events of the submitter, in order; then it waits. -/
theorem test_transfer_asyncRead :
    seen (exec (.transferSectors true false) (program1 1#16 [⟨0x00100000#64, 512⟩])) =
      some ([.read .w8 0x01F7#16 0x50#32, .write .w8 0x01F6#16 0x40#32, .read .w8 0x01F7#16 0x50#32,
        .read .w8 0x01F7#16 0x50#32, .write .w8 0x03F6#16 0x00#32, .write .w8 0x03F6#16 0x80#32,
        .write .w8 0x01F2#16 0x00#32, .write .w8 0x03F6#16 0x00#32, .write .w8 0x03F6#16 0x80#32,
        .write .w8 0x01F3#16 0x12#32, .write .w8 0x03F6#16 0x00#32, .write .w8 0x03F6#16 0x80#32,
        .write .w8 0x01F4#16 0x00#32, .write .w8 0x03F6#16 0x00#32, .write .w8 0x03F6#16 0x80#32,
        .write .w8 0x01F5#16 0x00#32, .write .w8 0x03F6#16 0x00#32, .write .w8 0x01F2#16 0x01#32,
        .write .w8 0x01F3#16 0x78#32, .write .w8 0x01F4#16 0x56#32, .write .w8 0x01F5#16 0x34#32,
        .write .w32 0xC004#16 0x00200000#32, .write .w8 0x01F7#16 0x25#32, .write .w8 0xC000#16 0x09#32], [], []) := by decide

/-- O-1 to O-4: a status and no port event; P6: the second pair is misaligned, 21 events, no command, the status. -/
theorem test_transfer_refuses :
    [{ operands .d0 with sectorCount := 0#16 }, { operands .d0 with sectorCount := 1#16, devValid := false },
      { operands .d0 with sectorCount := 1#16, bufValid := false },
      { operands .d0 with sectorCount := 1#16, outValid := false }].map
      (fun o => seen (exec (.transferSectors true false) (thread o []))) =
      List.replicate 4 (some ([], [.status .invalidParameter], [])) ∧
    after (exec (.transferSectors true false) (program1 2#16 [⟨0x00100000#64, 512⟩, ⟨0x00300001#64, 512⟩]))
      (fun t => (t.trace.length, t.returns.map (·.result), (t.dev .d0).ct)) =
      some (21, [.status .misaligned], CurrentTransfer.reset) ∧
    after (exec (.transferSectors true false) (program1 2#16 [⟨0x00100000#64, 512⟩, ⟨0x00300001#64, 512⟩])) (·.outs) = some [] := by decide

/-! ## Steps -/

/-- A turn with the word 0x007 runs RD STATUS on the request latched. -/
theorem test_step_takes_a_call :
    seen (step { thread (operands .d0) [0x50#32] with
      inputs := [.call { word := ⟨.acc, [0x07#8, 0x00#8]⟩, ops := operands .d0, ctx := .thread, slice := 2 }] }) =
      some ([.read .w8 0x01F7#16 0x50#32], [.byte 0x50#8], []) := by decide

/-- The word of a table row, placed where the next step takes its request, runs as the first instruction after reset. -/
theorem test_step_runs_the_placed_word :
    [(11, 0x007), (11, 0x10B), (8, 0xEC), (8, 0x0A), (8, 0x0E)].map (fun w =>
      after (step (State.reset.withFetchWord w.1 w.2)) (fun t => t.returns.map (·.op))) =
      [some [.rdStatus], some [.wrLba5], some [.identify], some [.tsmSubmit], some [.stopDma]] := by decide

/-- The master of the primary channel runs the command `c`, written with NIEN = 0; the table of P1 is in memory, PRDTADDR at
it, BUSCMD is `b` and the engine has come to `p`. -/
def running (c b : Byte) (p : Option DmaProgress) (t : Turn) : State :=
  let s := thread (operands .d0) []
  { s with
    mem := Memory.writeLE [] 0x200000 8 0x8000020000100000
    env := { s.env with
      cmd := [(0x01F0, { CmdBlock.reset with
        master := { Taskfile.reset with command := c, running := true, mayInterrupt := true } })]
      bm := [(0xC000, { buscmd := b, irq := false, prdtaddr := 0x00200000#32, dma := p })] }
    inputs := [t] }

/-- The engine before the first entry, in the only entry of that table with `n` bytes left, and past it. -/
def atStart : DmaProgress := { next := 0, addr := 0, left := 0, last := false }
def inEntry (n : Nat) : DmaProgress := { next := 1, addr := 0x100200 - n, left := n, last := true }

/-- The engine fetches the entry, stores inside it and not past it, and loads for a write; a read that is not set or a
command through DATA moves nothing (R33, R44, R95, R96). -/
theorem test_engine :
    after (step (running 0x25#8 0x09#8 (some atStart) (.dmaFetch .d0)))
      (fun t => ((t.busMaster 0xC000#16).dma, t.dmaTrace)) = some (some (inEntry 512), [.fetch 0x200000]) ∧
    after (step (running 0x25#8 0x09#8 (some (inEntry 2)) (.dmaStore .d0 [0x77#8, 0x78#8])))
      (fun t => ((t.busMaster 0xC000#16).dma, Memory.readLE t.mem 0x1001FE 2)) = some (some (inEntry 0), some 0x7877) ∧
    refusedWith (step (running 0x25#8 0x09#8 (some (inEntry 1)) (.dmaStore .d0 [0x77#8, 0x78#8]))) = some .notEnabled ∧
    refusedWith (step (running 0x35#8 0x01#8 (some (inEntry 1)) (.dmaStore .d0 [0x77#8]))) = some .notEnabled ∧
    refusedWith (step (running 0x24#8 0x09#8 (some (inEntry 1)) (.dmaStore .d0 [0x77#8]))) = some .notEnabled := by decide

/-- The same with the other position of the channel selected (R42). -/
def deselected (s : State) : State := s.setCmdBlock 0x01F0#16 { s.cmdBlock 0x01F0#16 with device := 0x50#8 }

/-- The completion signal: after the last entry for a DMA command, not before; not with NIEN set (R41, R43, R44, R326). -/
theorem test_signal :
    refusedWith (step (deselected (running 0x25#8 0x09#8 (some (inEntry 0)) (.signal .d0)))) = some .notEnabled ∧
    after (step (running 0x25#8 0x09#8 (some (inEntry 0)) (.signal .d0)))
      (fun t => ((t.busMaster 0xC000#16).irq, (t.cmdBlock 0x01F0#16).master.running)) = some (true, false) ∧
    after (step (running 0x24#8 0x00#8 none (.signal .d0))) (fun t => (t.busMaster 0xC000#16).irq) = some true ∧
    refusedWith (step (running 0x25#8 0x09#8 (some (inEntry 1)) (.signal .d0))) = some .notEnabled ∧
    refusedWith (step { running 0x25#8 0x09#8 (some (inEntry 0)) (.signal .d0) with
      env := { (running 0x25#8 0x09#8 (some (inEntry 0)) (.signal .d0)).env with ctl := [(0x03F6, 0x02#8)] } }) =
      some .notEnabled := by decide

/-- A byte of the buffer that a physical run backs is the byte of memory the engine stores to (R49, R83). -/
theorem test_backed_buffer :
    let s := running 0x25#8 0x09#8 (some (inEntry 512)) (.dmaStore .d0 [0xEF#8, 0xBE#8])
    after (step { s with backing := [(0x8000, ⟨0x00100000#64, 512⟩)] }) (fun t => bufRead16 t 0x8000 0) =
      some 0xBEEF#16 := by decide

/-! ## Witnesses: for every statement with hypotheses, states and operands that meet them all -/

/-- A thread's request on the secondary slave of the vectors. -/
def onSlave : State := thread { operands .d1 with data := 0xFF#32 } [0xFF#32]

/-- The same channel with no device at either position (R45). -/
def onAbsent (slice : Nat) (answers : List Dword) : State :=
  let s := ready .thread slice (operands .d0) answers
  { s with env := { s.env with cmd := [(0x01F0, { CmdBlock.reset with master := { Taskfile.reset with absent := true } })] } }

/-- A transfer request of one sector on the primary master, ready at once, with `more` answers after the three of S1 to S5. -/
def transferring (slice : Nat) (more : List Dword) : State :=
  ready .thread slice { operands .d0 with startSector := 0xFFFFFFFFFFFF#48, sectorCount := 1#16 }
    (0x50#32 :: 0x50#32 :: 0x40#32 :: more)

/-- An asynchronous request: the pairs and the allocator's answer listed. -/
def asynchronous (ps : List Pair) (a : Option PhysAddr) : State :=
  let s := transferring 64 []
  { s with env := { s.env with translations := [ps], allocations := [a] } }

/-- A suspended submitter of a transfer on the primary master in state `t` with this event. -/
def submitter (t : TsmState) (event : Bool) : State :=
  let s := inState .thread t (some someTable)
  { s with
    devs := { s.devs with d0 := { s.devs.d0 with ct := { state := t, event := event, prdt := some someTable } } }
    threads := [(0, { startFrame (.transferSectors true false) waitingSteps s.port with
      ops := { operands .d0 with sectorCount := 1#16 } })]
    nextTid := 1
    inputs := [.resume 0 6] }

/-- Bring-up of a device that is busy once and then answers the words of `ws`; and the registration's answer. -/
def identifying (ws : List (Dword × Dword × Dword)) (registered : Bool) : State :=
  let s := bringing 1041 legacy ([0xD0#32] ++ 0x58#32 :: (ws.flatMap (fun w => [w.1, w.2.1, w.2.2]) ++ []))
  { s with env := { s.env with registrations := [registered] } }

/-- 256 words with this value, the device ready before each. -/
def words256 (w : Dword) : List (Dword × Dword × Dword) := List.replicate 256 (0x58#32, 0x58#32, w)

/-- An unfinished activation of the handler of the primary master. -/
def interrupted (t : Turn) : State :=
  let s := delivery true .inProgress []
  { s with activation := some (startFrame .irqHandler [.ret .handled] s.port), inputs := [t] }

/-- A call of this word by a thread on the primary master. -/
def calling (word : PortWord) : State :=
  { thread (operands .d0) [] with inputs := [.call { word := word, ops := operands .d0, ctx := .thread, slice := 2 }] }

theorem witness_ReadOfUnkeptRegisterReturnsTheDraw : Ready onSlave 2 := ⟨rfl, rfl, by decide⟩

theorem witness_ReadOfStatusAndError :
    ReadyEither onSlave 2 ∧ ReadyEither (onAbsent 64 [0xFF#32]) 2 ∧ (block (onAbsent 64 [0xFF#32])).current.absent = true ∧
      ReadyEither (delivery true .inProgress []) 2 :=
  ⟨.inl ⟨rfl, rfl, by decide⟩, .inl ⟨rfl, rfl, by decide⟩, rfl, .inr ⟨rfl, rfl, rfl, by decide⟩⟩

theorem witness_ReadOfKeptCommandBlockRegister :
    Ready (filled 0x02#8 (operands .d0)) 2 ∧ Ready (filled 0x80#8 (operands .d0)) 2 ∧ Ready onSlave 2 :=
  ⟨⟨rfl, rfl, by decide⟩, ⟨rfl, rfl, by decide⟩, rfl, rfl, by decide⟩

theorem witness_HighOrderReadIsBracketed :
    Ready (filled 0x02#8 (operands .d0)) 4 ∧ Ready (suppressed (filled 0x02#8 (operands .d0))) 4 :=
  ⟨⟨rfl, rfl, by decide⟩, rfl, rfl, by decide⟩

theorem witness_ReadOfKeptBusMasterRegister :
    ReadyEither onSlave 2 ∧ ReadyEither (delivery true .inProgress []) 2 ∧
      (engine (delivery true .inProgress [])).irq = true ∧ Ready (withPrdt (operands .d0)) 2 :=
  ⟨.inl ⟨rfl, rfl, by decide⟩, .inr ⟨rfl, rfl, rfl, by decide⟩, rfl, rfl, rfl, by decide⟩

/-- An offset at each end of each range. -/
theorem witness_TheMultiplexerRoutesByRange :
    [0x00, 0x07, 0x08, 0x0B, 0x0C, 0x0D, 0x0E, 0x15, 0x16, 0xFF].map (fun o => (route o).isSome) =
      [true, true, true, true, true, true, true, true, false, false] := by decide

/-- An interval that ends on a boundary, and one that passes it by a byte. -/
theorem witness_AnIntervalIsSplitExactlyWhereItCrosses :
    splitPair 0x1FF00 0x100 = [⟨0x1FF00, 0x100⟩] ∧ splitPair 0x1FF00 0x101 = [⟨0x1FF00, 0x100⟩, ⟨0x20000, 1⟩] := by decide

theorem witness_WriteOfUnkeptRegisterIsOneEvent : Ready onSlave 2 := ⟨rfl, rfl, by decide⟩

theorem witness_WriteOfCommandBlockRegister :
    Ready (filled 0x02#8 (operands .d0)) 2 ∧ Ready (filled 0x80#8 (operands .d0)) 2 :=
  ⟨⟨rfl, rfl, by decide⟩, rfl, rfl, by decide⟩

theorem witness_HighOrderWriteIsBracketed : Ready (suppressed (filled 0x02#8 (operands .d0))) 4 :=
  ⟨rfl, rfl, by decide⟩

theorem witness_WriteOfDevctlLeavesTheFlag : Ready onSlave 2 := ⟨rfl, rfl, by decide⟩

theorem witness_WriteOfBusMasterRegister : Ready (withPrdt { operands .d0 with data := 0xFF#32 }) 2 :=
  ⟨rfl, rfl, by decide⟩

theorem witness_WriteOfBusStatusClearsTheIrqBit :
    ReadyEither onSlave 2 ∧ ReadyEither (delivery true .inProgress []) 2 :=
  ⟨.inl ⟨rfl, rfl, by decide⟩, .inr ⟨rfl, rfl, rfl, by decide⟩⟩

theorem witness_WordAccessOfData : Ready onSlave 2 := ⟨rfl, rfl, by decide⟩

theorem witness_CommandWritesItsByte : Ready onSlave 2 := ⟨rfl, rfl, by decide⟩

theorem witness_SelectDeviceWritesTheLatch :
    ReadyEither onSlave 2 ∧ ReadyEither (delivery true .inProgress []) 2 :=
  ⟨.inl ⟨rfl, rfl, by decide⟩, .inr ⟨rfl, rfl, rfl, by decide⟩⟩

theorem witness_StopDmaClearsBuscmd :
    ReadyEither onSlave 2 ∧ ReadyEither (delivery true .inProgress []) 2 :=
  ⟨.inl ⟨rfl, rfl, by decide⟩, .inr ⟨rfl, rfl, rfl, by decide⟩⟩

theorem witness_ProgramNienSetsTheFlag : Ready onSlave 3 := ⟨rfl, rfl, by decide⟩

/-- One early read for each wait, and on an absent position the wait for BUSY clear ends at once. -/
theorem witness_WaitEndsAtTheFirstReadThatShowsTheBit :
    (∀ e ∈ [([0x80#32], 7, false, 0x50#32), ([0x50#32], 3, true, 0x58#32), ([0x10#32], 6, true, 0x50#32)],
      let s := thread (operands .d0) (e.1 ++ e.2.2.2 :: [])
      Ready s (e.1.length + 2) ∧ s.env.answers = e.1 ++ e.2.2.2 :: [] ∧
        (∀ v ∈ e.1, (statusSeen s v).getLsbD e.2.1 ≠ e.2.2.1) ∧ (statusSeen s e.2.2.2).getLsbD e.2.1 = e.2.2.1) ∧
    Ready (onAbsent 64 [0xFF#32]) 2 ∧ (statusSeen (onAbsent 64 [0xFF#32]) 0xFF#32).getLsbD 7 = false := by
  refine ⟨?_, ⟨rfl, rfl, by decide⟩, by decide⟩
  simp only [List.mem_cons, List.not_mem_nil, or_false, forall_eq_or_imp, forall_eq]
  exact ⟨⟨⟨rfl, rfl, by decide⟩, rfl, by decide, by decide⟩, ⟨⟨rfl, rfl, by decide⟩, rfl, by decide, by decide⟩,
    ⟨rfl, rfl, by decide⟩, rfl, by decide, by decide⟩

/-- One read that does not show the bit, a slice of one; and on an absent position DRQ never shows. -/
theorem witness_WaitStaysWhileTheBitIsNotShown :
    (∀ e ∈ [(0x80#32, 7, false), (0x50#32, 3, true), (0x10#32, 6, true)],
      let s := ready .thread 1 (operands .d0) [e.1]
      Ready s 1 ∧ [e.1].length = s.port.slice ∧ s.env.answers = [e.1] ++ [] ∧
        ∀ v ∈ [e.1], (statusSeen s v).getLsbD e.2.1 ≠ e.2.2) ∧
    (let s := onAbsent 1 [0xFF#32];
      Ready s 1 ∧ [0xFF#32].length = s.port.slice ∧ s.env.answers = [0xFF#32] ++ [] ∧
        ∀ v ∈ [0xFF#32], (statusSeen s v).getLsbD 3 ≠ true) := by
  refine ⟨?_, ⟨rfl, rfl, by decide⟩, rfl, rfl, fun v hv => by rw [List.mem_singleton.mp hv]; decide⟩
  simp only [List.mem_cons, List.not_mem_nil, or_false, forall_eq_or_imp, forall_eq]
  exact ⟨⟨⟨rfl, rfl, by decide⟩, rfl, rfl, by decide⟩, ⟨⟨rfl, rfl, by decide⟩, rfl, rfl, by decide⟩,
    ⟨rfl, rfl, by decide⟩, rfl, rfl, by decide⟩

/-- A thread that is resumed with this step ahead for as many steps as these draws; `acc` is the byte it has read last. -/
def resumedAt (m : Micro) (acc : Dword) (draws : List Dword) : State :=
  let s := thread { operands .d0 with words := 2 } draws
  { s with
    threads := [(0, { startFrame .pioBufferRead [m, .ret .done] s.port with acc := acc })], nextTid := 1
    inputs := [.resume 0 draws.length] }

/-- A resumed thread at each wait, at the last word too, and at the poll of a device that is busy, then not, with DRQ clear. -/
theorem witness_WaitStaysInAResumedSequence :
    (∀ e ∈ [(Micro.waitStatus 7 false, 0x80#32, 7, false), (.pio .idle false .caller 1 2, 0xD0#32, 7, false),
        (.pio .drq true .caller 0 2, 0x50#32, 3, true)],
      let s := resumedAt e.1 0#32 [e.2.1, e.2.1]
      waitsFor e.1 = some e.2.2 ∧ s.env.answers = [e.2.1, e.2.1] ++ [] ∧ (statusFor s .d0 e.2.1).getLsbD e.2.2.1 ≠ e.2.2.2 ∧
        ∃ f, Resumes s 0 2 f [] ∧ f.prog = e.1 :: [.ret .done]) ∧
    (∃ f, Resumes (resumedAt .identPoll 0xD8#32 [0xD0#32, 0x50#32]) 0 2 f [] ∧ f.prog = .identPoll :: [.ret .done] ∧
      PollGoesOn (f.acc.setWidth 8)) ∧
    ∀ v ∈ [0xD0#32, 0x50#32], PollGoesOn (statusFor (resumedAt .identPoll 0xD8#32 [0xD0#32, 0x50#32]) .d0 v) := by
  refine ⟨?_, ⟨_, ⟨rfl, rfl, rfl, rfl⟩, rfl, by decide, .inl (by decide)⟩, ?_⟩
  swap
  · simp only [List.mem_cons, List.not_mem_nil, or_false, forall_eq_or_imp, forall_eq]
    exact ⟨⟨by decide, .inl (by decide)⟩, by decide, .inr (by decide)⟩
  simp only [List.mem_cons, List.not_mem_nil, or_false, forall_eq_or_imp, forall_eq]
  exact ⟨⟨rfl, rfl, by decide, _, ⟨rfl, rfl, rfl, rfl⟩, rfl⟩, ⟨rfl, rfl, by decide, _, ⟨rfl, rfl, rfl, rfl⟩, rfl⟩,
    rfl, rfl, by decide, _, ⟨rfl, rfl, rfl, rfl⟩, rfl⟩

theorem witness_PioReadFillsTheBuffer :
    let ws := [(0x58#32, 0x58#32, 0xFFFF1234#32), (0x08#32, 0x88#32, 0x5678#32)]
    let s := thread { operands .d0 with words := 2, buffer := 0x1000 } (ws.flatMap (fun w => [w.1, w.2.1, w.2.2]) ++ [])
    Ready s (4 * s.port.ops.words + 2) ∧ ws.length = s.port.ops.words ∧
      s.env.answers = ws.flatMap (fun w => [w.1, w.2.1, w.2.2]) ++ [] ∧
      ∀ w ∈ ws, (statusSeen s w.1).getLsbD 7 = false ∧ (statusSeen s w.2.1).getLsbD 3 = true := by
  refine ⟨⟨rfl, rfl, by show 10 ≤ 64; decide⟩, rfl, rfl, ?_⟩
  simp only [List.mem_cons, List.not_mem_nil, or_false, forall_eq_or_imp, forall_eq]
  decide

theorem witness_PioWriteSendsTheBuffer :
    let ws := [(0x58#32, 0x58#32), (0x08#32, 0x88#32)]
    let s := thread { operands .d0 with words := 2, buffer := 0x1000 } (ws.flatMap (fun w => [w.1, w.2]) ++ [])
    Ready s (4 * s.port.ops.words + 2) ∧ ws.length = s.port.ops.words ∧
      s.env.answers = ws.flatMap (fun w => [w.1, w.2]) ++ [] ∧
      ∀ w ∈ ws, (statusSeen s w.1).getLsbD 7 = false ∧ (statusSeen s w.2).getLsbD 3 = true := by
  refine ⟨⟨rfl, rfl, by show 10 ≤ 64; decide⟩, rfl, rfl, ?_⟩
  simp only [List.mem_cons, List.not_mem_nil, or_false, forall_eq_or_imp, forall_eq]
  decide

theorem witness_SubmitStoresInProgress : Ready (inState .thread .finished none) 2 := ⟨rfl, rfl, by decide⟩

/-- Each clause: from InProgress, from Free and from Finished. -/
theorem witness_CompleteSwapsOnlyFromInProgress :
    (Delivered (inState .interrupt .inProgress none) 2 ∧
      (transfer (inState .interrupt .inProgress none)).state = .inProgress) ∧
    (Delivered (inState .interrupt .free none) 2 ∧ (transfer (inState .interrupt .free none)).state ≠ .inProgress) ∧
    (Delivered (inState .interrupt .finished none) 2 ∧
      (transfer (inState .interrupt .finished none)).state ≠ .inProgress) :=
  ⟨⟨⟨rfl, rfl, rfl, by decide⟩, rfl⟩, ⟨⟨rfl, rfl, rfl, by decide⟩, by decide⟩,
    ⟨rfl, rfl, rfl, by decide⟩, by decide⟩

/-- From Finished with a table and with a null pointer; from Free; from InProgress. -/
theorem witness_ConsumeFreesTheTable :
    ∀ e ∈ [(TsmState.finished, some someTable), (.finished, none), (.free, none), (.inProgress, some someTable)],
      Ready (inState .thread e.1 e.2) 5 ∧ (transfer (inState .thread e.1 e.2)).state = e.1 ∧
        (inState .thread e.1 e.2).allocs.Pairwise (fun x y => x.handle ≠ y.handle) := by
  simp only [List.mem_cons, List.not_mem_nil, or_false, forall_eq_or_imp, forall_eq]
  exact ⟨⟨⟨rfl, rfl, by decide⟩, rfl, List.pairwise_singleton _ _⟩, ⟨⟨rfl, rfl, by decide⟩, rfl, List.pairwise_singleton _ _⟩,
    ⟨⟨rfl, rfl, by decide⟩, rfl, List.pairwise_singleton _ _⟩, ⟨rfl, rfl, by decide⟩, rfl, List.pairwise_singleton _ _⟩

theorem witness_HandlerDeclinesAForeignInterrupt :
    Delivered (delivery false .inProgress [0xFF#32]) 3 ∧ (engine (delivery false .inProgress [0xFF#32])).irq = false :=
  ⟨⟨rfl, rfl, rfl, by decide⟩, rfl⟩

theorem witness_HandlerCompletesATransfer :
    let s := delivery true .inProgress [0x04#32, 0x50#32]
    Delivered s 10 ∧ (engine s).irq = true ∧ (handlerStatus s).getLsbD 5 = false ∧
      (handlerStatus s).getLsbD 0 = false ∧ (transfer s).state = .inProgress :=
  ⟨⟨rfl, rfl, rfl, by decide⟩, rfl, by decide, by decide, rfl⟩

theorem witness_HandlerFaultsOnDeviceFault :
    let s := delivery true .inProgress [0x04#32, 0x71#32]
    Delivered s 5 ∧ (engine s).irq = true ∧ (handlerStatus s).getLsbD 5 = true :=
  ⟨⟨rfl, rfl, rfl, by decide⟩, rfl, by decide⟩

theorem witness_HandlerLogsAndHaltsOnError :
    let s := delivery true .inProgress [0x04#32, 0x51#32, 0x10#32]
    Delivered s 7 ∧ (engine s).irq = true ∧ (handlerStatus s).getLsbD 5 = false ∧
      (handlerStatus s).getLsbD 0 = true :=
  ⟨⟨rfl, rfl, rfl, by decide⟩, rfl, by decide, by decide⟩

theorem witness_HandlerFaultsOnSpuriousCompletion :
    ∀ t ∈ [TsmState.free, .finished],
      let s := delivery true t [0x04#32, 0x50#32]
      Delivered s 7 ∧ (engine s).irq = true ∧ (handlerStatus s).getLsbD 5 = false ∧
        (handlerStatus s).getLsbD 0 = false ∧ (transfer s).state ≠ .inProgress := by
  simp only [List.mem_cons, List.not_mem_nil, or_false, forall_eq_or_imp, forall_eq]
  exact ⟨⟨⟨rfl, rfl, rfl, by decide⟩, rfl, by decide, by decide, by decide⟩,
    ⟨rfl, rfl, rfl, by decide⟩, rfl, by decide, by decide, by decide⟩

theorem witness_EndedHandlerStaysEnded :
    let s0 := delivery true .inProgress []
    let s := s0.setDev .d0 { s0.dev .d0 with handlerFault := some (.deviceFault 0x71#8) }
    s.port.ctx = .interrupt ∧ (s.dev s.port.ops.dev).registered = true ∧ (s.dev s.port.ops.dev).phase = .up ∧
      (s.dev s.port.ops.dev).handlerFault = some (.deviceFault 0x71#8) :=
  ⟨rfl, rfl, rfl, rfl⟩

/-- A word that decodes, and one that selects no operation: the format byte 0x03. -/
theorem witness_StepRunsTheDecodedInstruction :
    (calling ⟨.acc, [0x07#8, 0x00#8]⟩).inputs =
      .call { word := ⟨.acc, [0x07#8, 0x00#8]⟩, ops := operands .d0, ctx := .thread, slice := 2 } :: [] ∧
      decode ⟨.acc, [0x07#8, 0x00#8]⟩ = .instr .rdStatus ∧
    (calling ⟨.req, [0x00#8]⟩).inputs = .call { word := ⟨.req, [0x00#8]⟩, ops := operands .d0, ctx := .thread, slice := 2 } :: [] ∧
      (calling ⟨.req, [0x00#8]⟩).activation = none ∧ (∀ i, decode ⟨.req, [0x00#8]⟩ ≠ .instr i) ∧
      ∀ w off, decode ⟨.req, [0x00#8]⟩ ≠ .outOfRange w off := by
  have h : decode ⟨.req, [0x00#8]⟩ = .illegal .reservedByte := by decide
  refine ⟨rfl, by decide, rfl, rfl, fun i => ?_, fun w off => ?_⟩ <;> (rw [h]; exact fun e => nomatch e)

/-- The least offset out of range, read, and the greatest, written. -/
theorem witness_OutOfRangeAccessFaults :
    (∀ e ∈ [((⟨.acc, [0x16#8, 0x00#8]⟩ : PortWord), false, 0x16#8), (⟨.acc, [0xFF#8, 0x01#8]⟩, true, 0xFF#8)],
      decode e.1 = .outOfRange e.2.1 e.2.2) ∧
    (calling ⟨.acc, [0x16#8, 0x00#8]⟩).inputs =
      .call { word := ⟨.acc, [0x16#8, 0x00#8]⟩, ops := operands .d0, ctx := .thread, slice := 2 } :: [] ∧
    (calling ⟨.acc, [0x16#8, 0x00#8]⟩).activation = none ∧ ((calling ⟨.acc, [0x16#8, 0x00#8]⟩).dev .d0).phase = .up :=
  ⟨by decide, rfl, rfl, rfl⟩

theorem witness_TheInterruptContextIsNotPreempted :
    (∃ f r, (interrupted (.call (bare ⟨.cmd, [0xEC#8]⟩))).activation = some f ∧
      (interrupted (.call (bare ⟨.cmd, [0xEC#8]⟩))).inputs = .call r :: []) ∧
    ∃ f, (interrupted (.resume 0 1)).activation = some f ∧ (interrupted (.resume 0 1)).inputs = .resume 0 1 :: [] :=
  ⟨⟨_, _, rfl, rfl⟩, _, rfl, rfl⟩

theorem witness_WrongContextIsRefused :
    (thread (operands .d0) []).port.ctx = .thread ∧
    (delivery true .inProgress []).port.ctx = .interrupt ∧
      Instr.tsmSubmit ∉ [Instr.irqHandler, .selectDevice, .rdBusstatus, .rdStatus, .rdError, .stopDma, .tsmComplete,
        .wrBusstatus] ∧
    decode ⟨.acc, [0x16#8, 0x00#8]⟩ = .outOfRange false 0x16#8 ∧ decode ⟨.acc, [0xFF#8, 0x01#8]⟩ = .outOfRange true 0xFF#8 :=
  ⟨rfl, rfl, by decide, rfl, rfl⟩

/-- A byte access at the first offset out of range: from the interrupt context, and on a device that is down. -/
theorem witness_OutOfRangeAccessIsRefused :
    refusedWith (step { calling ⟨.acc, [0x16#8, 0x00#8]⟩ with
      inputs := [.call { word := ⟨.acc, [0x16#8, 0x00#8]⟩, ops := operands .d0, ctx := .interrupt, slice := 2 }] }) =
      some .wrongContext ∧
    refusedWith (step { calling ⟨.acc, [0x16#8, 0x00#8]⟩ with
      inputs := [.call { word := ⟨.acc, [0x16#8, 0x00#8]⟩, ops := operands .d3, ctx := .thread, slice := 2 }] }) =
      some .notBroughtUp := by decide

/-- A read of STATUS and a transfer on a device that is down; from the interrupt context the same device, whose handler is
not registered; INIT_DEVICE on one whose transfer is under way. -/
theorem witness_NothingRunsBeforeBringUp :
    ((thread (operands .d3) []).port.ctx = .thread ∧ ((thread (operands .d3) []).dev .d3).phase ≠ .up ∧
      (thread (operands .d3) []).port.ops.devValid = true) ∧
    ((ready .interrupt 8 (operands .d3) []).port.ctx = .interrupt ∧
      ((ready .interrupt 8 (operands .d3) []).dev .d3).phase ≠ .up ∧
      ((ready .interrupt 8 (operands .d3) []).dev .d3).registered = false) ∧
    (inState .thread .inProgress none).port.ctx = .thread ∧
      ((inState .thread .inProgress none).dev .d0).phase ≠ .down ∧
      (transfer (inState .thread .inProgress none)).state = .inProgress :=
  ⟨⟨rfl, by decide, rfl⟩, ⟨rfl, by decide, rfl⟩, rfl, by decide, rfl⟩

/-- A turn on the primary master in a transfer state with a table pointer. -/
def turnIn (t : TsmState) (p : Option PrdTable) (u : Turn) : State := { inState .thread t p with inputs := [u] }

/-- A call of this word on the primary master. -/
def calls (word : PortWord) (ctx : Context) : Turn :=
  .call { word := word, ops := operands .d0, ctx := ctx, slice := 5 }

/-- A suspended bring-up of the primary master whose last steps are these. -/
def opening (prog : List Micro) : State :=
  { turnIn .finished none (.resume 0 5) with
    threads := [(0, startFrame (.initDevice false false) prog (inState .thread .finished none).port)], nextTid := 1 }

/-- The same with a suspended submitter of the primary master that waits for its event, and a call on the secondary. -/
def besideSubmitter : State :=
  { submitter .inProgress false with
    inputs := [.call { word := ⟨.req, [0x0A#8]⟩, ops := operands .d1, ctx := .thread, slice := 5 }] }

theorem turnIn_inv (t : TsmState) (p : Option PrdTable) (u : Turn) : Safety.Inv (turnIn t p u) := by
  simp [Safety.Inv, Safety.canonical, Safety.fresh, Safety.disciplined, turnIn, inState, ready, State.reset, Env.reset,
    Memory.wf, Table.Sorted, Table.Canonical]

theorem turnIn_transferInv (t : TsmState) (p : Option PrdTable) (u : Turn) (h : t = .free → p = none) :
    Safety.TransferInv (turnIn t p u) := by
  refine ⟨turnIn_inv t p u, fun k _ hp => .inl ?_, fun c hc => nomatch hc⟩
  cases k
  · exact fun e => hp (h e)
  all_goals exact absurd rfl hp

theorem opening_transferInv : Safety.TransferInv (opening [.openTransfer]) := by
  refine ⟨?_, ?_, ?_⟩
  · simp [Safety.Inv, Safety.canonical, Safety.fresh, Safety.disciplined, opening, turnIn, inState, ready, State.reset,
      Env.reset, Memory.wf, Table.Sorted, Table.Canonical, startFrame, Safety.threadStep, Safety.stepOf,
      Safety.bringUpStep, Safety.submitterStep, Safety.completionStep, Safety.nienStep, Safety.isBringUp]
  · intro k _ hp; cases k <;> exact absurd rfl hp
  · intro c hc
    rw [show (opening [.openTransfer]).threads = [_] from rfl, List.mem_singleton] at hc
    subst hc
    exact ⟨rfl, fun h => absurd h (by decide), fun h => absurd h (by decide),
      fun h => Bool.noConfusion (show false = true from h),
      fun _ _ h => by cases h⟩

theorem besideSubmitter_transferInv : Safety.TransferInv besideSubmitter := by
  refine ⟨?_, ?_, ?_⟩
  · simp [Safety.Inv, Safety.canonical, Safety.fresh, Safety.disciplined, besideSubmitter, submitter, inState, ready,
      State.reset, Env.reset, Memory.wf, Table.Sorted, Table.Canonical, startFrame, waitingSteps, Safety.threadStep,
      Safety.stepOf, Safety.bringUpStep, Safety.submitterStep, Safety.completionStep, Safety.nienStep, Safety.submits]
  · intro k _ hp
    cases k
    · exact .inl (by decide)
    all_goals exact absurd rfl hp
  · intro c hc
    rw [show besideSubmitter.threads = [_] from rfl, List.mem_singleton] at hc
    subst hc
    exact ⟨rfl, fun h => absurd h (by decide), fun h => absurd h (by decide),
      fun h => Bool.noConfusion (show false = true from h),
      fun _ _ _ h => by cases h⟩

/-- The invariant holds of reset with an INIT_DEVICE request listed, and the step on it has a next state. -/
theorem witness_EveryStepKeepsTheInvariant :
    ∃ t, Safety.Inv { State.reset with inputs := [calls ⟨.req, [0x01#8]⟩ .thread] } ∧
      step { State.reset with inputs := [calls ⟨.req, [0x01#8]⟩ .thread] } = .next t ∧ t.threads ≠ [] := by
  refine ⟨_, ?_, rfl, by decide⟩
  simp [Safety.Inv, Safety.canonical, Safety.fresh, Safety.disciplined, State.reset, Env.reset, Memory.wf,
    Table.Sorted, Table.Canonical]

/-- A step that puts something out, one that raises a fault, and one with a fault recorded before. -/
theorem witness_HistoriesOnlyGrow :
    (∃ t, step (calling ⟨.acc, [0x07#8, 0x00#8]⟩) = .next t) ∧ (∃ t, step (calling ⟨.acc, [0x16#8, 0x00#8]⟩) = .next t) ∧
      ∃ t, step { calling ⟨.acc, [0x07#8, 0x00#8]⟩ with faults := [⟨.d0, .thread, .casFailed .free⟩] } = .next t ∧
        Safety.faultFree { calling ⟨.acc, [0x07#8, 0x00#8]⟩ with faults := [⟨.d0, .thread, .casFailed .free⟩] } = false :=
  ⟨⟨_, rfl⟩, ⟨_, rfl⟩, _, rfl, rfl⟩

/-- Steps that change a record: PROGRAM_NIEN, TSM_SUBMIT, a delivery that raises a fault, a bring-up resumed. -/
theorem witness_RecordsAreWrittenByTheirOperations :
    (∀ e ∈ [turnIn .free none (calls ⟨.req, [0x17#8]⟩ .thread), turnIn .free none (calls ⟨.req, [0x0A#8]⟩ .thread),
        turnIn .free none (calls ⟨.req, [0x0B#8]⟩ .interrupt), opening [.openTransfer]],
      after (step e) (fun t => decide (t.dev .d0 ≠ e.dev .d0)) = some true) ∧
    (∀ u, Safety.Inv (turnIn .free none u)) ∧ Safety.Inv (opening [.openTransfer]) :=
  ⟨by decide, turnIn_inv _ _, opening_transferInv.1⟩

/-- Each arc: TSM_SUBMIT from Free and from Finished, the compare-and-swap, cleanup, the store of bring-up. -/
theorem witness_TransferStateMovesAlongItsArcs :
    (∀ e ∈ [turnIn .free none (calls ⟨.req, [0x0A#8]⟩ .thread), turnIn .finished none (calls ⟨.req, [0x0A#8]⟩ .thread),
        turnIn .inProgress none (calls ⟨.req, [0x0B#8]⟩ .interrupt), turnIn .finished (some someTable) (calls ⟨.req, [0x0C#8]⟩ .thread),
        opening [.openTransfer]],
      after (step e) (fun t => decide ((t.dev .d0).ct.state ≠ (e.dev .d0).ct.state)) = some true) ∧
    (∀ t p u, (t = .free → p = none) → Safety.TransferInv (turnIn t p u)) ∧
    Safety.TransferInv (opening [.openTransfer]) :=
  ⟨by decide, turnIn_transferInv, opening_transferInv⟩

/-- Cleanup of a finished transfer; and a submitter that waits on one channel beside a request on the other. -/
theorem witness_SerializedStepsKeepTheTransferInvariant :
    (Safety.TransferInv (turnIn .finished (some someTable) (calls ⟨.req, [0x0C#8]⟩ .thread)) ∧
      Safety.serialized (turnIn .finished (some someTable) (calls ⟨.req, [0x0C#8]⟩ .thread)) ∧
      ∃ t, step (turnIn .finished (some someTable) (calls ⟨.req, [0x0C#8]⟩ .thread)) = .next t) ∧
    Safety.TransferInv besideSubmitter ∧ Safety.serialized besideSubmitter ∧ ∃ t, step besideSubmitter = .next t := by
  refine ⟨⟨turnIn_transferInv _ _ _ (fun h => by cases h), ⟨List.Pairwise.nil, fun _ _ _ _ _ _ c hc => nomatch hc⟩,
    _, rfl⟩, besideSubmitter_transferInv, ⟨List.pairwise_singleton _ _, ?_⟩, _, rfl⟩
  intro r rest i hi _ hd c hc
  cases hi
  rw [show decode ⟨.req, [0x0A#8]⟩ = .instr .tsmSubmit by decide] at hd
  cases hd
  rw [show besideSubmitter.threads = [_] from rfl, List.mem_singleton] at hc
  subst hc
  rintro ⟨a, b, e1, e2, e3⟩
  cases e1
  cases e2
  revert e3
  decide

/-- What the DMA engine's statement asks: each kind of access where it may move, at the last byte; and where it may
not. -/
theorem witness_TheDmaEngineFollowsItsTable :
    (∀ e ∈ [running 0x25#8 0x09#8 (some atStart) (.dmaFetch .d0), running 0x25#8 0x09#8 (some (inEntry 1)) (.dmaStore .d0 [0x77#8]),
        running 0x35#8 0x01#8 (some (inEntry 1)) (.dmaLoad .d0 1)],
      ((e.cmdBlock 0x01F0#16).position false).running = true ∧ after (step e) (fun _ => ()) = some ()) ∧
    (∀ e ∈ [running 0x25#8 0x09#8 (some (inEntry 0)) (.dmaFetch .d0), running 0x25#8 0x09#8 (some (inEntry 1)) (.dmaStore .d0 []),
        running 0x35#8 0x01#8 (some (inEntry 1)) (.dmaLoad .d0 2), running 0x35#8 0x00#8 none (.dmaLoad .d0 1)],
      refusedWith (step e) = some .notEnabled) ∧
    (0x200000 + 8 * 0 + 8 ≤ 2 ^ 32 ∧
      let m := Memory.writeLE [] 0x200000 8 0x8000020000100000
      Memory.readLE m (0x200000 + 8 * 0) 4 = some 0x00100000 ∧ Memory.readLE m (0x200000 + 8 * 0 + 4) 2 = some 0x0200 ∧
        Memory.readLE m (0x200000 + 8 * 0 + 6) 2 = some 0x8000 ∧ Memory.read m 0x200001 = some 0x00#8) := by decide

/-- Each of the environment's other turns: a signal that may come, one whose engine is not done and one of a device not selected; a FIFO register of each kind; a
store to the buffer; a run. -/
theorem witness_TheDeviceAndTheCallerMove :
    (∀ e ∈ [running 0x25#8 0x09#8 (some (inEntry 0)) (.signal .d0), running 0x34#8 0x00#8 none (.signal .d0),
        running 0x25#8 0x09#8 none (.fifo 0x01F0#16 true 2 ⟨0x11#8, 0x22#8⟩),
        running 0x25#8 0x09#8 none (.fifo 0x01F0#16 false 5 ⟨0x11#8, 0x22#8⟩),
        running 0x25#8 0x09#8 none (.bufStore 0x8000 0x77#8), running 0x25#8 0x09#8 none (.back 0x8000 ⟨0x00100000#64, 512⟩)],
      after (step e) (fun _ => ()) = some ()) ∧
    refusedWith (step (running 0x35#8 0x01#8 (some (inEntry 1)) (.signal .d0))) = some .notEnabled ∧
    refusedWith (step (deselected (running 0x34#8 0x00#8 none (.signal .d0)))) = some .notEnabled := by decide

/-! Pairs at the limits of the builder's checks, with the request size and the allocator's answer. -/

/-- A list of one pair and of two; one that needs a split, and one that ends at 4 GB. -/
theorem witness_Covers :
    Covers [⟨0x00100000#64, 512⟩] 512 ∧ Covers [⟨0x0001FF00#64, 0x200⟩, ⟨0xFFFFFFFE#64, 2⟩] 514 := by
  have h : ∀ p ∈ [((⟨0x00100000#64, 512⟩ : Pair), 512), (⟨0x0001FF00#64, 0x200⟩, 514), (⟨0xFFFFFFFE#64, 2⟩, 2)],
      Accepted p.1 p.2 := by unfold Accepted; decide
  exact ⟨⟨by simp, ⟨h (_, _) (by simp), trivial⟩, by decide⟩, by simp, ⟨h (_, _) (by simp), h (_, _) (by simp), trivial⟩,
    by decide⟩

/-- The table may lie at the highest address the table register holds. -/
theorem witness_BuildReturnsTheTable :
    let s := building [⟨0x0001FF00#64, 0x200⟩, ⟨0xFFFFFFFE#64, 2⟩] 514 (some 0xFFFFFFFF#64)
    s.port.ctx = .thread ∧ 7 * s.port.ops.pairs.length + 8 ≤ s.port.slice ∧
      Covers s.port.ops.pairs s.port.ops.totalBytes ∧
      s.env.allocations = some 0xFFFFFFFF#64 :: [] ∧ (0xFFFFFFFF#64 : PhysAddr).toNat ≤ 0xFFFFFFFF :=
  ⟨rfl, by decide, witness_Covers.2, rfl, by decide⟩

theorem witness_EveryReturnedTableIsWellFormed :
    ∃ t tb, exec .buildPrdt (building [⟨0x00100000#64, 512⟩] 512 (some 0x00200000#64)) = .next t ∧
      Returns (building [⟨0x00100000#64, 512⟩] 512 (some 0x00200000#64)) t .buildPrdt (.table tb) :=
  ⟨_, _, rfl, rfl⟩

/-- The acceptable pair that stands before a bad one. -/
theorem accepted_first (n : Nat) (h : 512 ≤ n) : AllAccepted [⟨0x00100000#64, 512⟩] n := by
  refine ⟨⟨by decide, by decide, by decide, by decide, ?_, ?_⟩, trivial⟩
  · show 0 < min 512 n; omega
  · show 0x00100000 + min 512 n ≤ 2 ^ 32; omega

/-- Each way to stop at its boundary: no pair; a failed allocation; 4 GB, an odd address in a second pair, an odd length,
65538 bytes, a length of 0, nothing left for a second pair, an end one unit above 4 GB; one unit too little; a table one
byte above the limit. -/
theorem witness_StopsWith :
    let good : Pair := ⟨0x00100000#64, 512⟩
    let at2 := some (0x00200000#64 : PhysAddr)
    StopsWith [] 512 none (.fault (.remainingNonzero 512)) ∧
    StopsWith [good] 512 none (.status .allocationFailure) ∧
    StopsWith [⟨0x100000000#64, 512⟩] 512 at2 (.status .physicalAddressOutOfRange) ∧
    StopsWith [good, ⟨0x00300001#64, 512⟩] 1024 at2 (.status .misaligned) ∧
    StopsWith [⟨0x00100000#64, 511⟩] 512 at2 (.status .misaligned) ∧
    StopsWith [⟨0x00100000#64, 65538⟩] 65536 at2 (.status .spanTooLarge) ∧
    StopsWith [⟨0x00100000#64, 0⟩] 512 at2 (.fault (.emptyEntry 0)) ∧
    StopsWith [good, ⟨0x00200000#64, 512⟩] 512 at2 (.fault (.emptyEntry 1)) ∧
    StopsWith [⟨0xFFFFFFFE#64, 4⟩] 4 at2 (.fault (.addressTruncation 0)) ∧
    StopsWith [good] 514 at2 (.fault (.remainingNonzero 2)) ∧
    StopsWith [good] 512 (some 0x100000000#64) (.status .tableAddressOutOfRange) := by
  intro good at2
  have h : at2 ≠ none := by simp [at2]
  refine ⟨.inl ⟨rfl, rfl⟩, .inr (.inl ⟨by simp, rfl, rfl⟩),
    .inr (.inr (.inl ⟨h, [], _, [], rfl, trivial, .inl ⟨by decide, rfl⟩⟩)),
    .inr (.inr (.inl ⟨h, [good], _, [], rfl, accepted_first _ (by decide), .inr (.inl ⟨by decide, by decide, rfl⟩)⟩)),
    .inr (.inr (.inl ⟨h, [], _, [], rfl, trivial, .inr (.inl ⟨by decide, by decide, rfl⟩)⟩)),
    .inr (.inr (.inl ⟨h, [], _, [], rfl, trivial, .inr (.inr (.inl ⟨by decide, by decide, by decide, rfl⟩))⟩)),
    .inr (.inr (.inl ⟨h, [], _, [], rfl, trivial,
      .inr (.inr (.inr (.inl ⟨by decide, by decide, by decide, by decide, rfl⟩)))⟩)),
    .inr (.inr (.inl ⟨h, [good], _, [], rfl, accepted_first _ (by decide),
      .inr (.inr (.inr (.inl ⟨by decide, by decide, by decide, by decide, rfl⟩)))⟩)),
    .inr (.inr (.inl ⟨h, [], _, [], rfl, trivial,
      .inr (.inr (.inr (.inr ⟨by decide, by decide, by decide, by decide, by decide, by decide, rfl⟩)))⟩)),
    .inr (.inr (.inr (.inl ⟨h, by simp, accepted_first _ (by decide), by decide, rfl⟩))),
    .inr (.inr (.inr (.inr ⟨_, rfl, witness_Covers.1, by decide, rfl⟩)))⟩

/-- What the statement asks of the request besides; the ways to stop are `witness_StopsWith`. -/
theorem witness_BuildStopsWithoutATable (ps : List Pair) (n : Nat) (a : Option PhysAddr) (h : ps.length ≤ 2) :
    let s := building ps n a
    s.port.ctx = .thread ∧ 7 * s.port.ops.pairs.length + 8 ≤ s.port.slice ∧ HandlesGivenOut s ∧
      s.env.allocations = a :: [] ∧ s.port.ops.pairs = ps ∧ s.port.ops.totalBytes = n := by
  refine ⟨rfl, ?_, (fun _ hx => nomatch hx), rfl, rfl, rfl⟩
  show 7 * ps.length + 8 ≤ 64
  omega

/-- A null device, here one that is not brought up either; and a sector count of 0 on one that is. -/
theorem witness_InvalidParametersTouchNothing :
    (let s := thread { operands .d3 with devValid := false } [];
      s.port.ctx = .thread ∧ 1 ≤ s.port.slice ∧ s.port.ops.devValid = false) ∧
    (let s := thread (operands .d0) [];
      s.port.ctx = .thread ∧ 1 ≤ s.port.slice ∧ (s.dev s.port.ops.dev).phase = .up ∧ s.port.ops.sectorCount = 0#16) :=
  ⟨⟨rfl, by decide, rfl⟩, rfl, by decide, rfl, rfl⟩

theorem witness_SynchronousReadCompletes :
    let ws := words256 0x1234#32
    let s := transferring 1050 (ws.flatMap (fun w => [w.1, w.2.1, w.2.2]) ++ [])
    ValidTransfer s ∧ Ready s (26 + 4 * ws.length) ∧ ws.length = s.port.ops.sectorCount.toNat * 256 ∧
      ReadyAtOnce s 0x50#32 0x50#32 0x40#32 (ws.flatMap (fun w => [w.1, w.2.1, w.2.2]) ++ []) ∧
      ∀ w ∈ ws, w.1.getLsbD 7 = false ∧ w.2.1.getLsbD 3 = true := by
  refine ⟨⟨rfl, rfl, rfl, by decide⟩, ⟨rfl, rfl, ?_⟩, ?_, ⟨rfl, rfl, by decide, by decide, by decide⟩, ?_⟩
  · simp only [words256, List.length_replicate]; decide
  · simp only [words256, List.length_replicate]; decide
  · intro w hw; rw [words256, List.mem_replicate] at hw; rw [hw.2]; decide

theorem witness_SynchronousWriteCompletes :
    let ws := List.replicate 256 ((0x58#32, 0x58#32) : Dword × Dword)
    let s := transferring 1050 (ws.flatMap (fun w => [w.1, w.2]) ++ [])
    ValidTransfer s ∧ Ready s (26 + 4 * ws.length) ∧ ws.length = s.port.ops.sectorCount.toNat * 256 ∧
      ReadyAtOnce s 0x50#32 0x50#32 0x40#32 (ws.flatMap (fun w => [w.1, w.2]) ++ []) ∧
      ∀ w ∈ ws, w.1.getLsbD 7 = false ∧ w.2.getLsbD 3 = true := by
  refine ⟨⟨rfl, rfl, rfl, by decide⟩, ⟨rfl, rfl, ?_⟩, ?_, ⟨rfl, rfl, by decide, by decide, by decide⟩, ?_⟩
  · simp only [List.length_replicate]; decide
  · simp only [List.length_replicate]; decide
  · intro w hw; rw [List.mem_replicate] at hw; rw [hw.2]; decide

theorem witness_AsynchronousRequestReachesItsEventWait :
    let ps : List Pair := [⟨0x00100000#64, 512⟩]
    let s := asynchronous ps (some 0xFFFFFFFF#64)
    ValidTransfer s ∧ Ready s (7 * ps.length + 34) ∧ ReadyAtOnce s 0x50#32 0x50#32 0x40#32 [] ∧
      (transfer s).event = false ∧ s.env.translations = ps :: [] ∧ s.env.allocations = some 0xFFFFFFFF#64 :: [] ∧
      Covers ps (s.port.ops.sectorCount.toNat * 512) ∧ (0xFFFFFFFF#64 : PhysAddr).toNat ≤ 0xFFFFFFFF :=
  ⟨⟨rfl, rfl, rfl, by decide⟩, ⟨rfl, rfl, by decide⟩, ⟨rfl, rfl, by decide, by decide, by decide⟩, rfl, rfl, rfl,
    witness_Covers.1, by decide⟩

/-- What the statement asks of the request besides; the ways to stop, for one sector, are those of `witness_StopsWith`
whose request has 512 bytes. -/
theorem witness_SetupErrorStartsNoCommand (ps : List Pair) (a : Option PhysAddr) (h : ps.length ≤ 2) :
    ValidTransfer (asynchronous ps a) ∧ Ready (asynchronous ps a) (7 * ps.length + 32) ∧
      ReadyAtOnce (asynchronous ps a) 0x50#32 0x50#32 0x40#32 [] ∧ HandlesGivenOut (asynchronous ps a) ∧
      (asynchronous ps a).env.translations = ps :: [] ∧ (asynchronous ps a).env.allocations = a :: [] ∧
      (asynchronous ps a).port.ops.sectorCount.toNat * 512 = 512 := by
  refine ⟨⟨rfl, rfl, rfl, by show 1#16 ≠ 0#16; decide⟩, ⟨rfl, rfl, ?_⟩,
    ⟨rfl, rfl, by decide, by decide, by decide⟩, (fun _ hx => nomatch hx), rfl, rfl,
    by show (1#16).toNat * 512 = 512; decide⟩
  show 7 * ps.length + 32 ≤ 64
  omega

theorem witness_EventWaitBlocksUntilSignalled :
    let s := submitter .inProgress false
    ∃ f, s.inputs = .resume 0 6 :: [] ∧ s.activation = none ∧ Table.lookup s.threads 0 = some f ∧
      f.ctx = .thread ∧ f.prog = waitingSteps ∧ (s.dev f.ops.dev).ct.event = false :=
  ⟨_, rfl, rfl, rfl, rfl, rfl, rfl⟩

theorem witness_SignalledSubmitterFinishes :
    let s := submitter .finished true
    ∃ f, s.inputs = .resume 0 6 :: [] ∧ s.activation = none ∧ Table.lookup s.threads 0 = some f ∧
      f.ctx = .thread ∧ f.prog = waitingSteps ∧ 6 ≤ 6 ∧ (s.dev f.ops.dev).ct.event = true ∧
      (s.dev f.ops.dev).ct.state = .finished ∧ s.allocs.Pairwise (fun x y => x.handle ≠ y.handle) :=
  ⟨_, rfl, rfl, rfl, rfl, rfl, by decide, rfl, rfl, List.pairwise_singleton _ _⟩

/-- Reads of STATUS that let the poll go on: BUSY set, then BUSY clear with DRQ clear. -/
theorem witness_KeepsPolling : KeepsPolling [] ∧ KeepsPolling [0xD0#32] ∧ KeepsPolling [0x80#32, 0x50#32] := by
  refine ⟨⟨(fun _ h => nomatch h), (fun _ h => nomatch h)⟩, ⟨fun v h => ?_, fun v h => ?_⟩, fun v h => ?_, fun v h => ?_⟩
  · cases h; decide
  · rw [List.mem_singleton.1 h]; decide
  · cases h; decide
  · rcases List.mem_cons.1 h with rfl | h
    · decide
    · rw [List.mem_singleton.1 h]; decide

/-- What the statements about bring-up ask of the state and the words, but for word 83. -/
theorem witness_Identifies (w : Dword) (registered : Bool) :
    let s := identifying (words256 w) registered
    MayBringUp s ([0xD0#32].length + 1040) ∧
      ((s.cmdBlock (resolved s false false).base).position false).absent = false ∧
      s.env.answers = [0xD0#32] ++ 0x58#32 :: ((words256 w).flatMap (fun w => [w.1, w.2.1, w.2.2]) ++ []) ∧
      Identifies 0x58#32 (words256 w) ∧ s.env.registrations = registered :: [] := by
  refine ⟨⟨rfl, Nat.le_refl 1041, fun h => by cases h⟩, rfl, rfl,
    ⟨by decide, by decide, by decide, ?_, ?_⟩, rfl⟩
  · rw [words256, List.length_replicate]
  · intro x hx
    rw [words256, List.mem_replicate] at hx
    rw [hx.2]
    exact ⟨by show (0x58#32).getLsbD 7 = false; decide, by show (0x58#32).getLsbD 3 = true; decide⟩

/-- Word 83 with bit 10 set; the rest is `witness_Identifies` and `witness_KeepsPolling`. -/
theorem witness_BringUpSucceeds :
    (((words256 0x0400#32).getD 83 (0#32, 0#32, 0#32)).2.2).getLsbD 10 = true := by
  rw [words256, List.getD_replicate _ (by decide)]
  decide

/-- A byte of 0x00 and ERR with BUSY at the first read; ERR at the third; an absent position. -/
theorem witness_BringUpFailsWhilePolling :
    (∀ e ∈ [([], 0x00#32), ([], 0x81#32), ([0x80#32, 0x50#32], 0x51#32)],
      let s := bringing 64 legacy (e.1 ++ e.2 :: [])
      MayBringUp s (e.1.length + 8) ∧ s.env.answers = e.1 ++ e.2 :: [] ∧
        ((s.cmdBlock (resolved s false false).base).position false).absent = false ∧
        (e.1 = [] ∧ (e.2.setWidth 8 : Byte) = 0#8 ∨ (e.2.setWidth 8 : Byte).getLsbD 0 = true)) ∧
    MayBringUp (onAbsent 64 [0xFF#32]) 8 ∧
      (((onAbsent 64 [0xFF#32]).cmdBlock (resolved (onAbsent 64 [0xFF#32]) false false).base).position
        false).absent = true := by
  refine ⟨?_, ⟨rfl, by decide, fun h => by cases h⟩, rfl⟩
  simp only [List.mem_cons, List.not_mem_nil, or_false, forall_eq_or_imp, forall_eq]
  exact ⟨⟨⟨rfl, by decide, fun h => by cases h⟩, rfl, rfl, .inl ⟨trivial, by decide⟩⟩,
    ⟨⟨rfl, by decide, fun h => by cases h⟩, rfl, rfl, .inr (by decide)⟩,
    ⟨rfl, by decide, fun h => by cases h⟩, rfl, rfl, .inr (by decide)⟩

/-- The capability bit set, where the registration's answer is `false`, and clear, where it would be `true`; the rest is
`witness_Identifies` and `witness_KeepsPolling`. -/
theorem witness_BringUpFailsAfterIdentification :
    ((((words256 0x0400#32).getD 83 (0#32, 0#32, 0#32)).2.2).getLsbD 10 = true ∧
      (identifying (words256 0x0400#32) false).env.registrations = false :: []) ∧
    (((words256 0xFBFF#32).getD 83 (0#32, 0#32, 0#32)).2.2).getLsbD 10 = false ∧
      (identifying (words256 0xFBFF#32) true).env.registrations = true :: [] := by
  refine ⟨⟨?_, rfl⟩, ?_, rfl⟩ <;> (rw [words256, List.getD_replicate _ (by decide)]; decide)

end Sys2Proof.Tests
end

section
/-!
What every step of the machine keeps: the invariant of the machine (spec/60_exceptions.md R301, R341; spec/10_state.md
R20, R22, R25), who writes the records of a device, and the invariant of the transfers (R24, R375). Each is settled from
`step_cases`, which says what one step can do, and from what a run of steps does.
-/
namespace Sys2Proof.Proofs

open Sys2Proof Sys2Proof.Machine Sys2Proof.Statement

/-! ## The parts of the invariant -/

theorem canonical_iff (s : State) : Safety.canonical s ↔ Tidy s ∧ Table.Sorted s.threads := by
  unfold Safety.canonical Tidy
  tauto

theorem fresh_iff (s : State) : Safety.fresh s ↔ FreshAllocs s ∧ ∀ c ∈ s.threads, c.1 < s.nextTid := by
  unfold Safety.fresh FreshAllocs
  tauto

/-! ## The agents after a turn that runs a sequence -/

section running

variable {s s0 : State} {tid : Option Nat} {f : Frame}

theorem running_mem (h : Running s s0 tid f) {c : Nat × Frame} (hc : c ∈ s0.threads) : c ∈ s.threads := by
  rcases h.threads with ⟨-, e⟩ | ⟨k, -, -, e⟩
  · rwa [e] at hc
  · rw [e] at hc
    exact (List.mem_filter.1 hc).1

theorem running_sorted (h : Running s s0 tid f) (hs : Table.Sorted s.threads) : Table.Sorted s0.threads := by
  rcases h.threads with ⟨-, e⟩ | ⟨k, -, -, e⟩
  · rwa [e]
  · rw [e]
    exact Table.sorted_erase k hs

theorem running_tidy (h : Running s s0 tid f) (hs : Tidy s) : Tidy s0 := by
  rw [h.kept]
  exact hs

theorem running_freshAllocs (h : Running s s0 tid f) (hs : FreshAllocs s) : FreshAllocs s0 := by
  rw [h.kept]
  exact hs

theorem running_dev (h : Running s s0 tid f) (k : Handle) : s0.dev k = s.dev k := by
  rw [h.kept]
  rfl

/-- The number a sequence is suspended under is a thread's own, or the next one to be given out. -/
theorem running_tid_lt (h : Running s s0 tid f) (hf : ∀ c ∈ s.threads, c.1 < s.nextTid) (k : Nat) (hk : tid = some k) :
    k < s.nextTid := by
  rcases h.threads with ⟨e, -⟩ | ⟨j, e, hl, -⟩
  · rw [e] at hk
    cases hk
  · rw [e] at hk
    cases hk
    exact hf _ (lookup_mem hl)

/-- The agents after a turn that runs a sequence: it has ended, or it is suspended as the activation or as a thread. -/
theorem agents_after (h : Running s s0 tid f) (n : Nat) :
    let r := runFrame n f s0
    let t := settle tid f r
    ((∀ g, r.1 ≠ .running g) ∧ t.threads = s0.threads ∧ t.activation = none ∧ t.nextTid = s.nextTid) ∨
      ∃ g, r.1 = .running g ∧
        ((g.ctx = .interrupt ∧ t.threads = s0.threads ∧ t.activation = some g ∧ t.nextTid = s.nextTid) ∨
          (g.ctx = .thread ∧ t.threads = Table.insert s0.threads (tid.getD s.nextTid) g ∧ t.activation = none ∧
            t.nextTid = if tid = none then s.nextTid + 1 else s.nextTid)) := by
  intro r t
  obtain ⟨-, -, h1, h2, h3, -, -⟩ := runFrame_sameAgents n f s0
  have h4 : s0.nextTid = s.nextTid := by rw [h.kept]
  have h5 : s0.activation = none := by rw [h.kept]
  rw [h4] at h2
  rw [h5] at h3
  rcases e : r.1 with g | v | x
  · right
    obtain ⟨a, b, c⟩ := settle_suspended tid f g r.2
    rw [← e] at a b c
    rw [h1, h2] at a
    rw [h3] at b
    rw [h2] at c
    refine ⟨g, rfl, ?_⟩
    cases hg : g.ctx
    · right
      simpa [hg] using And.intro a (And.intro b c)
    · left
      simpa [hg] using And.intro a (And.intro b c)
  all_goals
    left
    have he : ∀ g, r.1 ≠ .running g := by simp [e]
    obtain ⟨a, b, c⟩ := settle_ended tid f r.2 he
    exact ⟨by simp, a.trans h1, b.trans h3, c.trans h2⟩

/-- A sequence that still runs has its operation, operands and context, and only steps that its context and its
operation may take (R301, R341, R20, R22, R25, R235). -/
theorem running_frame (h : Running s s0 tid f) (hd : Safety.disciplined s) {n : Nat} {g : Frame}
    (hg : (runFrame n f s0).1 = .running g) :
    (g.op = f.op ∧ g.ops = f.ops ∧ g.ctx = f.ctx) ∧
      (g.ctx = .thread → ∀ m ∈ g.prog, Safety.threadStep m = true) ∧
      (g.ctx = .interrupt → ∀ m ∈ g.prog, Safety.interruptStep m = true) ∧ ∀ m ∈ g.prog, Safety.stepOf g.op m = true := by
  obtain ⟨ht, hi, ho, -⟩ := h.disciplined hd
  have hr : runFrame n f s0 = (.running g, (runFrame n f s0).2) := by rw [← hg]
  obtain ⟨e1, e2, e3, h4⟩ := runFrame_class (stepOf_closed f.op) n f s0 g _ ho hr
  refine ⟨⟨e1, e2, e3⟩, fun hc => ?_, fun hc => ?_, by rwa [e1]⟩
  · exact (runFrame_class threadStep_closed n f s0 g _ (ht (e3 ▸ hc)) hr).2.2.2
  · exact (runFrame_class interruptStep_closed n f s0 g _ (hi (e3 ▸ hc)) hr).2.2.2

/-! ## A turn that runs a sequence keeps the invariant -/

theorem running_keeps_canonical (h : Running s s0 tid f) (n : Nat) (hs : Safety.canonical s) :
    Safety.canonical (settle tid f (runFrame n f s0)) := by
  obtain ⟨ht, hth⟩ := (canonical_iff s).1 hs
  refine (canonical_iff _).2 ⟨settle_tidy _ _ _ (runFrame_tidy _ _ (running_tidy h ht)), ?_⟩
  have hs0 := running_sorted h hth
  rcases agents_after h n with ⟨-, e, -, -⟩ | ⟨g, -, ⟨-, e, -, -⟩ | ⟨-, e, -, -⟩⟩ <;> rw [e]
  · exact hs0
  · exact hs0
  · exact Table.sorted_insert _ _ hs0

theorem running_keeps_fresh (h : Running s s0 tid f) (n : Nat) (hs : Safety.fresh s) :
    Safety.fresh (settle tid f (runFrame n f s0)) := by
  obtain ⟨ha, hth⟩ := (fresh_iff s).1 hs
  refine (fresh_iff _).2 ⟨settle_fresh _ _ _ (runFrame_fresh _ _ (running_freshAllocs h ha)), fun c hc => ?_⟩
  rcases agents_after h n with ⟨-, e, -, e'⟩ | ⟨g, -, ⟨-, e, -, e'⟩ | ⟨-, e, -, e'⟩⟩ <;> rw [e] at hc <;> rw [e']
  · exact hth c (running_mem h hc)
  · exact hth c (running_mem h hc)
  · rcases Table.mem_insert hc with rfl | hc
    · cases tid with
      | none => simp
      | some k => simpa using running_tid_lt h hth k rfl
    · have := hth c (running_mem h hc)
      split <;> omega

theorem running_keeps_disciplined (h : Running s s0 tid f) (n : Nat) (hs : Safety.disciplined s) :
    Safety.disciplined (settle tid f (runFrame n f s0)) := by
  have old : ∀ c ∈ s0.threads, c.2.ctx = .thread ∧
      ∀ m ∈ c.2.prog, Safety.threadStep m = true ∧ Safety.stepOf c.2.op m = true :=
    fun c hc => hs.1 c (running_mem h hc)
  rcases agents_after h n with ⟨-, e, e', -⟩ | ⟨g, hg, ⟨hc, e, e', -⟩ | ⟨hc, e, e', -⟩⟩
  · exact ⟨by rwa [e], fun g hg => by rw [e'] at hg; cases hg⟩
  · obtain ⟨-, -, hi, ho⟩ := running_frame h hs hg
    refine ⟨by rwa [e], fun g' hg' => ?_⟩
    rw [e'] at hg'
    cases hg'
    exact ⟨hc, fun m hm => ⟨hi hc m hm, ho m hm⟩⟩
  · obtain ⟨-, ht, -, ho⟩ := running_frame h hs hg
    refine ⟨fun c hm => ?_, fun g' hg' => by rw [e'] at hg'; cases hg'⟩
    rw [e] at hm
    rcases Table.mem_insert hm with rfl | hm
    · exact ⟨hc, fun m hm => ⟨ht hc m hm, ho m hm⟩⟩
    · exact old c hm

theorem running_keeps_inv (h : Running s s0 tid f) (n : Nat) (hs : Safety.Inv s) :
    Safety.Inv (settle tid f (runFrame n f s0)) := by
  obtain ⟨hc, hf, hd⟩ := hs
  exact ⟨running_keeps_canonical h n hc, running_keeps_fresh h n hf, running_keeps_disciplined h n hd⟩

end running

/-! ## The other turns -/

/-- The invariant looks at the data, the allocations and the agents alone. -/
theorem inv_congr {s t : State} (hs : Safety.Inv s) (ht : Tidy s → Tidy t) (h1 : t.allocs = s.allocs)
    (h2 : t.nextHandle = s.nextHandle) (h3 : t.threads = s.threads) (h4 : t.nextTid = s.nextTid)
    (h5 : t.activation = s.activation) : Safety.Inv t := by
  obtain ⟨hc, hf, hd⟩ := hs
  obtain ⟨hc1, hc2⟩ := (canonical_iff s).1 hc
  obtain ⟨hf1, hf2⟩ := (fresh_iff s).1 hf
  refine ⟨(canonical_iff t).2 ⟨ht hc1, by rwa [h3]⟩, (fresh_iff t).2 ⟨hf1.of_eq h1 h2, by rwa [h3, h4]⟩, ?_⟩
  unfold Safety.disciplined at *
  rwa [h3, h5]

theorem raise_keeps_inv {s : State} (r : Request) (rest : List Turn) (k : Fault) (hs : Safety.Inv s) :
    Safety.Inv (raise r.ops.dev .thread k { s with inputs := rest, port := r }) :=
  inv_congr hs (fun h => h) rfl rfl rfl rfl rfl

theorem environmentMoved_keeps_inv {s t : State} (h : EnvironmentMoved s t) (hs : Safety.Inv s) : Safety.Inv t := by
  obtain ⟨e, -, ht⟩ := h
  exact inv_congr hs ht (by rw [e]) (by rw [e]) (by rw [e]) (by rw [e]) (by rw [e])

/-- Settles O39: by what one step can do, and the invariant kept by a run and by its end. -/
theorem everyStepKeepsTheInvariant : Obligations.EveryStepKeepsTheInvariant := by
  unfold Obligations.EveryStepKeepsTheInvariant
  intro s t hs h
  rcases step_cases h with ⟨-, rfl⟩ | ⟨s0, tid, f, n, hr, -, rfl⟩ | ⟨r, rest, k, -, -, rfl⟩ | he
  · exact hs
  · exact running_keeps_inv hr n hs
  · exact raise_keeps_inv r rest k hs
  · exact environmentMoved_keeps_inv he hs

end Sys2Proof.Proofs
end

section
/-!
Who writes the records of a device (spec/10_state.md R20, R22, R23, R25; spec/60_exceptions.md R327): each kind of step
writes its own part, a run of an operation's steps writes what its kinds of steps may, and a turn writes the records of
no other device.
-/
namespace Sys2Proof.Proofs

open Sys2Proof Sys2Proof.Machine Sys2Proof.Statement

/-- What a sequence of operation `i` may do to the records of its device, `d` before and `e` after. -/
structure Writes (i : Instr) (d e : Device) : Prop where
  regs : Safety.isBringUp i = false → ∃ b, e.dr = { d.dr with nien := b }
  life : Safety.isBringUp i = false → e.phase = d.phase ∧ e.registered = d.registered
  nien : Safety.writesNien i = false → e.dr = d.dr
  ct : Safety.isBringUp i = false → Safety.submits i = false → Safety.completes i = false → e.ct = d.ct
  registered : d.registered = true → e.registered = true
  handlerFault : e.handlerFault = d.handlerFault

theorem Writes.refl (i : Instr) (d : Device) : Writes i d d :=
  ⟨fun _ => ⟨d.dr.nien, rfl⟩, fun _ => ⟨rfl, rfl⟩, fun _ => rfl, fun _ _ _ => rfl, id, rfl⟩

theorem Writes.trans {i : Instr} {d e g : Device} (h1 : Writes i d e) (h2 : Writes i e g) : Writes i d g where
  regs hb := by
    obtain ⟨b, e1⟩ := h1.regs hb
    obtain ⟨c, e2⟩ := h2.regs hb
    exact ⟨c, by rw [e2, e1]⟩
  life hb := ⟨(h2.life hb).1.trans (h1.life hb).1, (h2.life hb).2.trans (h1.life hb).2⟩
  nien hn := (h2.nien hn).trans (h1.nien hn)
  ct hb hs hc := (h2.ct hb hs hc).trans (h1.ct hb hs hc)
  registered h := h2.registered (h1.registered h)
  handlerFault := h2.handlerFault.trans h1.handlerFault

/-! ## What each kind of step writes -/

/-- A bring-up's step registers a handler, or leaves the registration; it leaves the handler's fault. -/
theorem microStep_bringUp_dev {m : Micro} (hm : Safety.bringUpStep m = true) (f : Frame) (s : State) :
    ((s.dev f.ops.dev).registered = true → ((microStep m f s).2.dev f.ops.dev).registered = true) ∧
      ((microStep m f s).2.dev f.ops.dev).handlerFault = (s.dev f.ops.dev).handlerFault := by
  have hr : ∀ t : State, ((failBringUp f.ops.dev t).dev f.ops.dev).registered = (t.dev f.ops.dev).registered := by
    intro t
    simp [failBringUp, unspecifiedDevice, State.dev, State.setDev]
  cases m <;> simp only [Safety.bringUpStep, Bool.false_eq_true] at hm
  all_goals
    simp only [microStep, bringUpFails]
    repeat' split
  all_goals simp [hr]

/-- A submitter's or a handler's step on CurrentTransfer writes nothing else of the record (R25). -/
theorem microStep_transfer_dev {m : Micro} (hm : Safety.submitterStep m = true ∨ Safety.completionStep m = true)
    (f : Frame) (s : State) :
    ∃ ct, (microStep m f s).2.dev f.ops.dev = { s.dev f.ops.dev with ct := ct } := by
  have same : ∃ ct, s.dev f.ops.dev = { s.dev f.ops.dev with ct := ct } := ⟨_, rfl⟩
  cases m <;> simp only [Safety.submitterStep, Safety.completionStep, Bool.false_eq_true, or_self] at hm
  all_goals
    simp only [microStep, casFinished]
    repeat' split
  all_goals first
    | exact same
    | exact ⟨_, State.dev_setCt_self _ _ _⟩
    | exact ⟨_, dev_setEvent_self _ _ _⟩
    | exact ⟨_, dev_storeTsm_self _ _ _⟩
    | exact ⟨_, State.dev_releaseTable _ _ _⟩

/-- Every other step but the store of `dr.nien` leaves every record. -/
theorem microStep_dev {m : Micro} (h1 : Safety.bringUpStep m = false) (h2 : Safety.submitterStep m = false)
    (h3 : Safety.completionStep m = false) (h4 : Safety.nienStep m = false) (f : Frame) (s : State) (k : Handle) :
    (microStep m f s).2.dev k = s.dev k := by
  cases m <;> simp only [Safety.bringUpStep, Safety.submitterStep, Safety.completionStep, Safety.nienStep,
    Bool.true_eq_false] at h1 h2 h3 h4
  case pio a b c x y => exact State.dev_congr (pioStep_devs a b c x y f s) k
  case buildStop b => cases b <;> rfl
  all_goals
    simp only [microStep]
    repeat' split
  all_goals exact State.dev_congr (by simp) k

/-- A step that may stand in the sequence of an operation writes what the operation may (R20, R22, R25, R235). -/
theorem microStep_writes {m : Micro} {f : Frame} (s : State) (hm : Safety.stepOf f.op m = true) :
    Writes f.op (s.dev f.ops.dev) ((microStep m f s).2.dev f.ops.dev) := by
  simp only [Safety.stepOf, Bool.and_eq_true, Bool.or_eq_true, Bool.not_eq_true'] at hm
  obtain ⟨⟨⟨hb, hs⟩, hc⟩, hn⟩ := hm
  by_cases h1 : Safety.bringUpStep m = true
  · have hi : Safety.isBringUp f.op = true := hb.resolve_left (by simp [h1])
    have hw : Safety.writesNien f.op = true := by
      revert hi
      cases f.op <;> simp [Safety.isBringUp, Safety.writesNien]
    obtain ⟨h2, h3⟩ := microStep_bringUp_dev h1 f s
    exact ⟨by simp [hi], by simp [hi], by simp [hw], by simp [hi], h2, h3⟩
  by_cases h2 : Safety.submitterStep m = true ∨ Safety.completionStep m = true
  · obtain ⟨ct, e⟩ := microStep_transfer_dev h2 f s
    rw [e]
    refine ⟨fun _ => ⟨_, rfl⟩, fun _ => ⟨rfl, rfl⟩, fun _ => rfl, fun _ h3 h4 => ?_, id, rfl⟩
    rcases h2 with h2 | h2
    · rw [hs.resolve_left (by simp [h2])] at h3
      cases h3
    · rw [hc.resolve_left (by simp [h2])] at h4
      cases h4
  obtain ⟨h2, h3⟩ := not_or.1 h2
  by_cases h4 : Safety.nienStep m = true
  · obtain ⟨b, rfl⟩ : ∃ b, m = .setNien b := by
      cases m <;> first | exact ⟨_, rfl⟩ | cases h4
    have hw : Safety.writesNien f.op = true := hn.resolve_left (by simp [Safety.nienStep])
    simp only [microStep, State.dev_setDr_self]
    exact ⟨fun _ => ⟨b, rfl⟩, fun _ => ⟨rfl, rfl⟩, by simp [hw], fun _ _ _ => rfl, id, rfl⟩
  · rw [microStep_dev (by simpa using h1) (by simpa using h2) (by simpa using h3) (by simpa using h4)]
    exact Writes.refl _ _

/-- So does a run of them. -/
theorem runFrame_writes (n : Nat) (f : Frame) (s : State) (hf : ∀ m ∈ f.prog, Safety.stepOf f.op m = true) :
    Writes f.op (s.dev f.ops.dev) ((runFrame n f s).2.dev f.ops.dev) := by
  induction n generalizing f s with
  | zero => exact Writes.refl _ _
  | succ n ih =>
    simp only [runFrame]
    rcases frameStep_micro f s with e | ⟨m, rest, e1, e⟩
    · rw [e]
      exact Writes.refl _ _
    · have hm : Safety.stepOf f.op m = true := hf m (by simp [e1])
      have h1 := microStep_writes (m := m) (f := { f with prog := rest }) s hm
      rw [e]
      split
      · rename_i f1 s1 e2
        rw [e2] at h1
        obtain ⟨h3, h4, -⟩ := microStep_frame e2
        have h5 := microStep_class (stepOf_closed f.op) (f := { f with prog := rest }) hm
          (fun x hx => hf x (by simp [e1, hx])) e2
        have h6 := ih f1 s1 (by rwa [h3])
        rw [h3, h4] at h6
        exact h1.trans h6
      · exact h1

/-! ## The end of a turn -/

/-- The end of a turn writes the handler's fault of its device at most, and that in the interrupt context alone
(R323). -/
theorem settle_dev_eq (tid : Option Nat) (f : Frame) (r : Progress × State) (k : Handle) :
    (settle tid f r).dev k = r.2.dev k ∨
      (k = f.ops.dev ∧ f.ctx = .interrupt ∧ ∃ x, (settle tid f r).dev k = { r.2.dev k with handlerFault := some x }) := by
  obtain ⟨p, u⟩ := r
  cases p with
  | running g => exact .inl (State.dev_congr (suspend_devs u tid g) k)
  | returned v => exact .inl rfl
  | raised x =>
    simp only [settle_raised, dev_raise]
    split
    · rename_i h
      exact .inr ⟨h.2, h.1, x, rfl⟩
    · exact .inl rfl

/-- A turn that runs a sequence writes the records of its device alone, and of them what its operation may. -/
theorem running_writes {s s0 : State} {tid : Option Nat} {f : Frame} (h : Running s s0 tid f)
    (hd : Safety.disciplined s) (n : Nat) (k : Handle) (hk : (settle tid f (runFrame n f s0)).dev k ≠ s.dev k) :
    k = f.ops.dev ∧ ∃ e, Writes f.op (s.dev k) e ∧
      ((settle tid f (runFrame n f s0)).dev k = e ∨
        f.ctx = .interrupt ∧ ∃ x, (settle tid f (runFrame n f s0)).dev k = { e with handlerFault := some x }) := by
  have hown : k = f.ops.dev := by
    by_contra hne
    rcases settle_dev_eq tid f (runFrame n f s0) k with e | ⟨e, -⟩
    · rw [e, runFrame_othersKept n f s0 k hne, running_dev h] at hk
      exact hk rfl
    · exact hne e
  subst hown
  obtain ⟨-, -, ho, -⟩ := h.disciplined hd
  have hw := runFrame_writes n f s0 ho
  rw [running_dev h] at hw
  refine ⟨rfl, _, hw, ?_⟩
  rcases settle_dev_eq tid f (runFrame n f s0) f.ops.dev with e | ⟨-, hc, x, e⟩
  · exact .inl e
  · exact .inr ⟨hc, x, e⟩

/-! ## The classes of operations, as the statement lists them -/

theorem isBringUp_eq_false {i : Instr} (h : ∀ a b, i ≠ .initDevice a b) : Safety.isBringUp i = false := by
  cases i <;> first | rfl | exact absurd rfl (h _ _)

theorem writesNien_eq_false {i : Instr} (h1 : ∀ a b, i ≠ .initDevice a b) (h2 : ∀ b, i ≠ .programNien b)
    (h3 : ∀ a w, i ≠ .transferSectors a w) : Safety.writesNien i = false := by
  cases i <;> first | rfl | exact absurd rfl (h1 _ _) | exact absurd rfl (h2 _) | exact absurd rfl (h3 _ _)

theorem submits_completes_eq_false {i : Instr} (h1 : i ∉ [Instr.tsmSubmit, .tsmComplete, .tsmConsume, .irqHandler])
    (h2 : ∀ w, i ≠ .transferSectors true w) : Safety.submits i = false ∧ Safety.completes i = false := by
  simp only [List.mem_cons, List.not_mem_nil, or_false, not_or] at h1
  obtain ⟨hs, hc, hu, hh⟩ := h1
  cases i
  case transferSectors async w =>
    cases async
    · exact ⟨rfl, rfl⟩
    · exact absurd rfl (h2 w)
  all_goals first | exact ⟨rfl, rfl⟩ | contradiction

/-- What `Writes` says, in the statement's terms. -/
theorem Writes.clauses {i : Instr} {d e : Device} (hw : Writes i d e) (hb : ∀ a b, i ≠ .initDevice a b) :
    (∃ b, e.dr = { d.dr with nien := b }) ∧ e.phase = d.phase ∧ e.registered = d.registered ∧
      ((∀ b, i ≠ .programNien b) → (∀ a w, i ≠ .transferSectors a w) → e.dr = d.dr) ∧
      (i ∉ [Instr.tsmSubmit, .tsmComplete, .tsmConsume, .irqHandler] → (∀ w, i ≠ .transferSectors true w) →
        e.ct = d.ct) := by
  have hi := isBringUp_eq_false hb
  refine ⟨hw.regs hi, (hw.life hi).1, (hw.life hi).2, fun h1 h2 => hw.nien (writesNien_eq_false hb h1 h2),
    fun h1 h2 => ?_⟩
  obtain ⟨h3, h4⟩ := submits_completes_eq_false h1 h2
  exact hw.ct hi h3 h4

/-- Settles O41: the turn runs a sequence of the device, and the sequence writes what its operation may. -/
theorem recordsAreWrittenByTheirOperations : Obligations.RecordsAreWrittenByTheirOperations := by
  unfold Obligations.RecordsAreWrittenByTheirOperations
  intro s t hs h k hk
  rcases step_cases h with ⟨-, rfl⟩ | ⟨s0, tid, f, n, hr, -, rfl⟩ | ⟨r, rest, x, -, -, rfl⟩ | ⟨he, -⟩
  · exact absurd rfl hk
  · obtain ⟨-, -, hd⟩ := hs
    obtain ⟨rfl, e, hw, ht⟩ := running_writes hr hd n k hk
    refine ⟨f.op, f.ctx, hr.works, ?_⟩
    rcases ht with ht | ⟨hc, x, ht⟩ <;> rw [ht]
    · exact ⟨hw.clauses, hw.registered, fun _ => hw.handlerFault⟩
    · exact ⟨hw.clauses, hw.registered, fun h1 => by rw [hc] at h1; cases h1⟩
  · exact absurd rfl hk
  · rw [he] at hk
    exact absurd rfl hk

end Sys2Proof.Proofs
end

section
/-!
The invariant of the transfers under the launch premise D38 (spec/10_state.md R24; spec/43_transfer_state_machine.md R233;
spec/70_reset_and_hazards.md R375). A turn runs a handler's sequence, which moves `ct` along the handler's arc; or a thread's
that works on no device, which leaves every `ct`; or a thread's that works on its device, which by the premise is the only
one there.
-/
namespace Sys2Proof.Proofs

open Sys2Proof Sys2Proof.Machine Sys2Proof.Statement

/-! ## Threads in a table -/

theorem mem_insert_self {α : Type} (t : List (Nat × α)) (k : Nat) (v : α) : (k, v) ∈ Table.insert t k v :=
  lookup_mem (Table.lookup_insert_self t k v)

theorem mem_insert_of_mem {α : Type} {t : List (Nat × α)} {k : Nat} (v : α) {c : Nat × α} (h : c ∈ t)
    (hk : c.1 ≠ k) : c ∈ Table.insert t k v := by
  induction t with
  | nil => cases h
  | cons d t ih =>
    simp only [Table.insert]
    rcases List.mem_cons.1 h with rfl | h
    · repeat' split
      · simp
      · rename_i e
        exact absurd e.symm hk
      · simp
    · repeat' split
      · simp [h]
      · simp [h]
      · exact List.mem_cons_of_mem _ (ih h)

/-- In a table in canonical form a key has one entry. -/
theorem lookup_of_mem {α : Type} {t : List (Nat × α)} (hs : Table.Sorted t) {c : Nat × α} (hc : c ∈ t) :
    Table.lookup t c.1 = some c.2 := by
  induction t with
  | nil => cases hc
  | cons d t ih =>
    obtain ⟨hd, ht⟩ := List.pairwise_cons.1 hs
    rcases List.mem_cons.1 hc with rfl | hc
    · simp [Table.lookup]
    · have hne : d.1 ≠ c.1 := Nat.ne_of_lt (hd c hc)
      simp [Table.lookup, hne, ih ht hc]

/-! ## Operations that work on no device -/

/-- Does a sequence work on no device: BUILD_PRDT, or a transfer request whose device is null (R200, R271)? -/
def WorksOnNone (f : Frame) : Prop :=
  f.op = .buildPrdt ∨ ∃ a w, f.op = .transferSectors a w ∧ f.ops.devValid = false

/-- Every other sequence works on the device it names (R375). -/
theorem worksOn_dev {f : Frame} (h : ¬WorksOnNone f) (s : State) :
    ∃ c, Safety.worksOn s f.op f.ops = some (f.ops.dev, c) := by
  unfold WorksOnNone at h
  cases hi : f.op
  case buildPrdt => exact absurd (.inl hi) h
  case transferSectors a w =>
    have hv : f.ops.devValid = true := by
      by_contra hv
      exact h (.inr ⟨a, w, hi, by simpa using hv⟩)
    exact ⟨_, if_pos hv⟩
  all_goals exact ⟨_, rfl⟩

/-- Two sequences on one device conflict, unless one works on none. -/
theorem conflict_of_dev_eq {f g : Frame} (hf : ¬WorksOnNone f) (hg : ¬WorksOnNone g) (h : f.ops.dev = g.ops.dev)
    (s : State) : Safety.conflict (Safety.worksOn s f.op f.ops) (Safety.worksOn s g.op g.ops) := by
  obtain ⟨c, hc⟩ := worksOn_dev hf s
  obtain ⟨d, hd⟩ := worksOn_dev hg s
  exact ⟨_, _, hc, hd, .inl h⟩

theorem conflict_symm {x y : Option (Handle × Bool)} (h : Safety.conflict x y) : Safety.conflict y x := by
  obtain ⟨a, b, ha, hb, h⟩ := h
  exact ⟨b, a, hb, ha, h.imp Eq.symm Eq.symm⟩

/-- The steps a sequence has ahead that works on no device: none of them belongs to a bring-up; BUILD_PRDT's store no
table pointer, and a transfer has its parameter check first. -/
theorem worksOnNone_stages {f : Frame} (h : WorksOnNone f) (ho : ∀ m ∈ f.prog, Safety.stepOf f.op m = true)
    (hl : Safety.linked f.prog = true)
    (hn : ∀ a w, f.op = .transferSectors a w → f.ops.devValid = false → f.prog.head? = some .paramCheck) :
    Safety.headStage f.prog = 0 ∧ Safety.endsOpened f.prog = false := by
  constructor
  · rcases h with h | ⟨a, w, h, hv⟩
    · rw [h] at ho
      cases hp : f.prog with
      | nil => rfl
      | cons m rest =>
        rw [hp] at ho hl
        have hm := ho m (by simp)
        cases m
        case outPrdt =>
          cases rest with
          | nil => simp [Safety.linked, Safety.mayPrecede, Safety.stage, Safety.headStage] at hl
          | cons m2 rest2 =>
            have hm2 := ho m2 (by simp)
            cases m2 <;> simp_all [Safety.linked, Safety.mayPrecede, Safety.stage, Safety.headStage, Safety.stepOf,
              Safety.submitterStep, Safety.submits]
        all_goals first
          | rfl
          | simp [Safety.stepOf, Safety.bringUpStep, Safety.submitterStep, Safety.submits] at hm
    · obtain ⟨rest, e⟩ := List.head?_eq_some_iff.1 (hn a w h hv)
      rw [e]
      rfl
  · by_contra he
    have hm := ho _ (endsOpened_mem (by simpa using he))
    rcases h with h | ⟨a, w, h, -⟩ <;> simp [h, Safety.stepOf, Safety.bringUpStep, Safety.isBringUp] at hm

/-- Nothing that happens to `ct` unsettles a sequence that works on no device. -/
theorem knows_of_worksOnNone {f : Frame} (h : WorksOnNone f) (ho : ∀ m ∈ f.prog, Safety.stepOf f.op m = true)
    {ct ct' : CurrentTransfer} (hk : Safety.Knows f ct) : Safety.Knows f ct' := by
  obtain ⟨hl, -, -, -, hn⟩ := hk
  obtain ⟨h0, h1⟩ := worksOnNone_stages h ho hl hn
  exact ⟨hl, fun h2 => by omega, fun h2 => by omega, fun h2 => absurd (h1.symm.trans h2) (by decide), hn⟩

/-- It is never in the submitter's window. -/
theorem not_inWindow_of_worksOnNone {f : Frame} (h : WorksOnNone f) (ho : ∀ m ∈ f.prog, Safety.stepOf f.op m = true)
    {ct : CurrentTransfer} (hk : Safety.Knows f ct) : ¬Safety.inWindow f := by
  obtain ⟨hl, -, -, -, hn⟩ := hk
  have h0 := (worksOnNone_stages h ho hl hn).1
  unfold Safety.inWindow
  omega

/-- A run of a transfer request whose device is null: it has not begun, or it has ended with nothing done (R271). -/
theorem runFrame_null_transfer (n : Nat) {f : Frame} (s : State) (hv : f.ops.devValid = false)
    (hp : f.prog.head? = some .paramCheck) :
    (runFrame n f s).2 = s ∧ ∀ g, (runFrame n f s).1 = .running g → g = f := by
  cases n with
  | zero => exact ⟨rfl, fun g h => by cases h; rfl⟩
  | succ n =>
    obtain ⟨rest, e⟩ := List.head?_eq_some_iff.1 hp
    have h1 : frameStep f s = (.returned (.status .invalidParameter), s) := by
      simp [frameStep, e, microStep, hv]
    rw [runFrame_returned h1]
    exact ⟨rfl, fun g h => by cases h⟩

/-- A sequence that works on no device leaves every `ct` and every phase. -/
theorem runFrame_worksOnNone (n : Nat) {f : Frame} (s : State) (h : WorksOnNone f)
    (ho : ∀ m ∈ f.prog, Safety.stepOf f.op m = true)
    (hn : ∀ a w, f.op = .transferSectors a w → f.ops.devValid = false → f.prog.head? = some .paramCheck) (k : Handle) :
    ((runFrame n f s).2.dev k).ct = (s.dev k).ct ∧ ((runFrame n f s).2.dev k).phase = (s.dev k).phase := by
  rcases h with h | ⟨a, w, h, hv⟩
  · exact runFrame_builder n f s ho h k
  · rw [(runFrame_null_transfer n s hv (hn a w h hv)).1]
    exact ⟨rfl, rfl⟩

/-! ## What a sequence knows -/

theorem knows_iff (f : Frame) (ct : CurrentTransfer) :
    Safety.Knows f ct ↔ Established f.prog ct ∧
      ∀ a w, f.op = .transferSectors a w → f.ops.devValid = false → f.prog.head? = some .paramCheck :=
  ⟨fun ⟨h1, h2, h3, h4, h5⟩ => ⟨⟨h1, h2, h3, h4⟩, h5⟩, fun ⟨⟨h1, h2, h3, h4⟩, h5⟩ => ⟨h1, h2, h3, h4, h5⟩⟩

/-- The list of steps of an operation asks nothing of `ct` (R233, R261). -/
theorem established_of_program {i : Instr} {prog : List Micro} (h : Program i prog) (ct : CurrentTransfer) :
    Established prog ct := by
  have h5 : Safety.headStage prog < 5 := by
    have he := h.entry
    have hle := headStage_le_seven prog
    generalize Safety.headStage prog = n at *
    interval_cases n <;> simp [Safety.mayPrecede] at he ⊢
  exact ⟨h.linked, fun _ => by omega, fun _ => by omega, fun h1 => by rw [h.opened] at h1; cases h1⟩

/-- A handler's arc leaves what a thread knows (R230, R232). -/
theorem knows_of_handlerArc {i : Instr} {f : Frame} {a b : CurrentTransfer} (h : HandlerArc i a b)
    (hk : Safety.Knows f a) : Safety.Knows f b := by
  obtain ⟨hl, h5, h7, ho, hn⟩ := hk
  obtain ⟨hp, hs⟩ := h
  refine ⟨hl, fun h1 => ?_, fun h1 => hp.trans (h7 h1), fun h1 => ⟨?_, hp.trans (ho h1).2⟩, hn⟩
  · rcases hs with e | ⟨-, e, -⟩
    · rw [e]
      exact h5 h1
    · rw [h5 h1] at e
      cases e
  · rcases hs with e | ⟨-, e, -⟩
    · rw [e]
      exact (ho h1).1
    · rw [(ho h1).1] at e
      cases e

section running

variable {s s0 : State} {tid : Option Nat} {f : Frame}

/-- A thread's sequence starts, or goes on, with what it knows of its device's `ct`. -/
theorem running_knows (hq : Started s f ∧ tid = none ∨ Resumed s tid f)
    (hs : Safety.TransferInv s) (hc : f.ctx = .thread) : Safety.Knows f (s.dev f.ops.dev).ct := by
  obtain ⟨⟨-, -, hd⟩, -, hk⟩ := hs
  rcases hq with ⟨⟨hp, -, -⟩, -⟩ | ⟨k, -, hm⟩ | ⟨-, ha⟩
  · exact (knows_iff _ _).2 ⟨established_of_program hp _, fun a w e _ => hp.checked a w e⟩
  · exact hk _ hm
  · rw [(hd.2 f ha).1] at hc
    cases hc

/-- A suspended thread is the one resumed, or is left as it is. -/
theorem running_threads (h : Running s s0 tid f) (hs : Table.Sorted s.threads) {c : Nat × Frame}
    (hc : c ∈ s.threads) : c.2 = f ∨ c ∈ s0.threads := by
  rcases h.threads with ⟨-, e⟩ | ⟨k, -, hl, e⟩
  · exact .inr (by rwa [e])
  · by_cases hk : c.1 = k
    · have h1 := lookup_of_mem hs hc
      rw [hk, hl] at h1
      exact .inl (Option.some.inj h1).symm
    · exact .inr (by rw [e]; exact List.mem_filter.2 ⟨hc, by simpa using hk⟩)

/-- The number a sequence is suspended under is no other thread's. -/
theorem running_tid_ne (h : Running s s0 tid f) (hf : ∀ c ∈ s.threads, c.1 < s.nextTid) {c : Nat × Frame}
    (hc : c ∈ s0.threads) : c.1 ≠ tid.getD s.nextTid := by
  rcases h.threads with ⟨rfl, e⟩ | ⟨k, rfl, -, e⟩
  · rw [e] at hc
    exact Nat.ne_of_lt (hf c hc)
  · rw [e] at hc
    simpa using (List.mem_filter.1 hc).2

/-- Under the launch premise every other thread of a device works on none, where the thread that moves works on it
(R375). -/
theorem others_workOnNone (h : Running s s0 tid f) (hq : Started s f ∧ tid = none ∨ Resumed s tid f)
    (hi : Safety.Inv s) (hl : Safety.serialized s) (hc : f.ctx = .thread) (hf : ¬WorksOnNone f)
    {c : Nat × Frame} (hm : c ∈ s0.threads) (he : c.2.ops.dev = f.ops.dev) : WorksOnNone c.2 := by
  by_contra hn
  obtain ⟨-, hfr, hd⟩ := hi
  have hm' := running_mem h hm
  rcases hq with ⟨⟨-, -, r, rest, hi, hdec, ho, hctx⟩, -⟩ | ⟨k, rfl, hk⟩ | ⟨-, ha⟩
  · refine hl.2 r rest f.op hi (hctx ▸ hc) hdec c hm' ?_
    rw [← ho]
    exact conflict_of_dev_eq hf hn he.symm s
  · have hne : c ≠ (k, f) := fun e => running_tid_ne h ((fresh_iff s).1 hfr).2 hm (by simp [e])
    · have : Std.Symm (fun x y => ¬Safety.conflict (Safety.threadWorksOn s x) (Safety.threadWorksOn s y)) :=
        ⟨fun _ _ h1 h2 => h1 (conflict_symm h2)⟩
      exact hl.1.forall hm' hk hne (conflict_of_dev_eq hn hf he s)
  · rw [(hd.2 f ha).1] at hc
    cases hc

/-! ## A turn keeps the invariant of the transfers -/

/-- The thread a turn leaves suspended, if any, is listed, and the others stay. -/
theorem threads_after (h : Running s s0 tid f) (hfr : Safety.fresh s) (hc : f.ctx = .thread)
    (hd : Safety.disciplined s) (n : Nat) :
    let r := runFrame n f s0
    (∀ c ∈ (settle tid f r).threads, c ∈ s0.threads ∨ r.1 = .running c.2) ∧
      (∀ c ∈ s0.threads, c ∈ (settle tid f r).threads) ∧
      ∀ g, r.1 = .running g → ∃ k, (k, g) ∈ (settle tid f r).threads := by
  intro r
  have key : ∀ c ∈ s0.threads, c.1 ≠ tid.getD s.nextTid := fun c hc => running_tid_ne h ((fresh_iff s).1 hfr).2 hc
  rcases agents_after h n with ⟨he, e, -, -⟩ | ⟨g, hg, ⟨hi, -, -, -⟩ | ⟨-, e, -, -⟩⟩
  · rw [e]
    exact ⟨fun c hm => .inl hm, fun c hm => hm, fun g hg => absurd hg (he g)⟩
  · have := (running_frame h hd hg).1.2.2
    rw [hi, hc] at this
    cases this
  · rw [e]
    refine ⟨fun c hm => ?_, fun c hm => mem_insert_of_mem g hm (key c hm), fun g' hg' => ?_⟩
    · rcases Table.mem_insert hm with rfl | hm
      · exact .inr hg
      · exact .inl hm
    · rw [show g' = g from Progress.running.inj (hg'.symm.trans hg)]
      exact ⟨_, mem_insert_self _ _ _⟩

/-- An activation's slice: `ct` moves along the handler's arc, and the threads stay. -/
theorem handler_keeps_transferInv (h : Running s s0 tid f) (hs : Safety.TransferInv s) (hc : f.ctx = .interrupt)
    (n : Nat) : Safety.TransferInv (settle tid f (runFrame n f s0)) := by
  obtain ⟨hi, hw, hk⟩ := hs
  obtain ⟨-, -, hd⟩ := id hi
  obtain ⟨-, hint, hown, htid⟩ := h.disciplined hd
  have hth : (settle tid f (runFrame n f s0)).threads = s.threads := by
    have h0 : s0.threads = s.threads := by
      rcases h.threads with ⟨-, e⟩ | ⟨k, rfl, -⟩
      · exact e
      · have := htid (by simp)
        rw [hc] at this
        cases this
    rcases agents_after h n with ⟨-, e, -⟩ | ⟨g, hg, ⟨-, e, -⟩ | ⟨hg', -⟩⟩
    · exact e.trans h0
    · exact e.trans h0
    · have := (running_frame h hd hg).1.2.2
      rw [hg', hc] at this
      cases this
  have hdev : ∀ k, HandlerArc f.op (s.dev k).ct ((settle tid f (runFrame n f s0)).dev k).ct ∧
      ((settle tid f (runFrame n f s0)).dev k).phase = (s.dev k).phase := by
    intro k
    obtain ⟨e1, e2⟩ := settle_dev tid f (runFrame n f s0).1 (runFrame n f s0).2 k
    rw [e1, e2, ← running_dev h]
    by_cases e : k = f.ops.dev
    · rw [e]
      exact runFrame_handler n f s0 hown (hint hc)
    · rw [runFrame_othersKept n f s0 k e]
      exact ⟨⟨rfl, .inl rfl⟩, rfl⟩
  refine ⟨running_keeps_inv h n hi, fun k hup hp => ?_, fun c hm => ?_⟩
  · obtain ⟨⟨e1, e2⟩, e3⟩ := hdev k
    rw [hth]
    rw [e3] at hup
    rw [e1] at hp
    refine (hw k hup hp).imp_left fun hne => ?_
    rcases e2 with e2 | ⟨-, -, e2⟩ <;> rw [e2]
    · exact hne
    · exact nofun
  · rw [hth] at hm
    exact knows_of_handlerArc (hdev _).1 (hk c hm)

/-- A slice of a thread that works on no device: every `ct` stays. -/
theorem worksOnNone_keeps_transferInv (h : Running s s0 tid f) (hq : Started s f ∧ tid = none ∨ Resumed s tid f)
    (hs : Safety.TransferInv s) (hc : f.ctx = .thread) (hf : WorksOnNone f) (n : Nat) :
    Safety.TransferInv (settle tid f (runFrame n f s0)) := by
  have hkf := running_knows hq hs hc
  obtain ⟨hi, hw, hk⟩ := hs
  obtain ⟨hcan, hfr, hd⟩ := id hi
  obtain ⟨hthr, -, hown, -⟩ := h.disciplined hd
  obtain ⟨t1, t2, -⟩ := threads_after h hfr hc hd n
  have hdev : ∀ k, ((settle tid f (runFrame n f s0)).dev k).ct = (s.dev k).ct ∧
      ((settle tid f (runFrame n f s0)).dev k).phase = (s.dev k).phase := by
    intro k
    obtain ⟨e1, e2⟩ := settle_dev tid f (runFrame n f s0).1 (runFrame n f s0).2 k
    rw [e1, e2, ← running_dev h]
    exact runFrame_worksOnNone n s0 hf hown ((knows_iff _ _).1 hkf).2 k
  refine ⟨running_keeps_inv h n hi, fun k hup hp => ?_, fun c hm => ?_⟩
  · rw [(hdev k).2] at hup
    rw [(hdev k).1] at hp ⊢
    refine (hw k hup hp).imp_right fun ⟨c, hm, hck, hcw⟩ => ⟨c, ?_, hck, hcw⟩
    rcases running_threads h ((canonical_iff s).1 hcan).2 hm with e | hm
    · rw [e] at hcw
      exact absurd hcw (not_inWindow_of_worksOnNone hf hown hkf)
    · exact t2 c hm
  · rw [(hdev _).1]
    rcases t1 c hm with hm | hg
    · exact hk c (running_mem h hm)
    · obtain ⟨⟨e1, e2, -⟩, -, -, ho⟩ := running_frame h hd hg
      have hj := (runFrame_transfer n f s0 hown (hthr hc) (by rw [running_dev h]; exact ((knows_iff _ _).1 hkf).1)).j _ hg
      have hg' : WorksOnNone c.2 := by
        unfold WorksOnNone
        rw [e1, e2]
        exact hf
      refine knows_of_worksOnNone hg' ho ((knows_iff _ _).2 ⟨hj, fun a w e hv => ?_⟩)
      rw [e1] at e
      rw [e2] at hv
      have hp := ((knows_iff _ _).1 hkf).2 a w e hv
      rw [(runFrame_null_transfer n s0 hv hp).2 _ hg]
      exact hp

/-- A slice of a thread that works on its device: it moves `ct` as its steps may, and no other thread of the device
works on it. -/
theorem works_keeps_transferInv (h : Running s s0 tid f) (hq : Started s f ∧ tid = none ∨ Resumed s tid f)
    (hs : Safety.TransferInv s) (hl : Safety.serialized s) (hc : f.ctx = .thread) (hf : ¬WorksOnNone f) (n : Nat) :
    Safety.TransferInv (settle tid f (runFrame n f s0)) := by
  have hkf := running_knows hq hs hc
  obtain ⟨hi, hw, hk⟩ := hs
  obtain ⟨hcan, hfr, hd⟩ := id hi
  obtain ⟨hthr, -, hown, -⟩ := h.disciplined hd
  obtain ⟨t1, t2, t3⟩ := threads_after h hfr hc hd n
  have hrun := runFrame_transfer n f s0 hown (hthr hc) (by rw [running_dev h]; exact ((knows_iff _ _).1 hkf).1)
  rw [running_dev h] at hrun
  have hset := settle_dev tid f (runFrame n f s0).1 (runFrame n f s0).2
  have hoth : ∀ k, k ≠ f.ops.dev → (runFrame n f s0).2.dev k = s.dev k :=
    fun k hne => (runFrame_othersKept n f s0 k hne).trans (running_dev h k)
  have idle : ∀ c ∈ s0.threads, c.2.ops.dev = f.ops.dev → WorksOnNone c.2 :=
    fun c hm he => others_workOnNone h hq hi hl hc hf hm he
  have hsteps : ∀ c ∈ s0.threads, ∀ m ∈ c.2.prog, Safety.stepOf c.2.op m = true :=
    fun c hm m hp => ((hd.1 c (running_mem h hm)).2 m hp).2
  refine ⟨running_keeps_inv h n hi, fun k hup hp => ?_, fun c hm => ?_⟩
  · rw [(hset k).2] at hup
    rw [(hset k).1] at hp ⊢
    by_cases he : k = f.ops.dev
    · subst he
      have hwin : WindowOk (s.dev f.ops.dev) f.prog := fun hup' hp' =>
        (hw _ hup' hp').imp_right fun ⟨c, hm, hck, hcw⟩ => by
          rcases running_threads h ((canonical_iff s).1 hcan).2 hm with e | hm
          · rw [e] at hcw
            exact hcw
          · exact absurd hcw
              (not_inWindow_of_worksOnNone (idle c hm hck) (hsteps c hm) (hk c (running_mem h hm)))
      refine (hrun.w hwin hup hp).imp_right fun hat => ?_
      rcases hg : (runFrame n f s0).1 with g | v | x
      · obtain ⟨j, hj⟩ := t3 g hg
        rw [hg] at hat
        exact ⟨(j, g), hj, congrArg Operands.dev (running_frame h hd hg).1.2.1, hat⟩
      all_goals
        rw [hg] at hat
        rcases hat with e | e <;> cases e
    · rw [hoth k he] at hup hp ⊢
      refine (hw k hup hp).imp_right fun ⟨c, hm, hck, hcw⟩ => ⟨c, ?_, hck, hcw⟩
      rcases running_threads h ((canonical_iff s).1 hcan).2 hm with e | hm
      · rw [e] at hck
        exact absurd hck.symm he
      · exact t2 c hm
  · rw [(hset _).1]
    rcases t1 c hm with hm | hg
    · by_cases he : c.2.ops.dev = f.ops.dev
      · exact knows_of_worksOnNone (idle c hm he) (hsteps c hm) (hk c (running_mem h hm))
      · rw [hoth _ he]
        exact hk c (running_mem h hm)
    · obtain ⟨⟨e1, e2, -⟩, -⟩ := running_frame h hd hg
      rw [e2]
      refine (knows_iff _ _).2 ⟨hrun.j _ hg, fun a w e hv => ?_⟩
      rw [e1] at e
      rw [e2] at hv
      exact absurd (.inr ⟨a, w, e, hv⟩) hf

end running

/-- The invariant of the transfers looks at the records and the threads alone. -/
theorem transferInv_congr {s t : State} (hs : Safety.TransferInv s) (hi : Safety.Inv t) (h1 : t.devs = s.devs)
    (h2 : t.threads = s.threads) : Safety.TransferInv t := by
  obtain ⟨-, hw, hk⟩ := hs
  have hd : ∀ k, t.dev k = s.dev k := State.dev_congr h1
  exact ⟨hi, fun k => by rw [hd, h2]; exact hw k, fun c hm => by rw [hd]; exact hk c (h2 ▸ hm)⟩

/-- Settles O43: by the context of the sequence that moves, and by whether it works on its device. -/
theorem serializedStepsKeepTheTransferInvariant : Obligations.SerializedStepsKeepTheTransferInvariant := by
  unfold Obligations.SerializedStepsKeepTheTransferInvariant
  intro s t hs hl h
  rcases step_cases h with ⟨-, rfl⟩ | ⟨s0, tid, f, n, hr, hq, rfl⟩ | ⟨r, rest, k, -, -, rfl⟩ | he
  · exact hs
  · cases hc : f.ctx with
    | interrupt => exact handler_keeps_transferInv hr hs hc n
    | thread =>
      by_cases hf : WorksOnNone f
      · exact worksOnNone_keeps_transferInv hr hq hs hc hf n
      · exact works_keeps_transferInv hr hq hs hl hc hf n
  · exact transferInv_congr hs (raise_keeps_inv r rest k hs.1) rfl rfl
  · obtain ⟨e, -⟩ := id he
    exact transferInv_congr hs (environmentMoved_keeps_inv he hs.1) (by rw [e]) (by rw [e])

/-! ## Reset -/

/-- At reset every table is empty and no agent is under way. -/
theorem reset_inv : Safety.Inv State.reset := by
  have hnil : ∀ {α : Type}, Table.Sorted ([] : List (Nat × α)) := List.Pairwise.nil
  exact ⟨⟨hnil, hnil, hnil, hnil, hnil, ⟨hnil, List.forall_mem_nil _⟩, ⟨hnil, List.forall_mem_nil _⟩,
    hnil, List.forall_mem_nil _⟩, ⟨List.Pairwise.nil, List.forall_mem_nil _, List.forall_mem_nil _⟩,
    List.forall_mem_nil _, fun f h => absurd h (Option.some_ne_none f).symm⟩

/-- Settles O38: no table stands, no agent is under way and no device is up. -/
theorem resetMeetsTheInvariant : Obligations.ResetMeetsTheInvariant := by
  unfold Obligations.ResetMeetsTheInvariant
  refine ⟨reset_inv, reset_inv, fun k hup => ?_, List.forall_mem_nil _⟩
  have hdown : (State.reset.dev k).phase = .down := by cases k <;> rfl
  rw [hdown] at hup
  cases hup

/-- Settles O60: reset's records and outputs, field by field; no turn is listed, so a step is idle. -/
theorem resetLeavesNoDeviceUp : Obligations.ResetLeavesNoDeviceUp := by
  unfold Obligations.ResetLeavesNoDeviceUp
  exact ⟨fun h => by cases h <;> exact ⟨rfl, rfl, rfl⟩, rfl, rfl, rfl, rfl, rfl, rfl, rfl, rfl, rfl, rfl, rfl⟩

end Sys2Proof.Proofs
end

section
/-!
The register accesses (spec/40_register_access.md R120 to R173), the commands (R103), SELECT_DEVICE, STOP_DMA and PROGRAM_NIEN
(spec/41_primitives.md R183, R184, R187). One lemma says what a short sequence of one read, or of one write, leaves; each
statement is that lemma at the ports of its operations.
-/
namespace Sys2Proof.Proofs

open Sys2Proof Sys2Proof.Machine Sys2Proof.Statement

/-! ## Accepted requests -/

/-- A device that is brought up admits every operation but a bring-up and a delivery (R56). -/
theorem phaseAllows_of_up {i : Instr} {r : Request} {d : Device} (hd : d.phase = .up)
    (h1 : Safety.isBringUp i = false) (h2 : i ≠ .irqHandler) : phaseAllows i r d = none := by
  cases i
  case initDevice => cases h1
  case irqHandler => exact absurd rfl h2
  all_goals simp [phaseAllows, hd]

/-- Is the request at the port accepted for operation `i`: neither refused, nor a call on an agent that has ended? -/
def Accepts (s : State) (i : Instr) : Prop := refusal i s = none ∧ endedAgent s = none

theorem issue_of_accepts {s : State} {i : Instr} (h : Accepts s i) (prog : List Micro) :
    issue i prog s = .next (runRequest i prog s) := issue_accepted h.1 h.2

theorem accepts_of_ready {s : State} {n : Nat} {i : Instr} (h : Ready s n) (ht : threadMay i = true)
    (hb : Safety.isBringUp i = false) : Accepts s i := by
  obtain ⟨hc, hp, -⟩ := h
  have hi : i ≠ .irqHandler := fun e => by rw [e] at ht; cases ht
  constructor
  · simp [refusal, contextAllows, hc, ht, phaseAllows_of_up hp hb hi]
  · simp [endedAgent, hc]

theorem accepts_of_readyInterrupt {s : State} {n : Nat} {i : Instr} (h : ReadyInterrupt s n)
    (hm : interruptMay i = true) (hi : i ≠ .irqHandler) : Accepts s i := by
  obtain ⟨hc, hp, hf, -⟩ := h
  have hb : Safety.isBringUp i = false := by
    cases i <;> first | rfl | cases hm
  constructor
  · simp [refusal, contextAllows, hc, hm, phaseAllows_of_up hp hb hi]
  · simp [endedAgent, hc, hf]

theorem accepts_of_readyEither {s : State} {n : Nat} {i : Instr} (h : ReadyEither s n) (ht : threadMay i = true)
    (hm : interruptMay i = true) : Accepts s i := by
  have hi : i ≠ .irqHandler := fun e => by rw [e] at ht; cases ht
  have hb : Safety.isBringUp i = false := by
    cases i <;> first | rfl | cases hm
  exact h.elim (fun h => accepts_of_ready h ht hb) (fun h => accepts_of_readyInterrupt h hm hi)

theorem accepts_of_delivered {s : State} {n : Nat} (h : Delivered s n) : Accepts s .irqHandler := by
  obtain ⟨hc, hr, hf, -⟩ := h
  constructor
  · simp [refusal, contextAllows, hc, interruptMay, phaseAllows, hr]
  · simp [endedAgent, hc, hf]

theorem accepts_of_mayBringUp {s : State} {n : Nat} (h : MayBringUp s n) (secondary slave : Bool) :
    Accepts s (.initDevice secondary slave) := by
  obtain ⟨hc, -, hp⟩ := h
  constructor
  · by_cases he : (s.dev s.port.ops.dev).ct.state = .inProgress
    · simp [refusal, contextAllows, hc, threadMay, phaseAllows, hp he]
    · simp [refusal, contextAllows, hc, threadMay, phaseAllows, he]
  · simp [endedAgent, hc]

theorem slice_of_ready {s : State} {n : Nat} (h : Ready s n) : n ≤ s.port.slice := by
  obtain ⟨-, -, hn⟩ := h
  exact hn

theorem slice_of_readyEither {s : State} {n : Nat} (h : ReadyEither s n) : n ≤ s.port.slice :=
  h.elim slice_of_ready (fun ⟨_, _, _, hn⟩ => hn)

/-! ## Runs of a request -/

/-- A run that ends within `m` steps ends so in any longer slice. -/
theorem runFrame_returned_of_le {m n : Nat} {f : Frame} {s t : State} {r : Result}
    (h : runFrame m f s = (.returned r, t)) (hn : m ≤ n) : runFrame n f s = (.returned r, t) := by
  obtain ⟨k, rfl⟩ := Nat.exists_eq_add_of_le hn
  rw [runFrame_add, h]

theorem runFrame_raised_of_le {m n : Nat} {f : Frame} {s t : State} {k : Fault}
    (h : runFrame m f s = (.raised k, t)) (hn : m ≤ n) : runFrame n f s = (.raised k, t) := by
  obtain ⟨j, rfl⟩ := Nat.exists_eq_add_of_le hn
  rw [runFrame_add, h]

/-- A request whose sequence returns within its slice. -/
theorem issue_returns {s t : State} {i : Instr} {prog : List Micro} {m : Nat} {r : Result} (ha : Accepts s i)
    (hm : m ≤ s.port.slice) (h : runFrame m (startFrame i prog s.port) s = (.returned r, t)) :
    issue i prog s = .next (handBack s.port.ops.dev i r t) := by
  rw [issue_of_accepts ha, runRequest, runFrame_returned_of_le h hm]
  rfl

/-- A request whose sequence raises within its slice. -/
theorem issue_raises {s t : State} {i : Instr} {prog : List Micro} {m : Nat} {k : Fault} (ha : Accepts s i)
    (hm : m ≤ s.port.slice) (h : runFrame m (startFrame i prog s.port) s = (.raised k, t)) :
    issue i prog s = .next (raise s.port.ops.dev s.port.ctx k t) := by
  rw [issue_of_accepts ha, runRequest, runFrame_raised_of_le h hm]
  rfl

/-! ## One read -/

theorem keepsBlock_portRead (s : State) (h : Handle) (w : Width) (p : Port) (i : Instr) (r : Result) :
    KeepsBlock s (handBack h i r (portRead h w p s)) := by
  simp [KeepsBlock, KeepsMemory, KeepsRest, KeepsButCalls]

/-- A sequence of one byte read: one event at the port's address, the byte returned, nothing else changed but the answer
taken (R121). -/
theorem issue_readByte {s : State} {i : Instr} {p : Port} {addr : IoAddr} {v : Byte} (ha : Accepts s i)
    (hn : 2 ≤ s.port.slice) (hp : portAddr (regs s) p = addr)
    (hv : portValue s.port.ops.dev .w8 p s = v.setWidth 32) :
    ∃ t, issue i [.inp .w8 p, .ret .byte] s = .next t ∧ t.trace = s.trace ++ [.read .w8 addr (v.setWidth 32)] ∧
      Returns s t i (.byte v) ∧ KeepsBlock s t ∧ t.env = s.tookAnswer.env := by
  have hrun : runFrame 2 (startFrame i [.inp .w8 p, .ret .byte] s.port) s =
      (.returned (.byte v), portRead s.port.ops.dev .w8 p s) := by
    simp [runFrame, frameStep, microStep, startFrame, retValue, hv]
  refine ⟨_, issue_returns ha hn hrun, ?_, by simp [Returns], keepsBlock_portRead _ _ _ _ _ _, rfl⟩
  simp [portRead, State.record, hv, ← hp, regs]

/-! ## The values of reads -/

theorem portValue_statusFor (h : Handle) (s : State) :
    portValue h .w8 ⟨.command, 7⟩ s = (statusFor s h s.nextAnswer).setWidth 32 := by
  rw [portValue_status, statusFor]
  split <;> rfl

theorem portValue_error (h : Handle) (s : State) :
    portValue h .w8 ⟨.command, 1⟩ s = (s.nextAnswer.setWidth 8 : Byte).setWidth 32 := by
  simp [portValue, deviceAnswer, commandAnswer, Width.trim]

theorem portValue_fifo (h : Handle) (n : Nat) (hn : n = 2 ∨ n = 3 ∨ n = 4 ∨ n = 5) (s : State) :
    portValue h .w8 ⟨.command, n⟩ s =
      (((s.cmdBlock (s.dev h).dr.base).current.fifo n).read (s.hob (s.dev h).dr)).setWidth 32 := by
  rcases hn with rfl | rfl | rfl | rfl <;> simp [portValue, deviceAnswer, commandAnswer, Width.trim]

theorem portValue_device (h : Handle) (s : State) :
    portValue h .w8 ⟨.command, 6⟩ s =
      (withFlag (withFlag (byteAt s.nextAnswer 0) 6 ((s.cmdBlock (s.dev h).dr.base).device.getLsbD 6)) 4
        ((s.cmdBlock (s.dev h).dr.base).device.getLsbD 4)).setWidth 32 := by
  simp [portValue, deviceAnswer, commandAnswer, Width.trim, flag, Config.lbaBit, Config.devBit]

theorem portValue_prdtLane (h : Handle) (n : Nat) (hn : n < 4) (s : State) :
    portValue h .w8 ⟨.busMaster, 4 + n⟩ s =
      ((s.busMaster (s.dev h).dr.bm).prdtaddr.extractLsb' (8 * n) 8).setWidth 32 := by
  interval_cases n <;> simp [portValue, deviceAnswer, busMasterAnswer, Width.trim, byteAt]

/-- Settles O2: one read each, whose values are the draw's, and 0x00 where no device is. -/
theorem readOfStatusAndError : Obligations.ReadOfStatusAndError := by
  unfold Obligations.ReadOfStatusAndError
  intro s hs
  have hn := slice_of_readyEither hs
  simp only [List.mem_cons, List.not_mem_nil, or_false, forall_eq_or_imp, forall_eq]
  exact ⟨issue_readByte (accepts_of_readyEither hs rfl rfl) hn rfl (portValue_error _ s),
    issue_readByte (accepts_of_readyEither hs rfl rfl) hn rfl (portValue_statusFor _ s)⟩

/-- Settles O3: a FIFO register answers the half HOB selects, DEVICE its bits 6 and 4. -/
theorem readOfKeptCommandBlockRegister : Obligations.ReadOfKeptCommandBlockRegister := by
  unfold Obligations.ReadOfKeptCommandBlockRegister
  refine ⟨fun s hs => ?_, fun s hs => ?_⟩
  · have ha : ∀ i, threadMay i = true → Safety.isBringUp i = false → Accepts s i := fun i => accepts_of_ready hs
    simp only [List.mem_cons, List.not_mem_nil, or_false, forall_eq_or_imp, forall_eq]
    exact ⟨issue_readByte (ha _ rfl rfl) (slice_of_ready hs) rfl (portValue_fifo _ 2 (by simp) s),
      issue_readByte (ha _ rfl rfl) (slice_of_ready hs) rfl (portValue_fifo _ 3 (by simp) s),
      issue_readByte (ha _ rfl rfl) (slice_of_ready hs) rfl (portValue_fifo _ 4 (by simp) s),
      issue_readByte (ha _ rfl rfl) (slice_of_ready hs) rfl (portValue_fifo _ 5 (by simp) s)⟩
  · obtain ⟨t, h1, h2⟩ := issue_readByte (i := .rdDevice) (accepts_of_ready hs rfl rfl) (slice_of_ready hs) rfl
      (portValue_device _ s)
    refine ⟨t, _, h1, fun i hi => ?_, h2⟩
    rw [getLsbD_withFlag _ _ _ _ hi, getLsbD_withFlag _ _ _ _ hi]
    by_cases h6 : i = 6
    · simp [h6, block, regs]
    · by_cases h4 : i = 4
      · simp [h4, block, regs]
      · simp [h4, h6, hi, byteAt]

/-- Settles O5: BUSSTATUS answers the IRQ bit, PRDTADDR its byte lanes. -/
theorem readOfKeptBusMasterRegister : Obligations.ReadOfKeptBusMasterRegister := by
  unfold Obligations.ReadOfKeptBusMasterRegister
  refine ⟨fun s hs => ?_, fun s hs => ?_⟩
  · obtain ⟨t, h1, h2⟩ := issue_readByte (i := .rdBusstatus) (accepts_of_readyEither hs rfl rfl)
      (slice_of_readyEither hs) rfl (portValue_busStatus _ s)
    refine ⟨t, _, h1, fun i hi => ?_, h2⟩
    rw [getLsbD_withFlag _ _ _ _ hi]
    by_cases h2 : i = 2
    · simp [h2, Config.irqBit, engine, regs]
    · simp [h2, Config.irqBit, byteAt, hi]
  · have ha : ∀ i, threadMay i = true → Safety.isBringUp i = false → Accepts s i := fun i => accepts_of_ready hs
    simp only [List.mem_cons, List.not_mem_nil, or_false, forall_eq_or_imp, forall_eq]
    exact ⟨issue_readByte (ha _ rfl rfl) (slice_of_ready hs) rfl (portValue_prdtLane _ 0 (by simp) s),
      issue_readByte (ha _ rfl rfl) (slice_of_ready hs) rfl (portValue_prdtLane _ 1 (by simp) s),
      issue_readByte (ha _ rfl rfl) (slice_of_ready hs) rfl (portValue_prdtLane _ 2 (by simp) s),
      issue_readByte (ha _ rfl rfl) (slice_of_ready hs) rfl (portValue_prdtLane _ 3 (by simp) s)⟩

end Sys2Proof.Proofs
end

section
/-!
The register writes (spec/40_register_access.md R120 to R173), the commands (R103), SELECT_DEVICE, STOP_DMA and PROGRAM_NIEN
(spec/41_primitives.md R183, R184, R187): a sequence of one write, by which of the three windows it reaches.
-/
namespace Sys2Proof.Proofs

open Sys2Proof Sys2Proof.Machine Sys2Proof.Statement

/-! ## One write -/

/-- A sequence of one step that goes on, with nothing to return. -/
theorem issue_done {s u : State} {i : Instr} {m : Micro} (ha : Accepts s i) (hn : 2 ≤ s.port.slice)
    (hm : ∀ f : Frame, f.ops = s.port.ops → microStep m f s = (.running f, u)) :
    issue i [m, .ret .done] s = .next (handBack s.port.ops.dev i .done u) := by
  have hrun : runFrame 2 (startFrame i [m, .ret .done] s.port) s = (.returned .done, u) := by
    have h1 : frameStep (startFrame i [m, .ret .done] s.port) s = (.running (startFrame i [.ret .done] s.port), u) :=
      hm (startFrame i [.ret .done] s.port) rfl
    rw [runFrame_running h1]
    rfl
  exact issue_returns ha hn hrun

/-- What one event and the store to the command block of the request's device leave. -/
theorem after_setCmdBlock (s : State) (i : Instr) (c : CmdBlock) (e : PortEvent) :
    let t := handBack s.port.ops.dev i .done ((s.setCmdBlock (regs s).base c).record e)
    t.trace = s.trace ++ [e] ∧ Returns s t i .done ∧ KeepsBlock s t ∧ block t = c ∧ t.env.ctl = s.env.ctl ∧
      t.env.bm = s.env.bm ∧ KeepsOtherBlocks s t (regs s) ∧ KeepsAnswers s t := by
  refine ⟨rfl, rfl, ⟨rfl, ⟨fun _ => rfl, fun _ => rfl⟩, ⟨rfl, rfl, rfl, rfl, rfl, rfl, rfl, rfl, rfl, rfl, rfl, rfl⟩, rfl⟩,
    State.cmdBlock_setCmdBlock_self _ _ _, rfl, rfl,
    ⟨fun k hk => State.cmdBlock_setCmdBlock_other s c hk, fun _ _ => rfl, fun _ _ => rfl⟩, rfl, rfl, rfl, rfl, rfl⟩

/-- The same of a store to the bus-master block. -/
theorem after_setBusMaster (s : State) (i : Instr) (b : BusMaster) (e : PortEvent) :
    let t := handBack s.port.ops.dev i .done ((s.setBusMaster (regs s).bm b).record e)
    t.trace = s.trace ++ [e] ∧ Returns s t i .done ∧ KeepsBlock s t ∧ engine t = b ∧ t.env.cmd = s.env.cmd ∧
      t.env.ctl = s.env.ctl ∧ KeepsOtherBlocks s t (regs s) ∧ KeepsAnswers s t := by
  refine ⟨rfl, rfl, ⟨rfl, ⟨fun _ => rfl, fun _ => rfl⟩, ⟨rfl, rfl, rfl, rfl, rfl, rfl, rfl, rfl, rfl, rfl, rfl, rfl⟩, rfl⟩,
    State.busMaster_setBusMaster_self _ _ _, rfl, rfl,
    ⟨fun _ _ => rfl, fun _ _ => rfl, fun k hk => State.busMaster_setBusMaster_other s b hk⟩, rfl, rfl, rfl, rfl, rfl⟩

/-- The same of a store to DEVCTL. -/
theorem after_setDevctl (s : State) (i : Instr) (b : Byte) (e : PortEvent) :
    let t := handBack s.port.ops.dev i .done ((s.setDevctl (regs s).ctrl b).record e)
    t.trace = s.trace ++ [e] ∧ Returns s t i .done ∧ KeepsBlock s t ∧ t.devctl (regs s).ctrl = b ∧
      t.env.cmd = s.env.cmd ∧ t.env.bm = s.env.bm ∧ KeepsOtherBlocks s t (regs s) ∧ KeepsAnswers s t := by
  refine ⟨rfl, rfl, ⟨rfl, ⟨fun _ => rfl, fun _ => rfl⟩, ⟨rfl, rfl, rfl, rfl, rfl, rfl, rfl, rfl, rfl, rfl, rfl, rfl⟩, rfl⟩,
    State.devctl_setDevctl_self _ _ _, rfl, rfl,
    ⟨fun _ _ => rfl, fun k hk => State.devctl_setDevctl_other s b hk, fun _ _ => rfl⟩, rfl, rfl, rfl, rfl, rfl⟩

/-- A sequence of one write that reaches the command block of its device. -/
theorem issue_writeBlock {s : State} {i : Instr} {m : Micro} {c : CmdBlock} {e : PortEvent} (ha : Accepts s i)
    (hn : 2 ≤ s.port.slice) (hm : ∀ f : Frame, f.ops = s.port.ops →
      microStep m f s = (.running f, (s.setCmdBlock (regs s).base c).record e)) :
    ∃ t, issue i [m, .ret .done] s = .next t ∧ t.trace = s.trace ++ [e] ∧ Returns s t i .done ∧ KeepsBlock s t ∧
      block t = c ∧ t.env.ctl = s.env.ctl ∧ t.env.bm = s.env.bm ∧ KeepsOtherBlocks s t (regs s) ∧ KeepsAnswers s t :=
  ⟨_, issue_done ha hn hm, after_setCmdBlock s i c e⟩

/-- A sequence of one write that reaches the bus-master block of its device. -/
theorem issue_writeEngine {s : State} {i : Instr} {m : Micro} {b : BusMaster} {e : PortEvent} (ha : Accepts s i)
    (hn : 2 ≤ s.port.slice) (hm : ∀ f : Frame, f.ops = s.port.ops →
      microStep m f s = (.running f, (s.setBusMaster (regs s).bm b).record e)) :
    ∃ t, issue i [m, .ret .done] s = .next t ∧ t.trace = s.trace ++ [e] ∧ Returns s t i .done ∧ KeepsBlock s t ∧
      engine t = b ∧ t.env.cmd = s.env.cmd ∧ t.env.ctl = s.env.ctl ∧ KeepsOtherBlocks s t (regs s) ∧
      KeepsAnswers s t :=
  ⟨_, issue_done ha hn hm, after_setBusMaster s i b e⟩

/-! ## What each write stores -/

/-- The write of a port by a step of the request's device. -/
theorem microStep_out {s u : State} {w : Width} {p : Port} {v : Dword} (h : portWrite s.port.ops.dev w p v s = u)
    (f : Frame) (hf : f.ops = s.port.ops) : microStep (.out w p v) f s = (.running f, u) := by
  simp [microStep, hf, h]

theorem portWrite_features (h : Handle) (b : Byte) (s : State) :
    portWrite h .w8 ⟨.command, 1⟩ (b.setWidth 32) s =
      (s.setCmdBlock (s.dev h).dr.base ((s.cmdBlock (s.dev h).dr.base).setCurrent
        { (s.cmdBlock (s.dev h).dr.base).current with features := b })).record
        (.write .w8 ((s.dev h).dr.base + 1#16) (b.setWidth 32)) := by
  simp [portWrite, deviceWrite, commandWrite, Width.trim, portAddr, windowBase]

/-- The write of a byte lane of PRDTADDR (R167 to R173). -/
theorem portWrite_prdtLane (h : Handle) (n : Nat) (hn : n < 4) (b : Byte) (s : State) :
    portWrite h .w8 ⟨.busMaster, 4 + n⟩ (b.setWidth 32) s =
      (s.setBusMaster (s.dev h).dr.bm { s.busMaster (s.dev h).dr.bm with
        prdtaddr := withLane (s.busMaster (s.dev h).dr.bm).prdtaddr n b }).record
        (.write .w8 ((s.dev h).dr.bm + BitVec.ofNat 16 (4 + n)) (b.setWidth 32)) := by
  interval_cases n <;>
    simp [portWrite, deviceWrite, busMasterWrite, BusMaster.writeAddr, Width.trim, portAddr, windowBase]

/-- One bit of a value with one byte lane replaced. -/
theorem getLsbD_withLane (v : Dword) (i : Nat) (b : Byte) (j : Nat) (hj : j < 32) :
    (withLane v i b).getLsbD j = if 8 * i ≤ j ∧ j < 8 * i + 8 then b.getLsbD (j - 8 * i) else v.getLsbD j := by
  have hff : ∀ k, (0xFF#32).getLsbD k = decide (k < 8) := by
    intro k
    rw [show (0xFF#32) = (BitVec.allOnes 8).setWidth 32 from rfl, BitVec.getLsbD_setWidth, BitVec.getLsbD_allOnes,
      ← Bool.decide_and]
    exact decide_eq_decide.2 (by omega)
  simp only [withLane, BitVec.getLsbD_or, BitVec.getLsbD_and, BitVec.getLsbD_not, BitVec.getLsbD_shiftLeft, hff,
    BitVec.getLsbD_setWidth, hj, decide_true, Bool.true_and]
  by_cases h1 : 8 * i ≤ j
  · by_cases h2 : j < 8 * i + 8
    · have h3 : ¬j < 8 * i := by omega
      have h4 : j - 8 * i < 8 := by omega
      have h5 : j - 8 * i < 32 := by omega
      simp [h1, h2, h3, h4, h5]
    · have h3 : ¬j < 8 * i := by omega
      have h4 : ¬j - 8 * i < 8 := by omega
      simp [h2, h3, h4, BitVec.getLsbD_of_ge b _ (by omega : 8 ≤ j - 8 * i)]
  · have h3 : j < 8 * i := by omega
    simp [h1, h3]

/-- A value with a byte lane replaced, as its lanes in a row (R167 to R173). -/
theorem withLane_eq (p : Dword) (b : Byte) :
    withLane p 0 b = p.extractLsb' 8 24 ++ b ∧ withLane p 1 b = p.extractLsb' 16 16 ++ b ++ p.extractLsb' 0 8 ∧
      withLane p 2 b = p.extractLsb' 24 8 ++ b ++ p.extractLsb' 0 16 ∧ withLane p 3 b = b ++ p.extractLsb' 0 24 := by
  refine ⟨?_, ?_, ?_, ?_⟩
  all_goals
    apply BitVec.eq_of_getLsbD_eq
    intro j hj
    rw [getLsbD_withLane _ _ _ _ hj]
    simp only [BitVec.getLsbD_append, BitVec.getLsbD_extractLsb']
    grind

/-! ## The statements -/

/-- Settles O8: each write reaches the command block, and replaces the register named. -/
theorem writeOfCommandBlockRegister : Obligations.WriteOfCommandBlockRegister := by
  unfold Obligations.WriteOfCommandBlockRegister
  intro s hs
  have ha : ∀ i, threadMay i = true → Safety.isBringUp i = false → Accepts s i := fun i => accepts_of_ready hs
  simp only [List.mem_cons, List.not_mem_nil, or_false, forall_eq_or_imp, forall_eq]
  exact ⟨issue_writeBlock (ha _ rfl rfl) (slice_of_ready hs) (microStep_out (portWrite_features _ _ s)),
    issue_writeBlock (ha _ rfl rfl) (slice_of_ready hs) (microStep_out (portWrite_fifo _ 2 (by simp) _ s)),
    issue_writeBlock (ha _ rfl rfl) (slice_of_ready hs) (microStep_out (portWrite_fifo _ 3 (by simp) _ s)),
    issue_writeBlock (ha _ rfl rfl) (slice_of_ready hs) (microStep_out (portWrite_fifo _ 4 (by simp) _ s)),
    issue_writeBlock (ha _ rfl rfl) (slice_of_ready hs) (microStep_out (portWrite_fifo _ 5 (by simp) _ s)),
    issue_writeBlock (ha _ rfl rfl) (slice_of_ready hs) (microStep_out (portWrite_device _ _ s)),
    issue_writeBlock (ha _ rfl rfl) (slice_of_ready hs) (microStep_out (portWrite_command _ _ s))⟩

/-- Settles O10: the write reaches DEVCTL, and no record. -/
theorem writeOfDevctlLeavesTheFlag : Obligations.WriteOfDevctlLeavesTheFlag := by
  unfold Obligations.WriteOfDevctlLeavesTheFlag
  intro s hs
  exact ⟨_, issue_done (accepts_of_ready hs rfl rfl) (slice_of_ready hs) (microStep_out (portWrite_devctl _ _ s)),
    after_setDevctl s _ _ _⟩

/-- Settles O11: each write reaches the bus-master block; a byte written to PRDTADDR replaces its lane. -/
theorem writeOfBusMasterRegister : Obligations.WriteOfBusMasterRegister := by
  unfold Obligations.WriteOfBusMasterRegister
  intro s hs
  have ha : ∀ i, threadMay i = true → Safety.isBringUp i = false → Accepts s i := fun i => accepts_of_ready hs
  obtain ⟨l0, l1, l2, l3⟩ := withLane_eq (engine s).prdtaddr (s.port.ops.data.setWidth 8)
  have h0 : (regs s).bm + 0#16 = (regs s).bm := BitVec.add_zero _
  simp only [List.mem_cons, List.not_mem_nil, or_false, forall_eq_or_imp, forall_eq, ← l0, ← l1, ← l2, ← l3, h0]
  exact ⟨issue_writeEngine (ha _ rfl rfl) (slice_of_ready hs) (microStep_out (portWrite_buscmd _ _ s)),
    issue_writeEngine (ha _ rfl rfl) (slice_of_ready hs) (microStep_out (portWrite_prdtLane _ 0 (by simp) _ s)),
    issue_writeEngine (ha _ rfl rfl) (slice_of_ready hs) (microStep_out (portWrite_prdtLane _ 1 (by simp) _ s)),
    issue_writeEngine (ha _ rfl rfl) (slice_of_ready hs) (microStep_out (portWrite_prdtLane _ 2 (by simp) _ s)),
    issue_writeEngine (ha _ rfl rfl) (slice_of_ready hs) (microStep_out (portWrite_prdtLane _ 3 (by simp) _ s)),
    issue_writeEngine (ha _ rfl rfl) (slice_of_ready hs) (microStep_out (portWrite_prdt _ _ s))⟩

/-- Settles O12: the write reaches BUSSTATUS, where a 1 in bit 2 clears the IRQ bit. -/
theorem writeOfBusStatusClearsTheIrqBit : Obligations.WriteOfBusStatusClearsTheIrqBit := by
  unfold Obligations.WriteOfBusStatusClearsTheIrqBit
  intro s hs
  have hirq : (if (s.port.ops.data.setWidth 8 : Byte).getLsbD 2 then false else (engine s).irq) =
      ((engine s).irq && !flag (s.port.ops.data.setWidth 8 : Byte) Config.irqBit) := by
    show _ = ((engine s).irq && !(s.port.ops.data.setWidth 8 : Byte).getLsbD 2)
    split <;> simp_all
  simp only [hirq]
  exact issue_writeEngine (accepts_of_readyEither hs rfl rfl) (slice_of_readyEither hs)
    (microStep_out (portWrite_busStatus _ _ s))

/-- Settles O14: each command is the write of its byte to COMMAND. -/
theorem commandWritesItsByte : Obligations.CommandWritesItsByte := by
  unfold Obligations.CommandWritesItsByte
  intro s hs
  have hw : ∀ i b, threadMay i = true → Safety.isBringUp i = false → _ := fun i b h1 h2 =>
    issue_writeBlock (i := i) (accepts_of_ready hs h1 h2) (slice_of_ready hs) (microStep_out (portWrite_command _ b s))
  simp only [List.mem_cons, List.not_mem_nil, or_false, forall_eq_or_imp, forall_eq]
  exact ⟨hw _ _ rfl rfl, hw _ _ rfl rfl, hw _ _ rfl rfl, hw _ _ rfl rfl, hw _ _ rfl rfl⟩

/-- Settles O15: the write reaches the DEVICE latch. -/
theorem selectDeviceWritesTheLatch : Obligations.SelectDeviceWritesTheLatch := by
  unfold Obligations.SelectDeviceWritesTheLatch
  intro s hs
  refine issue_writeBlock (accepts_of_readyEither hs rfl rfl) (slice_of_readyEither hs) fun f hf => ?_
  simp only [microStep, hf]
  exact congrArg _ (portWrite_device _ (selectByte s) s)

/-- Settles O16: the write of 0x00 to BUSCMD leaves no engine started. -/
theorem stopDmaClearsBuscmd : Obligations.StopDmaClearsBuscmd := by
  unfold Obligations.StopDmaClearsBuscmd
  intro s hs
  exact issue_writeEngine (accepts_of_readyEither hs rfl rfl) (slice_of_readyEither hs)
    (microStep_out (portWrite_buscmd _ _ s))

/-- Settles O17: the flag is stored, then its byte written to DEVCTL. -/
theorem programNienSetsTheFlag : Obligations.ProgramNienSetsTheFlag := by
  unfold Obligations.ProgramNienSetsTheFlag
  intro s suppress hs
  let u := s.setDr s.port.ops.dev { regs s with nien := suppress }
  have hu : u.dev s.port.ops.dev = { s.dev s.port.ops.dev with dr := { regs s with nien := suppress } } :=
    State.dev_setDr_self _ _ _
  have hrun : runFrame 3 (startFrame (.programNien suppress) [.setNien suppress, .outNien, .ret .done] s.port) s =
      (.returned .done, (u.setDevctl (regs s).ctrl (nienByte suppress)).record
        (.write .w8 (regs s).ctrl ((nienByte suppress).setWidth 32))) := by
    have hw := portWrite_devctl s.port.ops.dev (nienByte suppress) u
    rw [hu] at hw
    rw [← hw, runFrame_running (f1 := startFrame (.programNien suppress) [.outNien, .ret .done] s.port) (s1 := u) rfl]
    have h2 : frameStep (startFrame (.programNien suppress) [.outNien, .ret .done] s.port) u =
        (.running (startFrame (.programNien suppress) [.ret .done] s.port),
          portWrite s.port.ops.dev .w8 ⟨.control, 0⟩ ((nienByte suppress).setWidth 32) u) := by
      show (_, portWrite s.port.ops.dev .w8 devctlPort ((nienByte (u.dev s.port.ops.dev).dr.nien).setWidth 32) u) = _
      rw [hu]
      rfl
    rw [runFrame_running h2]
    rfl
  have hctl : ∀ k, k ≠ (regs s).ctrl → (u.setDevctl (regs s).ctrl (nienByte suppress)).devctl k = s.devctl k :=
    fun k hk => State.devctl_setDevctl_other u _ hk
  exact ⟨_, issue_returns (accepts_of_ready hs rfl rfl) (slice_of_ready hs) hrun, rfl, rfl,
    ⟨hu, fun k hk => State.dev_setDr_other s _ hk⟩, ⟨fun _ => rfl, fun _ => rfl⟩,
    ⟨⟨rfl, rfl, rfl, rfl, rfl, rfl, rfl, rfl, rfl, rfl, rfl, rfl⟩, rfl⟩, State.devctl_setDevctl_self _ _ _, rfl, rfl,
    ⟨fun _ _ => rfl, hctl, fun _ _ => rfl⟩, rfl, rfl, rfl, rfl, rfl⟩

end Sys2Proof.Proofs
end

section
/-!
The accesses inside a HOB bracket (spec/40_register_access.md R123, R127): three port events, the high-order half, and
DEVCTL left at `NienByte`.
-/
namespace Sys2Proof.Proofs

open Sys2Proof Sys2Proof.Machine Sys2Proof.Statement

/-! ## A high-order read -/

/-- The state after a high-order read of the port `+n`: DEVCTL with HOB set, the read, DEVCTL with HOB clear. -/
def readInBracket (h : Handle) (n : Nat) (s : State) : State :=
  portWrite h .w8 devctlPort ((nienByte (s.dev h).dr.nien).setWidth 32)
    (portRead h .w8 ⟨.command, n⟩ (portWrite h .w8 devctlPort ((hobByte (s.dev h).dr.nien).setWidth 32) s))

/-- The write of a byte to DEVCTL, by the port's name. -/
theorem portWrite_devctlPort (h : Handle) (b : Byte) (s : State) :
    portWrite h .w8 devctlPort (b.setWidth 32) s =
      (s.setDevctl (s.dev h).dr.ctrl b).record (.write .w8 (s.dev h).dr.ctrl (b.setWidth 32)) :=
  portWrite_devctl h b s

theorem portAddr_devctlPort (dr : DeviceRegs) : portAddr dr devctlPort = dr.ctrl := BitVec.add_zero _

theorem portAddr_command (dr : DeviceRegs) (n : Nat) : portAddr dr ⟨.command, n⟩ = dr.base + BitVec.ofNat 16 n := rfl

/-- The bracket sets HOB (R123). -/
theorem hob_hobByte (nien : Bool) : flag (hobByte nien) Config.hobBit = true := by cases nien <;> rfl

/-- Inside the bracket a FIFO register answers its high-order half (R40). -/
theorem portValue_fifo_bracket {n : Nat} (hn : n = 2 ∨ n = 3 ∨ n = 4 ∨ n = 5) (h : Handle) (s : State) :
    portValue h .w8 ⟨.command, n⟩ (portWrite h .w8 devctlPort ((hobByte (s.dev h).dr.nien).setWidth 32) s) =
      ((s.cmdBlock (s.dev h).dr.base).current.fifo n).hi.setWidth 32 := by
  have hh : ((s.setDevctl (s.dev h).dr.ctrl (hobByte (s.dev h).dr.nien)).record
      (.write .w8 (s.dev h).dr.ctrl ((hobByte (s.dev h).dr.nien).setWidth 32))).hob (s.dev h).dr = true := by
    simp [State.hob, hob_hobByte]
  rw [portWrite_devctlPort, portValue_fifo h n hn]
  simp only [State.dev_record, State.dev_setDevctl, hh, Fifo.read, State.cmdBlock_record, State.cmdBlock_setDevctl, if_true]

/-- The control block after the bracket. -/
theorem readInBracket_devctl (h : Handle) (n : Nat) (s : State) :
    (readInBracket h n s).devctl (s.dev h).dr.ctrl = nienByte (s.dev h).dr.nien ∧
      ∀ k, k ≠ (s.dev h).dr.ctrl → (readInBracket h n s).devctl k = s.devctl k := by
  unfold readInBracket
  simp only [portWrite_devctlPort, State.dev_portRead, State.dev_record, State.dev_setDevctl, State.devctl_record]
  refine ⟨State.devctl_setDevctl_self _ _ _, fun k hk => ?_⟩
  rw [State.devctl_setDevctl_other _ _ hk, State.devctl_portRead, State.devctl_record, State.devctl_setDevctl_other _ _ hk]

/-- The other registers of the environment after the bracket. -/
theorem readInBracket_env (h : Handle) (n : Nat) (s : State) :
    (readInBracket h n s).env.cmd = s.env.cmd ∧ (readInBracket h n s).env.bm = s.env.bm := by
  unfold readInBracket
  simp [portWrite_devctlPort, State.record]

/-- The operation of a high-order read: its three events, the high half returned, nothing else changed but DEVCTL and
the answer taken (R123). -/
theorem issue_readHigh {s : State} {i : Instr} {n : Nat} (hn : n = 2 ∨ n = 3 ∨ n = 4 ∨ n = 5) (ha : Accepts s i)
    (hs : 4 ≤ s.port.slice) :
    let v := ((block s).current.fifo n).hi
    ∃ t, issue i [.outHob, .inp .w8 ⟨.command, n⟩, .outNien, .ret .byte] s = .next t ∧
      t.trace = s.trace ++ [.write .w8 (regs s).ctrl ((hobByte (regs s).nien).setWidth 32),
        .read .w8 ((regs s).base + BitVec.ofNat 16 n) (v.setWidth 32),
        .write .w8 (regs s).ctrl ((nienByte (regs s).nien).setWidth 32)] ∧
      Returns s t i (.byte v) ∧ KeepsBlock s t ∧ t.devctl (regs s).ctrl = nienByte (regs s).nien ∧
      t.env.cmd = s.env.cmd ∧ t.env.bm = s.env.bm ∧ KeepsOtherBlocks s t (regs s) := by
  intro v
  have hv := portValue_fifo_bracket hn s.port.ops.dev s
  have hrun : runFrame 4 (startFrame i [.outHob, .inp .w8 ⟨.command, n⟩, .outNien, .ret .byte] s.port) s =
      (.returned (.byte v), readInBracket s.port.ops.dev n s) := by
    simp [runFrame, frameStep, microStep, startFrame, retValue, hv, readInBracket, v, block, regs]
  obtain ⟨c1, c2⟩ := readInBracket_devctl s.port.ops.dev n s
  obtain ⟨e1, e2⟩ := readInBracket_env s.port.ops.dev n s
  refine ⟨_, issue_returns ha hs hrun, ?_, ?_, ?_, c1, e1, e2, fun k _ => ?_, c2, fun k _ => ?_⟩
  · simp [readInBracket, hv, portAddr_devctlPort, portAddr_command, Width.trim, regs, v, block]
  · simp [Returns, readInBracket]
  · simp [KeepsBlock, KeepsMemory, KeepsRest, KeepsButCalls, readInBracket]
  · exact congrArg (fun e => Table.getD CmdBlock.reset e k.toNat) e1
  · exact congrArg (fun e => Table.getD BusMaster.reset e k.toNat) e2

/-- Settles O4: the four operations are high-order reads of the ports `+2` to `+5`. -/
theorem highOrderReadIsBracketed : Obligations.HighOrderReadIsBracketed := by
  unfold Obligations.HighOrderReadIsBracketed
  intro s hs
  have ha : ∀ i, threadMay i = true → Safety.isBringUp i = false → Accepts s i := fun i => accepts_of_ready hs
  simp only [List.mem_cons, List.not_mem_nil, or_false, forall_eq_or_imp, forall_eq]
  exact ⟨issue_readHigh (n := 2) (by simp) (ha _ rfl rfl) (slice_of_ready hs),
    issue_readHigh (n := 3) (by simp) (ha _ rfl rfl) (slice_of_ready hs),
    issue_readHigh (n := 4) (by simp) (ha _ rfl rfl) (slice_of_ready hs),
    issue_readHigh (n := 5) (by simp) (ha _ rfl rfl) (slice_of_ready hs)⟩

/-! ## A high-order write -/

/-- Two states with the same record of each device have the same records. -/
theorem devs_ext {s t : State} (h : ∀ k, t.dev k = s.dev k) : t.devs = s.devs := by
  have h0 : t.devs.d0 = s.devs.d0 := h .d0
  have h1 : t.devs.d1 = s.devs.d1 := h .d1
  have h2 : t.devs.d2 = s.devs.d2 := h .d2
  have h3 : t.devs.d3 = s.devs.d3 := h .d3
  cases hs : s.devs
  cases ht : t.devs
  simp_all

/-- What a view that left the records says of the memories and of the rest. -/
theorem keepsRest_of_sameElse {s u : State} (h : SameElse s u) : KeepsMemory s u ∧ KeepsRest s u :=
  ⟨⟨fun a => by rw [h.mem], fun a => by rw [h.buf]⟩, ⟨h.backing, h.outs, h.allocs, h.nextHandle, h.dmaTrace, h.log,
    h.faults, h.threads, h.nextTid, h.activation, h.port, h.inputs⟩, h.calls⟩

/-- The operation of a high-order write: its three events, the FIFO register written with HOB set, DEVCTL left at
`NienByte` (R123). -/
theorem issue_writeHigh {s : State} {i : Instr} {n : Nat} (hn : n = 2 ∨ n = 3 ∨ n = 4 ∨ n = 5) (b : Byte)
    (ha : Accepts s i) (hs : 4 ≤ s.port.slice) :
    ∃ t, issue i [.outHob, .out .w8 ⟨.command, n⟩ (b.setWidth 32), .outNien, .ret .done] s = .next t ∧
      t.trace = s.trace ++ [.write .w8 (regs s).ctrl ((hobByte (regs s).nien).setWidth 32),
        .write .w8 ((regs s).base + BitVec.ofNat 16 n) (b.setWidth 32),
        .write .w8 (regs s).ctrl ((nienByte (regs s).nien).setWidth 32)] ∧
      Returns s t i .done ∧ KeepsBlock s t ∧ block t = (block s).push n true b ∧
      t.devctl (regs s).ctrl = nienByte (regs s).nien ∧ t.env.bm = s.env.bm ∧ KeepsOtherBlocks s t (regs s) ∧
      KeepsAnswers s t := by
  let f := startFrame i [.outHob, .out .w8 ⟨.command, n⟩ (b.setWidth 32), .outNien, .ret .done] s.port
  obtain ⟨u, hr, v⟩ := (View.start s.port.ops.dev s).run_bracket (f := f) rfl hn b
  have hrun : runFrame 4 f s = (.returned .done, u) := hr 1 [.ret .done]
  have hd : ∀ k, u.dev k = s.dev k := fun k => by
    by_cases e : k = s.port.ops.dev
    · rw [e]
      exact v.dev
    · exact v.others k e
  obtain ⟨hm, hk⟩ := keepsRest_of_sameElse v.same
  have hret : Returns s (handBack s.port.ops.dev i .done u) i .done := by simp [Returns, v.same.returns]
  have hblk : u.cmdBlock (u.dev u.port.ops.dev).dr.base = (block s).push n true b := by
    rw [v.same.port, hd]
    exact v.cmd
  exact ⟨_, issue_returns ha hs hrun, v.trace, hret, ⟨devs_ext hd, hm, hk⟩, hblk, v.devctl, v.same.bm,
    ⟨v.otherBlocks, v.otherCtls, fun k _ => congrArg (fun e => Table.getD BusMaster.reset e k.toNat) v.same.bm⟩,
    v.answers, v.same.translations, v.same.allocations, v.same.registrations, v.same.drawn⟩

/-- Settles O9: the four operations are high-order writes of the ports `+2` to `+5`. -/
theorem highOrderWriteIsBracketed : Obligations.HighOrderWriteIsBracketed := by
  unfold Obligations.HighOrderWriteIsBracketed
  intro s hs
  have ha : ∀ i, threadMay i = true → Safety.isBringUp i = false → Accepts s i := fun i => accepts_of_ready hs
  simp only [List.mem_cons, List.not_mem_nil, or_false, forall_eq_or_imp, forall_eq]
  exact ⟨issue_writeHigh (n := 2) (by simp) _ (ha _ rfl rfl) (slice_of_ready hs),
    issue_writeHigh (n := 3) (by simp) _ (ha _ rfl rfl) (slice_of_ready hs),
    issue_writeHigh (n := 4) (by simp) _ (ha _ rfl rfl) (slice_of_ready hs),
    issue_writeHigh (n := 5) (by simp) _ (ha _ rfl rfl) (slice_of_ready hs)⟩

end Sys2Proof.Proofs
end

section
/-!
The waits (spec/41_primitives.md R180 to R182, R188) and the poll of bring-up (R256): a run of reads of STATUS none of
which ends the step, for a fresh call and for a resumed thread; and the submitter's wait for its event (R286).
-/
namespace Sys2Proof.Proofs

open Sys2Proof Sys2Proof.Machine Sys2Proof.Statement

/-! ## A wait that ends -/

/-- A fresh call of a wait whose last read shows the bit (R180 to R182). -/
theorem issue_wait {s : State} {i : Instr} {bit : Nat} {want : Bool} (hb : bit < 8) (ha : Accepts s i)
    {early rest : List Dword} {last : Dword} (hn : early.length + 2 ≤ s.port.slice)
    (hs : s.env.answers = early ++ last :: rest) (he : ∀ v ∈ early, (statusSeen s v).getLsbD bit ≠ want)
    (hl : (statusSeen s last).getLsbD bit = want) :
    ∃ t, issue i [.waitStatus bit want, .ret .done] s = .next t ∧
      t.trace = s.trace ++ (early ++ [last]).map (fun v => statusRead s (statusSeen s v)) ∧
      Returns s t i .done ∧ KeepsBlock s t ∧ t.env = { s.env with answers := rest } := by
  let u := s.readsAs ((early ++ [last]).map (fun v => statusRead s (statusSeen s v))) rest
  let f := startFrame i [.waitStatus bit want, .ret .done] s.port
  have hrun : runFrame (early.length + 1 + 1) f s = (.returned .done, u) := by
    rw [runFrame_wait (f := f) (ps := [.ret .done]) hb rfl 1 early last rest s hs he hl]
    rfl
  exact ⟨_, issue_returns ha hn hrun, rfl, rfl,
    ⟨rfl, ⟨fun _ => rfl, fun _ => rfl⟩, ⟨rfl, rfl, rfl, rfl, rfl, rfl, rfl, rfl, rfl, rfl, rfl, rfl⟩, rfl⟩, rfl⟩

/-- Settles O18: each wait ends at the first read that shows its bit. -/
theorem waitEndsAtTheFirstReadThatShowsTheBit : Obligations.WaitEndsAtTheFirstReadThatShowsTheBit := by
  unfold Obligations.WaitEndsAtTheFirstReadThatShowsTheBit
  intro s early rest last
  simp only [List.mem_cons, List.not_mem_nil, or_false, forall_eq_or_imp, forall_eq]
  exact ⟨fun h => issue_wait (by decide) (accepts_of_ready h rfl rfl) (slice_of_ready h),
    fun h => issue_wait (by decide) (accepts_of_ready h rfl rfl) (slice_of_ready h),
    fun h => issue_wait (by decide) (accepts_of_ready h rfl rfl) (slice_of_ready h)⟩

/-! ## Reads of STATUS that do not end a step -/

/-- A step that reads STATUS and stays, at every listed byte for which `P` holds; `next` is the frame after a byte, and
`G` holds of every frame on the way. -/
structure Polls (h : Handle) (P : Byte → Prop) (next : Frame → Byte → Frame) (G : Frame → Prop) : Prop where
  step : ∀ f u a rest, G f → u.env.answers = a :: rest → P (u.seen h a) →
    frameStep f u = (.running (next f (u.seen h a)), u.readAs (statusEvent u h (u.seen h a)) rest)
  stays : ∀ f b, G f → P b → G (next f b)

/-- A run of such reads. -/
theorem runFrame_polls {h : Handle} {P : Byte → Prop} {next : Frame → Byte → Frame} {G : Frame → Prop}
    (hp : Polls h P next G) (early rest : List Dword) (f : Frame) (s : State) (hf : G f)
    (ha : s.env.answers = early ++ rest) (he : ∀ v ∈ early, P (s.seen h v)) :
    runFrame early.length f s =
      (.running (early.foldl (fun g v => next g (s.seen h v)) f),
        s.readsAs (early.map (fun v => statusEvent s h (s.seen h v))) rest) := by
  induction early generalizing f s with
  | nil =>
    simp only [List.nil_append] at ha
    simp [State.readsAs, ← ha]
  | cons a early ih =>
    simp only [List.cons_append] at ha
    have h1 : P (s.seen h a) := he a (by simp)
    rw [List.length_cons, runFrame_running (hp.step f s a _ hf ha h1),
      ih _ (s.readAs _ (early ++ rest)) (hp.stays f _ hf h1) rfl (fun v hv => he v (by simp [hv])), State.readAs_readsAs]
    simp [State.seen]

/-- A bit of a byte read, whatever its number. -/
theorem flag_setWidth (b : Byte) (bit : Nat) : flag (b.setWidth 32) bit = b.getLsbD bit := by
  by_cases h : bit < 8
  · exact flag_byte b h
  · simp [flag, BitVec.getLsbD_of_ge b bit (by omega)]

/-- A step that waits for a bit stays where it is while a read does not show it. -/
theorem frameStep_waits {m : Micro} {steps : List Micro} {bit : Nat} {want : Bool} {f : Frame}
    (hw : waitsFor m = some (bit, want)) (hf : f.prog = m :: steps) {u : State} {a : Dword} {rest : List Dword}
    (ha : u.env.answers = a :: rest) (hb : (u.seen f.ops.dev a).getLsbD bit ≠ want) :
    frameStep f u = (.running f, u.readAs (statusEvent u f.ops.dev (u.seen f.ops.dev a)) rest) := by
  have hstay : stay m { f with prog := steps } = .running f := by simp [stay, ← hf]
  rw [← hstay]
  simp only [frameStep, hf]
  cases m <;> simp only [waitsFor, reduceCtorEq] at hw
  case waitStatus bit' want' =>
    cases hw
    simp only [microStep, portValue_status_seen ha, portRead_status_seen ha, flag_setWidth, if_neg hb]
  case pio stage isWrite target i words =>
    cases stage <;> simp only [reduceCtorEq] at hw
    case idle =>
      split at hw <;> cases hw
      rename_i hi
      simp only [microStep, pioStep, portValue_status_seen ha, portRead_status_seen ha, flag_setWidth,
        if_neg (Nat.not_le.2 hi)]
      rw [if_pos (by simpa [Config.busyBit] using hb)]
    case drq =>
      cases hw
      simp only [microStep, pioStep, portValue_status_seen ha, portRead_status_seen ha, flag_setWidth]
      rw [if_neg (by simpa [Config.drqBit] using hb)]

theorem waits_poll {m : Micro} {steps : List Micro} {bit : Nat} {want : Bool} {f : Frame}
    (hw : waitsFor m = some (bit, want)) (hf : f.prog = m :: steps) :
    Polls f.ops.dev (fun b => b.getLsbD bit ≠ want) (fun g _ => g) (fun g => g = f) where
  step g u a rest hg ha hb := by
    subst hg
    exact frameStep_waits hw hf ha hb
  stays g b hg _ := hg

/-- A run of a waiting step whose bit no read shows leaves the frame. -/
theorem runFrame_waits {m : Micro} {steps : List Micro} {bit : Nat} {want : Bool} {f : Frame}
    (hw : waitsFor m = some (bit, want)) (hf : f.prog = m :: steps) (early rest : List Dword) (s : State)
    (ha : s.env.answers = early ++ rest) (he : ∀ v ∈ early, (s.seen f.ops.dev v).getLsbD bit ≠ want) :
    runFrame early.length f s =
      (.running f, s.readsAs (early.map (fun v => statusEvent s f.ops.dev (s.seen f.ops.dev v))) rest) := by
  rw [runFrame_polls (waits_poll hw hf) early rest f s rfl ha he, List.foldl_fixed]

/-- The poll of bring-up reads STATUS again at a byte that does not end it (R256). -/
theorem frameStep_identPoll {f : Frame} {u : State} {a : Dword} {rest : List Dword} {steps : List Micro}
    (hp : f.prog = .identPoll :: steps) (hg : PollGoesOn (f.acc.setWidth 8)) (ha : u.env.answers = a :: rest) :
    frameStep f u = (.running (f.setAcc ((u.seen f.ops.dev a).setWidth 32)),
      u.readAs (statusEvent u f.ops.dev (u.seen f.ops.dev a)) rest) := by
  obtain ⟨he, hb⟩ := hg
  have h1 : flag (f.acc.setWidth 8 : Byte) Config.errBit = false := he
  have h2 : (!flag (f.acc.setWidth 8 : Byte) Config.busyBit && flag (f.acc.setWidth 8 : Byte) Config.drqBit) = false := by
    show (!(f.acc.setWidth 8 : Byte).getLsbD 7 && (f.acc.setWidth 8 : Byte).getLsbD 3) = false
    rcases hb with hb | hb <;> rw [hb]
    · rfl
    · exact Bool.and_false _
  simp only [frameStep, hp, microStep, h1, h2, portValue_status_seen ha, portRead_status_seen ha]
  simp [stay, Frame.setAcc, ← hp]

/-- The poll of bring-up goes on at a byte that does not end it, and keeps it (R256). -/
theorem identPoll_polls (h : Handle) (steps : List Micro) :
    Polls h PollGoesOn (fun g b => g.setAcc (b.setWidth 32))
      (fun g => g.prog = .identPoll :: steps ∧ g.ops.dev = h ∧ PollGoesOn (g.acc.setWidth 8)) where
  step g u a rest hg ha _ := by
    obtain ⟨hp, rfl, hgo⟩ := hg
    exact frameStep_identPoll hp hgo ha
  stays g b hg hb := by
    obtain ⟨hp, hd, -⟩ := hg
    exact ⟨hp, hd, by simpa [Frame.setAcc] using hb⟩

/-- The frame after a run of the poll: the last byte read is in it. -/
theorem foldl_setAcc (seen : Dword → Byte) (early : List Dword) (f : Frame) :
    early.foldl (fun g v => g.setAcc ((seen v).setWidth 32)) f =
      { f with acc := (early.getLast?.map (fun v => (seen v).setWidth 32)).getD f.acc } := by
  induction early generalizing f with
  | nil => rfl
  | cons a early ih =>
    rw [List.foldl_cons, ih]
    cases early with
    | nil => rfl
    | cons b early =>
      rw [List.getLast?_cons_cons, List.getLast?_eq_some_getLast (List.cons_ne_nil b early)]
      rfl

/-! ## A resumed thread -/

/-- A turn of a suspended thread. -/
theorem step_resume {s : State} {tid n : Nat} {f : Frame} {turns : List Turn} (h : Resumes s tid n f turns) :
    step s = .next (settle (some tid) f
      (runFrame n f { s with inputs := turns, threads := Table.erase s.threads tid })) := by
  obtain ⟨hi, ha, hl, -⟩ := h
  simp [step, hi, takeTurn, unlessInterrupt, ha, resumeThread, hl]

/-- A thread that still runs is suspended under its number. -/
theorem settle_thread {tid : Nat} {f0 f : Frame} {u : State} (hc : f.ctx = .thread) :
    settle (some tid) f0 (.running f, u) = { u with threads := Table.insert u.threads tid f } := by
  simp [settle, suspend, hc]

/-- The threads after a thread taken out is put back. -/
theorem lookup_insert_erase {α : Type} (t : List (Nat × α)) (k : Nat) (v : α) :
    Table.lookup (Table.insert (Table.erase t k) k v) k = some v ∧
      ∀ j, j ≠ k → Table.lookup (Table.insert (Table.erase t k) k v) j = Table.lookup t j :=
  ⟨Table.lookup_insert_self _ _ _,
    fun _ hj => (Table.lookup_insert_other _ _ hj).trans (Table.lookup_erase_other _ hj)⟩

/-- A turn of a thread that has only read STATUS: it is suspended again, as the frame `g`. -/
theorem step_polled {s : State} {tid : Nat} {f g : Frame} {turns : List Turn} {early rest : List Dword}
    (h : Resumes s tid early.length f turns) (hg : g.ctx = .thread)
    (hr : runFrame early.length f { s with inputs := turns, threads := Table.erase s.threads tid } =
      (.running g, ({ s with inputs := turns, threads := Table.erase s.threads tid } : State).readsAs
        (early.map (fun v => statusEvent s f.ops.dev (s.seen f.ops.dev v))) rest)) :
    ∃ t, step s = .next t ∧ PolledInTurn s t f turns early rest ∧ Table.lookup t.threads tid = some g ∧
      ∀ k, k ≠ tid → Table.lookup t.threads k = Table.lookup s.threads k := by
  obtain ⟨h1, h2⟩ := lookup_insert_erase s.threads tid g
  refine ⟨_, step_resume h, ?_⟩
  rw [hr, settle_thread hg]
  exact ⟨⟨rfl, rfl⟩, h1, h2⟩

/-- A fresh call of a wait whose bit no read of its slice shows is suspended at it. -/
theorem issue_wait_stays {s : State} {i : Instr} {bit : Nat} {want : Bool} (hs : Ready s 1) (ha : Accepts s i)
    {early rest : List Dword} (hn : early.length = s.port.slice) (hans : s.env.answers = early ++ rest)
    (he : ∀ v ∈ early, (statusSeen s v).getLsbD bit ≠ want) :
    ∃ t, issue i [.waitStatus bit want, .ret .done] s = .next t ∧
      t.trace = s.trace ++ early.map (fun v => statusRead s (statusSeen s v)) ∧
      t = { s with
        env := { s.env with answers := rest }, trace := t.trace, threads := t.threads, nextTid := s.nextTid + 1 } ∧
      Table.lookup t.threads s.nextTid = some (startFrame i [.waitStatus bit want, .ret .done] s.port) ∧
      ∀ k, k ≠ s.nextTid → Table.lookup t.threads k = Table.lookup s.threads k := by
  let f := startFrame i [.waitStatus bit want, .ret .done] s.port
  have hc : f.ctx = .thread := hs.1
  have hrun := runFrame_waits (m := .waitStatus bit want) (f := f) rfl rfl early rest s hans he
  have ht : runRequest i [.waitStatus bit want, .ret .done] s = suspend none f (s.readsAs
      (early.map (fun v => statusEvent s f.ops.dev (s.seen f.ops.dev v))) rest) := by
    rw [runRequest, ← hn, hrun]
    rfl
  refine ⟨_, (issue_of_accepts ha _).trans (congrArg _ ht), ?_⟩
  simp only [suspend, hc]
  exact ⟨rfl, rfl, Table.lookup_insert_self _ _ _, fun k hk => Table.lookup_insert_other _ _ hk⟩

/-- Settles O19: a fresh wait is suspended at its step, a resumed one is left as it was, and the poll of bring-up keeps
the last byte read. -/
theorem waitStaysWhileTheBitIsNotShown : Obligations.WaitStaysWhileTheBitIsNotShown := by
  unfold Obligations.WaitStaysWhileTheBitIsNotShown
  refine ⟨fun s early rest => ?_, fun s tid f turns early rest m steps bit want hr hp hw ha he => ?_,
    ?_⟩
  · simp only [List.mem_cons, List.not_mem_nil, or_false, forall_eq_or_imp, forall_eq]
    exact ⟨fun h => issue_wait_stays h (accepts_of_ready h rfl rfl),
      fun h => issue_wait_stays h (accepts_of_ready h rfl rfl),
      fun h => issue_wait_stays h (accepts_of_ready h rfl rfl)⟩
  · obtain ⟨-, -, hl, hc⟩ := id hr
    obtain ⟨t, h1, h2, h3, h4⟩ := step_polled hr hc (runFrame_waits hw hp early rest _ ha he)
    refine ⟨t, h1, h2, fun k => ?_⟩
    by_cases hk : k = tid
    · rw [hk, h3, hl]
    · exact h4 k hk
  · intro s tid f turns early rest steps seen hr hp ha hacc he
    obtain ⟨-, -, -, hc⟩ := id hr
    have hrun := runFrame_polls (identPoll_polls f.ops.dev steps) early rest f
      { s with inputs := turns, threads := Table.erase s.threads tid } ⟨hp, rfl, hacc⟩ ha he
    rw [foldl_setAcc] at hrun
    exact step_polled hr hc hrun

/-! ## The submitter's wait -/

/-- A run of a submitter whose event is not signalled changes nothing (R53, R286). -/
theorem runFrame_eventWait {f : Frame} {steps : List Micro} (hf : f.prog = .eventWait :: steps) (n : Nat) (s : State)
    (he : (s.dev f.ops.dev).ct.event = false) : runFrame n f s = (.running f, s) := by
  have h1 : frameStep f s = (.running f, s) := by
    have hstay : stay .eventWait { f with prog := steps } = .running f := by simp [stay, ← hf]
    rw [← hstay]
    simp only [frameStep, hf, microStep, he]
    rfl
  induction n with
  | zero => rfl
  | succ n ih => rw [runFrame_running h1, ih]

/-- Settles O55: the turn leaves the thread as it was. -/
theorem eventWaitBlocksUntilSignalled : Obligations.EventWaitBlocksUntilSignalled := by
  unfold Obligations.EventWaitBlocksUntilSignalled
  intro s tid n f rest hi ha hl hc hp he
  obtain ⟨h1, h2⟩ := lookup_insert_erase s.threads tid f
  refine ⟨_, step_resume ⟨hi, ha, hl, hc⟩, ?_⟩
  rw [runFrame_eventWait hp n { s with inputs := rest, threads := Table.erase s.threads tid } he, settle_thread hc]
  refine ⟨fun k => ?_, rfl⟩
  by_cases hk : k = tid
  · rw [hk, hl]
    exact h1
  · exact h2 k hk

end Sys2Proof.Proofs
end

section
/-!
What the port accepts (spec/30_encoding.md R94, R99, R101; spec/10_state.md R56; spec/60_exceptions.md R323, R327, R331, R341):
a request with a decodable word runs its operation, one before bring-up is refused, and one on an ended handler agent
answers its fault.
-/
namespace Sys2Proof.Proofs

open Sys2Proof Sys2Proof.Machine Sys2Proof.Statement

/-! ## Requests that are not run -/

/-- A refused operation. -/
theorem exec_refused {i : Instr} {s : State} {x : Refusal} (h : refusal i s = some x) : exec i s = .refused x := by
  obtain ⟨prog, e, -⟩ := exec_eq_issue i s
  simp [e, issue, h]

/-- An accepted operation on an agent that a fault has ended. -/
theorem exec_ended {i : Instr} {s : State} {k : Fault} (h : refusal i s = none) (he : endedAgent s = some k) :
    exec i s = .fault k := by
  obtain ⟨prog, e, -⟩ := exec_eq_issue i s
  simp [e, issue, h, he]

/-- From a context that may call the operation, the phase of the device decides. -/
theorem refusal_of_context {i : Instr} {s : State} (h : contextAllows s.port.ctx i = true) :
    refusal i s = phaseAllows i s.port (s.dev s.port.ops.dev) := by simp [refusal, h]

/-- The operations the interrupt context may call but the handler itself (R341). -/
theorem interruptMay_of_mem {i : Instr}
    (h : i ∈ [Instr.selectDevice, .rdBusstatus, .rdStatus, .rdError, .stopDma, .tsmComplete, .wrBusstatus]) :
    interruptMay i = true ∧ i ≠ .irqHandler ∧ Safety.isBringUp i = false := by
  simp only [List.mem_cons, List.not_mem_nil, or_false] at h
  rcases h with rfl | rfl | rfl | rfl | rfl | rfl | rfl <;> exact ⟨rfl, by decide, rfl⟩

/-- Settles O30: the context and the phase allow the call, and the agent has ended. -/
theorem endedHandlerStaysEnded : Obligations.EndedHandlerStaysEnded := by
  unfold Obligations.EndedHandlerStaysEnded
  intro s k hc hf
  have he : endedAgent s = some k := by simp [endedAgent, hc, hf]
  refine ⟨fun hr => exec_ended ?_ he, fun hp i hi => exec_ended ?_ he⟩
  · rw [refusal_of_context (by rw [hc]; rfl)]
    simp [phaseAllows, hr]
  · obtain ⟨hm, hne, hb⟩ := interruptMay_of_mem hi
    rw [refusal_of_context (by rw [hc]; exact hm), phaseAllows_of_up hp hb hne]

/-! ## The request port -/

/-- A step whose turn is a request. -/
theorem step_call {s : State} {r : Request} {rest : List Turn} (h : s.inputs = .call r :: rest) :
    step s = if s.activation.isSome then .refused .interruptRunning else takeCall r { s with inputs := rest } := by
  simp only [step, h, takeTurn, unlessInterrupt]
  cases s.activation <;> rfl

/-- Settles O33: a decodable word's operation is run, every other word is refused. -/
theorem stepRunsTheDecodedInstruction : Obligations.StepRunsTheDecodedInstruction := by
  unfold Obligations.StepRunsTheDecodedInstruction
  intro s r rest h
  refine ⟨fun i hi => ?_, fun ha hi ho => ?_⟩
  · rw [step_call h]
    simp only [takeCall, hi]
  · rw [step_call h, ha, takeCall]
    cases hd : decode r.word with
    | instr i => exact absurd hd (hi i)
    | outOfRange w off => exact absurd hd (ho w off)
    | illegal why =>
      refine ⟨illegalRefusal why, ?_, rfl⟩
      cases why <;> simp [illegalRefusal]

/-! ## Before bring-up -/

/-- A device that is not brought up admits no operation but those that need no bring-up (R56, R271, R327). -/
theorem phaseAllows_of_not_up {i : Instr} {r : Request} {d : Device} (hd : d.phase ≠ .up) (h1 : i ≠ .irqHandler)
    (h2 : i ≠ .buildPrdt) (h3 : ∀ a b, i ≠ .initDevice a b)
    (h4 : ∀ a w, i = .transferSectors a w → r.ops.devValid = true) : phaseAllows i r d = some .notBroughtUp := by
  cases i
  case irqHandler => exact absurd rfl h1
  case buildPrdt => exact absurd rfl h2
  case initDevice a b => exact absurd rfl (h3 a b)
  case transferSectors a w => simp [phaseAllows, h4 a w rfl, hd]
  all_goals simp [phaseAllows, hd]

/-- Settles O37: the refusals of the phase, of the registration and of a transfer under way. -/
theorem nothingRunsBeforeBringUp : Obligations.NothingRunsBeforeBringUp := by
  unfold Obligations.NothingRunsBeforeBringUp
  refine ⟨fun i s hc hp h1 h2 h3 h4 h5 => exec_refused ?_, fun s hc hp i hi => exec_refused ?_,
    fun s hc hr => exec_refused ?_, fun s secondary slave hc hp ht => exec_refused ?_,
    fun s r rest write off hi ha hd hc hp => ?_⟩
  · have hm : threadMay i = true := by
      cases i <;> first | rfl | contradiction
    rw [refusal_of_context (by rw [hc]; exact hm), phaseAllows_of_not_up hp h2 h3 h4 h5]
  · obtain ⟨hm, hne, hb⟩ := interruptMay_of_mem hi
    rw [refusal_of_context (by rw [hc]; exact hm)]
    refine phaseAllows_of_not_up hp hne ?_ ?_ ?_
    · rintro rfl
      cases hm
    · rintro a b rfl
      cases hm
    · rintro a w rfl
      cases hm
  · rw [refusal_of_context (by rw [hc]; rfl)]
    simp [phaseAllows, hr]
  · rw [refusal_of_context (by rw [hc]; rfl)]
    exact if_pos ⟨hp, ht⟩
  · rw [step_call hi, ha, takeCall, hd]
    simp only [execOutOfRange, hc]
    exact if_neg hp

end Sys2Proof.Proofs
end

section
/-!
TSM_CONSUME (spec/43_transfer_state_machine.md R233) and the interrupt completion handler up to its tests of STATUS
(spec/46_interrupt_handler.md R302 to R306).
-/
namespace Sys2Proof.Proofs

open Sys2Proof Sys2Proof.Machine Sys2Proof.Statement

/-! ## TSM_CONSUME -/

/-- The state after the steps of a cleanup that finds Finished: the table given back, the pointer null, the state Free. -/
def consumed (h : Handle) (s : State) : State :=
  storeTsm h .free
    ((releaseTable (s.dev h).ct.prdt s).setCt h { (s.dev h).ct with prdt := none })

theorem consumed_dev (h : Handle) (s : State) :
    (consumed h s).dev h = { s.dev h with ct := { (s.dev h).ct with state := .free, prdt := none } } ∧
      ∀ k, k ≠ h → (consumed h s).dev k = s.dev k := by
  constructor
  · simp [consumed]
  · intro k hk
    have h1 : ∀ (t : State) (x : TsmState), (storeTsm h x t).dev k = t.dev k := fun t x => State.dev_setCt_other t _ hk
    rw [consumed, h1, State.dev_setCt_other _ _ hk, State.dev_releaseTable]

/-- A run of TSM_CONSUME from Finished. -/
theorem runFrame_consume {f : Frame} {s : State} (hf : f.prog = tsmConsume true ++ [.ret .done])
    (hfin : (s.dev f.ops.dev).ct.state = .finished) :
    runFrame 5 f s = (.returned .done, consumed f.ops.dev s) := by
  simp [runFrame, frameStep, hf, tsmConsume, microStep, hfin, retValue, consumed]

/-- A run of TSM_CONSUME from any other state ends at its check. -/
theorem runFrame_consume_raises {f : Frame} {s : State} (hf : f.prog = tsmConsume true ++ [.ret .done])
    (hfin : (s.dev f.ops.dev).ct.state ≠ .finished) :
    runFrame 1 f s = (.raised (.consumeNotFinished (s.dev f.ops.dev).ct.state), s) := by
  simp [runFrame, frameStep, hf, tsmConsume, microStep, hfin]

/-- The calls of `Free` of an owning pointer. -/
theorem releaseTable_calls (p : Option PrdTable) (s : State) :
    (releaseTable p s).calls = s.calls ++ (p.map (fun q => Call.free q.handle)).toList := by
  cases p <;> simp [releaseTable]

/-- Settles O24: from Finished the steps of the cleanup run to their end, from any other state the check raises. -/
theorem consumeFreesTheTable : Obligations.ConsumeFreesTheTable := by
  unfold Obligations.ConsumeFreesTheTable
  intro s hs
  have ha : Accepts s .tsmConsume := accepts_of_ready hs rfl rfl
  obtain ⟨hctx, -, hslice⟩ := hs
  refine ⟨fun hfin => ?_, fun hfin => ?_⟩
  · have hrun := runFrame_consume (f := startFrame .tsmConsume (tsmConsume true ++ [.ret .done]) s.port) rfl hfin
    have hmem : (consumed s.port.ops.dev s).mem = (releaseTable (transfer s).prdt s).mem := rfl
    refine ⟨_, issue_returns ha hslice hrun, by simp [Returns, consumed], consumed_dev _ _,
      mem_releaseTable (transfer s).prdt s, read_releaseTable (transfer s).prdt s,
      fun hu p x a hp hx hh h1 h2 => ?_, fun a => ?_, releaseTable_calls (transfer s).prdt s, ?_⟩
    · show Memory.read (releaseTable (transfer s).prdt s).mem a = none
      rw [hp]
      exact read_releaseTable_freed p s hx hh hu h1 h2
    · simp [consumed]
    · simp [consumed]
  · have hrun := runFrame_consume_raises (f := startFrame .tsmConsume (tsmConsume true ++ [.ret .done]) s.port) rfl hfin
    refine ⟨_, issue_raises ha (Nat.le_trans (by decide) hslice) hrun, ?_⟩
    rw [hctx]
    exact ⟨rfl, rfl, rfl, rfl, rfl, rfl, ⟨fun _ => rfl, fun _ => rfl⟩, rfl, rfl, rfl, rfl, rfl, rfl, rfl, rfl, rfl, rfl, rfl⟩

/-! ## The handler's reads -/

/-- The state after a handler has selected its device and read BUSSTATUS and STATUS (R302 to R304). -/
def handlerRead (h : Handle) (s : State) : State :=
  portRead h .w8 statusPort (portRead h .w8 busStatusPort
    (portWrite h .w8 devicePort ((devSelByte (s.dev h).dr.slave).setWidth 32) s))

/-- BUSSTATUS as a handler reads it where the IRQ bit is set. -/
def irqStatus (s : State) : Byte := withFlag (byteAt s.nextAnswer 0) Config.irqBit true

theorem irqStatus_irq (s : State) : (irqStatus s).getLsbD 2 = true := irq_of_busStatus _ _

section reads

variable {s : State}

/-- The state after the device has been selected, written out. -/
theorem select_eq (h : Handle) (s : State) :
    portWrite h .w8 devicePort ((devSelByte (s.dev h).dr.slave).setWidth 32) s =
      (s.setCmdBlock (s.dev h).dr.base { s.cmdBlock (s.dev h).dr.base with device := devSelByte (s.dev h).dr.slave }).record
        (.write .w8 ((s.dev h).dr.base + 6#16) ((devSelByte (s.dev h).dr.slave).setWidth 32)) :=
  portWrite_device h _ s

/-- The value of the read of BUSSTATUS. -/
theorem handler_busStatus (hirq : (engine s).irq = true) :
    portValue s.port.ops.dev .w8 busStatusPort
      (portWrite s.port.ops.dev .w8 devicePort ((devSelByte (regs s).slave).setWidth 32) s) =
      (irqStatus s).setWidth 32 := by
  have h1 : (s.busMaster (s.dev s.port.ops.dev).dr.bm).irq = true := hirq
  rw [show busStatusPort = ⟨.busMaster, 2⟩ from rfl, portValue_busStatus, regs, select_eq]
  simp [h1, irqStatus]

/-- The value of the read of STATUS. -/
theorem handler_status (s : State) :
    portValue s.port.ops.dev .w8 statusPort (portRead s.port.ops.dev .w8 busStatusPort
      (portWrite s.port.ops.dev .w8 devicePort ((devSelByte (regs s).slave).setWidth 32) s)) =
      (handlerStatus s).setWidth 32 := by
  rw [show statusPort = ⟨.command, 7⟩ from rfl, portValue_statusFor, regs, select_eq]
  simp only [statusFor, handlerStatus, block, regs, CmdBlock.position]
  simp
  rfl

/-- The steps up to the test of STATUS (R302 to R304). -/
theorem runFrame_handler_reads (hirq : (engine s).irq = true) {f : Frame} {rest : List Micro}
    (hf : f.prog = .outSelect :: .inp .w8 busStatusPort :: .irqTest :: .inp .w8 statusPort :: rest)
    (hops : f.ops = s.port.ops) (n : Nat) :
    runFrame (n + 4) f s =
      runFrame n { f with prog := rest, acc := (handlerStatus s).setWidth 32 } (handlerRead s.port.ops.dev s) := by
  have h1 := handler_busStatus hirq
  have h2 := handler_status s
  have h3 : flag (irqStatus s) Config.irqBit = true := irqStatus_irq s
  unfold regs at h1 h2
  simp [runFrame, frameStep, hf, microStep, hops, h1, h2, h3, handlerRead]

/-- The port events of those steps. -/
theorem handlerRead_trace (hirq : (engine s).irq = true) :
    (handlerRead s.port.ops.dev s).trace = s.trace ++
      [.write .w8 ((regs s).base + 6#16) ((selectByte s).setWidth 32),
        .read .w8 ((regs s).bm + 2#16) ((irqStatus s).setWidth 32), statusRead s (handlerStatus s)] := by
  have h1 := handler_busStatus hirq
  have h2 := handler_status s
  unfold regs at h1 h2
  simp only [handlerRead, portRead_trace, portWrite_trace, h1, h2, State.dev_portRead, State.dev_portWrite, List.append_assoc]
  simp [portAddr, windowBase, devicePort, busStatusPort, statusPort, Width.trim, statusRead, regs, selectByte, devSelByte]
  rfl

/-- What those steps leave: the device is selected, two answers are taken, and nothing else changes but the trace. -/
theorem handlerRead_keeps (s : State) :
    let u := handlerRead s.port.ops.dev s
    u.devs = s.devs ∧ KeepsMemory s u ∧ KeepsAgents s u ∧ u.returns = s.returns ∧ u.log = s.log ∧
      u.faults = s.faults ∧ u.cmdBlock (regs s).base = { block s with device := selectByte s } ∧
      u.env.ctl = s.env.ctl ∧ u.env.bm = s.env.bm ∧ KeepsOtherBlocks s u (regs s) ∧
      u.nextAnswer = s.tookAnswer.tookAnswer.nextAnswer := by
  intro u
  have hblk : ∀ k, u.cmdBlock k = (s.setCmdBlock (regs s).base { block s with device := selectByte s }).cmdBlock k := by
    intro k
    simp only [u, handlerRead, State.cmdBlock_portRead, select_eq, State.cmdBlock_record]
    rfl
  have hctl : u.env.ctl = s.env.ctl := by
    simp only [u, handlerRead, portRead_env, select_eq]
    simp [portRead, State.record]
  have hbm : u.env.bm = s.env.bm := by
    simp only [u, handlerRead, portRead_env, select_eq]
    simp [portRead, State.record]
  refine ⟨by simp [u, handlerRead], by simp [u, handlerRead, KeepsMemory], by simp [u, handlerRead, KeepsAgents],
    by simp [u, handlerRead], by simp [u, handlerRead], by simp [u, handlerRead], ?_, hctl, hbm,
    ⟨fun k hk => ?_, fun k _ => congrArg (fun e => Table.getD devctlReset e k.toNat) hctl,
      fun k _ => congrArg (fun e => Table.getD BusMaster.reset e k.toNat) hbm⟩, ?_⟩
  · rw [hblk]
    exact State.cmdBlock_setCmdBlock_self _ _ _
  · rw [hblk]
    exact State.cmdBlock_setCmdBlock_other s _ hk
  · simp only [u, handlerRead, State.nextAnswer_portRead, State.tookAnswer_portRead, select_eq]
    simp

/-- The state after a handler has read and logged ERROR too (R306). -/
def handlerLogged (s : State) : State :=
  let u := portRead s.port.ops.dev .w8 errorPort (handlerRead s.port.ops.dev s)
  { u with log := u.log ++ [{ status := handlerStatus s, error := s.tookAnswer.tookAnswer.nextAnswer.setWidth 8 }] }

/-- The value of the read of ERROR. -/
theorem handler_error (s : State) :
    portValue s.port.ops.dev .w8 errorPort (handlerRead s.port.ops.dev s) =
      (s.tookAnswer.tookAnswer.nextAnswer.setWidth 8 : Byte).setWidth 32 := by
  obtain ⟨-, -, -, -, -, -, -, -, -, -, hnext⟩ := handlerRead_keeps s
  rw [show errorPort = ⟨.command, 1⟩ from rfl, portValue_error, hnext]

/-- A run of the handler that finds ERR without DF (R306). -/
theorem runFrame_handler_error (hirq : (engine s).irq = true) (hdf : (handlerStatus s).getLsbD 5 = false)
    (herr : (handlerStatus s).getLsbD 0 = true) {f : Frame} (hf : f.prog = handlerSteps) (hops : f.ops = s.port.ops) :
    runFrame 7 f s = (.raised (.runtimeDeviceError (handlerStatus s)
      (s.tookAnswer.tookAnswer.nextAnswer.setWidth 8)), handlerLogged s) := by
  have h1 : flag (handlerStatus s) Config.dfBit = false := hdf
  have h2 : flag (handlerStatus s) Config.errBit = true := herr
  rw [runFrame_handler_reads hirq (hf.trans rfl) hops 3]
  simp [runFrame, frameStep, microStep, hops, h1, h2, handler_error, handlerLogged]

end reads

/-- Settles O28: the handler reads up to its test of STATUS, then ERROR, and its last step logs both and raises. -/
theorem handlerLogsAndHaltsOnError : Obligations.HandlerLogsAndHaltsOnError := by
  unfold Obligations.HandlerLogsAndHaltsOnError
  intro s hs hirq hdf herr e
  have hrun := runFrame_handler_error hirq hdf herr (f := startFrame .irqHandler handlerSteps s.port) rfl rfl
  obtain ⟨hdevs, hmem, hagents, hreturns, hlog, hfaults, hblock, hctl, hbm, hothers, -⟩ := handlerRead_keeps s
  have htrace := handlerRead_trace hirq
  have ha := accepts_of_delivered hs
  obtain ⟨hctx, -, -, hslice⟩ := hs
  refine ⟨_, irqStatus s, issue_raises ha hslice hrun, irqStatus_irq s, ?_⟩
  rw [hctx]
  have hmoved : ∀ x, (handlerLogged s).dev x = s.dev x := fun x => by simp [handlerLogged, State.dev, hdevs]
  have hport : (handlerLogged s).port = s.port := by simp [handlerLogged, handlerRead]
  have hengine : ∀ k, (handlerLogged s).busMaster k = s.busMaster k :=
    fun k => congrArg (fun b => Table.getD BusMaster.reset b k.toNat)
      ((State.tookAnswer_env_bm _).trans hbm)
  have hctl' : ∀ k, (handlerLogged s).devctl k = s.devctl k :=
    fun k => congrArg (fun b => Table.getD devctlReset b k.toNat) ((State.tookAnswer_env_ctl _).trans hctl)
  have hcmd : ∀ k, (handlerLogged s).cmdBlock k = (handlerRead s.port.ops.dev s).cmdBlock k :=
    fun k => State.cmdBlock_portRead s.port.ops.dev .w8 errorPort _ k
  refine ⟨?_, by simpa [handlerLogged] using hreturns, ?_, ⟨?_, ?_, fun k hk => ?_⟩, ?_, ?_, ?_, ?_, ?_, ?_⟩
  · rw [raise_trace, handlerLogged]
    simp only [portRead_trace, htrace, handler_error, State.dev, hdevs, List.append_assoc]
    rfl
  · rw [raise_log, handlerLogged]
    simp only [portRead_log, hlog]
    rfl
  · simp [handlerLogged, hfaults, e]
  · rw [dev_raise, if_pos ⟨rfl, rfl⟩, hmoved]
  · rw [dev_raise, if_neg (fun h => hk h.2), hmoved]
  · simp [engine, regs, hport, hmoved, hengine]
  · simpa [KeepsMemory, handlerLogged] using hmem
  · simpa [block, regs, hport, hmoved, hcmd] using hblock
  · simpa [handlerLogged] using hctl
  · obtain ⟨hc, -, -⟩ := hothers
    refine ⟨fun k hk => ?_, fun k _ => ?_, fun k _ => ?_⟩
    · rw [State.cmdBlock_raise, hcmd, hc k hk]
    · rw [State.devctl_raise, hctl']
    · rw [State.busMaster_raise, hengine]
  · simpa [KeepsAgents, handlerLogged] using hagents

end Sys2Proof.Proofs
end

section
/-!
The turns of the environment: the DMA engine's accesses, the completion signal, a device's change of its FIFO bytes,
the caller's stores and the backing of its buffer (spec/10_state.md R41 to R49).
-/
namespace Sys2Proof.Proofs

open Sys2Proof Sys2Proof.Machine Sys2Proof.Statement

theorem step_turn {s : State} {turn : Turn} {rest : List Turn} (h : s.inputs = turn :: rest) :
    step s = takeTurn turn { s with inputs := rest } := by
  simp [step, h]

/-! ## What the engine reads -/

theorem engineByte_of_read {m : Memory} {a : Nat} {v : Byte} (ha : a < 2 ^ 32) (h : Memory.read m a = some v) :
    engineByte m a = v := by
  rw [engineByte, if_pos (show a < Config.prdAddrLimit from ha), h, Option.getD_some]

/-- Below 4 GB the engine reads what the memory states. -/
theorem engineRead_of_readLE {m : Memory} : ∀ {n a v : Nat}, a + n ≤ 2 ^ 32 → Memory.readLE m a n = some v →
    engineRead m a n = v
  | 0, a, v, _, h => Option.some.inj h
  | n + 1, a, v, hn, h => by
    rw [Memory.readLE] at h
    split at h
    next b w hb hw =>
      cases h
      rw [engineRead, engineByte_of_read (by omega) hb, engineRead_of_readLE (by omega) hw]
    next => cases h

theorem prdFetch_of_readLE {m : Memory} {a k addr count flags : Nat} (ha : a + 8 * k + 8 ≤ 2 ^ 32)
    (h1 : Memory.readLE m (a + 8 * k) 4 = some addr) (h2 : Memory.readLE m (a + 8 * k + 4) 2 = some count)
    (h3 : Memory.readLE m (a + 8 * k + 6) 2 = some flags) :
    prdFetch m a k = { addr := addr, count := count, flags := flags } := by
  simp only [prdFetch, Config.prdEntryBytes, Config.prdCountOffset, Config.prdFlagsOffset,
    engineRead_of_readLE (by omega) h1, engineRead_of_readLE (by omega) h2, engineRead_of_readLE (by omega) h3]

/-! ## When the engine moves -/

/-- The engine of device `h` moves, having come to `p`: START is set and the device runs a command that does not go
through DATA (R44). -/
def EngineRuns (s : State) (h : Handle) (p : DmaProgress) : Prop :=
  (s.busMaster (s.dev h).dr.bm).dma = some p ∧ (s.busMaster (s.dev h).dr.bm).buscmd.getLsbD 0 = true ∧
    ((s.cmdBlock (s.dev h).dr.base).position (s.dev h).dr.slave).running = true ∧
    ((s.cmdBlock (s.dev h).dr.base).position (s.dev h).dr.slave).command ∉ [0xEC#8, 0x24#8, 0x34#8]

theorem isPioCommand_eq_false (c : Byte) : isPioCommand c = false ↔ c ∉ [0xEC#8, 0x24#8, 0x34#8] := by
  simp [isPioCommand, Config.identifyByte, Config.readSectorsExtByte, Config.writeSectorsExtByte, and_assoc]

theorem engineOf_eq_some {s : State} {h : Handle} {p : DmaProgress} : engineOf h s = some p ↔ EngineRuns s h p := by
  rw [EngineRuns, ← isPioCommand_eq_false]
  simp only [engineOf, State.ownPosition, flag, Config.startBit, Option.ite_none_right_eq_some, Bool.and_eq_true,
    Bool.not_eq_true']
  exact ⟨fun ⟨⟨⟨hrun, hpio⟩, hstart⟩, hdma⟩ => ⟨hdma, hstart, hrun, hpio⟩,
    fun ⟨hdma, hstart, hrun, hpio⟩ => ⟨⟨⟨hrun, hpio⟩, hstart⟩, hdma⟩⟩

/-- The progress, the environment and the record of the engine after it has moved. -/
theorem engineMoved_keeps (s : State) (h : Handle) (p : DmaProgress) (es : List DmaEvent) (rest : List Turn) (m : Memory) :
    let t : State := { engineMoved h p es { s with inputs := rest } with mem := m }
    KeepsTheBlock s t rest ∧ t.env.cmd = s.env.cmd ∧ t.env.ctl = s.env.ctl ∧ KeepsAnswers s t ∧
      t.busMaster (s.dev h).dr.bm = { s.busMaster (s.dev h).dr.bm with dma := some p } ∧
      ∀ k, k ≠ (s.dev h).dr.bm → t.busMaster k = s.busMaster k :=
  ⟨rfl, rfl, rfl, ⟨rfl, rfl, rfl, rfl, rfl⟩, State.busMaster_setBusMaster_self s _ _,
    fun _ hk => State.busMaster_setBusMaster_other s _ hk⟩

/-- A fetch (R44, R95). -/
theorem dmaFetch_runs {s : State} {h : Handle} {p : DmaProgress} (hp : EngineRuns s h p) (hl : p.left = 0)
    (hn : p.last = false) :
    dmaFetch h s =
      let t := (s.busMaster (s.dev h).dr.bm).prdtaddr.toNat
      let e := prdFetch s.mem t p.next
      .next (engineMoved h { next := p.next + 1, addr := e.addr, left := e.bytes, last := e.isLast }
        [.fetch (t + 8 * p.next)] s) := by
  simp only [dmaFetch, engineOf_eq_some.2 hp, hl, hn, and_self, if_true]
  rfl

theorem dmaFetch_refused {s : State} {h : Handle} (hno : ∀ p, ¬(EngineRuns s h p ∧ p.left = 0 ∧ p.last = false)) :
    dmaFetch h s = .refused .notEnabled := by
  unfold dmaFetch
  split
  next p hp => exact if_neg (fun hc => hno p ⟨engineOf_eq_some.1 hp, hc⟩)
  next => rfl

theorem towardsMemory_eq (s : State) (h : Handle) :
    s.towardsMemory h = (s.busMaster (s.dev h).dr.bm).buscmd.getLsbD 3 := by
  simp [State.towardsMemory, flag, Config.dmaReadBit]

/-- A store (R33). -/
theorem dmaStore_runs {s : State} {h : Handle} {p : DmaProgress} {bs : List Byte} (hp : EngineRuns s h p)
    (hr : (s.busMaster (s.dev h).dr.bm).buscmd.getLsbD 3 = true) (hb : bs ≠ []) (hl : bs.length ≤ p.left) :
    dmaStore h bs s = .next { engineMoved h (p.moved bs.length) (storeEvents p.addr bs) s with
      mem := s.mem.writeBytes p.addr bs } := by
  simp only [dmaStore, engineOf_eq_some.2 hp, towardsMemory_eq]
  exact if_pos ⟨hr, hb, hl⟩

theorem dmaStore_refused {s : State} {h : Handle} {bs : List Byte}
    (hno : ∀ p, ¬(EngineRuns s h p ∧ (s.busMaster (s.dev h).dr.bm).buscmd.getLsbD 3 = true ∧ bs ≠ [] ∧
      bs.length ≤ p.left)) : dmaStore h bs s = .refused .notEnabled := by
  unfold dmaStore
  rw [towardsMemory_eq]
  split
  next p hp => exact if_neg (fun hc => hno p ⟨engineOf_eq_some.1 hp, hc⟩)
  next => rfl

/-- A load (R33). -/
theorem dmaLoad_runs {s : State} {h : Handle} {p : DmaProgress} {n : Nat} (hp : EngineRuns s h p)
    (hr : (s.busMaster (s.dev h).dr.bm).buscmd.getLsbD 3 = false) (hn : n ≠ 0) (hl : n ≤ p.left) :
    dmaLoad h n s = .next (engineMoved h (p.moved n) (loadEvents s.mem p.addr n) s) := by
  simp only [dmaLoad, engineOf_eq_some.2 hp, towardsMemory_eq]
  exact if_pos ⟨hr, hn, hl⟩

theorem dmaLoad_refused {s : State} {h : Handle} {n : Nat}
    (hno : ∀ p, ¬(EngineRuns s h p ∧ (s.busMaster (s.dev h).dr.bm).buscmd.getLsbD 3 = false ∧ n ≠ 0 ∧ n ≤ p.left)) :
    dmaLoad h n s = .refused .notEnabled := by
  unfold dmaLoad
  rw [towardsMemory_eq]
  split
  next p hp => exact if_neg (fun hc => hno p ⟨engineOf_eq_some.1 hp, hc⟩)
  next => rfl

/-! ## The record of the engine's accesses -/

theorem storeEvents_eq (bs : List Byte) (a : Nat) :
    storeEvents a bs = bs.zipIdx.map (fun x => .store (a + x.2) x.1) := by
  induction bs generalizing a with
  | nil => rfl
  | cons b bs ih =>
    rw [storeEvents, ih, List.zipIdx_cons', List.map_cons, List.map_map]
    simp [Function.comp_def, Nat.add_comm, Nat.add_left_comm]

theorem loadEvents_eq (m : Memory) (n a : Nat) :
    loadEvents m a n = (List.range n).map (fun i => .load (a + i) (engineByte m (a + i))) := by
  induction n generalizing a with
  | zero => rfl
  | succ n ih =>
    rw [loadEvents, ih, List.range_succ_eq_map, List.map_cons, List.map_map]
    simp [Function.comp_def, Nat.add_comm, Nat.add_left_comm]

/-- Settles O44: the engine moves exactly where its turn is enabled, and then as its table says. -/
theorem theDmaEngineFollowsItsTable : Obligations.TheDmaEngineFollowsItsTable := by
  unfold Obligations.TheDmaEngineFollowsItsTable
  refine ⟨fun m a k addr count flags => prdFetch_of_readLE, fun m a v => engineByte_of_read, fun s h rest => ?_⟩
  intro d b own runs moved after
  refine ⟨fun hin => ?_, fun bs hin => ?_, fun n hin => ?_⟩
  · rw [step_turn hin]
    exact ⟨fun p hp hl hn => ⟨_, dmaFetch_runs (s := { s with inputs := rest }) hp hl hn, rfl,
      engineMoved_keeps s h _ _ rest s.mem, rfl⟩, dmaFetch_refused (s := { s with inputs := rest })⟩
  · rw [step_turn hin]
    refine ⟨fun p hp hr hb hl => ⟨_, dmaStore_runs (s := { s with inputs := rest }) hp hr hb hl,
      engineMoved_keeps s h _ _ rest _, fun i v hv => ?_, fun a ha => ?_, ?_⟩,
      dmaStore_refused (s := { s with inputs := rest })⟩
    · exact Memory.read_writeBytes s.mem p.addr bs i v hv
    · exact Memory.read_writeBytes_other s.mem p.addr bs ha
    · exact congrArg (s.dmaTrace ++ ·) (storeEvents_eq bs p.addr)
  · rw [step_turn hin]
    exact ⟨fun p hp hr hn hl => ⟨_, dmaLoad_runs (s := { s with inputs := rest }) hp hr hn hl, rfl,
      engineMoved_keeps s h _ _ rest s.mem, congrArg (s.dmaTrace ++ ·) (loadEvents_eq s.mem n p.addr)⟩,
      dmaLoad_refused (s := { s with inputs := rest })⟩

/-! ## The device and the caller -/

/-- Device `h` may signal completion (R41, R42, R44, R326). -/
def MaySignal (s : State) (h : Handle) : Prop :=
  let d := (s.dev h).dr
  let own := (s.cmdBlock d.base).position d.slave
  (s.cmdBlock d.base).device.getLsbD 4 = d.slave ∧ own.running = true ∧ own.mayInterrupt = true ∧
    (s.devctl d.ctrl).getLsbD 1 = false ∧
    (own.command = 0x25#8 ∨ own.command = 0x35#8 →
      ∃ p, (s.busMaster d.bm).dma = some p ∧ p.last = true ∧ p.left = 0)

theorem transferEnded_iff (c : Byte) (dma : Option DmaProgress) :
    transferEnded c dma = true ↔
      (c = 0x25#8 ∨ c = 0x35#8 → ∃ p, dma = some p ∧ p.last = true ∧ p.left = 0) := by
  have hc : isDmaCommand c = true ↔ c = 0x25#8 ∨ c = 0x35#8 := by
    simp [isDmaCommand, Config.readDmaExtByte, Config.writeDmaExtByte]
  rw [transferEnded, ← hc]
  cases dma <;> cases isDmaCommand c <;> simp [DmaProgress.done]

theorem maySignal_iff (s : State) (h : Handle) : maySignal h s = true ↔ MaySignal s h := by
  simp only [maySignal, MaySignal, Bool.and_eq_true, transferEnded_iff, State.selected, CmdBlock.selectsSlave, beq_iff_eq,
    State.masked, flag, Config.devBit, Config.nienBit, State.ownPosition, and_assoc]
  simp

/-- A store of the caller reaches a memory and nothing else (R49, R66). -/
theorem storeCaller_keeps (s : State) (a : Nat) (b : Byte) :
    s.storeCaller a b = { s with mem := (s.storeCaller a b).mem, buf := (s.storeCaller a b).buf } := by
  unfold State.storeCaller State.writePlace
  split <;> rfl

/-- Settles O45: a signal is accepted exactly where it may come, and each turn changes what it names. -/
theorem theDeviceAndTheCallerMove : Obligations.TheDeviceAndTheCallerMove := by
  unfold Obligations.TheDeviceAndTheCallerMove
  intro s rest
  refine ⟨fun h hin => ?_, fun base slave v => ?_, fun a b hin => ?_, fun a r hin => ?_⟩
  · rw [step_turn hin]
    have hiff : maySignal h { s with inputs := rest } = true ↔ MaySignal s h :=
      maySignal_iff { s with inputs := rest } h
    refine ⟨fun hm => ⟨_, if_pos (hiff.2 hm), rfl, rfl, rfl, State.busMaster_setBusMaster_self _ _ _,
      State.cmdBlock_setCmdBlock_self s _ _, rfl, ⟨fun k hk => State.cmdBlock_setCmdBlock_other s _ hk, fun _ _ => rfl,
        fun k hk => State.busMaster_setBusMaster_other (s.setCmdBlock _ _) _ hk⟩, rfl, rfl, rfl, rfl, rfl⟩,
      fun hm => if_neg (fun hc => hm (hiff.1 hc))⟩
  · intro p e he hin
    rw [step_turn hin]
    have hfifo : (s.cmdBlock base).setPosition slave (p.setFifo e.1 v) = (s.cmdBlock base).setPosition slave e.2 := by
      simp only [List.mem_cons, List.not_mem_nil, or_false] at he
      rcases he with rfl | rfl | rfl | rfl <;> rfl
    exact ⟨_, rfl, rfl, rfl, rfl, (State.cmdBlock_setCmdBlock_self s _ _).trans hfifo,
      fun k hk => State.cmdBlock_setCmdBlock_other s _ hk, rfl, rfl, rfl, rfl, rfl, rfl, rfl⟩
  · rw [step_turn hin]
    refine ⟨_, rfl, storeCaller_keeps _ a b, State.readPlace_writePlace_self _ _ _,
      fun p hp => State.readPlace_writePlace_other _ _ hp⟩
  · rw [step_turn hin]
    exact ⟨_, rfl, rfl, Table.lookup_insert_self _ _ _, fun k hk => Table.lookup_insert_other _ _ hk⟩

end Sys2Proof.Proofs
end

section
/-!
Bring-up (spec/44_bringup.md R250 to R265): its register writes up to IDENTIFY, its poll of STATUS, and how it ends.
-/
namespace Sys2Proof.Proofs

open Sys2Proof Sys2Proof.Machine Sys2Proof.Statement

/-! ## The writes up to IDENTIFY -/

/-- The addresses the first step resolves are those of the statement. -/
theorem resolveRegs_eq (s : State) (secondary slave : Bool) :
    resolveRegs (regs s) s.port.ops.pci secondary slave = resolved s secondary slave := by
  cases secondary <;> rfl

/-- The record of a device whose addresses have just been resolved (R251). -/
def starting (s : State) (secondary slave : Bool) : Device :=
  { s.dev s.port.ops.dev with dr := resolved s secondary slave, phase := .starting }

/-- The first step of bring-up, seen as a run that has made no event. -/
theorem view_resolved (s : State) (secondary slave : Bool) :
    let d := resolved s secondary slave
    View s.port.ops.dev s (s.setDev s.port.ops.dev (starting s secondary slave)) (starting s secondary slave)
      (s.cmdBlock d.base) (s.devctl d.ctrl) s.env.answers [] :=
  ⟨State.dev_setDev_self _ _ _, fun _ hk => State.dev_setDev_other _ _ hk, rfl, rfl, rfl, (List.append_nil _).symm,
    fun _ _ => rfl, fun _ _ => rfl, by constructor <;> rfl⟩

/-- A command written to the position that has just been selected (R30, R42). -/
theorem setCurrent_selected (blk : CmdBlock) (slave : Bool) (b : Byte) (nien : Bool) :
    let sel : CmdBlock := { blk with device := devSelByte slave }
    sel.setCurrent (sel.current.takeCommand b nien) = sel.setPosition slave ((blk.position slave).takeCommand b nien) := by
  intro sel
  have h : sel.selectsSlave = slave := by
    cases slave <;> simp [sel, CmdBlock.selectsSlave, devSelByte, flag, Config.devBit]
  rw [CmdBlock.setCurrent, CmdBlock.current, h]
  rfl

/-- The selected position is the one that was replaced. -/
theorem current_setPosition_selected (m t p : Taskfile) (slave : Bool) :
    (({ device := devSelByte slave, master := m, slave := t } : CmdBlock).setPosition slave p).current = p := by
  cases slave <;> simp [CmdBlock.setPosition]

/-- The command block of `identified`, as the steps leave it. -/
theorem identified_eq (s : State) (d : DeviceRegs) :
    let sel : CmdBlock := { s.cmdBlock d.base with device := devSelByte d.slave }
    sel.setCurrent (sel.current.takeCommand 0xEC#8 (flag (nienByte true) Config.nienBit)) = identified s d :=
  setCurrent_selected _ _ _ _

theorem identified_current (s : State) (d : DeviceRegs) :
    (identified s d).current = commanded ((s.cmdBlock d.base).position d.slave) 0xEC#8 0x02#8 :=
  current_setPosition_selected _ _ _ _

theorem identified_seen (s : State) (d : DeviceRegs) (v : Dword) :
    (identified s d).seen v = if ((s.cmdBlock d.base).position d.slave).absent then 0#8 else v.setWidth 8 := by
  rw [CmdBlock.seen, identified_current]
  rfl

/-- The steps of bring-up after IDENTIFY. -/
def identifySteps (secondary : Bool) : List Micro :=
  [.pio .idle false .identify 0 256, .check48, .recordSectors, .openTransfer, .registerIrq secondary,
    .out .w8 ⟨.busMaster, 0⟩ ((0x00#8 : Byte).setWidth 32), .initSucceed]

/-- The steps S1 to S4: the addresses resolved, interrupts suppressed, the device selected, IDENTIFY written (R251 to
R254). -/
theorem runFrame_bringUp (s : State) (secondary slave : Bool) :
    let d := resolved s secondary slave
    let f := startFrame (.initDevice secondary slave) (bringUpSteps secondary slave) s.port
    ∃ u, (∀ n, runFrame (n + 5) f s =
        runFrame n (f.setProg (.inp .w8 statusPort :: .absentCheck :: .identPoll :: identifySteps secondary)) u) ∧
      View s.port.ops.dev s u { starting s secondary slave with dr := { d with nien := true } } (identified s d) 0x02#8
        s.env.answers (bringUpEvents d) := by
  intro d f
  obtain ⟨u1, r1, v1⟩ := (view_resolved s secondary slave).run_nien (f := f) rfl true
  obtain ⟨u2, r2, v2⟩ := v1.run_select (f := f) rfl
  obtain ⟨u3, r3, v3⟩ := v2.run_command (f := f) rfl 0xEC#8
  refine ⟨u3, fun n => ?_, ?_⟩
  · have h0 : frameStep f s = (.running (f.setProg (.setNien true :: .outNien :: .outSelect ::
        .out .w8 ⟨.command, 7⟩ ((0xEC#8 : Byte).setWidth 32) :: .inp .w8 statusPort :: .absentCheck :: .identPoll ::
        identifySteps secondary)), s.setDev s.port.ops.dev (starting s secondary slave)) := by
      rw [starting, ← resolveRegs_eq]
      rfl
    rw [show n + 5 = n + 1 + 1 + 2 + 1 from rfl, runFrame_running h0, r1, r2, r3]
  · rw [← identified_eq]
    exact v3

/-! ## The poll -/

/-- The bytes of reads of STATUS that let the poll go on: the first is not 0x00, and none ends it (R255, R256). -/
def StaysPolling (seen : Dword → Byte) (early : List Dword) : Prop :=
  (∀ v, early.head? = some v → seen v ≠ 0#8) ∧ ∀ v ∈ early, PollGoesOn (seen v)

theorem keepsPolling_map {seen : Dword → Byte} {early : List Dword} :
    KeepsPolling (early.map (fun v => (seen v).setWidth 32)) → StaysPolling seen early := by
  rintro ⟨hfirst, hall⟩
  refine ⟨fun v hv => ?_, fun v hv => ?_⟩
  · have h := hfirst ((seen v).setWidth 32) (by rw [List.head?_map, hv]; rfl)
    simpa using h
  · have h := hall ((seen v).setWidth 32) (List.mem_map_of_mem hv)
    simpa [PollGoesOn] using h

/-- The read that follows IDENTIFY. -/
theorem frameStep_inp_status {f : Frame} {steps : List Micro} {s : State} {a : Dword} {rest : List Dword}
    (hf : f.prog = .inp .w8 statusPort :: steps) (ha : s.env.answers = a :: rest) :
    frameStep f s = (.running ((f.setAcc ((s.seen f.ops.dev a).setWidth 32)).setProg steps),
      s.readAs (statusEvent s f.ops.dev (s.seen f.ops.dev a)) rest) := by
  simp only [frameStep, hf, microStep, portValue_status_seen ha, portRead_status_seen ha, Frame.setAcc, Frame.setProg]

/-- A poll that goes on through `early` reads `last` next. -/
theorem runFrame_identPoll {f : Frame} {steps : List Micro} {s : State} {early rest : List Dword} {last : Dword}
    (hf : f.prog = .identPoll :: steps) (hacc : PollGoesOn (f.acc.setWidth 8))
    (ha : s.env.answers = early ++ last :: rest) (he : ∀ v ∈ early, PollGoesOn (s.seen f.ops.dev v)) (n : Nat) :
    runFrame (early.length + 1 + n) f s =
      runFrame n (f.setAcc ((s.seen f.ops.dev last).setWidth 32))
        (s.readsAs ((early ++ [last]).map (fun v => statusEvent s f.ops.dev (s.seen f.ops.dev v))) rest) := by
  induction early generalizing f s with
  | nil =>
    rw [List.length_nil, Nat.zero_add, Nat.add_comm 1 n, runFrame_running (frameStep_identPoll hf hacc ha)]
    rfl
  | cons a early ih =>
    have h1 := he a (by simp)
    simp only [List.cons_append] at ha
    rw [List.length_cons, show early.length + 1 + 1 + n = early.length + 1 + n + 1 by omega,
      runFrame_running (frameStep_identPoll hf hacc ha),
      ih (f := f.setAcc ((s.seen f.ops.dev a).setWidth 32)) (s := s.readAs _ (early ++ last :: rest)) hf
        (by simpa [Frame.setAcc] using h1) rfl (fun v hv => he v (by simp [hv])), State.readAs_readsAs]
    rfl

/-- The reads of STATUS after IDENTIFY up to `last`, where the first is not 0x00. -/
theorem runFrame_polled {f : Frame} {steps : List Micro} {s : State} {early rest : List Dword} {last : Dword}
    (hf : f.prog = .inp .w8 statusPort :: .absentCheck :: .identPoll :: steps)
    (ha : s.env.answers = early ++ last :: rest) (he : StaysPolling (s.seen f.ops.dev) early)
    (hl : early = [] → s.seen f.ops.dev last ≠ 0#8) (n : Nat) :
    runFrame (early.length + 2 + n) f s =
      runFrame n ((f.setAcc ((s.seen f.ops.dev last).setWidth 32)).setProg (.identPoll :: steps))
        (s.readsAs ((early ++ [last]).map (fun v => statusEvent s f.ops.dev (s.seen f.ops.dev v))) rest) := by
  obtain ⟨hfirst, hall⟩ := he
  have hcheck : ∀ (b : Byte) (u : State), b ≠ 0#8 →
      frameStep ((f.setAcc (b.setWidth 32)).setProg (.absentCheck :: .identPoll :: steps)) u =
        (.running ((f.setAcc (b.setWidth 32)).setProg (.identPoll :: steps)), u) := by
    intro b u hb
    simp [frameStep, Frame.setProg, Frame.setAcc, microStep, hb]
  cases early with
  | nil =>
    rw [List.length_nil, Nat.zero_add, Nat.add_comm 2 n, runFrame_running (frameStep_inp_status hf ha),
      runFrame_running (hcheck _ _ (hl rfl))]
    rfl
  | cons a early =>
    have h1 := hall a (by simp)
    simp only [List.cons_append] at ha
    rw [List.length_cons, show early.length + 1 + 2 + n = early.length + 1 + n + 1 + 1 by omega,
      runFrame_running (frameStep_inp_status hf ha), runFrame_running (hcheck _ _ (hfirst a rfl)),
      runFrame_identPoll (f := (f.setAcc ((s.seen f.ops.dev a).setWidth 32)).setProg (.identPoll :: steps))
        (s := s.readAs _ (early ++ last :: rest)) rfl (by simpa [Frame.setAcc, Frame.setProg] using h1) rfl
        (fun v hv => hall v (by simp [hv])), State.readAs_readsAs]
    rfl

/-! ## A poll that ends bring-up -/

/-- A first byte of 0x00: no device (R255). -/
theorem runFrame_absent {f : Frame} {steps : List Micro} {s : State} {rest : List Dword} {last : Dword}
    (hf : f.prog = .inp .w8 statusPort :: .absentCheck :: .identPoll :: steps) (ha : s.env.answers = last :: rest)
    (hl : s.seen f.ops.dev last = 0#8) :
    runFrame 2 f s = (.returned (.status .deviceDoesNotExist),
      failBringUp f.ops.dev (s.readsAs [statusEvent s f.ops.dev (s.seen f.ops.dev last)] rest)) := by
  rw [runFrame_running (frameStep_inp_status hf ha)]
  apply runFrame_returned
  simp [frameStep, Frame.setProg, Frame.setAcc, microStep, hl, bringUpFails]
  rfl

/-- A byte with ERR set: the device is not supported (R256). -/
theorem frameStep_identPoll_error {f : Frame} {steps : List Micro} (s : State) (hf : f.prog = .identPoll :: steps)
    (he : (f.acc.setWidth 8 : Byte).getLsbD 0 = true) :
    frameStep f s = (.returned (.status .deviceNotSupported), failBringUp f.ops.dev s) := by
  have h1 : flag (f.acc.setWidth 8 : Byte) Config.errBit = true := he
  simp [frameStep, hf, microStep, h1, bringUpFails]

/-- Listed reads leave a view but for the events and the answers. -/
theorem view_readsAs {h : Handle} {s u : State} {d : Device} {blk : CmdBlock} {ctl : Byte} {ans : List Dword}
    {evs : List PortEvent} (v : View h s u d blk ctl ans evs) (es : List PortEvent) (rest : List Dword) :
    View h s (u.readsAs es rest) d blk ctl rest (evs ++ es) := by
  obtain ⟨hdev, hothers, hcmd, hctl, -, htrace, hblocks, hctls, hsame⟩ := v
  exact ⟨hdev, hothers, hcmd, hctl, rfl, by simp [State.readsAs, htrace], hblocks, hctls,
    by cases hsame; constructor <;> assumption⟩

theorem view_seen {h : Handle} {s u : State} {d : Device} {blk : CmdBlock} {ctl : Byte} {ans : List Dword}
    {evs : List PortEvent} (v : View h s u d blk ctl ans evs) : u.seen h = blk.seen := by
  funext a
  rw [State.seen, v.dev, v.cmd]

/-- The bytes of STATUS that bring-up reads (R45). -/
def bringUpSeen (s : State) (d : DeviceRegs) (v : Dword) : Byte :=
  if ((s.cmdBlock d.base).position d.slave).absent then 0#8 else v.setWidth 8

/-- A request of bring-up up to the byte of STATUS that ends its poll, where the first byte is not 0x00. -/
theorem runFrame_bringUp_polled {s : State} {secondary slave : Bool} {early rest : List Dword} {last : Dword}
    (hans : s.env.answers = early ++ last :: rest) :
    let d := resolved s secondary slave
    let f := startFrame (.initDevice secondary slave) (bringUpSteps secondary slave) s.port
    ∃ u, View s.port.ops.dev s u { starting s secondary slave with dr := { d with nien := true } } (identified s d)
        0x02#8 rest (bringUpEvents d ++ (early ++ [last]).map (fun v => pollRead d (bringUpSeen s d v))) ∧
      (StaysPolling (bringUpSeen s d) early → (early = [] → bringUpSeen s d last ≠ 0#8) → ∀ n,
        runFrame (early.length + 7 + n) f s =
          runFrame n ((f.setAcc ((bringUpSeen s d last).setWidth 32)).setProg (.identPoll :: identifySteps secondary)) u) ∧
      (early = [] → bringUpSeen s d last = 0#8 →
        runFrame 7 f s = (.returned (.status .deviceDoesNotExist), failBringUp s.port.ops.dev u)) := by
  intro d f
  obtain ⟨u, hrun, v⟩ := runFrame_bringUp s secondary slave
  have hseen : u.seen s.port.ops.dev = bringUpSeen s d := (view_seen v).trans (funext (identified_seen s d))
  have hevent : statusEvent u s.port.ops.dev = pollRead d := by
    funext b
    rw [statusEvent, v.dev]
    rfl
  have ha : u.env.answers = early ++ last :: rest := v.answers.trans hans
  refine ⟨_, view_readsAs v _ rest, fun hpoll hl n => ?_, fun he hl => ?_⟩
  · have h := runFrame_polled (f := f.setProg (.inp .w8 statusPort :: .absentCheck :: .identPoll :: identifySteps secondary))
      (s := u) rfl ha (hseen ▸ hpoll) (hseen ▸ hl) n
    rw [show early.length + 7 + n = early.length + 2 + n + 5 by omega, hrun, h]
    simp only [show f.ops.dev = s.port.ops.dev from rfl, Frame.setProg, hseen, hevent]
    rfl
  · subst he
    have h := runFrame_absent (f := f.setProg (.inp .w8 statusPort :: .absentCheck :: .identPoll :: identifySteps secondary))
      (s := u) rfl ha (hseen ▸ hl)
    rw [show 7 = 2 + 5 from rfl, hrun, h]
    simp only [show f.ops.dev = s.port.ops.dev from rfl, Frame.setProg, hseen, hevent]
    rfl

/-- What a bring-up that has failed leaves: the registers as written, the device not brought up (R264). -/
theorem failBringUp_leaves {s u : State} {d : Device} {blk : CmdBlock} {ctl : Byte} {ans : List Dword}
    {evs : List PortEvent} (v : View s.port.ops.dev s u d blk ctl ans evs)
    (hreg : d.registered = (s.dev s.port.ops.dev).registered)
    (hfault : d.handlerFault = (s.dev s.port.ops.dev).handlerFault) (i : Instr) (r : Result) :
    let t := handBack s.port.ops.dev i r (failBringUp s.port.ops.dev u)
    t.trace = s.trace ++ evs ∧ Returns s t i r ∧ BringUpFailed s t ∧ t.devctl d.dr.ctrl = ctl ∧
      t.cmdBlock d.dr.base = blk ∧ t.env.bm = s.env.bm ∧ KeepsOtherBlocks s t d.dr ∧ KeepsMemory s t ∧ KeepsRest s t := by
  obtain ⟨hdev, hothers, hcmd, hctl, -, htrace, hblocks, hctls, hsame⟩ := v
  obtain ⟨hmem, hrest⟩ := keepsRest_of_sameElse hsame
  have hold : (failBringUp s.port.ops.dev u).dev s.port.ops.dev = unspecifiedDevice u.env.drawn d :=
    (State.dev_setDev_self u _ _).trans (by rw [hdev])
  refine ⟨htrace, congrArg (· ++ _) hsame.returns, ⟨?_, ?_, ?_, fun k hk => ?_⟩, hctl, hcmd, hsame.bm,
    ⟨hblocks, hctls, fun k _ => congrArg (fun e => Table.getD BusMaster.reset e k.toNat) hsame.bm⟩, hmem, hrest⟩
  · exact State.phase_failBringUp _ _
  · exact (congrArg Device.registered hold).trans hreg
  · exact (congrArg Device.handlerFault hold).trans hfault
  · exact (State.dev_failBringUp_other u hk).trans (hothers k hk)

/-- Settles O58: the byte of STATUS that ends the poll decides the status. -/
theorem bringUpFailsWhilePolling : Obligations.BringUpFailsWhilePolling := by
  unfold Obligations.BringUpFailsWhilePolling
  intro s secondary slave early rest last hmay hans d seen hpoll hend
  have hseen : seen = bringUpSeen s d := rfl
  have haccept := accepts_of_mayBringUp hmay secondary slave
  obtain ⟨-, hslice, -⟩ := hmay
  obtain ⟨u, v, hpolled, habsent⟩ := runFrame_bringUp_polled (secondary := secondary) (slave := slave) hans
  rw [hseen] at hpoll hend ⊢
  have hzero : bringUpSeen s d last = 0#8 → early = [] := by
    intro h0
    rcases hend with ⟨he, -⟩ | he
    · exact he
    · rw [h0] at he
      cases he
  refine ⟨_, issue_returns haccept hslice (m := early.length + 8) (t := failBringUp s.port.ops.dev u) ?_,
    failBringUp_leaves v rfl rfl _ _⟩
  by_cases h0 : bringUpSeen s d last = 0#8
  · obtain rfl := hzero h0
    rw [if_pos h0]
    exact runFrame_returned_of_le (habsent rfl h0) (by simp)
  · have herr : (bringUpSeen s d last).getLsbD 0 = true := hend.resolve_left (fun h => h0 h.2)
    rw [if_neg h0, show early.length + 8 = early.length + 7 + 1 from rfl,
      hpolled (keepsPolling_map hpoll) (fun _ => h0) 1]
    exact runFrame_returned (frameStep_identPoll_error u rfl (by simpa [Frame.setAcc, Frame.setProg] using herr))

/-! ## A bring-up that succeeds -/

/-- A byte with ERR and BUSY clear and DRQ set ends the poll (R256). -/
theorem frameStep_identPoll_ready {f : Frame} {steps : List Micro} (s : State) (hf : f.prog = .identPoll :: steps)
    (herr : (f.acc.setWidth 8 : Byte).getLsbD 0 = false) (hbusy : (f.acc.setWidth 8 : Byte).getLsbD 7 = false)
    (hdrq : (f.acc.setWidth 8 : Byte).getLsbD 3 = true) : frameStep f s = (.running (f.setProg steps), s) := by
  have h1 : flag (f.acc.setWidth 8 : Byte) Config.errBit = false := herr
  have h2 : flag (f.acc.setWidth 8 : Byte) Config.busyBit = false := hbusy
  have h3 : flag (f.acc.setWidth 8 : Byte) Config.drqBit = true := hdrq
  simp [frameStep, hf, microStep, h1, h2, h3, Frame.setProg]

/-- The record of a device that has been brought up (R57): sector count, line, transfer, handler and phase. -/
def upRecord (d : Device) (id : List Word) (irq : IrqLine) : Device :=
  { d with
    dr := { d.dr with totalSectors := identSectors id, irq := irq },
    ct := { state := .free, event := false, prdt := none }, phase := .up, registered := true }

/-- The state after the last steps of bring-up: the sector count and the transfer recorded, the handler registered, the
engine stopped (R259 to R263). -/
def broughtUp (h : Handle) (secondary : Bool) (pci : PciInfo) (id : List Word) (u : State) : State :=
  let counted := u.setDr h { (u.dev h).dr with totalSectors := identSectors id }
  let opened := counted.setCt h { state := .free, event := false, prdt := none }
  let called := opened.tookRegistration.called (.registerInterrupt (irqLine pci secondary) h)
  let registered := (called.setDr h { (opened.dev h).dr with irq := irqLine pci secondary }).setRegistered h
  (portWrite h .w8 ⟨.busMaster, 0⟩ ((0x00#8 : Byte).setWidth 32) registered).setPhase h .up

theorem runFrame_succeeds {f : Frame} {secondary : Bool} {u : State} {rrest : List Bool}
    (hf : f.prog = [.check48, .recordSectors, .openTransfer, .registerIrq secondary,
      .out .w8 ⟨.busMaster, 0⟩ ((0x00#8 : Byte).setWidth 32), .initSucceed])
    (hcap : supports48 f.idbuf = true) (hreg : u.env.registrations = true :: rrest) :
    runFrame 6 f u = (.returned (.status .success), broughtUp f.ops.dev secondary f.ops.pci f.idbuf u) := by
  simp [runFrame, frameStep, hf, microStep, hcap, State.nextRegistration, hreg, broughtUp]

/-- The engine after STOP_DMA's write (R187). -/
theorem takeCommand_stop (b : BusMaster) : b.takeCommand 0x00#8 = { b with buscmd := 0#8, dma := none } := by
  simp [BusMaster.takeCommand, flag]

@[simp] theorem cmdBlock_tookRegistration (s : State) (k : IoAddr) : s.tookRegistration.cmdBlock k = s.cmdBlock k := by
  simp [State.cmdBlock]

@[simp] theorem devctl_tookRegistration (s : State) (k : IoAddr) : s.tookRegistration.devctl k = s.devctl k := by
  simp [State.devctl]

@[simp] theorem busMaster_tookRegistration (s : State) (k : IoAddr) :
    s.tookRegistration.busMaster k = s.busMaster k := by
  simp [State.busMaster]

/-- What the last steps of bring-up leave (R57). -/
theorem broughtUp_leaves {s u : State} {h : Handle} {d : Device} {blk : CmdBlock} {ctl : Byte} {ans : List Dword}
    {evs : List PortEvent} (v : View h s u d blk ctl ans evs) (secondary : Bool) (pci : PciInfo) (id : List Word)
    {rrest : List Bool} (hreg : s.env.registrations = true :: rrest) :
    let t := broughtUp h secondary pci id u
    t.trace = s.trace ++ (evs ++ [.write .w8 d.dr.bm 0#32]) ∧
      t.calls = s.calls ++ [.registerInterrupt (irqLine pci secondary) h] ∧ t.returns = s.returns ∧
      (t.dev h = upRecord d id (irqLine pci secondary) ∧ ∀ k, k ≠ h → t.dev k = s.dev k) ∧
      t.devctl d.dr.ctrl = ctl ∧ t.cmdBlock d.dr.base = blk ∧
      t.busMaster d.dr.bm = { s.busMaster d.dr.bm with buscmd := 0#8, dma := none } ∧ t.env.answers = ans ∧
      t.env.registrations = rrest ∧ KeepsOtherBlocks s t d.dr ∧ KeepsMemory s t ∧ KeepsButCalls s t := by
  obtain ⟨hdev, hothers, hcmd, hctl, hans, htrace, hblocks, hctls, hsame⟩ := v
  obtain ⟨hmem, hrest, -⟩ := keepsRest_of_sameElse hsame
  have hreg' := hsame.registrations.trans hreg
  have hbm : ∀ k, u.busMaster k = s.busMaster k :=
    fun k => congrArg (fun e => Table.getD BusMaster.reset e k.toNat) hsame.bm
  intro t
  refine ⟨?_, ?_, ?_, ⟨?_, fun k hk => ?_⟩, ?_, ?_, ?_, ?_, ?_, ⟨fun k hk => ?_, fun k hk => ?_, fun k hk => ?_⟩, ?_, ?_⟩
  all_goals simp only [t, broughtUp, portWrite_buscmd, takeCommand_stop]
  · simp [hdev, htrace]
  · simp [hsame.calls]
  · simp [hsame.returns]
  · simp [hdev, upRecord]
  · simp [hdev, hk, hothers k hk, State.dev_setPhase_other, State.dev_setRegistered_other,
      State.dev_setDr_other, State.dev_setCt_other]
  · simpa [hdev] using hctl
  · simpa [hdev] using hcmd
  · simp [hdev, hbm]
  · simp [hans]
  · simp [State.tookRegistration, hreg']
  · simpa [hdev] using hblocks k hk
  · simpa [hdev] using hctls k hk
  · simp [hdev, State.busMaster_setBusMaster_other _ _ hk, hbm]
  · simpa [KeepsMemory] using hmem
  · simpa [KeepsButCalls] using hrest

/-- The identification words a run has taken. -/
def identWords (ws : List (Dword × Dword × Dword)) : List Word := ws.map (fun w => w.2.2.setWidth 16)

theorem identWord_identWords (ws : List (Dword × Dword × Dword)) (n : Nat) :
    identWord (identWords ws) n = (ws.getD n (0#32, 0#32, 0#32)).2.2.setWidth 16 :=
  List.getD_map (d := (0#32, 0#32, 0#32)) (f := fun w : Dword × Dword × Dword => (w.2.2.setWidth 16 : Word)) ..

/-- The sector count, from the words as the statement names them (R259). -/
theorem identSectors_identWords (ws : List (Dword × Dword × Dword)) :
    let w := fun n => (ws.getD n (0#32, 0#32, 0#32)).2.2
    identSectors (identWords ws) = ((w 103).setWidth 16 ++ (w 102).setWidth 16 ++ (w 101).setWidth 16 ++
      (w 100).setWidth 16 : BitVec 64).setWidth 48 := by
  simp only [identSectors, Config.identSectorsWord, identWord_identWords]

theorem irqLine_eq (s : State) (secondary : Bool) : irqLine s.port.ops.pci secondary = line s secondary := by
  cases secondary <;> rfl

theorem supports48_identWords {ws : List (Dword × Dword × Dword)}
    (h : (ws.getD 83 (0#32, 0#32, 0#32)).2.2.getLsbD 10 = true) : supports48 (identWords ws) = true := by
  rw [supports48, Config.identCapWord, identWord_identWords]
  simpa [flag, Config.identCapBit] using h

theorem staysPolling_of_keepsPolling {early : List Dword} :
    KeepsPolling early → StaysPolling (fun v => v.setWidth 8) early := by
  rintro ⟨hfirst, hall⟩
  exact ⟨hfirst, fun v hv => by simpa [PollGoesOn] using hall v hv⟩

/-- The run from the end of the poll on. -/
theorem runFrame_identified {f : Frame} {secondary : Bool} {u : State} {last : Dword}
    {ws : List (Dword × Dword × Dword)} {rest : List Dword} {rrest : List Bool}
    (hf : f.prog = .identPoll :: identifySteps secondary) (hbuf : f.idbuf = [])
    (hacc : f.acc = (last.setWidth 8 : Byte).setWidth 32) (hid : Identifies last ws)
    (hp : (u.cmdBlock (u.dev f.ops.dev).dr.base).current.absent = false)
    (ha : u.env.answers = ws.flatMap pioReadAnswers ++ rest) (hcap : supports48 (identWords ws) = true)
    (hreg : u.env.registrations = true :: rrest) :
    runFrame 1032 f u = (.returned (.status .success), broughtUp f.ops.dev secondary f.ops.pci (identWords ws)
      (u.readsAs (ws.flatMap (pioReadEvents u f.ops.dev)) rest)) := by
  obtain ⟨herr, hbusy, hdrq, hlen, hwords⟩ := hid
  have hpoll := frameStep_identPoll_ready u hf (by simpa [hacc] using herr) (by simpa [hacc] using hbusy)
    (by simpa [hacc] using hdrq)
  obtain ⟨a, hwordsRun⟩ := runFrame_pio_identify ws rest 0 (f.setProg (identifySteps secondary)) rfl
    (by rw [hlen]) u (fun _ => hp) ha hwords
  have hend := runFrame_succeeds (secondary := secondary) (rrest := rrest)
    (f := (((f.setProg (identifySteps secondary)).addId (identWords ws)).setAcc a).setProg
      [.check48, .recordSectors, .openTransfer, .registerIrq secondary,
        .out .w8 ⟨.busMaster, 0⟩ ((0x00#8 : Byte).setWidth 32), .initSucceed])
    (u := u.readsAs (ws.flatMap (pioReadEvents u f.ops.dev)) rest) rfl
    (by simpa [Frame.addId, Frame.setProg, Frame.setAcc, hbuf] using hcap) hreg
  rw [show 1032 = 4 * ws.length + 1 + 6 + 1 by rw [hlen], runFrame_running hpoll, hwordsRun 6]
  refine hend.trans ?_
  simp [Frame.addId, Frame.setProg, Frame.setAcc, hbuf]

/-- Settles O57: the poll ends at `last`, the 256 words are taken, and the last steps record what the device told. -/
theorem bringUpSucceeds : Obligations.BringUpSucceeds := by
  unfold Obligations.BringUpSucceeds
  intro s secondary slave early last ws rest rrest d w hmay hpresent hans hpoll hident hcap hreg
  have haccept := accepts_of_mayBringUp hmay secondary slave
  obtain ⟨-, hslice, -⟩ := hmay
  obtain ⟨u, v, hpolled, -⟩ := runFrame_bringUp_polled (secondary := secondary) (slave := slave) hans
  have hseen : bringUpSeen s d = fun a => a.setWidth 8 := by
    funext a
    exact if_neg (by rw [show d.slave = slave from rfl, hpresent]; exact Bool.false_ne_true)
  have hcurrent : (u.cmdBlock (u.dev s.port.ops.dev).dr.base).current.absent = false := by
    rw [v.dev, v.cmd, identified_current]
    exact hpresent
  have hevents : pioReadEvents u s.port.ops.dev = fun w => [pollRead d (w.1.setWidth 8), pollRead d (w.2.1.setWidth 8),
      .read .w16 d.base ((w.2.2.setWidth 16 : Word).setWidth 32)] := by
    funext w
    rw [pioReadEvents, statusEvent, statusEvent, v.dev]
    rfl
  have hfirst : early = [] → bringUpSeen s d last ≠ 0#8 := by
    obtain ⟨-, -, hdrq, -⟩ := hident
    intro _ h0
    rw [hseen] at h0
    have h3 : (last.setWidth 8 : Byte).getLsbD 3 = false := congrArg (fun b : Byte => b.getLsbD 3) h0
    exact absurd hdrq (by simpa using h3)
  have hrun := (hpolled (hseen ▸ staysPolling_of_keepsPolling hpoll) hfirst 1032).trans
    (runFrame_identified (f := ((startFrame (.initDevice secondary slave) (bringUpSteps secondary slave) s.port).setAcc
        ((bringUpSeen s d last).setWidth 32)).setProg (.identPoll :: identifySteps secondary)) rfl rfl
      (by rw [hseen]; rfl) hident hcurrent v.answers (supports48_identWords hcap) (v.same.registrations.trans hreg))
  have v2 := view_readsAs v (ws.flatMap (pioReadEvents u s.port.ops.dev)) rest
  obtain ⟨htrace, hcalls, hreturns, hdev, hctl, hcmd, hbm, hanswers, hregs, hothers, hmem, hkeeps⟩ :=
    broughtUp_leaves v2 secondary s.port.ops.pci (identWords ws) hreg
  have hlong : early.length + 7 + 1032 ≤ s.port.slice := by omega
  refine ⟨_, issue_returns haccept hlong hrun, ?_, ?_, ?_, ?_, hctl, hcmd, hbm, hanswers, hregs, hothers, hmem, hkeeps⟩
  · refine htrace.trans ?_
    rw [hevents, hseen]
    rfl
  · exact hcalls.trans (by rw [irqLine_eq])
  · exact congrArg (· ++ _) hreturns
  · obtain ⟨hself, hothers'⟩ := hdev
    refine ⟨hself.trans ?_, hothers'⟩
    rw [upRecord, irqLine_eq, identSectors_identWords]
    rfl

end Sys2Proof.Proofs
end

section
/-!
PIO_BUFFER (spec/41_primitives.md R185, R186): the polled loop in both directions where the device is ready at once, and
what the words read leave in the caller's buffer (R66).
-/
namespace Sys2Proof.Proofs

open Sys2Proof Sys2Proof.Machine Sys2Proof.Statement

/-- A read of STATUS that shows a bit set comes from a device that is there (R45). -/
theorem present_of_statusSeen {s : State} {v : Dword} {bit : Nat} (h : (statusSeen s v).getLsbD bit = true) :
    (block s).current.absent = false := by
  by_contra hp
  rw [statusSeen, if_pos (by simpa using hp)] at h
  simp at h

/-- Where a device is there, the waits of the loop see the draws' own bits. -/
theorem statusSeen_present {s : State} (hp : (block s).current.absent = false) (v : Dword) :
    statusSeen s v = v.setWidth 8 := State.seen_present hp v

/-- The two STATUS values of each word that let the loop go on: the device is there, and their own bits show it. -/
theorem ready_of_statusSeen {α : Type} {s : State} {ws : List α} {idle drq : α → Dword}
    (hw : ∀ w ∈ ws, (statusSeen s (idle w)).getLsbD 7 = false ∧ (statusSeen s (drq w)).getLsbD 3 = true) :
    (ws ≠ [] → (block s).current.absent = false) ∧
      ∀ w ∈ ws, (idle w).getLsbD 7 = false ∧ (drq w).getLsbD 3 = true := by
  have hp : ∀ w ∈ ws, (block s).current.absent = false := fun w hm => present_of_statusSeen (hw w hm).2
  refine ⟨fun hne => ?_, fun w hm => ?_⟩
  · obtain ⟨w, hm⟩ := List.exists_mem_of_ne_nil ws hne
    exact hp w hm
  · have h := hw w hm
    rw [statusSeen_present (hp w hm), statusSeen_present (hp w hm)] at h
    simpa using h

/-! ## From the device into the buffer -/

/-- The words stored from word 0 on fill the request's buffer (R66). -/
theorem bufferFilled_fillWords {s t : State} {ws : List Word}
    (hmem : t.mem = (fillWords s s.port.ops.buffer 0 ws).mem)
    (hbuf : t.buf = (fillWords s s.port.ops.buffer 0 ws).buf) : BufferFilled s t ws := by
  have hread := State.readPlace_congr hmem hbuf
  refine ⟨fun i w hi => ?_, fun p hp => ?_⟩
  · obtain ⟨hlo, hhi⟩ := readPlace_fillWords s s.port.ops.buffer 0 ws i w hi
    simp only [Nat.zero_add] at hlo hhi
    exact ⟨fun hlast => (hread _).trans (hlo fun k h1 h2 => (hlast k h1 h2).symm),
      fun hlast => (hread _).trans (hhi fun k h1 h2 => (hlast k h1 h2).symm)⟩
  · exact (hread p).trans (readPlace_fillWords_other s _ 0 ws fun k _ hk => (hp k (by simpa using hk)).symm)

/-- Settles O20: the loop makes its three events a word and stores the words from word 0 on. -/
theorem pioReadFillsTheBuffer : Obligations.PioReadFillsTheBuffer := by
  unfold Obligations.PioReadFillsTheBuffer
  intro s ws rest hs hlen hans hw
  obtain ⟨hp, hbits⟩ := ready_of_statusSeen (ws := ws) (idle := fun w => w.1) (drq := fun w => w.2.1) hw
  obtain ⟨a, hloop⟩ := runFrame_pio_read ws rest 0
    (startFrame .pioBufferRead [.pio .idle false .caller 0 s.port.ops.words, .ret .done] s.port) rfl (by omega) s hp hans
    hbits
  have hrun := (hloop 1).trans (runFrame_returned rfl)
  rw [hlen, fillWords_readsAs] at hrun
  refine ⟨_, issue_returns (accepts_of_ready hs rfl rfl) (slice_of_ready hs) hrun, ?_, ?_, ?_, ?_, ?_,
    bufferFilled_fillWords rfl rfl⟩
  · exact congrArg (· ++ _) (fillWords_trace s _ _ _)
  · exact congrArg (· ++ _) (fillWords_returns s _ _ _)
  · exact fillWords_devs s _ _ _
  · simp [KeepsRest, KeepsButCalls, State.readsAs]
  · simp [State.readsAs]

/-! ## From the buffer to the device -/

/-- Settles O21: the loop makes its three events a word and stores nothing. -/
theorem pioWriteSendsTheBuffer : Obligations.PioWriteSendsTheBuffer := by
  unfold Obligations.PioWriteSendsTheBuffer
  intro s ws rest hs hlen hans hw
  obtain ⟨hp, hbits⟩ := ready_of_statusSeen (ws := ws) (idle := fun w => w.1) (drq := fun w => w.2) hw
  obtain ⟨a, hloop⟩ := runFrame_pio_write ws rest 0
    (startFrame .pioBufferWrite [.pio .idle true .caller 0 s.port.ops.words, .ret .done] s.port) rfl (by omega) s hp hans
    hbits
  have hrun := (hloop 1).trans (runFrame_returned rfl)
  rw [hlen] at hrun
  exact ⟨_, issue_returns (accepts_of_ready hs rfl rfl) (slice_of_ready hs) hrun, rfl, rfl,
    ⟨rfl, ⟨fun _ => rfl, fun _ => rfl⟩, ⟨rfl, rfl, rfl, rfl, rfl, rfl, rfl, rfl, rfl, rfl, rfl, rfl⟩, rfl⟩, rfl⟩

end Sys2Proof.Proofs
end

section
/-!
What the machine has put out (spec/20_memory.md R60, R79; spec/60_exceptions.md R323): every record of outputs grows at
its end in every kind of step, so a recorded fault stays.
-/
namespace Sys2Proof.Proofs

open Sys2Proof Sys2Proof.Machine Sys2Proof.Statement

/-- Every record of outputs of `s` is the beginning of that of `t`. -/
structure Extends (s t : State) : Prop where
  faults : s.faults <+: t.faults
  trace : s.trace <+: t.trace
  log : s.log <+: t.log
  returns : s.returns <+: t.returns
  calls : s.calls <+: t.calls
  dmaTrace : s.dmaTrace <+: t.dmaTrace

theorem Extends.of_eq {s t : State} (h1 : t.faults = s.faults) (h2 : t.trace = s.trace) (h3 : t.log = s.log)
    (h4 : t.returns = s.returns) (h5 : t.calls = s.calls) (h6 : t.dmaTrace = s.dmaTrace) : Extends s t :=
  ⟨by rw [h1], by rw [h2], by rw [h3], by rw [h4], by rw [h5], by rw [h6]⟩

theorem Extends.trans {s t u : State} (h : Extends s t) (k : Extends t u) : Extends s u :=
  ⟨h.faults.trans k.faults, h.trace.trans k.trace, h.log.trans k.log, h.returns.trans k.returns, h.calls.trans k.calls,
    h.dmaTrace.trans k.dmaTrace⟩

/-! ## The kinds of steps -/

/-- Raising a fault records it (R323). -/
theorem raise_extends (h : Handle) (c : Context) (k : Fault) (s : State) : Extends s (raise h c k s) := by
  constructor <;> simp

/-- A run makes port events, log entries and calls; faults and results are left to its end. -/
theorem runFrame_extends (n : Nat) (f : Frame) (s : State) : Extends s (runFrame n f s).2 := by
  obtain ⟨hreturns, hfaults, -⟩ := runFrame_sameAgents n f s
  obtain ⟨htrace, hlog, hcalls, hdma⟩ := runFrame_grows n f s
  exact ⟨by rw [hfaults], htrace, hlog, by rw [hreturns], hcalls, by rw [hdma]⟩

/-- The end of a turn records a result or a fault, or suspends the sequence. -/
theorem settle_extends (tid : Option Nat) (f : Frame) (r : Progress × State) : Extends r.2 (settle tid f r) := by
  obtain ⟨p, s⟩ := r
  cases p with
  | running g => constructor <;> simp
  | returned v => constructor <;> simp
  | raised k => exact raise_extends _ _ k s

/-- A turn that runs a sequence. -/
theorem running_extends {s s0 : State} {tid : Option Nat} {f : Frame} (h : Running s s0 tid f) (n : Nat) :
    Extends s (settle tid f (runFrame n f s0)) := by
  have hstart : Extends s s0 := by
    rw [h.kept]
    exact Extends.of_eq rfl rfl rfl rfl rfl rfl
  exact (hstart.trans (runFrame_extends n f s0)).trans (settle_extends tid f _)

/-- A move of the environment makes the engine's accesses alone. -/
theorem environmentMoved_extends {s t : State} (h : EnvironmentMoved s t) : Extends s t := by
  obtain ⟨e, hdma, -⟩ := h
  exact ⟨by rw [e], by rw [e], by rw [e], by rw [e], by rw [e], hdma⟩

theorem step_extends {s t : State} (h : step s = .next t) : Extends s t := by
  rcases step_cases h with ⟨-, rfl⟩ | ⟨s0, tid, f, n, hr, -, rfl⟩ | ⟨r, rest, k, -, -, rfl⟩ | he
  · exact Extends.of_eq rfl rfl rfl rfl rfl rfl
  · exact running_extends hr n
  · have hlatch : Extends s { s with inputs := rest, port := r } := Extends.of_eq rfl rfl rfl rfl rfl rfl
    exact hlatch.trans (raise_extends r.ops.dev .thread k _)
  · exact environmentMoved_extends he

/-! ## Faults stay -/

theorem faultFree_eq_false_iff (s : State) : Safety.faultFree s = false ↔ s.faults ≠ [] := by
  simp [Safety.faultFree]

/-- A faulted state is never a final one (R323). -/
theorem final_of_faulted {s : State} (h : Safety.faultFree s = false) : Safety.final s = false := by
  simp [Safety.final, h]

/-- A recorded fault stays recorded (R323). -/
theorem Extends.faulted {s t : State} (h : Extends s t) (hs : Safety.faultFree s = false) :
    Safety.faultFree t = false := by
  rw [faultFree_eq_false_iff] at hs ⊢
  exact h.faults.ne_nil hs

/-- Settles O40: every kind of step extends the records, the faults among them. -/
theorem historiesOnlyGrow : Obligations.HistoriesOnlyGrow := by
  unfold Obligations.HistoriesOnlyGrow
  intro s t h
  have he := step_extends h
  exact ⟨he.faults, he.trace, he.log, he.returns, he.calls, he.dmaTrace,
    fun hs => ⟨he.faulted hs, final_of_faulted (he.faulted hs)⟩⟩

end Sys2Proof.Proofs
end

section
/-!
The multiplexer (spec/30_encoding.md R92, spec/20_memory.md R62), and the reads of the registers the model keeps no value
of (spec/40_register_access.md R130, R154, R156, R158, R160, R164).
-/
namespace Sys2Proof.Proofs

open Sys2Proof Sys2Proof.Machine Sys2Proof.Statement

/-! ## The ranges of logical offsets -/

theorem route_range1 {off : Nat} (h : off ≤ 0x07) : route off = some ⟨⟨.command, off⟩, false⟩ := if_pos h

theorem route_range2 {off : Nat} (h1 : 0x08 ≤ off) (h2 : off ≤ 0x0B) :
    route off = some ⟨⟨.command, off - 6⟩, true⟩ := by
  simp [route, show ¬off ≤ 7 by omega, h2]

theorem route_range3 {off : Nat} (h1 : 0x0C ≤ off) (h2 : off ≤ 0x0D) :
    route off = some ⟨⟨.control, off - 0x0C⟩, false⟩ := by
  simp [route, show ¬off ≤ 7 by omega, show ¬off ≤ 11 by omega, h2]

theorem route_range4 {off : Nat} (h1 : 0x0E ≤ off) (h2 : off ≤ 0x15) :
    route off = some ⟨⟨.busMaster, off - 0x0E⟩, false⟩ := by
  simp [route, show ¬off ≤ 7 by omega, show ¬off ≤ 11 by omega, show ¬off ≤ 13 by omega, h2]

theorem route_none {off : Nat} (h : 0x16 ≤ off) : route off = none := by
  simp [route, show ¬off ≤ 7 by omega, show ¬off ≤ 11 by omega, show ¬off ≤ 13 by omega, show ¬off ≤ 21 by omega]

/-- The distance from a window's first offset, as a 16-bit number. -/
theorem ofNat_sub_offset (off : Byte) {n : Nat} (h : n ≤ off.toNat) :
    BitVec.ofNat 16 (off.toNat - n) = off.setWidth 16 - BitVec.ofNat 16 n := by
  apply BitVec.eq_of_toNat_eq
  simp only [BitVec.toNat_ofNat, BitVec.toNat_sub, BitVec.toNat_setWidth]
  omega

/-- Settles O6: the port of each range, its sum taken in 16 bits. -/
theorem theMultiplexerRoutesByRange : Obligations.TheMultiplexerRoutesByRange := by
  unfold Obligations.TheMultiplexerRoutesByRange
  intro dr off reaches o
  refine ⟨fun h => ⟨_, route_range1 h, ?_, rfl⟩, fun h1 h2 => ⟨_, route_range2 h1 h2, ?_, rfl⟩,
    fun h1 h2 => ⟨_, route_range3 h1 h2, ?_, rfl⟩, fun h1 h2 => ⟨_, route_range4 h1 h2, ?_, rfl⟩, route_none⟩
  · exact congrArg (dr.base + ·) (BitVec.ofNat_toNat 16 off)
  · exact congrArg (dr.base + ·) (ofNat_sub_offset off (by omega))
  · exact congrArg (dr.ctrl + ·) (ofNat_sub_offset off h1)
  · exact congrArg (dr.bm + ·) (ofNat_sub_offset off h1)

/-! ## Reads that answer the draw -/

theorem portValue_dataByte (h : Handle) (s : State) :
    portValue h .w8 ⟨.command, 0⟩ s = (s.nextAnswer.setWidth 8 : Byte).setWidth 32 := by
  simp [portValue, deviceAnswer, commandAnswer, Width.trim]

theorem portValue_control (h : Handle) (n : Nat) (s : State) :
    portValue h .w8 ⟨.control, n⟩ s = (s.nextAnswer.setWidth 8 : Byte).setWidth 32 := rfl

/-- BUSCMD, BM1 and BM3 lie below PRDTADDR, beside BUSSTATUS. -/
theorem portValue_busMasterDraw (h : Handle) {n : Nat} (hn : n < 4) (h2 : n ≠ 2) (s : State) :
    portValue h .w8 ⟨.busMaster, n⟩ s = (s.nextAnswer.setWidth 8 : Byte).setWidth 32 := by
  simp [portValue, deviceAnswer, busMasterAnswer, Width.trim, show ¬14 + n = 16 by omega, show ¬18 ≤ 14 + n by omega]

/-- Settles O1: one byte read each, whose value is the draw's. -/
theorem readOfUnkeptRegisterReturnsTheDraw : Obligations.ReadOfUnkeptRegisterReturnsTheDraw := by
  unfold Obligations.ReadOfUnkeptRegisterReturnsTheDraw
  intro s hs
  have ha : ∀ i, threadMay i = true → Safety.isBringUp i = false → Accepts s i := fun i => accepts_of_ready hs
  have hn := slice_of_ready hs
  simp only [List.mem_cons, List.not_mem_nil, or_false, forall_eq_or_imp, forall_eq]
  exact ⟨issue_readByte (ha _ rfl rfl) hn rfl (portValue_dataByte _ s),
    issue_readByte (ha _ rfl rfl) hn rfl (portValue_control _ 0 s),
    issue_readByte (ha _ rfl rfl) hn rfl (portValue_control _ 1 s),
    issue_readByte (ha _ rfl rfl) hn rfl (portValue_busMasterDraw _ (n := 0) (by decide) (by decide) s),
    issue_readByte (ha _ rfl rfl) hn rfl (portValue_busMasterDraw _ (n := 1) (by decide) (by decide) s),
    issue_readByte (ha _ rfl rfl) hn rfl (portValue_busMasterDraw _ (n := 3) (by decide) (by decide) s)⟩

end Sys2Proof.Proofs
end

section
/-!
TSM_COMPLETE (spec/43_transfer_state_machine.md R232): the compare-and-swap, and the fault that ends a handler agent
(spec/60_exceptions.md R323).
-/
namespace Sys2Proof.Proofs

open Sys2Proof Sys2Proof.Machine Sys2Proof.Statement

/-! ## The compare-and-swap -/

/-- The swap finds InProgress (R81). -/
theorem microStep_complete {f : Frame} {s : State} (h : (s.dev f.ops.dev).ct.state = .inProgress) :
    microStep .complete f s = (.running f, storeTsm f.ops.dev .finished s) := by
  simp [microStep, casFinished, h]

/-- The swap finds another state, and stores nothing (R81, R324). -/
theorem microStep_complete_raises {f : Frame} {s : State} (h : (s.dev f.ops.dev).ct.state ≠ .inProgress) :
    microStep .complete f s = (.raised (.casFailed (s.dev f.ops.dev).ct.state), s) := by
  simp [microStep, casFinished, h]

/-! ## What each outcome leaves -/

/-- A store to `ct.state` of the request's device writes that record alone. -/
theorem storeTsm_setsDevice (s : State) (x : TsmState) (i : Instr) (r : Result) :
    SetsDevice s (handBack s.port.ops.dev i r (storeTsm s.port.ops.dev x s))
      { s.dev s.port.ops.dev with ct := { transfer s with state := x } } :=
  ⟨dev_storeTsm_self s _ x, fun _ hk => State.dev_setCt_other s _ hk⟩

/-- A fault raised in the interrupt context is recorded, and ends the handler agent of its device (R323). -/
theorem raise_endsHandler (s : State) (k : Fault) : EndsHandler s (raise s.port.ops.dev .interrupt k s) k := by
  refine ⟨raise_faults _ _ _ _, ?_, fun x hx => ?_⟩
  · rw [dev_raise, if_pos ⟨rfl, rfl⟩]
  · rw [dev_raise, if_neg (fun h => hx h.2)]

/-- Settles O23: by what the swap finds. -/
theorem completeSwapsOnlyFromInProgress : Obligations.CompleteSwapsOnlyFromInProgress := by
  unfold Obligations.CompleteSwapsOnlyFromInProgress
  intro s hs
  have ha : Accepts s .tsmComplete := accepts_of_readyInterrupt hs rfl nofun
  obtain ⟨hctx, -, -, hslice⟩ := hs
  refine ⟨fun hin => ?_, fun hin => ?_⟩
  · have hswap : ∀ f : Frame, f.ops = s.port.ops →
        microStep .complete f s = (.running f, storeTsm s.port.ops.dev .finished s) := by
      intro f hf
      rw [← hf]
      exact microStep_complete (by rw [hf]; exact hin)
    exact ⟨_, issue_done ha hslice hswap, rfl, storeTsm_setsDevice s .finished _ _, rfl, rfl,
      ⟨fun _ => rfl, fun _ => rfl⟩, ⟨rfl, rfl, rfl, rfl, rfl, rfl, rfl, rfl, rfl, rfl, rfl, rfl⟩, rfl⟩
  · have hrun : runFrame 1 (startFrame .tsmComplete [.complete, .ret .done] s.port) s =
        (.raised (.casFailed (transfer s).state), s) :=
      runFrame_raised (microStep_complete_raises (f := startFrame .tsmComplete [.ret .done] s.port) hin)
    refine ⟨_, issue_raises ha (Nat.le_of_succ_le hslice) hrun, ?_⟩
    rw [hctx]
    exact ⟨rfl, raise_endsHandler s _, rfl, rfl, rfl, ⟨fun _ => rfl, fun _ => rfl⟩,
      rfl, rfl, rfl, rfl, rfl, rfl, rfl, rfl, rfl, rfl, rfl⟩

end Sys2Proof.Proofs
end

section
/-!
The request port's words (spec/30_encoding.md R91 to R102, R126): every operation decodes from its own word, the decoder
reads no operation from another word, and only a byte access with an offset from 0x16 on decodes and faults.
-/
namespace Sys2Proof.Proofs

open Sys2Proof

/-! ## Tables of numbered rows -/

/-- A row that the lookup finds stands in the table. -/
theorem mem_of_rowOf {rows : List (Nat × Instr)} {n : Nat} {i : Instr} (h : rowOf rows n = some i) : (n, i) ∈ rows := by
  obtain ⟨before, after, rfl, -⟩ := List.lookup_eq_some_iff.mp h
  simp

/-- A table with the numbers from 0 to `k - 1` has no row from `k` on. -/
theorem rowOf_eq_none_iff {rows : List (Nat × Instr)} {k n : Nat} (hk : rows.map Prod.fst = List.range k) :
    rowOf rows n = none ↔ k ≤ n := by
  have hmem : rowOf rows n = none ↔ n ∉ rows.map Prod.fst := by
    simp only [rowOf, List.lookup_eq_none_iff, List.mem_map, bne_iff_ne]
    exact ⟨fun h ⟨p, hp, hn⟩ => h p hp hn.symm, fun h p hp hn => h ⟨p, hp, hn.symm⟩⟩
  rw [hmem, hk, List.mem_range, not_lt]

/-- The byte-wide access of an offset in a direction, where R94's table has one. -/
def byteAccess (write : Bool) (off : Nat) : Option Instr := if write then writeAt off else readAt off

/-- The encoder puts a byte-wide access at the offset and the direction under which the table lists it (R93, R94). -/
theorem encode_of_byteAccess {write : Bool} {off : Nat} {i : Instr} (h : byteAccess write off = some i) :
    encode i = accWord Config.accSizeByte write off := by
  have hread : ∀ p ∈ readRows, encode p.2 = accWord Config.accSizeByte false p.1 := by decide
  have hwrite : ∀ p ∈ writeRows, encode p.2 = accWord Config.accSizeByte true p.1 := by decide
  cases write
  · exact hread _ (mem_of_rowOf h)
  · exact hwrite _ (mem_of_rowOf h)

/-- No byte-wide access reaches an offset past the last range (R92, R126). -/
theorem byteAccess_eq_none_iff (write : Bool) (off : Nat) : byteAccess write off = none ↔ 0x16 ≤ off := by
  cases write
  · exact rowOf_eq_none_iff (rows := readRows) rfl
  · exact rowOf_eq_none_iff (rows := writeRows) rfl

/-- The encoder gives a command the byte under which the table lists it (R98). -/
theorem encode_of_commandRow {b : Byte} {i : Instr} (h : rowOf commandRows b.toNat = some i) : encode i = cmdWord b := by
  have hrows : ∀ p ∈ commandRows, encode p.2 = cmdWord (BitVec.ofNat 8 p.1) := by decide
  simpa using hrows _ (mem_of_rowOf h)

/-- The encoder gives a sequenced operation the code and the flags that select it (R99). -/
theorem encode_of_reqInstr {op : Nat} {f0 f1 : Bool} {i : Instr} (h : reqInstr op f0 f1 = some i) :
    encode i = reqWord op f0 f1 := by
  have hplain : ∀ p ∈ plainRows, encode p.2 = reqWord p.1 false false := by decide
  unfold reqInstr at h
  split_ifs at h with hinit htransfer hnien hf1 hpio hf0 hf1 hflags
  · cases h; rw [hinit]; rfl
  · cases h; rw [htransfer]; rfl
  · cases h; rw [hnien, Bool.eq_false_of_not_eq_true hf1]; rfl
  · cases h; rw [hpio, Bool.eq_false_of_not_eq_true hf0, hf1]; rfl
  · cases h; rw [hpio, Bool.eq_false_of_not_eq_true hf0, Bool.eq_false_of_not_eq_true hf1]; rfl
  · obtain ⟨rfl, rfl⟩ : f0 = false ∧ f1 = false := by simpa using hflags
    exact hplain _ (mem_of_rowOf h)

/-! ## The fields of a word -/

/-- What the decoder makes of an ACC word, by its field `size` (R91, R94). -/
theorem decode_accWord {size : Nat} (hsize : size < 4) (write : Bool) (off : Byte) :
    decode (accWord size write off.toNat) =
      if size = Config.accSizeByte then decodeAccByte write off
      else if size = Config.accSizeWord then decodeAccWord write off
      else if size = Config.accSizeDword then decodeAccDword write off
      else .illegal .accReservedSize := by
  interval_cases size <;> cases write <;> simp [accWord, decode, decodeAcc]

/-- A flag read off a number is the bit it was read from. -/
theorem toNat_mod_two_beq_one (n : Nat) : (n % 2 == 1).toNat = n % 2 := by
  rcases Nat.mod_two_eq_zero_or_one n with h | h <;> rw [h] <;> rfl

/-- Two bytes with nothing above bit 10 are the ACC word of the fields they hold (R91). -/
theorem bytes_eq_accWord (off hi : Byte) :
    (⟨.acc, [off, hi]⟩ : PortWord) = accWord (hi.toNat / 2) (hi.toNat % 2 == 1) off.toNat := by
  simp [accWord, toNat_mod_two_beq_one, Nat.div_add_mod']

/-- A byte with bits 7:6 clear is the REQ word of the fields it holds (R99). -/
theorem byte_eq_reqWord {b : Byte} (h : b.toNat < 2 ^ Config.reqBits) :
    (⟨.req, [b]⟩ : PortWord) = reqWord (b.toNat % 2 ^ Config.reqFlag0Bit) (b.toNat / 2 ^ Config.reqFlag0Bit % 2 == 1)
      (b.toNat / 2 ^ Config.reqFlag1Bit % 2 == 1) := by
  have hfields : b.toNat / 32 % 2 * 32 + b.toNat / 16 % 2 * 16 + b.toNat % 16 = b.toNat := by
    simp only [Config.reqBits] at h
    omega
  simp [reqWord, toNat_mod_two_beq_one, hfields]

/-- An ACC word of two bytes is refused, or it is the word of the fields it holds (R91, R102). -/
theorem decode_acc_cases (off hi : Byte) :
    decode ⟨.acc, [off, hi]⟩ = .illegal .accUpperBits ∨
      ∃ size < 4, ∃ write, (⟨.acc, [off, hi]⟩ : PortWord) = accWord size write off.toNat := by
  by_cases h : hi.toNat < 8
  · exact .inr ⟨_, by omega, _, bytes_eq_accWord off hi⟩
  · left
    have hupper : hi.toNat / 8 ≠ 0 := by omega
    simp [decode, decodeAcc, hupper]

/-- A word is refused for its width, or has the one width of its format (R102). -/
theorem decode_cases (w : PortWord) :
    decode w = .illegal .badLength ∨ (∃ off hi, w = ⟨.acc, [off, hi]⟩) ∨ (∃ b, w = ⟨.cmd, [b]⟩) ∨ ∃ b, w = ⟨.req, [b]⟩ := by
  obtain ⟨format, bytes⟩ := w
  match format, bytes with
  | .acc, [off, hi] => exact .inr (.inl ⟨off, hi, rfl⟩)
  | .cmd, [b] => exact .inr (.inr (.inl ⟨b, rfl⟩))
  | .req, [b] => exact .inr (.inr (.inr ⟨b, rfl⟩))
  | .acc, [] | .acc, [_] | .acc, _ :: _ :: _ :: _ => exact .inl rfl
  | .cmd, [] | .cmd, _ :: _ :: _ => exact .inl rfl
  | .req, [] | .req, _ :: _ :: _ => exact .inl rfl

/-! ## From an operation's word to the operation -/

/-- The decoder reads every operation back from its own word (R93, R94, R98, R99). -/
theorem decode_encode (i : Instr) : decode (encode i) = .instr i := by
  cases i with
  | initDevice secondary slave => exact Laws.RoundTrip.initDevice secondary slave
  | transferSectors async isWrite => exact Laws.RoundTrip.transferSectors async isWrite
  | programNien suppress => exact Laws.RoundTrip.programNien suppress
  | _ => rfl

/-! ## From a word to the operation -/

/-- The operation read from a byte access is the access of that offset and direction. -/
theorem decodeAccByte_eq_instr_iff {write : Bool} {off : Byte} {i : Instr} :
    decodeAccByte write off = .instr i ↔ byteAccess write off.toNat = some i := by
  unfold decodeAccByte byteAccess
  split <;> simp_all

/-- A byte access faults, with its own direction and offset, when no access of it exists. -/
theorem decodeAccByte_eq_outOfRange_iff {write write' : Bool} {off off' : Byte} :
    decodeAccByte write off = .outOfRange write' off' ↔
      byteAccess write off.toNat = none ∧ write = write' ∧ off = off' := by
  unfold decodeAccByte byteAccess
  split <;> simp_all

/-- An operation read from an ACC word has that word (R91, R94). -/
theorem encode_of_decode_accWord {size : Nat} (hsize : size < 4) {write : Bool} {off : Byte} {i : Instr}
    (h : decode (accWord size write off.toNat) = .instr i) : accWord size write off.toNat = encode i := by
  rw [decode_accWord hsize] at h
  split_ifs at h with hbyte hword hdword
  · rw [hbyte, encode_of_byteAccess (decodeAccByte_eq_instr_iff.mp h)]
  · unfold decodeAccWord at h
    split_ifs at h with hdata hw <;> cases h
    · rw [hword, hdata, hw]; rfl
    · rw [hword, hdata, Bool.eq_false_of_not_eq_true hw]; rfl
  · unfold decodeAccDword at h
    split_ifs at h with hprdt
    cases h
    rw [hdword, hprdt.1, hprdt.2]; rfl

/-- An operation read from a CMD byte has that byte (R98). -/
theorem encode_of_decodeCmd {b : Byte} {i : Instr} (h : decodeCmd b = .instr i) : (⟨.cmd, [b]⟩ : PortWord) = encode i := by
  unfold decodeCmd at h
  split at h
  next i' hrow => cases h; exact (encode_of_commandRow hrow).symm
  next => cases h

/-- An operation read from a REQ byte has that byte (R99, R101). -/
theorem encode_of_decodeReq {b : Byte} {i : Instr} (h : decodeReq b = .instr i) : (⟨.req, [b]⟩ : PortWord) = encode i := by
  unfold decodeReq at h
  split at h
  next i' hreq =>
    split_ifs at h with hlow
    cases h
    rw [encode_of_reqInstr hreq, byte_eq_reqWord hlow]
  next => cases h

/-- An operation is read from its own word alone. -/
theorem encode_of_decode {w : PortWord} {i : Instr} (h : decode w = .instr i) : w = encode i := by
  rcases decode_cases w with hlen | ⟨off, hi, rfl⟩ | ⟨b, rfl⟩ | ⟨b, rfl⟩
  · cases hlen.symm.trans h
  · rcases decode_acc_cases off hi with hupper | ⟨size, hsize, write, hw⟩
    · cases hupper.symm.trans h
    · rw [hw] at h ⊢
      exact encode_of_decode_accWord hsize h
  · exact encode_of_decodeCmd h
  · exact encode_of_decodeReq h

/-! ## The words that decode and fault -/

/-- Of the ACC words only a byte access faults, at the offset and in the direction of the word (R94, R101). -/
theorem fields_of_decode_accWord_outOfRange {size : Nat} (hsize : size < 4) {write write' : Bool} {off off' : Byte}
    (h : decode (accWord size write off.toNat) = .outOfRange write' off') :
    size = Config.accSizeByte ∧ byteAccess write off.toNat = none ∧ write = write' ∧ off = off' := by
  rw [decode_accWord hsize] at h
  split_ifs at h with hbyte hword hdword
  · exact ⟨hbyte, decodeAccByte_eq_outOfRange_iff.mp h⟩
  · unfold decodeAccWord at h
    split_ifs at h
  · unfold decodeAccDword at h
    split_ifs at h

/-- A word that decodes and faults is a byte access past the last range (R94, R101, R126). -/
theorem word_of_decode_outOfRange {w : PortWord} {write : Bool} {off : Byte} (h : decode w = .outOfRange write off) :
    0x16 ≤ off.toNat ∧ w = accWord Config.accSizeByte write off.toNat := by
  rcases decode_cases w with hlen | ⟨off', hi, rfl⟩ | ⟨b, rfl⟩ | ⟨b, rfl⟩
  · cases hlen.symm.trans h
  · rcases decode_acc_cases off' hi with hupper | ⟨size, hsize, write', hw⟩
    · cases hupper.symm.trans h
    · rw [hw] at h ⊢
      obtain ⟨rfl, hnone, rfl, rfl⟩ := fields_of_decode_accWord_outOfRange hsize h
      exact ⟨(byteAccess_eq_none_iff _ _).mp hnone, rfl⟩
  · simp only [decode, decodeCmd] at h
    split at h <;> cases h
  · simp only [decode, decodeReq] at h
    split at h
    · split_ifs at h
    · cases h

/-- A byte access past the last range decodes and faults (R94, R126). -/
theorem decode_byte_outOfRange {off : Byte} (write : Bool) (h : 0x16 ≤ off.toNat) :
    decode (accWord Config.accSizeByte write off.toNat) = .outOfRange write off := by
  rw [decode_accWord (by decide), if_pos rfl, decodeAccByte_eq_outOfRange_iff]
  exact ⟨(byteAccess_eq_none_iff write _).mpr h, rfl, rfl⟩

/-- The bytes of the ACC word of a byte access: the offset, then the direction (R91). -/
theorem accWord_byte_eq (write : Bool) (off : Byte) :
    accWord Config.accSizeByte write off.toNat = ⟨.acc, [off, if write then 0x01#8 else 0x00#8]⟩ := by
  cases write <;> simp [accWord]

/-- Settles O31: the decoder undoes the encoder, and each of its answers gives the word back. -/
theorem decodeReadsExactlyTheEncodedWord : Obligations.DecodeReadsExactlyTheEncodedWord := by
  unfold Obligations.DecodeReadsExactlyTheEncodedWord
  intro w
  refine ⟨fun i => ⟨encode_of_decode, fun hw => hw ▸ decode_encode i⟩, fun write off => ?_⟩
  rw [← accWord_byte_eq]
  refine ⟨word_of_decode_outOfRange, ?_⟩
  rintro ⟨hoff, rfl⟩
  exact decode_byte_outOfRange write hoff

/-! ## Words written out from the spec -/

/-- Settles O32: each word of an operation is the word the encoder gives it. -/
theorem wordsOfTheSpecDecode : Obligations.WordsOfTheSpecDecode := by
  unfold Obligations.WordsOfTheSpecDecode
  exact ⟨decode_encode .rdStatus, decode_encode .wrLba5, decode_encode .rd16Data, decode_encode .wr32Prdtaddr,
    decode_encode .identify, decode_encode (.initDevice true true), decode_encode (.transferSectors true false),
    decode_encode (.transferSectors false true), decode_encode .pioBufferWrite, decode_encode .irqHandler,
    by decide, by decide⟩

end Sys2Proof.Proofs
end

section
/-!
The writes of the registers the model keeps no value of (spec/40_register_access.md R131, R157, R161, R165), and the
word accesses of DATA (R128): sequences of one port event that leave every register of the environment.
-/
namespace Sys2Proof.Proofs

open Sys2Proof Sys2Proof.Machine Sys2Proof.Statement

/-! ## One write that nothing keeps -/

/-- The port takes a write and keeps nothing of it. -/
def Ignores (dr : DeviceRegs) (w : Width) (p : Port) : Prop :=
  ∀ (v : Dword) (s : State), deviceWrite dr w p v s = s

/-- A write that nothing keeps is its event alone (R60). -/
theorem portWrite_of_ignores {h : Handle} {s : State} {w : Width} {p : Port} (hp : Ignores (s.dev h).dr w p)
    (v : Dword) : portWrite h w p v s = s.record (.write w (portAddr (s.dev h).dr p) (w.trim v)) := by
  rw [portWrite, hp]

/-- A sequence of one write that nothing keeps: one event at the port's address, nothing else changed (R120). -/
theorem issue_writeIgnored {s : State} {i : Instr} {w : Width} {p : Port} {addr : IoAddr} {v x : Dword}
    (ha : Accepts s i) (hn : 2 ≤ s.port.slice) (haddr : portAddr (regs s) p = addr) (hx : w.trim v = x)
    (hp : Ignores (regs s) w p) :
    ∃ t, issue i [.out w p v, .ret .done] s = .next t ∧ t.trace = s.trace ++ [.write w addr x] ∧
      Returns s t i .done ∧ KeepsBlock s t ∧ t.env = s.env := by
  subst haddr hx
  exact ⟨_, issue_done ha hn (microStep_out (portWrite_of_ignores hp v)), rfl, rfl,
    ⟨rfl, ⟨fun _ => rfl, fun _ => rfl⟩, ⟨rfl, rfl, rfl, rfl, rfl, rfl, rfl, rfl, rfl, rfl, rfl, rfl⟩, rfl⟩, rfl⟩

/-- The write of a byte has the byte itself in its event. -/
theorem trim_byte (b : Byte) : Width.w8.trim (b.setWidth 32) = b.setWidth 32 := by simp [Width.trim]

/-! ## The ports that keep nothing -/

/-- A byte or a word written to DATA goes to the device (R32). -/
theorem ignores_data (dr : DeviceRegs) (w : Width) : Ignores dr w ⟨.command, 0⟩ := fun _ _ => rfl

/-- CTL1 is reserved (R157). -/
theorem ignores_ctl1 (dr : DeviceRegs) (w : Width) : Ignores dr w ⟨.control, 1⟩ := fun _ _ => rfl

/-- BM1 and BM3, beside BUSSTATUS, are reserved (R161, R165). -/
theorem ignores_busMasterReserved (dr : DeviceRegs) (w : Width) {n : Nat} (hn : n = 1 ∨ n = 3) :
    Ignores dr w ⟨.busMaster, n⟩ := by
  intro v s
  rcases hn with rfl | rfl <;> rfl

/-- Settles O7: each write reaches a port that keeps nothing. -/
theorem writeOfUnkeptRegisterIsOneEvent : Obligations.WriteOfUnkeptRegisterIsOneEvent := by
  unfold Obligations.WriteOfUnkeptRegisterIsOneEvent
  intro s hs
  have ha : ∀ i, threadMay i = true → Safety.isBringUp i = false → Accepts s i := fun i => accepts_of_ready hs
  have hn := slice_of_ready hs
  simp only [List.mem_cons, List.not_mem_nil, or_false, forall_eq_or_imp, forall_eq]
  exact ⟨issue_writeIgnored (ha _ rfl rfl) hn rfl (trim_byte _) (ignores_data _ _),
    issue_writeIgnored (ha _ rfl rfl) hn rfl (trim_byte _) (ignores_ctl1 _ _),
    issue_writeIgnored (ha _ rfl rfl) hn rfl (trim_byte _) (ignores_busMasterReserved _ _ (.inl rfl)),
    issue_writeIgnored (ha _ rfl rfl) hn rfl (trim_byte _) (ignores_busMasterReserved _ _ (.inr rfl))⟩

/-! ## Words of DATA -/

/-- DATA stands at the base of the command block (R92). -/
theorem portAddr_data (dr : DeviceRegs) : portAddr dr dataPort = dr.base := BitVec.add_zero _

/-- A word read from DATA is the draw's low half (R128). -/
theorem portValue_dataWord (h : Handle) (s : State) :
    portValue h .w16 dataPort s = (s.nextAnswer.setWidth 16 : Word).setWidth 32 := portValue_data h s

/-- The event of a word read from DATA, at the base of the command block (R128). -/
theorem portRead_dataWord_trace (h : Handle) (s : State) :
    (portRead h .w16 dataPort s).trace =
      s.trace ++ [.read .w16 (s.dev h).dr.base ((s.nextAnswer.setWidth 16 : Word).setWidth 32)] := by
  simp [portRead, State.record, portAddr_data, portValue_dataWord]

/-- The sequence of one word read from DATA returns the word drawn (R128). -/
theorem exec_rd16Data {s : State} (hs : Ready s 2) :
    exec .rd16Data s = .next (handBack s.port.ops.dev .rd16Data (.word (s.nextAnswer.setWidth 16))
      (portRead s.port.ops.dev .w16 dataPort s)) := by
  refine issue_returns (accepts_of_ready hs rfl rfl) (slice_of_ready hs) ?_
  simp [runFrame, frameStep, microStep, startFrame, retValue, portValue_dataWord]

/-- Settles O13: the read is one event that takes one draw, the write one event that nothing keeps. -/
theorem wordAccessOfData : Obligations.WordAccessOfData := by
  unfold Obligations.WordAccessOfData
  intro s hs
  constructor
  · exact ⟨_, exec_rd16Data hs, portRead_dataWord_trace _ s, by simp [Returns], keepsBlock_portRead _ _ _ _ _ _, rfl⟩
  · exact issue_writeIgnored (accepts_of_ready hs rfl rfl) (slice_of_ready hs) (portAddr_data _) rfl
      (ignores_data _ .w16)

end Sys2Proof.Proofs
end

section
/-!
What the port refuses by its context (spec/60_exceptions.md R340, R341), and a byte access out of range
(spec/40_register_access.md R126).
-/
namespace Sys2Proof.Proofs

open Sys2Proof Sys2Proof.Machine Sys2Proof.Statement

/-! ## A byte access out of range -/

/-- A turn whose request is a byte access out of range. -/
theorem step_outOfRange {s : State} {r : Request} {rest : List Turn} {write : Bool} {off : Byte}
    (hi : s.inputs = .call r :: rest) (ha : s.activation = none) (hd : decode r.word = .outOfRange write off) :
    step s = execOutOfRange off { s with inputs := rest, port := r } := by
  simp [step_call hi, ha, takeCall, hd]

/-- A thread's access out of range to a device that is brought up raises (R126). -/
theorem execOutOfRange_raises {off : Byte} {s : State} (hc : s.port.ctx = .thread)
    (hp : (s.dev s.port.ops.dev).phase = .up) :
    execOutOfRange off s = .next (raise s.port.ops.dev .thread (.unreachableOffset off) s) := by
  simp [execOutOfRange, hc, hp]

/-- The interrupt context has no access out of range (R341). -/
theorem execOutOfRange_refused {off : Byte} {s : State} (hc : s.port.ctx = .interrupt) :
    execOutOfRange off s = .refused .wrongContext := by
  simp [execOutOfRange, hc]

/-- Settles O34: the access raises in a thread, which changes the list of faults alone. -/
theorem outOfRangeAccessFaults : Obligations.OutOfRangeAccessFaults := by
  unfold Obligations.OutOfRangeAccessFaults
  intro s r rest write off hi ha hd hc hp
  rw [step_outOfRange hi ha hd]
  exact execOutOfRange_raises hc hp

/-! ## The wrong context -/

/-- The eight operations of the interrupt context (R341). -/
theorem mem_of_interruptMay {i : Instr} (h : interruptMay i = true) :
    i ∈ [Instr.irqHandler, .selectDevice, .rdBusstatus, .rdStatus, .rdError, .stopDma, .tsmComplete,
      .wrBusstatus] := by
  unfold interruptMay at h
  split at h
  case h_9 => cases h
  all_goals simp

/-- The context is looked at first. -/
theorem exec_wrongContext {i : Instr} {s : State} (h : contextAllows s.port.ctx i = false) :
    exec i s = .refused .wrongContext :=
  exec_refused (by simp [refusal, h])

/-- Settles O36: neither context's table admits the operation. -/
theorem wrongContextIsRefused : Obligations.WrongContextIsRefused := by
  unfold Obligations.WrongContextIsRefused
  refine ⟨fun i s h => exec_wrongContext ?_, fun s r rest write off hi ha hd hc => ?_⟩
  · rcases h with ⟨hc, rfl | rfl⟩ | ⟨hc, hi⟩
    · rw [hc]
      rfl
    · rw [hc]
      rfl
    · rw [hc]
      exact Bool.eq_false_iff.2 fun hm => hi (mem_of_interruptMay hm)
  · rw [step_outOfRange hi ha hd]
    exact execOutOfRange_refused hc

end Sys2Proof.Proofs
end

section
/-!
The Descriptor-Table Builder (spec/42_descriptor_builder.md R200 to R216). The statements' terms for pairs are those of
the builder's one pass over them; a run of the builder then ends with that pass's table, or with its stop.
-/
namespace Sys2Proof.Proofs

open Sys2Proof Sys2Proof.Machine Sys2Proof.Statement

/-! ## The split of an interval -/

theorem crosses_iff (a c : Nat) : crosses a c = true ↔ 65536 < a % 65536 + c := decide_eq_true_iff

/-- Settles O46: the split follows the crossing test, and the test asks whether the last byte lies past the end of the
first one's block. -/
theorem anIntervalIsSplitExactlyWhereItCrosses : Obligations.AnIntervalIsSplitExactlyWhereItCrosses := by
  unfold Obligations.AnIntervalIsSplitExactlyWhereItCrosses
  intro a c o first
  refine ⟨fun hc => ?_, crosses_iff a c, fun h => if_pos ((crosses_iff a c).2 h), fun h => if_neg fun hx => ?_⟩
  · show 65536 < a % 65536 + c ↔ _
    omega
  · exact Nat.not_lt.2 h ((crosses_iff a c).1 hx)

/-! ## The pairs of the statements are those of the loop -/

theorem accepted_iff {i : Nat} {p : Pair} {n : Nat} : Accepted p n ↔ pairStop i p n = none := pairStop_none.symm

theorem clip_eq_zero_iff {p : Pair} {n : Nat} : clip p n = 0 ↔ p.len = 0 ∨ n = 0 := by
  unfold clip
  omega

/-- The checks of a pair stop it as the statements say, each where the ones before it pass (R203 to R207). -/
theorem pairStop_of_pairStops {i : Nat} {p : Pair} {n : Nat} {b : BuildStop} (h : PairStops i p n b) :
    pairStop i p n = some b := by
  unfold pairStop Config.maxPhysAddr Config.pairAlign Config.maxPairSpan Config.prdAddrLimit
  rcases h with ⟨hrange, rfl⟩ | ⟨hrange, halign, rfl⟩ | ⟨hrange, halign, hspan, rfl⟩ |
    ⟨hrange, halign, hspan, hempty, rfl⟩ | ⟨hrange, halign, hspan, hlen, hleft, hlimit, rfl⟩
  · rw [if_pos hrange]
  · rw [if_neg (by omega), if_pos (by omega)]
  · rw [if_neg (by omega), if_neg (by omega), if_pos hspan]
  · rw [if_neg (by omega), if_neg (by omega), if_neg (by omega), if_pos (clip_eq_zero_iff.2 hempty)]
  · rw [if_neg (by omega), if_neg (by omega), if_neg (by omega), if_neg (by rw [clip_eq_zero_iff]; omega),
      if_pos (show 2 ^ 32 < p.addr.toNat + clip p n from hlimit)]

/-- An emitted entry as the statements write it: address and length. -/
def entryPair (e : Entry) : Nat × Nat := (e.addr, e.len)

theorem map_entryPair_splitPair {a c : Nat} (h0 : 0 < c) (h1 : c ≤ 65536) :
    (splitPair a c).map entryPair =
      if a / 65536 = (a + c - 1) / 65536 then [(a, c)]
      else [(a, 65536 - a % 65536), (a + (65536 - a % 65536), c - (65536 - a % 65536))] := by
  rw [splitPair_eq h0 h1]
  split <;> rfl

theorem sub_clip (p : Pair) (n : Nat) : n - clip p n = n - p.len := by
  unfold clip
  omega

theorem total_cons (p : Pair) (ps : List Pair) : total (p :: ps) = p.len + total ps := by simp [total]

/-- Accepted pairs pass through the loop, which emits their entries and takes off the bytes they name. -/
theorem buildLoop_of_allAccepted {ps : List Pair} {n : Nat} (h : AllAccepted ps n) (i : Nat) :
    (buildLoop i ps n).1.map entryPair = entriesOf ps n ∧ (buildLoop i ps n).2 = .ok (n - total ps) := by
  induction ps generalizing n i with
  | nil => exact ⟨rfl, rfl⟩
  | cons p ps ih =>
    obtain ⟨hp, hps⟩ := h
    have hpass : pairStop i p n = none := accepted_iff.1 hp
    obtain ⟨-, -, -, hspan, hpos, -⟩ := hp
    rw [← sub_clip] at hps
    obtain ⟨hentries, hleft⟩ := ih hps (i + 1)
    rw [buildLoop_pass hpass]
    constructor
    · rw [List.map_append, hentries, map_entryPair_splitPair (c := clip p n) hpos (show min p.len n ≤ 65536 by omega)]
      rfl
    · rw [hleft, total_cons, sub_clip, Nat.sub_sub]

/-- The loop stops at the first pair that fails a check. -/
theorem buildLoop_stops {good rest : List Pair} {bad : Pair} {n i : Nat} {b : BuildStop} (h : AllAccepted good n)
    (hb : pairStop (i + good.length) bad (n - total good) = some b) :
    (buildLoop i (good ++ bad :: rest) n).2 = .error b := by
  induction good generalizing n i with
  | nil =>
    have hstop : pairStop i bad n = some b := hb
    rw [List.nil_append, buildLoop_stop hstop]
  | cons p good ih =>
    obtain ⟨hp, hgood⟩ := h
    rw [List.cons_append, buildLoop_pass (accepted_iff.1 hp), sub_clip]
    refine ih hgood ?_
    rwa [List.length_cons, ← Nat.add_assoc, Nat.add_right_comm, total_cons, ← Nat.sub_sub] at hb

/-! ## How the builder ends -/

/-- Pairs that are accepted and cover the request give the table of their entries, where the table register can hold its
address (R211, R212). -/
theorem buildEnd_of_covers {ps : List Pair} {n : Nat} {phys : PhysAddr} (h : Covers ps n)
    (hp : phys.toNat ≤ 0xFFFFFFFF) :
    ∃ es, buildEnd ps n phys = .ok es ∧ es.map entryPair = entriesOf ps n := by
  obtain ⟨-, haccepted, hcover⟩ := h
  obtain ⟨hentries, hleft⟩ := buildLoop_of_allAccepted haccepted 0
  refine ⟨_, ?_, hentries⟩
  rw [buildEnd, hleft, Nat.sub_eq_zero_of_le hcover]
  exact if_neg (Nat.not_lt.2 hp)

/-- A builder that has a table has run through its pairs, with nothing left to cover, and its address is in range. -/
theorem buildEnd_eq_ok {ps : List Pair} {n : Nat} {phys : PhysAddr} {es : List Entry}
    (h : buildEnd ps n phys = .ok es) :
    (buildLoop 0 ps n).2 = .ok 0 ∧ (buildLoop 0 ps n).1 = es ∧ phys.toNat ≤ 0xFFFFFFFF := by
  unfold buildEnd at h
  split at h
  · cases h
  · next left hleft =>
    split at h
    · cases h
    · next hzero =>
      split at h
      · cases h
      · next haddr =>
        injection h with h
        exact ⟨by rw [hleft, not_not.1 hzero], h, Nat.not_lt.1 haddr⟩

/-- The stops of the statements: an empty list, a failed allocation, and with a table allocated those of the builder's
end. -/
theorem stopsWith_cases {ps : List Pair} {n : Nat} {alloc : Option PhysAddr} {b : BuildStop}
    (h : StopsWith ps n alloc b) :
    (ps = [] ∧ b = .fault (.remainingNonzero n)) ∨ (ps ≠ [] ∧ alloc = none ∧ b = .status .allocationFailure) ∨
      ∃ phys, alloc = some phys ∧ ps ≠ [] ∧ buildEnd ps n phys = .error b := by
  rcases h with h | h | ⟨halloc, good, bad, rest, rfl, hgood, hbad⟩ | ⟨halloc, hps, haccepted, hshort, rfl⟩ |
    ⟨phys, halloc, ⟨hps, haccepted, hcover⟩, haddr, rfl⟩
  · exact .inl h
  · exact .inr (.inl h)
  · obtain ⟨phys, halloc⟩ := Option.ne_none_iff_exists'.1 halloc
    have hstop : pairStop (0 + good.length) bad (n - total good) = some b := by
      rw [Nat.zero_add]
      exact pairStop_of_pairStops hbad
    exact .inr (.inr ⟨phys, halloc, by simp, by rw [buildEnd, buildLoop_stops hgood hstop]⟩)
  · obtain ⟨phys, halloc⟩ := Option.ne_none_iff_exists'.1 halloc
    refine .inr (.inr ⟨phys, halloc, hps, ?_⟩)
    rw [buildEnd, (buildLoop_of_allAccepted haccepted 0).2]
    exact if_pos (Nat.sub_ne_zero_of_lt hshort)
  · refine .inr (.inr ⟨phys, halloc, hps, ?_⟩)
    rw [buildEnd, (buildLoop_of_allAccepted haccepted 0).2, Nat.sub_eq_zero_of_le hcover]
    exact if_pos haddr

/-! ## The table in memory -/

/-- Memory after the loop's stores and the mark of a table at `t` (R210, R211). -/
def tableMem (m : Memory) (t : Nat) (es : List Entry) : Memory := markLast (storeEntries m t es) t es.length

/-- The stored table reads as the statements say, as every address fits its field (R95, R96). -/
theorem tableAt_tableMem (m : Memory) (t : Nat) {es : List Entry} (h : ∀ e ∈ es, e.addr < 2 ^ 32) :
    TableAt (tableMem m t es) t (es.map entryPair) := by
  intro j e he
  rw [List.getElem?_map, Option.map_eq_some_iff] at he
  obtain ⟨d, hd, rfl⟩ := he
  have hread := readLE_table m t es j d hd
  rw [Nat.mod_eq_of_lt (h d (List.mem_of_getElem? hd))] at hread
  rwa [List.length_map]

theorem read_tableMem_other (m : Memory) (t : Nat) {es : List Entry} (h0 : 0 < es.length) {x : Nat}
    (hx : x < t ∨ t + 8 * es.length ≤ x) : Memory.read (tableMem m t es) x = Memory.read m x := by
  rw [tableMem, read_markLast_other _ _ _ (by omega), read_storeEntries_other _ _ _ hx]

/-- Every entry of a loop that runs to its end has an address of 32 bits. -/
theorem addr_lt_of_good {e : Entry} (h : e.Good) : e.addr < 2 ^ 32 := by
  have hlow := h.low
  have hpos := h.pos
  omega

/-! ## The allocation -/

theorem allocBytes_eq (ps : List Pair) : 2 * ps.length * Config.prdEntryBytes = 16 * ps.length := by
  rw [Config.prdEntryBytes]
  omega

/-- What the answer to `Alloc` leaves where it is listed (R201). -/
theorem tookAllocation_of_listed {s : State} {a : Option PhysAddr} {rest : List (Option PhysAddr)}
    (h : s.env.allocations = a :: rest) :
    s.nextAllocation = a ∧ s.tookAllocation = { s with env := { s.env with allocations := rest } } := by
  simp [State.nextAllocation, State.tookAllocation, h]

/-- The state once the table is allocated: one allocation and one call more, its bytes without a stated value (R201). -/
theorem tableAllocated_eq {s : State} {phys : PhysAddr} {rest : List (Option PhysAddr)} (ps : List Pair)
    (h : s.env.allocations = some phys :: rest) :
    tableAllocated ps phys s =
      { s with
        env := { s.env with allocations := rest }
        allocs := s.allocs ++
          [{ handle := s.nextHandle, phys := phys, bytes := 16 * ps.length, align := Config.prdtAllocAlign }]
        nextHandle := s.nextHandle + 1
        mem := s.mem.forget phys.toNat (16 * ps.length)
        calls := s.calls ++ [.alloc (16 * ps.length) Config.prdtAllocAlign] } := by
  rw [tableAllocated, allocBytes_eq, (tookAllocation_of_listed h).2]
  rfl

theorem read_forget_other (m : Memory) {a n x : Nat} (h : x < a ∨ a + n ≤ x) :
    Memory.read (m.forget a n) x = Memory.read m x := by
  rw [Memory.read_forget, if_neg (by omega)]

theorem read_tableAllocated_other (ps : List Pair) (phys : PhysAddr) (s : State) {x : Nat}
    (h : x < phys.toNat ∨ phys.toNat + 16 * ps.length ≤ x) :
    Memory.read (tableAllocated ps phys s).mem x = Memory.read s.mem x := by
  rw [tableAllocated, allocBytes_eq]
  simp only [allocate, State.called_mem, State.tookAllocation_mem]
  exact read_forget_other _ h

/-! ## A table that is complete -/

/-- The state once the table of the pairs `ps` stands at `phys` with the entries `es`. -/
def tableBuilt (ps : List Pair) (phys : PhysAddr) (es : List Entry) (s : State) : State :=
  { tableAllocated ps phys s with mem := tableMem (tableAllocated ps phys s).mem phys.toNat es }

theorem tableAt_tableBuilt {ps : List Pair} {n : Nat} {phys : PhysAddr} {es : List Entry}
    (h : buildEnd ps n phys = .ok es) (s : State) :
    TableAt (tableBuilt ps phys es s).mem phys.toNat (es.map entryPair) := by
  obtain ⟨hleft, rfl, -⟩ := buildEnd_eq_ok h
  obtain ⟨hgood, -⟩ := buildLoop_ok hleft
  exact tableAt_tableMem _ _ fun e he => addr_lt_of_good (hgood e he).1

/-- The table lies within its allocation: N to 2N entries of 8 bytes in 16 x N (R209, R214). -/
theorem keepsOutside_tableBuilt {ps : List Pair} {n : Nat} {phys : PhysAddr} {es : List Entry}
    (h : buildEnd ps n phys = .ok es) (hps : ps ≠ []) (s : State) :
    KeepsOutside s (tableBuilt ps phys es s) phys.toNat (16 * ps.length) := by
  obtain ⟨hleft, rfl, -⟩ := buildEnd_eq_ok h
  obtain ⟨-, -, hmin, -⟩ := buildLoop_ok hleft
  have hmax := buildLoop_length 0 ps n
  have hpos := List.length_pos_iff.2 hps
  constructor
  · intro x hx
    rw [tableBuilt, read_tableMem_other _ _ (by omega) (by omega), read_tableAllocated_other _ _ _ hx]
  · intro x
    simp [tableBuilt, tableAllocated]

/-! ## A run that stops -/

/-- What a builder that stops leaves of the state: it has taken its answer and made its calls, has no allocation left,
and no byte outside the table's has changed (R213). The next handle's number is left open. -/
def Stopped (s t : State) (ps : List Pair) (alloc : Option PhysAddr) (rest : List (Option PhysAddr)) : Prop :=
  t = { s with
    env := { s.env with allocations := if ps = [] then s.env.allocations else rest }
    mem := t.mem
    nextHandle := t.nextHandle
    calls := s.calls ++ stopCalls s ps alloc } ∧
  KeepsOutsideTable s t ps alloc

section stops

variable {f : Frame} {n : Nat} {prog : List Micro} {s : State} {rest : List (Option PhysAddr)} {b : BuildStop}

/-- An empty list is a fault before anything is allocated (R201). -/
theorem runFrame_build_empty (hps : f.pairs = []) (alloc : Option PhysAddr) :
    runFrame 1 (f.setProg (.buildAlloc n :: prog)) s = (.raised (.remainingNonzero n), s) ∧
      Stopped s s f.pairs alloc rest := by
  refine ⟨?_, ?_, fun _ _ => rfl⟩
  · refine runFrame_raised ?_
    simp [frameStep, Frame.setProg, microStep, hps]
  · simp [hps, stopCalls]

/-- A failed allocation has nothing to give back (R201, R213). -/
theorem runFrame_build_unallocated (hps : f.pairs ≠ []) (ha : s.nextAllocation = none) :
    runFrame 1 (f.setProg (.buildAlloc n :: prog)) s =
      (.returned (.status .allocationFailure),
        s.tookAllocation.called (.alloc (16 * f.pairs.length) Config.prdtAllocAlign)) := by
  refine runFrame_returned ?_
  rw [← allocBytes_eq]
  simp [frameStep, Frame.setProg, microStep, hps, ha]

/-- The allocation of the table is the newest, so giving it back leaves the allocations there were (R213). -/
theorem stopped_of_release {ps : List Pair} {phys : PhysAddr} {mem : Memory} (hs : HandlesGivenOut s) (hps : ps ≠ [])
    (ha : s.env.allocations = some phys :: rest)
    (hmem : ∀ x, x < phys.toNat ∨ phys.toNat + 16 * ps.length ≤ x →
      mem.read x = (tableAllocated ps phys s).mem.read x) :
    Stopped s (release s.nextHandle { tableAllocated ps phys s with mem := mem }) ps (some phys) rest := by
  have hfresh : ∀ y ∈ s.allocs, y.handle ≠ s.nextHandle := fun y hy => Nat.ne_of_lt (hs y hy)
  have hallocs := congrArg State.allocs (tableAllocated_eq ps ha)
  rw [release_newest (s := { tableAllocated ps phys s with mem := mem })
    (x := { handle := s.nextHandle, phys := phys, bytes := 16 * ps.length, align := Config.prdtAllocAlign })
    hallocs hfresh]
  constructor
  · rw [tableAllocated_eq ps ha]
    simp [stopCalls, hps]
  · intro x hx
    have hout := hx phys rfl hps
    show Memory.read (mem.forget phys.toNat (16 * ps.length)) x = _
    rw [read_forget_other _ hout, hmem x hout, read_tableAllocated_other _ _ _ hout]

/-- Every run of the builder that stops, in whatever sequence it stands. -/
theorem runFrame_build_stops {alloc : Option PhysAddr} (hs : HandlesGivenOut s) (ha : s.env.allocations = alloc :: rest)
    (hb : StopsWith f.pairs n alloc b) :
    ∃ k ≤ 7 * f.pairs.length + 6, ∃ t, runFrame k (f.setProg (.buildAlloc n :: prog)) s = (b.ends, t) ∧
      Stopped s t f.pairs alloc rest := by
  rcases stopsWith_cases hb with ⟨hps, rfl⟩ | ⟨hps, rfl, rfl⟩ | ⟨phys, rfl, hps, hend⟩
  · exact ⟨1, by omega, s, runFrame_build_empty hps alloc⟩
  · obtain ⟨hnext, htook⟩ := tookAllocation_of_listed ha
    refine ⟨1, by omega, _, runFrame_build_unallocated hps hnext, ?_, fun _ _ => ?_⟩
    · rw [htook]
      simp [State.called, stopCalls, hps]
    · simp
  · have hrun := runFrame_build f n prog s phys hps (tookAllocation_of_listed ha).1
    rw [hend] at hrun
    obtain ⟨k, hk, mem, hmem, hrun⟩ := hrun
    exact ⟨k, hk, _, hrun 0, stopped_of_release hs hps ha hmem⟩

end stops

/-- The state after the end of a thread's sequence that the builder has stopped (R200, R323). -/
def endedBy (h : Handle) (i : Instr) (u : State) : BuildStop → State
  | .status st => handBack h i (.status st) u
  | .fault k => raise h .thread k u

/-- A thread's request whose sequence the builder stops within its slice. -/
theorem issue_stops {s u : State} {i : Instr} {prog : List Micro} {m : Nat} {b : BuildStop} (ha : Accepts s i)
    (hctx : s.port.ctx = .thread) (hm : m ≤ s.port.slice)
    (h : runFrame m (startFrame i prog s.port) s = (b.ends, u)) :
    issue i prog s = .next (endedBy s.port.ops.dev i u b) := by
  cases b with
  | status st => exact issue_returns ha hm h
  | fault k =>
    rw [issue_raises ha hm h, hctx]
    rfl

/-! ## BUILD_PRDT -/

theorem accepts_buildPrdt {s : State} (hc : s.port.ctx = .thread) : Accepts s .buildPrdt := by
  constructor
  · simp [refusal, contextAllows, hc, threadMay, phaseAllows]
  · simp [endedAgent, hc]

/-- The frame of BUILD_PRDT. -/
def buildFrame (s : State) : Frame := startFrame .buildPrdt (buildSteps s.port.ops.totalBytes ++ [.ret .table]) s.port

/-- Its steps stand ahead of it. -/
theorem buildFrame_eq (s : State) :
    (buildFrame s).setProg (.buildAlloc s.port.ops.totalBytes :: [.ret .table]) = buildFrame s := rfl

/-- A run of BUILD_PRDT whose end is a table. -/
theorem runFrame_buildFrame {s : State} {phys : PhysAddr} {es : List Entry} (hps : s.port.ops.pairs ≠ [])
    (ha : s.nextAllocation = some phys) (hend : buildEnd s.port.ops.pairs s.port.ops.totalBytes phys = .ok es) :
    runFrame (7 * s.port.ops.pairs.length + 5) (buildFrame s) s =
      (.returned (.table { handle := s.nextHandle, phys := phys, entries := es.length }),
        tableBuilt s.port.ops.pairs phys es s) := by
  have hrun := runFrame_build (buildFrame s) s.port.ops.totalBytes [.ret .table] s phys hps ha
  have hend' : buildEnd (buildFrame s).pairs s.port.ops.totalBytes phys = .ok es := hend
  rw [hend'] at hrun
  obtain ⟨k, hk, hrun⟩ := hrun
  rw [buildFrame_eq] at hrun
  exact runFrame_returned_of_le (hrun 1) (Nat.succ_le_succ hk)

/-- Settles O49: the run stops, and the end of the sequence records the status or the fault. -/
theorem buildStopsWithoutATable : Obligations.BuildStopsWithoutATable := by
  unfold Obligations.BuildStopsWithoutATable
  intro s alloc rest b ps hctx hslice hs ha hb
  obtain ⟨k, hk, u, hrun, hu, hkeep⟩ :=
    runFrame_build_stops (f := buildFrame s) (prog := [.ret .table]) (n := s.port.ops.totalBytes) hs ha hb
  rw [buildFrame_eq] at hrun
  have hk' : k ≤ s.port.slice := Nat.le_trans hk (Nat.le_trans (Nat.add_le_add_left (by decide) _) hslice)
  refine ⟨_, issue_stops (accepts_buildPrdt hctx) hctx hk' hrun, ?_⟩
  rw [hu]
  cases b <;>
    exact ⟨⟨rfl, rfl⟩, rfl, hkeep, fun _ => rfl, rfl, rfl, rfl, rfl, rfl, rfl, rfl, rfl, rfl, rfl, rfl, rfl, rfl⟩

/-- Settles O47: the run ends with the table of the pairs' entries. -/
theorem buildReturnsTheTable : Obligations.BuildReturnsTheTable := by
  unfold Obligations.BuildReturnsTheTable
  intro s phys rest hctx hslice hcovers ha haddr es
  have hps : s.port.ops.pairs ≠ [] := hcovers.1
  obtain ⟨l, hend, hl⟩ := buildEnd_of_covers hcovers haddr
  have hrun := runFrame_buildFrame hps (tookAllocation_of_listed ha).1 hend
  have hes : es = l.map entryPair := hl.symm
  have htable := tableAt_tableBuilt hend s
  rw [← hes] at htable
  refine ⟨_, issue_returns (accepts_buildPrdt hctx) (Nat.le_trans (Nat.add_le_add_left (by decide) _) hslice) hrun, ?_,
    htable, keepsOutside_tableBuilt hend hps s, ?_⟩
  · rw [hes, List.length_map]
    simp [Returns, tableBuilt, tableAllocated]
  · rw [tableBuilt, tableAllocated_eq _ ha]
    exact ⟨rfl, rfl, rfl, rfl, ⟨rfl, rfl, rfl, rfl, rfl, rfl, rfl, rfl⟩, rfl, rfl⟩

/-! ## What a returned table tells -/

/-- A request that hands back a result has returned it in its turn. -/
theorem run_of_returns {s t : State} {i : Instr} {prog : List Micro} {r : Result} (h : issue i prog s = .next t)
    (hr : Returns s t i r) :
    ∃ u, runFrame s.port.slice (startFrame i prog s.port) s = (.returned r, u) ∧ t = handBack s.port.ops.dev i r u := by
  obtain ⟨-, -, rfl⟩ := issue_next h
  obtain ⟨hsame, -⟩ := runFrame_sameAgents s.port.slice (startFrame i prog s.port) s
  unfold Returns runRequest at hr
  unfold runRequest
  generalize runFrame s.port.slice (startFrame i prog s.port) s = q at *
  obtain ⟨p, u⟩ := q
  cases p with
  | running g =>
    rw [settle_running, suspend_returns, hsame] at hr
    simp at hr
  | raised k =>
    rw [settle_raised, raise_returns, hsame] at hr
    simp at hr
  | returned x =>
    rw [settle_returned, handBack_returns, hsame] at hr
    obtain ⟨-, -, rfl⟩ : _ ∧ _ ∧ x = r := by simpa using hr
    exact ⟨u, rfl, rfl⟩

/-- A run with this progress goes no further. -/
def Ended (p : Progress) : Prop := ∀ g, p ≠ .running g

theorem ended_returned (r : Result) : Ended (.returned r) := fun _ h => by cases h

theorem ended_raised (k : Fault) : Ended (.raised k) := fun _ h => by cases h

theorem ended_ends (b : BuildStop) : Ended b.ends := by
  cases b
  · exact ended_returned _
  · exact ended_raised _

theorem runFrame_add_of_ended {m : Nat} {f : Frame} {s t : State} {p : Progress} (h : runFrame m f s = (p, t))
    (hp : Ended p) (n : Nat) : runFrame (m + n) f s = (p, t) := by
  rw [runFrame_add, h]
  cases p with
  | running g => exact absurd rfl (hp g)
  | returned r => rfl
  | raised k => rfl

/-- Two runs of a frame that have both ended have ended alike. -/
theorem runFrame_ended_unique {m n : Nat} {f : Frame} {s t u : State} {p q : Progress}
    (hp : runFrame m f s = (p, t)) (hq : runFrame n f s = (q, u)) (hpe : Ended p) (hqe : Ended q) : p = q ∧ t = u := by
  have hsum := runFrame_add_of_ended hp hpe n
  rw [Nat.add_comm, runFrame_add_of_ended hq hqe m] at hsum
  exact (Prod.mk.inj hsum).imp Eq.symm Eq.symm

theorem ends_ne_table (b : BuildStop) (tb : PrdTable) : b.ends ≠ .returned (.table tb) := by
  cases b <;> nofun

/-- BUILD_PRDT returns a table only of pairs that it has run through, at the address `Alloc` gave. -/
theorem buildFrame_returned {s u : State} {n : Nat} {tb : PrdTable}
    (h : runFrame n (buildFrame s) s = (.returned (.table tb), u)) :
    ∃ phys es, buildEnd s.port.ops.pairs s.port.ops.totalBytes phys = .ok es ∧
      tb = { handle := s.nextHandle, phys := phys, entries := es.length } ∧
      u = tableBuilt s.port.ops.pairs phys es s := by
  have hend : ∀ {m : Nat} {p : Progress} {t : State}, runFrame m (buildFrame s) s = (p, t) → Ended p →
      p = .returned (.table tb) ∧ t = u := fun hp hpe => runFrame_ended_unique hp h hpe (ended_returned _)
  by_cases hps : s.port.ops.pairs = []
  · have hempty := runFrame_build_empty (f := buildFrame s) (n := s.port.ops.totalBytes) (prog := [.ret .table])
      (s := s) (rest := []) hps none
    cases (hend hempty.1 (ended_raised _)).1
  cases ha : s.nextAllocation with
  | none =>
    have hnone := runFrame_build_unallocated (f := buildFrame s) (n := s.port.ops.totalBytes) (prog := [.ret .table])
      hps ha
    cases (hend hnone (ended_returned _)).1
  | some phys =>
    cases hb : buildEnd s.port.ops.pairs s.port.ops.totalBytes phys with
    | ok es =>
      obtain ⟨htable, rfl⟩ := hend (runFrame_buildFrame hps ha hb) (ended_returned _)
      injection htable with htable
      injection htable with htable
      exact ⟨phys, es, hb, htable.symm, rfl⟩
    | error b =>
      have hrun := runFrame_build (buildFrame s) s.port.ops.totalBytes [.ret .table] s phys hps ha
      have hb' : buildEnd (buildFrame s).pairs s.port.ops.totalBytes phys = .error b := hb
      rw [hb'] at hrun
      obtain ⟨k, -, mem, -, hrun⟩ := hrun
      exact absurd (hend (hrun 0) (ended_ends b)).1 (ends_ne_table b tb)

theorem sum_map_entryPair (es : List Entry) : ((es.map entryPair).map (·.2)).sum = entryBytes es := by
  rw [List.map_map]
  rfl

/-- Settles O48: a table is returned only where the loop has run to its end with nothing left, and then its entries are
good. -/
theorem everyReturnedTableIsWellFormed : Obligations.EveryReturnedTableIsWellFormed := by
  unfold Obligations.EveryReturnedTableIsWellFormed
  intro s t tb hexec hret n
  obtain ⟨u, hrun, rfl⟩ := run_of_returns hexec hret
  obtain ⟨phys, es, hend, rfl, rfl⟩ := buildFrame_returned hrun
  have htable := tableAt_tableBuilt hend s
  obtain ⟨hleft, rfl, haddr⟩ := buildEnd_eq_ok hend
  obtain ⟨hgood, hbytes, hmin, heven⟩ := buildLoop_ok hleft
  refine ⟨_, List.length_map entryPair, htable, ?_, ?_, ?_, ?_, haddr⟩
  · rw [sum_map_entryPair]
    exact hbytes
  · rw [List.forall_mem_map]
    intro e he
    obtain ⟨⟨hblock, haligned, hlow, hpos⟩, hlen⟩ := hgood e he
    exact ⟨hblock, haligned, hlow, hpos, hlen, fun hn => heven hn e he⟩
  · rw [List.length_map]
    exact hmin
  · rw [List.length_map]
    exact buildLoop_length _ _ _

end Sys2Proof.Proofs
end

section
/-!
The Transfer State Machine (spec/43_transfer_state_machine.md R230, R231, R234): the submitter's store of InProgress, and
the arcs of `ct.state` in every step. A turn moves the state of its own device alone: along a submitter's or a bring-up's
arc where a thread runs, along the handler's where an activation runs.
-/
namespace Sys2Proof.Proofs

open Sys2Proof Sys2Proof.Machine Sys2Proof.Statement

/-! ## The submitter's store -/

/-- Settles O22: the one step of the sequence stores the state, and does not test the old one. -/
theorem submitStoresInProgress : Obligations.SubmitStoresInProgress := by
  unfold Obligations.SubmitStoresInProgress
  intro s hs
  have ha : Accepts s .tsmSubmit := accepts_of_ready hs rfl rfl
  have hstore : ∀ f : Frame, f.ops = s.port.ops →
      microStep .submit f s = (.running f, storeTsm s.port.ops.dev .inProgress s) := by
    intro f hf
    rw [← hf]
    rfl
  exact ⟨_, issue_done ha (slice_of_ready hs) hstore, rfl, storeTsm_setsDevice s .inProgress _ _, rfl, rfl,
    ⟨fun _ => rfl, fun _ => rfl⟩, ⟨rfl, rfl, rfl, rfl, rfl, rfl, rfl, rfl, rfl, rfl, rfl, rfl⟩, rfl⟩

/-! ## The operations that move the state -/

/-- The submitter's operations (R25, R235), by name. -/
theorem submits_iff (i : Instr) :
    Safety.submits i = true ↔ i = .tsmSubmit ∨ i = .tsmConsume ∨ ∃ w, i = .transferSectors true w := by
  cases i <;> simp [Safety.submits]

/-- The handler's operations (R232, R235), by name. -/
theorem completes_iff (i : Instr) : Safety.completes i = true ↔ i = .tsmComplete ∨ i = .irqHandler := by
  cases i <;> simp [Safety.completes]

theorem isBringUp_iff (i : Instr) : Safety.isBringUp i = true ↔ ∃ a b, i = .initDevice a b := by
  cases i <;> simp [Safety.isBringUp]

/-! ## What a turn does to `ct` -/

section running

variable {s s0 : State} {tid : Option Nat} {f : Frame}

/-- A turn that runs a sequence leaves `ct` of every device but its own. -/
theorem running_ct_other (h : Running s s0 tid f) (n : Nat) {k : Handle} (hk : k ≠ f.ops.dev) :
    ((settle tid f (runFrame n f s0)).dev k).ct = (s.dev k).ct := by
  obtain ⟨hct, -⟩ := settle_dev tid f (runFrame n f s0).1 (runFrame n f s0).2 k
  exact hct.trans (congrArg Device.ct ((runFrame_othersKept n f s0 k hk).trans (running_dev h k)))

/-- A thread's turn moves the state of its device along the arcs of its operation: what is established of `ct` rules the
other moves of cleanup out (R230, R233). -/
theorem running_threadArc (h : Running s s0 tid f) (hq : Started s f ∧ tid = none ∨ Resumed s tid f)
    (hs : Safety.TransferInv s) (hc : f.ctx = .thread) (n : Nat) :
    ThreadArc f.op (s.dev f.ops.dev).ct ((settle tid f (runFrame n f s0)).dev f.ops.dev).ct
      ((settle tid f (runFrame n f s0)).dev f.ops.dev).phase := by
  obtain ⟨hknown, -⟩ := (knows_iff _ _).1 (running_knows hq hs hc)
  obtain ⟨⟨-, -, hd⟩, -⟩ := hs
  obtain ⟨hthread, -, hown, -⟩ := h.disciplined hd
  have hrun := runFrame_transfer n f s0 hown (hthread hc) (by rwa [running_dev h])
  obtain ⟨hct, hphase⟩ := settle_dev tid f (runFrame n f s0).1 (runFrame n f s0).2 f.ops.dev
  rw [hct, hphase, ← running_dev h]
  exact hrun.arc

/-- An activation's turn moves the state of its device along the handler's arc alone (R230, R232). -/
theorem running_handlerArc (h : Running s s0 tid f) (hd : Safety.disciplined s) (hc : f.ctx = .interrupt) (n : Nat) :
    HandlerArc f.op (s.dev f.ops.dev).ct ((settle tid f (runFrame n f s0)).dev f.ops.dev).ct := by
  obtain ⟨-, hinterrupt, hown, -⟩ := h.disciplined hd
  obtain ⟨hct, -⟩ := settle_dev tid f (runFrame n f s0).1 (runFrame n f s0).2 f.ops.dev
  obtain ⟨harc, -⟩ := runFrame_handler n f s0 hown (hinterrupt hc)
  rw [hct, ← running_dev h]
  exact harc

end running

/-! ## The arcs, in every step -/

/-- Settles O42: only a turn that runs a sequence writes a record, and the context of the sequence says along which
arcs. -/
theorem transferStateMovesAlongItsArcs : Obligations.TransferStateMovesAlongItsArcs := by
  unfold Obligations.TransferStateMovesAlongItsArcs
  intro s t hs h k hk
  rcases step_cases h with ⟨-, rfl⟩ | ⟨s0, tid, f, n, hr, hq, rfl⟩ | ⟨r, rest, x, -, -, rfl⟩ | ⟨he, -⟩
  · exact absurd rfl hk
  · have hown : k = f.ops.dev := by
      by_contra hne
      exact hk (congrArg CurrentTransfer.state (running_ct_other hr n hne))
    subst hown
    refine ⟨f.op, f.ctx, hr.works, ?_⟩
    cases hc : f.ctx with
    | thread =>
      rcases running_threadArc hr hq hs hc n with same | ⟨hsub, harc⟩ | ⟨hbring, harc⟩
      · exact absurd same hk
      · exact .inl ⟨rfl, (submits_iff _).1 hsub, harc⟩
      · exact .inr (.inr ⟨rfl, (isBringUp_iff _).1 hbring, harc⟩)
    | interrupt =>
      obtain ⟨⟨-, -, hd⟩, -⟩ := hs
      obtain ⟨-, same | ⟨hcomp, hfrom, hto⟩⟩ := running_handlerArc hr hd hc n
      · exact absurd same hk
      · exact .inr (.inl ⟨rfl, (completes_iff _).1 hcomp, hfrom, hto⟩)
  · exact absurd rfl hk
  · rw [he] at hk
    exact absurd rfl hk

end Sys2Proof.Proofs
end

section
/-!
A bring-up that ends after identification (spec/44_bringup.md R258, R262, R264): the run through the identification data,
and the two checks behind it that can fail.
-/
namespace Sys2Proof.Proofs

open Sys2Proof Sys2Proof.Machine Sys2Proof.Statement

/-! ## The run through the identification data -/

/-- The steps of bring-up after the identification data has been read (R258 to R263). -/
def checkSteps (secondary : Bool) : List Micro :=
  [.check48, .recordSectors, .openTransfer, .registerIrq secondary,
    .out .w8 ⟨.busMaster, 0⟩ ((0x00#8 : Byte).setWidth 32), .initSucceed]

/-- From the byte that ends the poll through the 256 words (R256, R257). -/
theorem runFrame_identifyWords {f : Frame} {secondary : Bool} {u : State} {last : Dword}
    {ws : List (Dword × Dword × Dword)} {rest : List Dword} (hf : f.prog = .identPoll :: identifySteps secondary)
    (hacc : f.acc = (last.setWidth 8 : Byte).setWidth 32) (hid : Identifies last ws)
    (hp : (u.cmdBlock (u.dev f.ops.dev).dr.base).current.absent = false)
    (ha : u.env.answers = ws.flatMap pioReadAnswers ++ rest) :
    ∃ a, ∀ n, runFrame (1026 + n) f u =
      runFrame n (((f.addId (identWords ws)).setAcc a).setProg (checkSteps secondary))
        (u.readsAs (ws.flatMap (pioReadEvents u f.ops.dev)) rest) := by
  obtain ⟨herr, hbusy, hdrq, hlen, hwords⟩ := hid
  have hpoll := frameStep_identPoll_ready u hf (by simpa [hacc] using herr) (by simpa [hacc] using hbusy)
    (by simpa [hacc] using hdrq)
  obtain ⟨a, hrun⟩ := runFrame_pio_identify ws rest 0 (f.setProg (identifySteps secondary)) rfl (by rw [hlen]) u
    (fun _ => hp) ha hwords
  refine ⟨a, fun n => ?_⟩
  rw [show 1026 + n = 4 * ws.length + 1 + n + 1 by omega, runFrame_running hpoll, hrun n]
  rfl

/-- A byte with DRQ set is not 0x00. -/
theorem setWidth_ne_zero_of_drq {v : Dword} (h : v.getLsbD 3 = true) : (v.setWidth 8 : Byte) ≠ 0#8 := by
  intro h0
  have h3 : (v.setWidth 8 : Byte).getLsbD 3 = false := congrArg (fun b : Byte => b.getLsbD 3) h0
  exact absurd h (by simpa using h3)

/-- A bring-up of a device that is there, up to the end of its identification data: what it has made of the registers,
and the frame that has the checks ahead. -/
theorem runFrame_bringUp_identified {s : State} {secondary slave : Bool} {early : List Dword} {last : Dword}
    {ws : List (Dword × Dword × Dword)} {rest : List Dword}
    (hpresent : ((s.cmdBlock (resolved s secondary slave).base).position slave).absent = false)
    (hans : s.env.answers = early ++ last :: (ws.flatMap pioReadAnswers ++ rest)) (hpoll : KeepsPolling early)
    (hid : Identifies last ws) :
    let d := resolved s secondary slave
    let f := startFrame (.initDevice secondary slave) (bringUpSteps secondary slave) s.port
    ∃ u g, (∀ n, runFrame (early.length + 1033 + n) f s = runFrame n g u) ∧
      View s.port.ops.dev s u { starting s secondary slave with dr := { d with nien := true } } (identified s d)
        0x02#8 rest (identifyEvents d early last ws) ∧
      g.prog = checkSteps secondary ∧ g.idbuf = identWords ws ∧ g.ops = s.port.ops := by
  intro d f
  obtain ⟨u, v, hpolled, -⟩ := runFrame_bringUp_polled (secondary := secondary) (slave := slave) hans
  have hseen : bringUpSeen s d = fun a => a.setWidth 8 := funext fun a =>
    if_neg (by rw [show d.slave = slave from rfl, hpresent]; exact Bool.false_ne_true)
  have hcurrent : (u.cmdBlock (u.dev s.port.ops.dev).dr.base).current.absent = false := by
    rw [v.dev, v.cmd, identified_current]
    exact hpresent
  have hword : pioReadEvents u s.port.ops.dev = fun w => [pollRead d (w.1.setWidth 8), pollRead d (w.2.1.setWidth 8),
      .read .w16 d.base ((w.2.2.setWidth 16 : Word).setWidth 32)] := by
    funext w
    rw [pioReadEvents, statusEvent, statusEvent, v.dev]
    rfl
  have hevents : bringUpEvents d ++ (early ++ [last]).map (fun v => pollRead d (bringUpSeen s d v)) ++
      ws.flatMap (pioReadEvents u s.port.ops.dev) = identifyEvents d early last ws := by
    rw [hword, hseen]
    rfl
  have hfirst : early = [] → bringUpSeen s d last ≠ 0#8 := by
    rw [hseen]
    obtain ⟨-, -, hdrq, -⟩ := hid
    exact fun _ => setWidth_ne_zero_of_drq hdrq
  obtain ⟨a, hwords⟩ := runFrame_identifyWords (last := last)
    (f := (f.setAcc ((bringUpSeen s d last).setWidth 32)).setProg (.identPoll :: identifySteps secondary)) rfl
    (by rw [hseen]; rfl) hid hcurrent v.answers
  have hsteps : ∀ n, early.length + 1033 + n = early.length + 7 + (1026 + n) := fun n => by omega
  have hstart := hpolled (hseen ▸ staysPolling_of_keepsPolling hpoll) hfirst
  have hview := view_readsAs v (ws.flatMap (pioReadEvents u s.port.ops.dev)) rest
  rw [hevents] at hview
  exact ⟨_, _, fun n => hsteps n ▸ (hstart _).trans (hwords n), hview, rfl, List.nil_append _, rfl⟩

/-! ## The checks that fail -/

/-- The state after calls that have left `rs` of the registrations' answers. -/
def afterCalls (s : State) (cs : List Call) (rs : List Bool) : State :=
  { s with env := { s.env with registrations := rs }, calls := s.calls ++ cs }

theorem afterCalls_nil (s : State) : afterCalls s [] s.env.registrations = s := by
  simp [afterCalls]

theorem called_tookRegistration {s : State} {b : Bool} {rs : List Bool} (h : s.env.registrations = b :: rs) (c : Call) :
    s.tookRegistration.called c = afterCalls s [c] rs := by
  simp [State.tookRegistration, State.called, afterCalls, h]

/-- A bring-up that fails retains nothing of what it has recorded of the device (R58, R264). -/
theorem failBringUp_setDev {h : Handle} {s : State} {d : Device} (hreg : d.registered = (s.dev h).registered)
    (hfault : d.handlerFault = (s.dev h).handlerFault) : failBringUp h (s.setDev h d) = failBringUp h s := by
  have hsame : unspecifiedDevice s.env.drawn d = unspecifiedDevice s.env.drawn (s.dev h) := by
    rw [unspecifiedDevice, unspecifiedDevice, hreg, hfault]
  rw [failBringUp, State.dev_setDev_self, show (s.setDev h d).env = s.env from rfl, hsame]
  simp [failBringUp, State.setDev]

theorem failBringUp_setDr (h : Handle) (s : State) (r : DeviceRegs) : failBringUp h (s.setDr h r) = failBringUp h s :=
  failBringUp_setDev rfl rfl

theorem failBringUp_setCt (h : Handle) (s : State) (c : CurrentTransfer) :
    failBringUp h (s.setCt h c) = failBringUp h s :=
  failBringUp_setDev rfl rfl

/-- The check of the 48-bit capability fails (R258). -/
theorem frameStep_check48_unsupported {f : Frame} {ps : List Micro} (s : State) (hf : f.prog = .check48 :: ps)
    (hcap : supports48 f.idbuf = false) :
    frameStep f s = (.returned (.status .deviceNotSupported), failBringUp f.ops.dev s) := by
  simp [frameStep, hf, microStep, hcap, bringUpFails]

/-- The state in which the handler is to be registered: the sector count and the transfer have been recorded (R259 to
R261). -/
def recorded (h : Handle) (id : List Word) (u : State) : State :=
  (u.setDr h { (u.dev h).dr with totalSectors := identSectors id }).setCt h
    { state := .free, event := false, prdt := none }

theorem failBringUp_recorded (h : Handle) (id : List Word) (u : State) (cs : List Call) (rs : List Bool) :
    failBringUp h (afterCalls (recorded h id u) cs rs) = failBringUp h (afterCalls u cs rs) :=
  (failBringUp_setCt h (afterCalls (u.setDr h _) cs rs) _).trans (failBringUp_setDr h (afterCalls u cs rs) _)

/-- The registration fails (R262). -/
theorem runFrame_unregistered {f : Frame} {secondary : Bool} {u : State} {rs : List Bool}
    (hf : f.prog = checkSteps secondary) (hcap : supports48 f.idbuf = true) (hreg : u.env.registrations = false :: rs) :
    runFrame 4 f u = (.returned (.status .interruptRegistrationFailed), failBringUp f.ops.dev
      (afterCalls u [.registerInterrupt (irqLine f.ops.pci secondary) f.ops.dev] rs)) := by
  have hasked : (recorded f.ops.dev f.idbuf u).env.registrations = false :: rs := hreg
  rw [← failBringUp_recorded f.ops.dev f.idbuf, ← called_tookRegistration hasked,
    ← failBringUp_setDr _ _
      { ((recorded f.ops.dev f.idbuf u).dev f.ops.dev).dr with irq := irqLine f.ops.pci secondary }]
  simp [runFrame, frameStep, hf, checkSteps, microStep, hcap, State.nextRegistration, hreg, bringUpFails, recorded]

/-- Which of the two checks fails, the capability tells. -/
theorem runFrame_checksFail {f : Frame} {secondary cap : Bool} {u : State} {rs : List Bool}
    (hf : f.prog = checkSteps secondary) (hcap : supports48 f.idbuf = cap)
    (hreg : cap = true → u.env.registrations = false :: rs) :
    runFrame 4 f u = (.returned (.status (if cap then .interruptRegistrationFailed else .deviceNotSupported)),
      failBringUp f.ops.dev
        (afterCalls u (if cap then [.registerInterrupt (irqLine f.ops.pci secondary) f.ops.dev] else [])
          (if cap then rs else u.env.registrations))) := by
  cases cap with
  | true => exact runFrame_unregistered hf hcap (hreg rfl)
  | false =>
    simp only [Bool.false_eq_true, if_false, afterCalls_nil]
    exact runFrame_returned (frameStep_check48_unsupported u hf hcap)

theorem supports48_identWords_eq (ws : List (Dword × Dword × Dword)) :
    supports48 (identWords ws) = (ws.getD 83 (0#32, 0#32, 0#32)).2.2.getLsbD 10 := by
  rw [supports48, Config.identCapWord, identWord_identWords]
  simp [flag, Config.identCapBit]

/-! ## What a failed check leaves -/

/-- The same calls behind both states leave a view. -/
theorem view_afterCalls {h : Handle} {s u : State} {d : Device} {blk : CmdBlock} {ctl : Byte} {ans : List Dword}
    {evs : List PortEvent} (v : View h s u d blk ctl ans evs) (cs : List Call) (rs : List Bool) :
    View h (afterCalls s cs rs) (afterCalls u cs rs) d blk ctl ans evs := by
  obtain ⟨hdev, hothers, hcmd, hctl, hans, htrace, hblocks, hctls, hsame⟩ := v
  exact ⟨hdev, hothers, hcmd, hctl, hans, htrace, hblocks, hctls,
    { hsame with registrations := rfl, calls := congrArg (· ++ cs) hsame.calls }⟩

/-- What a bring-up that fails behind its calls leaves: the registers as written, the calls recorded (R264). -/
theorem failBringUp_afterCalls_leaves {s u : State} {d : Device} {blk : CmdBlock} {ctl : Byte} {ans : List Dword}
    {evs : List PortEvent} (v : View s.port.ops.dev s u d blk ctl ans evs)
    (hreg : d.registered = (s.dev s.port.ops.dev).registered)
    (hfault : d.handlerFault = (s.dev s.port.ops.dev).handlerFault) (cs : List Call) (rs : List Bool) (i : Instr)
    (r : Result) :
    let t := handBack s.port.ops.dev i r (failBringUp s.port.ops.dev (afterCalls u cs rs))
    t.trace = s.trace ++ evs ∧ t.calls = s.calls ++ cs ∧ t.env.registrations = rs ∧ Returns s t i r ∧
      BringUpFailed s t ∧ t.devctl d.dr.ctrl = ctl ∧ t.cmdBlock d.dr.base = blk ∧ t.env.bm = s.env.bm ∧
      KeepsOtherBlocks s t d.dr ∧ KeepsMemory s t ∧ KeepsButCalls s t := by
  obtain ⟨htrace, hreturns, hfailed, hctl, hcmd, hbm, hothers, hmem, hkeeps, hcalls⟩ :=
    failBringUp_leaves (s := afterCalls s cs rs) (view_afterCalls v cs rs) hreg hfault i r
  exact ⟨htrace, hcalls, rfl, hreturns, hfailed, hctl, hcmd, hbm, hothers, hmem, hkeeps⟩

/-- Settles O59: the run reads the identification data, one of the two checks fails, and a failed bring-up leaves the
registers as written. -/
theorem bringUpFailsAfterIdentification : Obligations.BringUpFailsAfterIdentification := by
  unfold Obligations.BringUpFailsAfterIdentification
  intro s secondary slave early last ws rest rrest d cap hmay hpresent hans hpoll hid hreg
  have haccept := accepts_of_mayBringUp hmay secondary slave
  obtain ⟨-, hslice, -⟩ := hmay
  obtain ⟨u, g, hrun, v, hprog, hbuf, hops⟩ := runFrame_bringUp_identified hpresent hans hpoll hid
  have hchecks := runFrame_checksFail (cap := cap) hprog (hbuf ▸ supports48_identWords_eq ws)
    (fun h => v.same.registrations.trans (hreg h))
  rw [hops, v.same.registrations, irqLine_eq] at hchecks
  have hlong : early.length + 1033 + 4 ≤ s.port.slice := by omega
  exact ⟨_, issue_returns haccept hlong ((hrun 4).trans hchecks), failBringUp_afterCalls_leaves v rfl rfl _ _ _ _⟩

end Sys2Proof.Proofs
end

section
/-!
The read/write orchestrator (spec/45_orchestrator.md R270 to R291): its parameter check, the steps S1 to S6 that every
request takes, and the polled transfers.
-/
namespace Sys2Proof.Proofs

open Sys2Proof Sys2Proof.Machine Sys2Proof.Statement

/-! ## The parameter check -/

/-- Parameters that pass the check (R271). -/
theorem frameStep_paramCheck_valid {f : Frame} {ps : List Micro} {s : State} (hf : f.prog = .paramCheck :: ps)
    (hops : f.ops = s.port.ops) (hv : ValidTransfer s) : frameStep f s = (.running (f.setProg ps), s) := by
  obtain ⟨hdev, hbuf, hout, hcount⟩ := hv
  simp [frameStep, hf, microStep, hops, hdev, hbuf, hout, (countOk_iff _).2 hcount, Frame.setProg]

/-- Parameters that do not (R271). -/
theorem frameStep_paramCheck_invalid {f : Frame} {ps : List Micro} {s : State} (hf : f.prog = .paramCheck :: ps)
    (hv : f.ops.devValid = false ∨ f.ops.bufValid = false ∨ f.ops.outValid = false ∨ f.ops.sectorCount = 0#16) :
    frameStep f s = (.returned (.status .invalidParameter), s) := by
  have hcount : countOk 0#16 = false := rfl
  rcases hv with h | h | h | h <;> simp [frameStep, hf, microStep, h, hcount]

/-- A thread's request is accepted where it names no device, or one that is brought up (R56, R271). -/
theorem accepts_transfer {s : State} (hc : s.port.ctx = .thread)
    (hd : s.port.ops.devValid = false ∨ (s.dev s.port.ops.dev).phase = .up) (async isWrite : Bool) :
    Accepts s (.transferSectors async isWrite) := by
  constructor
  · rcases hd with hd | hd <;> simp [refusal, contextAllows, hc, threadMay, phaseAllows, hd]
  · simp [endedAgent, hc]

/-- Settles O50: the first step returns, and nothing has been touched. -/
theorem invalidParametersTouchNothing : Obligations.InvalidParametersTouchNothing := by
  unfold Obligations.InvalidParametersTouchNothing
  intro s async isWrite hc hslice hv
  have haccept := accepts_transfer hc (hv.imp id And.left) async isWrite
  have hcheck := frameStep_paramCheck_invalid (s := s)
    (f := startFrame (.transferSectors async isWrite) (transferSteps async isWrite s.port.ops) s.port) rfl
    (hv.imp id And.right)
  exact issue_returns haccept hslice (runFrame_returned hcheck)

/-! ## The steps S1 to S6 -/

theorem selectByte_eq (s : State) : selectByte s = devSelByte (regs s).slave := rfl

/-- The selected position of a block whose DEVICE latch names the request's device (R42). -/
theorem selectsSlave_selectByte (s : State) (m t : Taskfile) :
    ({ device := selectByte s, master := m, slave := t } : CmdBlock).selectsSlave = (regs s).slave := by
  rw [selectByte_eq]
  cases (regs s).slave <;> simp [CmdBlock.selectsSlave, devSelByte, flag, Config.devBit]

theorem selectsSlave_selectedWith (s : State) (p : Taskfile) : (selectedWith s p).selectsSlave = (regs s).slave := by
  rw [selectedWith, CmdBlock.setPosition]
  split <;> exact selectsSlave_selectByte s _ _

theorem current_selectedWith (s : State) (p : Taskfile) : (selectedWith s p).current = p :=
  current_setPosition_selected _ _ _ _

/-- Replacing what the selected position holds. -/
theorem setCurrent_selectedWith (s : State) (p q : Taskfile) : (selectedWith s p).setCurrent q = selectedWith s q := by
  rw [CmdBlock.setCurrent, selectsSlave_selectedWith, selectedWith, selectedWith, CmdBlock.setPosition,
    CmdBlock.setPosition, CmdBlock.setPosition]
  split <;> rfl

/-- A request's device selected, its position as it is. -/
theorem selectedWith_own (s : State) :
    selectedWith s (own s) = { block s with device := devSelByte (regs s).slave } := by
  rw [selectedWith, own, CmdBlock.setPosition, CmdBlock.position, selectByte_eq]
  split <;> rfl

/-- A command written to the request's device. -/
theorem takeCommand_selectedWith (s : State) (p : Taskfile) (b ctl : Byte) :
    (selectedWith s p).setCurrent ((selectedWith s p).current.takeCommand b (flag ctl Config.nienBit)) =
      selectedWith s (commanded p b ctl) := by
  rw [current_selectedWith, setCurrent_selectedWith]
  rfl

/-- A write to a two-deep register of the request's device. -/
theorem push_selectedWith (s : State) (p : Taskfile) (n : Nat) (hob : Bool) (b : Byte) :
    (selectedWith s p).push n hob b =
      selectedWith s (p.setFifo n ((p.fifo n).write Config.fifoModel hob b)) := by
  rw [CmdBlock.push, current_selectedWith, setCurrent_selectedWith]

/-- A high-order half written in a bracket and then a low-order one outside it leave both halves, under both readings
of the FIFO (R40, R276). -/
theorem fifo_write_write (model : Config.FifoModel) (f : Fifo) (hi lo : Byte) :
    (f.write model true hi).write model false lo = { hi := hi, lo := lo } := by
  cases model <;> rfl

/-- The eight parameter writes leave each register of the request's device with its two halves (R276, R277). -/
theorem programmed_selectedWith (s : State) :
    (selectedWith s (own s)).programmed s.port.ops.startSector s.port.ops.sectorCount =
      selectedWith s (programmed s) := by
  simp only [CmdBlock.programmed, push_selectedWith]
  simp [Taskfile.fifo, Taskfile.setFifo, fifo_write_write]
  rfl

/-- The steps after S6 of a polled transfer of `n` words (R284, R288, R289). -/
def polledSteps (isWrite : Bool) (n : Nat) : List Micro :=
  [.out .w8 ⟨.command, 7⟩ ((cmdByte isWrite false).setWidth 32), .pio .idle isWrite .caller 0 n, .reportCount]

/-- The steps of a DMA transfer once its table is built, up to its event wait (R281 to R285). -/
def launchSteps (isWrite : Bool) : List Micro :=
  [.setPrdt, .outPrdt, .submit, .out .w8 ⟨.command, 7⟩ ((cmdByte isWrite true).setWidth 32),
    .out .w8 ⟨.busMaster, 0⟩ ((startByte isWrite).setWidth 32)]

/-- The steps after S6 of a DMA transfer of `n` bytes (R279 to R287, R289). -/
def dmaSteps (isWrite : Bool) (n : Nat) : List Micro :=
  .translate n :: .buildAlloc n :: (launchSteps isWrite ++ waitingSteps)

/-- The steps after S6. -/
def bodySteps (async isWrite : Bool) (o : Operands) : List Micro :=
  if async then dmaSteps isWrite (o.sectorCount.toNat * 512) else polledSteps isWrite (o.sectorCount.toNat * 256)

theorem transferSteps_eq (async isWrite : Bool) (o : Operands) :
    transferSteps async isWrite o = .paramCheck :: (transferPrologue async o ++ bodySteps async isWrite o) := by
  cases async <;> rfl

/-- The frame of a transfer request. -/
def transferFrame (s : State) (async isWrite : Bool) : Frame :=
  startFrame (.transferSectors async isWrite) (transferSteps async isWrite s.port.ops) s.port

/-- The record of the request's device once its interrupt-suppression flag is programmed (R184, R273). -/
def flagged (s : State) (suppress : Bool) : Device :=
  { s.dev s.port.ops.dev with dr := { regs s with nien := suppress } }

/-- The steps S0 to S6 of a request whose parameters pass and whose device is ready at once, 23 steps (R271 to R277). -/
theorem runFrame_transferPrologue {s : State} {a b c : Dword} {rest : List Dword} (hv : ValidTransfer s)
    (hr : ReadyAtOnce s a b c rest) (async isWrite : Bool) :
    ∃ u, (∀ n, runFrame (n + 23) (transferFrame s async isWrite) s =
        runFrame n ((transferFrame s async isWrite).setProg (bodySteps async isWrite s.port.ops)) u) ∧
      View s.port.ops.dev s u (flagged s (!async)) (selectedWith s (programmed s)) (nienOf (!async)) rest
        (prologueEvents s (nienOf (!async)) (statusSeen s a) (b.setWidth 8) (c.setWidth 8)) := by
  obtain ⟨hpresent, hans, ha, hb, hc⟩ := hr
  have hown : selectedWith s (own s) = { block s with device := devSelByte (s.dev s.port.ops.dev).dr.slave } :=
    selectedWith_own s
  have hseen : ∀ v, (selectedWith s (own s)).seen v = v.setWidth 8 := by
    intro v
    rw [CmdBlock.seen, current_selectedWith, hpresent]
    rfl
  have hidle : ((block s).seen a).getLsbD 7 = false := by
    rw [CmdBlock.seen]
    split
    · rfl
    · simpa using ha
  have hstart : View s.port.ops.dev s s (s.dev s.port.ops.dev) (block s) (s.devctl (regs s).ctrl) (a :: b :: c :: rest)
      [] := hans ▸ View.start s.port.ops.dev s
  obtain ⟨u, hrun, v⟩ := hstart.run_prologue (f := transferFrame s async isWrite) rfl async s.port.ops hidle
    (by rw [← hown, hseen]; simpa using hb) (by rw [← hown, hseen]; simpa using hc)
  rw [← hown, hseen, hseen, programmed_selectedWith] at v
  refine ⟨u, fun n => ?_, v⟩
  rw [← hrun, show n + 23 = n + 22 + 1 from rfl]
  exact runFrame_running (frameStep_paramCheck_valid (transferSteps_eq async isWrite s.port.ops) rfl hv)

/-! ## The polled transfers -/

/-- The steps of a polled transfer up to its data, 24 steps: the command is written with NIEN set (R271 to R284). -/
theorem runFrame_polledCommand {s : State} {a b c : Dword} {rest : List Dword} (hv : ValidTransfer s)
    (hr : ReadyAtOnce s a b c rest) (isWrite : Bool) :
    ∃ u, (∀ n, runFrame (n + 24) (transferFrame s false isWrite) s =
        runFrame n ((transferFrame s false isWrite).setProg
          [.pio .idle isWrite .caller 0 (s.port.ops.sectorCount.toNat * 256), .reportCount]) u) ∧
      View s.port.ops.dev s u (flagged s true)
        (selectedWith s (commanded (programmed s) (cmdByte isWrite false) 0x02#8)) 0x02#8 rest
        (prologueEvents s 0x02#8 (statusSeen s a) (b.setWidth 8) (c.setWidth 8) ++
          [commandWritten s 7#16 (cmdByte isWrite false)]) := by
  obtain ⟨u1, hprologue, v1⟩ := runFrame_transferPrologue hv hr false isWrite
  obtain ⟨u2, hcommand, v2⟩ := v1.run_command (f := transferFrame s false isWrite) rfl (cmdByte isWrite false)
  rw [takeCommand_selectedWith] at v2
  exact ⟨u2, fun n => (hprologue (n + 1)).trans (hcommand n _), v2⟩

/-- The output slot of a request holds its sector count (R289). -/
def reported (o : Operands) (s : State) : State := { s with outs := Table.insert s.outs o.outSlot o.sectorCount }

theorem lookup_reported (o : Operands) (s : State) :
    Table.lookup (reported o s).outs o.outSlot = some o.sectorCount ∧
      ∀ k, k ≠ o.outSlot → Table.lookup (reported o s).outs k = Table.lookup s.outs k :=
  ⟨Table.lookup_insert_self _ _ _, fun _ hk => Table.lookup_insert_other _ _ hk⟩

/-- The last step of a request (R289). -/
theorem frameStep_reportCount {f : Frame} {ps : List Micro} (hf : f.prog = .reportCount :: ps) (s : State) :
    frameStep f s = (.returned (.status .success), reported f.ops s) := by
  simp only [frameStep, hf, microStep, reported]

/-- What a polled transfer that has ended leaves, but for its events and the memories: Success returned and reported,
NIEN set, the command at its device, everything else as before. -/
structure PolledEnd (s t : State) (i : Instr) (cmd : Byte) (rest : List Dword) : Prop where
  returns : Returns s t i (.status .success)
  device : SetsDevice s t (flagged s true)
  block : Statement.block t = selectedWith s (commanded (programmed s) cmd 0x02#8)
  devctl : t.devctl (regs s).ctrl = 0x02#8
  bm : t.env.bm = s.env.bm
  answers : t.env.answers = rest
  translations : t.env.translations = s.env.translations
  allocations : t.env.allocations = s.env.allocations
  slot : Table.lookup t.outs s.port.ops.outSlot = some s.port.ops.sectorCount
  otherSlots : ∀ k, k ≠ s.port.ops.outSlot → Table.lookup t.outs k = Table.lookup s.outs k
  otherBlocks : KeepsOtherBlocks s t (regs s)
  same : t.backing = s.backing ∧ t.allocs = s.allocs ∧ t.calls = s.calls ∧ t.dmaTrace = s.dmaTrace ∧ t.log = s.log ∧
    t.faults = s.faults ∧ t.threads = s.threads ∧ t.activation = s.activation

/-- The block of the request's device is the one the view names. -/
theorem block_of_view {s u : State} {d : Device} {blk : CmdBlock} {ctl : Byte} {ans : List Dword}
    {evs : List PortEvent} (v : View s.port.ops.dev s u d blk ctl ans evs) : block u = blk := by
  rw [block, regs, v.same.port, v.dev, v.cmd]

/-- The bus-master blocks are those of before. -/
theorem busMaster_of_sameElse {s u : State} (hsame : SameElse s u) (k : IoAddr) : u.busMaster k = s.busMaster k :=
  congrArg (fun e => Table.getD BusMaster.reset e k.toNat) hsame.bm

/-- The end of a polled transfer whose steps have left the registers as the view says, and any memories. -/
theorem polledEnd_of_view {s u : State} {cmd : Byte} {rest : List Dword} {evs : List PortEvent}
    (v : View s.port.ops.dev s u (flagged s true) (selectedWith s (commanded (programmed s) cmd 0x02#8)) 0x02#8 rest
      evs)
    (i : Instr) (mem buf : Memory) :
    PolledEnd s (handBack s.port.ops.dev i (.status .success) (reported s.port.ops { u with mem := mem, buf := buf })) i
      cmd rest := by
  have hblock := block_of_view v
  obtain ⟨hdev, hothers, -, hctl, hans, -, hblocks, hctls, hsame⟩ := v
  obtain ⟨hslot, hslots⟩ := lookup_reported s.port.ops { u with mem := mem, buf := buf }
  exact
    { returns := congrArg (· ++ _) hsame.returns
      device := ⟨hdev, hothers⟩
      block := hblock
      devctl := hctl
      bm := hsame.bm
      answers := hans
      translations := hsame.translations
      allocations := hsame.allocations
      slot := hslot
      otherSlots := fun k hk => (hslots k hk).trans (congrArg (Table.lookup · k) hsame.outs)
      otherBlocks := ⟨hblocks, hctls, fun k _ => busMaster_of_sameElse hsame k⟩
      same := ⟨hsame.backing, hsame.allocs, hsame.calls, hsame.dmaTrace, hsame.log, hsame.faults, hsame.threads,
        hsame.activation⟩ }

/-- A polled transfer whose data loop takes the steps of `len` words and leaves the report alone. -/
theorem exec_polled {s u w : State} {isWrite : Bool} {len : Nat} {cmd : Byte} {rest : List Dword}
    {evs : List PortEvent} {f g : Frame} {mem buf : Memory} (hs : Ready s (26 + 4 * len))
    (hcommand : ∀ n, runFrame (n + 24) (transferFrame s false isWrite) s = runFrame n f u)
    (hloop : ∀ n, runFrame (4 * len + 1 + n) f u =
      runFrame n (g.setProg [.reportCount]) { w with mem := mem, buf := buf })
    (hops : g.ops = s.port.ops)
    (v : View s.port.ops.dev s w (flagged s true) (selectedWith s (commanded (programmed s) cmd 0x02#8)) 0x02#8 rest
      evs) :
    ∃ t, exec (.transferSectors false isWrite) s = .next t ∧ t.trace = s.trace ++ evs ∧
      PolledEnd s t (.transferSectors false isWrite) cmd rest ∧ t.mem = mem ∧ t.buf = buf := by
  have hrun : runFrame (4 * len + 1 + 1 + 24) (transferFrame s false isWrite) s =
      (.returned (.status .success), reported s.port.ops { w with mem := mem, buf := buf }) := by
    rw [← hops]
    exact (hcommand _).trans ((hloop 1).trans (runFrame_returned (frameStep_reportCount rfl _)))
  have hslice := slice_of_ready hs
  exact ⟨_, issue_returns (accepts_of_ready hs rfl rfl) (by omega) hrun, v.trace, polledEnd_of_view v _ mem buf,
    rfl, rfl⟩

/-- Where a buffer's bytes lie and what they held before is the same after steps that have touched no memory. -/
theorem bufferFilled_of_sameElse {s u t : State} {ws : List Word} (hsame : SameElse s u) (h : BufferFilled u t ws) :
    BufferFilled s t ws := by
  have hplace : bufferPlace u = bufferPlace s := by
    funext j
    rw [bufferPlace, hsame.port]
    exact State.place_congr hsame.backing _
  have hread : ∀ p, u.readPlace p = s.readPlace p := State.readPlace_congr hsame.mem hsame.buf
  simpa only [BufferFilled, hplace, hread] using h

/-- The words a buffer holds are the same after such steps. -/
theorem bufRead16_of_sameElse {s u : State} (hsame : SameElse s u) (i : Nat) :
    bufRead16 u s.port.ops.buffer i = bufferWord s i := by
  simp only [bufRead16, bufferWord, State.callerByte_congr hsame.mem hsame.buf hsame.backing]

/-- The selected device is there. -/
theorem present_of_view {s u : State} {d : Device} {p : Taskfile} {ctl : Byte} {ans : List Dword} {evs : List PortEvent}
    {h : Handle} (v : View h s u d (selectedWith s p) ctl ans evs) (hp : p.absent = false) :
    (u.cmdBlock (u.dev h).dr.base).current.absent = false := by
  rw [v.dev, v.cmd, current_selectedWith, hp]

/-- The events of a polled read, as the statement writes them. -/
theorem pioReadEvents_of_view {s u : State} {blk : CmdBlock} {ctl : Byte} {ans : List Dword} {evs : List PortEvent}
    (v : View s.port.ops.dev s u (flagged s true) blk ctl ans evs) :
    pioReadEvents u s.port.ops.dev = fun w => [statusRead s (w.1.setWidth 8), statusRead s (w.2.1.setWidth 8),
      .read .w16 (regs s).base ((w.2.2.setWidth 16 : Word).setWidth 32)] := by
  funext w
  rw [pioReadEvents, statusEvent, statusEvent, v.dev]
  rfl

/-- Settles O51: S0 to S6, the command, the polled loop into the buffer, and the report. -/
theorem synchronousReadCompletes : Obligations.SynchronousReadCompletes := by
  unfold Obligations.SynchronousReadCompletes
  intro s a b c ws rest hv hs hlen hr hw
  obtain ⟨u, hcommand, v⟩ := runFrame_polledCommand hv hr false
  obtain ⟨hpresent, -⟩ := hr
  obtain ⟨x, hloop⟩ := runFrame_pio_read ws rest 0 ((transferFrame s false false).setProg
    [.pio .idle false .caller 0 (s.port.ops.sectorCount.toNat * 256), .reportCount]) rfl (by omega) u
    (fun _ => present_of_view v hpresent) v.answers hw
  rw [fillWords_readsAs, fillWords_eq] at hloop
  have v2 := view_readsAs v (ws.flatMap (pioReadEvents u s.port.ops.dev)) rest
  obtain ⟨t, hexec, htrace, hend, hmem, hbuf⟩ := exec_polled hs hcommand hloop rfl v2
  rw [pioReadEvents_of_view v] at htrace
  have hbuffer : u.port.ops.buffer = s.port.ops.buffer := by rw [v.same.port]
  have hfilled : BufferFilled u t (ws.map (fun w => w.2.2.setWidth 16)) :=
    bufferFilled_fillWords (by rw [hbuffer]; exact hmem) (by rw [hbuffer]; exact hbuf)
  exact ⟨t, hexec, htrace, hend.returns, hend.device, hend.block, hend.devctl, hend.bm, hend.answers,
    hend.translations, hend.allocations, hend.slot, hend.otherSlots, bufferFilled_of_sameElse v.same hfilled,
    hend.otherBlocks, hend.same⟩

/-- The events of a polled write, as the statement writes them. -/
theorem pioWriteEvents_of_view {s u : State} {f : Frame} {blk : CmdBlock} {ctl : Byte} {ans : List Dword}
    {evs : List PortEvent} (hf : f.ops = s.port.ops) (v : View s.port.ops.dev s u (flagged s true) blk ctl ans evs) :
    pioWriteEvents u f = fun w => [statusRead s (w.1.1.setWidth 8), statusRead s (w.1.2.setWidth 8),
      .write .w16 (regs s).base ((bufferWord s w.2).setWidth 32)] := by
  funext w
  rw [pioWriteEvents, statusEvent, statusEvent, hf, v.dev, bufRead16_of_sameElse v.same]
  rfl

/-- Settles O52: S0 to S6, the command, the polled loop from the buffer, and the report. -/
theorem synchronousWriteCompletes : Obligations.SynchronousWriteCompletes := by
  unfold Obligations.SynchronousWriteCompletes
  intro s a b c ws rest hv hs hlen hr hw
  obtain ⟨u, hcommand, v⟩ := runFrame_polledCommand hv hr true
  obtain ⟨hpresent, -⟩ := hr
  obtain ⟨x, hloop⟩ := runFrame_pio_write ws rest 0 ((transferFrame s false true).setProg
    [.pio .idle true .caller 0 (s.port.ops.sectorCount.toNat * 256), .reportCount]) rfl (by omega) u
    (fun _ => present_of_view v hpresent) v.answers hw
  rw [pioWriteEvents_of_view rfl v] at hloop
  obtain ⟨t, hexec, htrace, hend, hmem, hbuf⟩ :=
    exec_polled hs hcommand hloop rfl (view_readsAs v (ws.zipIdx.flatMap _) rest)
  have hkeeps : KeepsMemory s t := by
    rw [KeepsMemory, hmem, hbuf]
    exact ⟨fun x => congrArg (Memory.read · x) v.same.mem, fun x => congrArg (Memory.read · x) v.same.buf⟩
  exact ⟨t, hexec, htrace, hend.returns, hend.device, hend.block, hend.devctl, hend.bm, hend.answers,
    hend.translations, hend.allocations, hend.slot, hend.otherSlots, hkeeps, hend.otherBlocks, hend.same⟩

end Sys2Proof.Proofs
end

section
/-!
The asynchronous transfers (spec/45_orchestrator.md R279 to R290): the descriptor table built or the request stopped,
the transfer launched up to its event wait, and the submitter of a completed transfer.
-/
namespace Sys2Proof.Proofs

open Sys2Proof Sys2Proof.Machine Sys2Proof.Statement

/-! ## The submitter of a completed transfer -/

/-- The steps of a submitter whose event is signalled and whose transfer is finished (R286, R287, R289). -/
theorem runFrame_finish {f : Frame} {s : State} (hf : f.prog = waitingSteps)
    (he : (s.dev f.ops.dev).ct.event = true) (hfin : (s.dev f.ops.dev).ct.state = .finished) :
    runFrame 6 f s =
      (.returned (.status .success), reported f.ops (consumed f.ops.dev (setEvent f.ops.dev false s))) := by
  simp [runFrame, frameStep, hf, waitingSteps, microStep, he, hfin, consumed, reported]

/-- But for the device records, a cleanup leaves what giving back the table leaves (R233). -/
theorem consumed_eq {h : Handle} {s : State} {p : Option PrdTable} (hp : (s.dev h).ct.prdt = p) :
    consumed h s = { releaseTable p s with devs := (consumed h s).devs } := by
  subst hp
  rfl

/-- Settles O56: the turn runs the cleanup of TSM_CONSUME between the consumed event and the report. -/
theorem signalledSubmitterFinishes : Obligations.SignalledSubmitterFinishes := by
  unfold Obligations.SignalledSubmitterFinishes
  intro s tid n f rest hi ha hl hc hp hn he hfin
  let s1 : State := { s with inputs := rest, threads := Table.erase s.threads tid }
  let p := (s.dev f.ops.dev).ct.prdt
  let w := setEvent f.ops.dev false s1
  have hwaited : w.dev f.ops.dev = { s.dev f.ops.dev with ct := { (s.dev f.ops.dev).ct with event := false } } :=
    dev_setEvent_self _ _ _
  have hrun := runFrame_returned_of_le (runFrame_finish (s := s1) hp he hfin) hn
  have hstep := step_resume ⟨hi, ha, hl, hc⟩
  rw [hrun, settle_returned, consumed_eq (s := w) (p := p) (congrArg (·.ct.prdt) hwaited)] at hstep
  obtain ⟨hdev, hothers⟩ := consumed_dev f.ops.dev w
  rw [hwaited] at hdev
  have hthreads : (releaseTable p w).threads = Table.erase s.threads tid := releaseTable_threads w p
  have houts : (releaseTable p w).outs = s.outs := releaseTable_outs w p
  obtain ⟨hslot, hslots⟩ := lookup_reported f.ops (releaseTable p w)
  refine ⟨_, hstep, congrArg (· ++ _) (releaseTable_returns w p), hdev,
    fun k hk => (hothers k hk).trans (State.dev_setCt_other s1 _ hk), mem_releaseTable p w, hslot,
    fun k hk => (hslots k hk).trans (congrArg (Table.lookup · k) houts),
    (congrArg (Table.lookup · tid) hthreads).trans (Table.lookup_erase_self _ _),
    fun k hk => (congrArg (Table.lookup · k) hthreads).trans (Table.lookup_erase_other _ hk),
    read_releaseTable p w, fun hu q x a hq hx hh h1 h2 => ?_,
    fun a => congrArg (Memory.read · a) (releaseTable_buf w p), releaseTable_calls p w, releaseTable_trace w p,
    releaseTable_env w p, releaseTable_backing w p, releaseTable_dmaTrace w p, releaseTable_faults w p,
    releaseTable_log w p⟩
  have hfreed := read_releaseTable_freed q w hx hh hu h1 h2
  rw [← hq] at hfreed
  exact hfreed

/-! ## Up to the builder -/

/-- The frame with another pair list. -/
def setPairs (f : Frame) (ps : List Pair) : Frame := { f with pairs := ps }

/-- The state after a request's call of `Translate` whose answer was listed: `rest` are the answers left (R279). -/
def translated (o : Operands) (rest : List (List Pair)) (s : State) : State :=
  { s with
    env := { s.env with translations := rest }
    calls := s.calls ++ [.translate o.buffer (o.sectorCount.toNat * 512)] }

theorem frameStep_translate {f : Frame} {prog : List Micro} {s : State} {ps : List Pair} {rest : List (List Pair)}
    (hf : f.prog = .translate (f.ops.sectorCount.toNat * 512) :: prog) (ha : s.env.translations = ps :: rest) :
    frameStep f s = (.running ((setPairs f ps).setProg prog), translated f.ops rest s) := by
  simp [frameStep, hf, microStep, State.nextTranslation, State.tookTranslation, ha, State.called, setPairs, translated,
    Frame.setProg]

/-- The steps of an asynchronous request up to its builder, 24 steps: NIEN is clear, the buffer translated (R271 to
R279). -/
theorem runFrame_dmaTranslated {s : State} {a b c : Dword} {rest : List Dword} {ps : List Pair}
    {trest : List (List Pair)} (hv : ValidTransfer s) (hr : ReadyAtOnce s a b c rest)
    (ht : s.env.translations = ps :: trest) (isWrite : Bool) :
    let n := s.port.ops.sectorCount.toNat * 512
    ∃ u, (∀ m, runFrame (m + 24) (transferFrame s true isWrite) s =
        runFrame m ((setPairs (transferFrame s true isWrite) ps).setProg
          (.buildAlloc n :: (launchSteps isWrite ++ waitingSteps))) (translated s.port.ops trest u)) ∧
      View s.port.ops.dev s u (flagged s false) (selectedWith s (programmed s)) 0x00#8 rest
        (prologueEvents s 0x00#8 (statusSeen s a) (b.setWidth 8) (c.setWidth 8)) := by
  intro n
  obtain ⟨u, hprologue, v⟩ := runFrame_transferPrologue hv hr true isWrite
  have htranslate := frameStep_translate
    (f := (transferFrame s true isWrite).setProg (bodySteps true isWrite s.port.ops)) rfl (v.same.translations.trans ht)
  exact ⟨u, fun m => (hprologue (m + 1)).trans (runFrame_running htranslate), v⟩

/-! ## A request the builder stops -/

/-- The end of a stopped sequence touches the results and the faults alone. -/
theorem endedBy_eq (h : Handle) (i : Instr) (u : State) (b : BuildStop) :
    endedBy h i u b = { u with returns := (endedBy h i u b).returns, faults := (endedBy h i u b).faults } := by
  cases b <;> rfl

theorem endsWith_endedBy {s u : State} (i : Instr) (b : BuildStop) (hr : u.returns = s.returns)
    (hf : u.faults = s.faults) : EndsWith s (endedBy s.port.ops.dev i u b) i b := by
  cases b with
  | status st => exact ⟨congrArg (· ++ _) hr, hf⟩
  | fault k => exact ⟨hr, congrArg (· ++ _) hf⟩

/-- The calls of a stopping builder depend on the next handle alone. -/
theorem stopCalls_congr {s t : State} (h : t.nextHandle = s.nextHandle) : stopCalls t = stopCalls s := by
  funext ps alloc
  rw [stopCalls, stopCalls, h]

/-- Settles O54: S0 to S7, and then the builder's stop. -/
theorem setupErrorStartsNoCommand : Obligations.SetupErrorStartsNoCommand := by
  unfold Obligations.SetupErrorStartsNoCommand
  intro s isWrite a b c rest ps trest alloc arest stop n hv hs hr hgiven ht hall hstop
  obtain ⟨u, htranslated, v⟩ := runFrame_dmaTranslated hv hr ht isWrite
  have hblock := block_of_view v
  obtain ⟨hdev, hothers, -, hctl, -, htrace, hblocks, hctls, hsame⟩ := v
  have hgiven' : HandlesGivenOut (translated s.port.ops trest u) := by
    show ∀ x ∈ u.allocs, x.handle < u.nextHandle
    rw [hsame.allocs, hsame.nextHandle]
    exact hgiven
  obtain ⟨k, hk, w, hbuild, hw, hkeep⟩ := runFrame_build_stops
    (f := setPairs (transferFrame s true isWrite) ps) (prog := launchSteps isWrite ++ waitingSteps) hgiven'
    (hsame.allocations.trans hall) hstop
  have hk : k ≤ 7 * ps.length + 6 := hk
  have hslice := slice_of_ready hs
  have hrun := issue_stops (accepts_of_ready (i := .transferSectors true isWrite) hs rfl rfl) hs.1
    (m := k + 24) (by omega) ((htranslated k).trans hbuild)
  have hends : EndsWith s (endedBy s.port.ops.dev (.transferSectors true isWrite) w stop) _ stop :=
    endsWith_endedBy _ _ (by rw [hw]; exact hsame.returns) (by rw [hw]; exact hsame.faults)
  refine ⟨_, hrun, ?_, hends, ?_⟩
  all_goals rw [endedBy_eq, hw]
  · exact htrace
  · refine ⟨?_, ⟨hdev, hothers⟩, hblock, hctl, hsame.bm,
      ⟨hblocks, hctls, fun k _ => busMaster_of_sameElse hsame k⟩, hsame.allocs,
      fun x hx => (hkeep x hx).trans (congrArg (Memory.read · x) hsame.mem),
      fun x => congrArg (Memory.read · x) hsame.buf, hsame.backing, hsame.outs, hsame.dmaTrace, hsame.log,
      hsame.threads, hsame.activation, hsame.port, hsame.inputs⟩
    show u.calls ++ [Call.translate s.port.ops.buffer n] ++ stopCalls u ps alloc = _
    rw [hsame.calls, stopCalls_congr hsame.nextHandle, List.append_assoc, List.singleton_append]

/-! ## The launch -/

/-- The state once the transfer of the table `tb` is launched: the table owned, its address written, InProgress stored,
the command written, the engine started (R281 to R285). -/
def launched (h : Handle) (tb : PrdTable) (cmd start : Byte) (w : State) : State :=
  let owned := w.setCt h { (w.dev h).ct with prdt := some tb }
  let submitted := storeTsm h .inProgress (portWrite h .w32 ⟨.busMaster, 4⟩ (tb.phys.setWidth 32) owned)
  portWrite h .w8 ⟨.busMaster, 0⟩ (start.setWidth 32) (portWrite h .w8 ⟨.command, 7⟩ (cmd.setWidth 32) submitted)

theorem runFrame_launch (f : Frame) (tb : PrdTable) (isWrite : Bool) (prog : List Micro) (w : State) (n : Nat) :
    runFrame (n + 5) ((f.setTable tb).setProg (launchSteps isWrite ++ prog)) w =
      runFrame n ((f.setTable tb).setProg prog)
        (launched f.ops.dev tb (cmdByte isWrite true) (startByte isWrite) w) := rfl

@[simp] theorem cmdBlock_storeTsm (h : Handle) (x : TsmState) (s : State) (k : IoAddr) :
    (storeTsm h x s).cmdBlock k = s.cmdBlock k := rfl

@[simp] theorem devctl_storeTsm (h : Handle) (x : TsmState) (s : State) (k : IoAddr) :
    (storeTsm h x s).devctl k = s.devctl k := rfl

@[simp] theorem busMaster_storeTsm (h : Handle) (x : TsmState) (s : State) (k : IoAddr) :
    (storeTsm h x s).busMaster k = s.busMaster k := rfl

/-- The port events of a launch. -/
def launchEvents (dr : DeviceRegs) (tb : PrdTable) (cmd start : Byte) : List PortEvent :=
  [.write .w32 (dr.bm + 4#16) (tb.phys.setWidth 32), .write .w8 (dr.base + 7#16) (cmd.setWidth 32),
    .write .w8 dr.bm (start.setWidth 32)]

/-- But for the records, the written registers and the trace, a launch leaves everything. -/
theorem launched_eq (h : Handle) (tb : PrdTable) (cmd start : Byte) (w : State) :
    let t := launched h tb cmd start w
    t = { w with devs := t.devs, env := { w.env with cmd := t.env.cmd, bm := t.env.bm }, trace := t.trace } := rfl

/-- The engine of a request's device once it is started (R44, R285). -/
theorem takeCommand_startByte (b : BusMaster) (isWrite : Bool) :
    b.takeCommand (startByte isWrite) =
      { b with buscmd := startByte isWrite, dma := some { next := 0, addr := 0, left := 0, last := false } } := by
  cases isWrite <;> rfl

/-- The record of a device whose transfer of the table `tb` is under way (R281, R283). -/
def underWay (d : Device) (tb : PrdTable) : Device :=
  { d with ct := { d.ct with state := .inProgress, prdt := some tb } }

/-- The record of the request's device once its transfer is under way, its event not signalled (R279 to R283). -/
theorem underWay_flagged {s : State} (he : (s.dev s.port.ops.dev).ct.event = false) (tb : PrdTable) :
    underWay (flagged s false) tb = { s.dev s.port.ops.dev with
      dr := { regs s with nien := false }, ct := { state := .inProgress, event := false, prdt := some tb } } := by
  simp [underWay, flagged, he]

/-- What a launch leaves (R281 to R285). -/
theorem launched_leaves {s w : State} {h : Handle} {d : Device} {blk : CmdBlock} {ctl : Byte} {ans : List Dword}
    {evs : List PortEvent} (v : View h s w d blk ctl ans evs) (tb : PrdTable) (cmd start : Byte) :
    let t := launched h tb cmd start w
    t.trace = s.trace ++ (evs ++ launchEvents d.dr tb cmd start) ∧
      (t.dev h = underWay d tb ∧ ∀ k, k ≠ h → t.dev k = s.dev k) ∧
      t.cmdBlock d.dr.base = blk.setCurrent (blk.current.takeCommand cmd (flag ctl Config.nienBit)) ∧
      t.devctl d.dr.ctrl = ctl ∧
      t.busMaster d.dr.bm = { s.busMaster d.dr.bm with prdtaddr := tb.phys.setWidth 32 }.takeCommand start ∧
      KeepsOtherBlocks s t d.dr := by
  obtain ⟨hdev, hothers, hcmd, hctl, -, htrace, hblocks, hctls, hsame⟩ := v
  have hbm := busMaster_of_sameElse hsame
  intro t
  refine ⟨?_, ⟨?_, fun k hk => ?_⟩, ?_, ?_, ?_, ⟨fun k hk => ?_, fun k hk => ?_, fun k hk => ?_⟩⟩
  all_goals simp only [t, launched, portWrite_buscmd, portWrite_command, portWrite_prdt]
  · simp [launchEvents, hdev, htrace]
  · simp [underWay, hdev]
  · simp [storeTsm, State.dev_setCt_other _ _ hk, hothers k hk]
  · simp [hdev, hcmd, State.masked, hctl]
  · simpa using hctl
  · simp [hdev, hbm]
  · simp [hdev, State.cmdBlock_setCmdBlock_other _ _ hk, hblocks k hk]
  · simpa using hctls k hk
  · simp [hdev, State.busMaster_setBusMaster_other _ _ hk, hbm]

/-- The state once a table is built, its allocation's answer listed (R201 to R212). -/
theorem tableBuilt_eq {s : State} {phys : PhysAddr} {rest : List (Option PhysAddr)} (ps : List Pair) (es : List Entry)
    (h : s.env.allocations = some phys :: rest) :
    tableBuilt ps phys es s =
      { s with
        env := { s.env with allocations := rest }
        allocs := s.allocs ++
          [{ handle := s.nextHandle, phys := phys, bytes := 16 * ps.length, align := Config.prdtAllocAlign }]
        nextHandle := s.nextHandle + 1
        mem := (tableBuilt ps phys es s).mem
        calls := s.calls ++ [.alloc (16 * ps.length) Config.prdtAllocAlign] } := by
  have hall := tableAllocated_eq ps h
  rw [tableBuilt]
  generalize tableMem _ _ _ = m
  rw [hall]

/-- The state a request starts from, once it has called `Translate` and `Alloc` for its table (R279, R280). -/
def setUp (s : State) (ps : List Pair) (phys : PhysAddr) (trest : List (List Pair)) (arest : List (Option PhysAddr))
    (mem : Memory) : State :=
  { s with
    env := { s.env with translations := trest, allocations := arest }
    allocs := s.allocs ++
      [{ handle := s.nextHandle, phys := phys, bytes := 16 * ps.length, align := Config.prdtAllocAlign }]
    nextHandle := s.nextHandle + 1
    mem := mem
    calls := s.calls ++ [.translate s.port.ops.buffer (s.port.ops.sectorCount.toNat * 512),
      .alloc (16 * ps.length) Config.prdtAllocAlign] }

/-- The calls for a table leave a view of the registers. -/
theorem view_tableBuilt {h : Handle} {s u : State} {d : Device} {blk : CmdBlock} {ctl : Byte} {ans : List Dword}
    {evs : List PortEvent} {phys : PhysAddr} {trest : List (List Pair)} {arest : List (Option PhysAddr)}
    (v : View h s u d blk ctl ans evs) (hall : s.env.allocations = some phys :: arest) (ps : List Pair)
    (es : List Entry) :
    let w := tableBuilt ps phys es (translated s.port.ops trest u)
    View h (setUp s ps phys trest arest w.mem) w d blk ctl ans evs := by
  obtain ⟨hdev, hothers, hcmd, hctl, hans, htrace, hblocks, hctls, hsame⟩ := v
  intro w
  have hw := tableBuilt_eq (s := translated s.port.ops trest u) ps es
    (hsame.allocations.trans hall)
  change w = _ at hw
  clear_value w
  subst hw
  refine ⟨hdev, hothers, hcmd, hctl, hans, htrace, hblocks, hctls, { hsame with
    translations := rfl, allocations := rfl, mem := rfl, allocs := ?_, nextHandle := ?_, calls := ?_ }⟩
  · show u.allocs ++ [{ handle := u.nextHandle, .. }] = _
    rw [hsame.allocs, hsame.nextHandle]
    rfl
  · exact congrArg (· + 1) hsame.nextHandle
  · show u.calls ++ [_] ++ [_] = _
    rw [hsame.calls, List.append_assoc]
    rfl

/-- The table a request's builder makes, with the entries `es` (R212). -/
def tableOf (s : State) (phys : PhysAddr) (es : List Entry) : PrdTable :=
  { handle := s.nextHandle, phys := phys, entries := es.length }

/-- The frame of a submitter before its event wait (R286). -/
def submitter (s : State) (isWrite : Bool) (ps : List Pair) (tb : PrdTable) : Frame :=
  ((setPairs (transferFrame s true isWrite) ps).setTable tb).setProg waitingSteps

/-- A request whose sequence still runs at the end of its slice. -/
theorem issue_suspends {s t : State} {i : Instr} {prog : List Micro} {f : Frame} (ha : Accepts s i)
    (h : runFrame s.port.slice (startFrame i prog s.port) s = (.running f, t)) :
    issue i prog s = .next (suspend none f t) := by
  rw [issue_of_accepts ha, runRequest, h, settle_running]

/-- A thread suspended for the first time gets the next number. -/
theorem suspend_thread {f : Frame} (hc : f.ctx = .thread) (s : State) :
    suspend none f s = { s with threads := Table.insert s.threads s.nextTid f, nextTid := s.nextTid + 1 } := by
  simp [suspend, hc]

/-- An asynchronous request whose table is built runs to its event wait, and is suspended there (R272 to R286). -/
theorem exec_launched {s : State} {isWrite : Bool} {a b c : Dword} {rest : List Dword} {ps : List Pair}
    {phys : PhysAddr} {trest : List (List Pair)} {arest : List (Option PhysAddr)} (hv : ValidTransfer s)
    (hs : Ready s (7 * ps.length + 34)) (hr : ReadyAtOnce s a b c rest) (hevent : (transfer s).event = false)
    (ht : s.env.translations = ps :: trest) (hall : s.env.allocations = some phys :: arest)
    (hcovers : Covers ps (s.port.ops.sectorCount.toNat * 512)) (hphys : phys.toNat ≤ 0xFFFFFFFF) :
    let n := s.port.ops.sectorCount.toNat * 512
    ∃ u l,
      View s.port.ops.dev s u (flagged s false) (selectedWith s (programmed s)) 0x00#8 rest
        (prologueEvents s 0x00#8 (statusSeen s a) (b.setWidth 8) (c.setWidth 8)) ∧
      buildEnd ps n phys = .ok l ∧ l.map entryPair = entriesOf ps n ∧
      exec (.transferSectors true isWrite) s = .next (suspend none (submitter s isWrite ps (tableOf s phys l))
        (launched s.port.ops.dev (tableOf s phys l) (cmdByte isWrite true) (startByte isWrite)
          (tableBuilt ps phys l (translated s.port.ops trest u)))) := by
  intro n
  obtain ⟨u, htranslated, v⟩ := runFrame_dmaTranslated hv hr ht isWrite
  obtain ⟨l, hend, hl⟩ := buildEnd_of_covers hcovers hphys
  refine ⟨u, l, v, hend, hl, ?_⟩
  let g := setPairs (transferFrame s true isWrite) ps
  let u1 := translated s.port.ops trest u
  let tb := tableOf s phys l
  have hbuild := runFrame_build g n (launchSteps isWrite ++ waitingSteps) u1 phys hcovers.1
    (tookAllocation_of_listed (v.same.allocations.trans hall)).1
  rw [show buildEnd g.pairs n phys = .ok l from hend,
    show u1.nextHandle = s.nextHandle from v.same.nextHandle] at hbuild
  obtain ⟨k, hk, hbuild⟩ := hbuild
  have hk : k ≤ 7 * ps.length + 4 := hk
  have hlaunch := runFrame_launch g tb isWrite waitingSteps (tableBuilt ps phys l u1)
  obtain ⟨-, ⟨hlaunched, -⟩, -⟩ :=
    launched_leaves (view_tableBuilt v hall ps l) tb (cmdByte isWrite true) (startByte isWrite)
  have hwait : (underWay (flagged s false) tb).ct.event = false := hevent
  rw [← hlaunched] at hwait
  have hslice := slice_of_ready hs
  obtain ⟨m, hm⟩ : ∃ m, s.port.slice = k + (m + 5) + 24 := ⟨s.port.slice - k - 29, by omega⟩
  refine issue_suspends (accepts_of_ready hs rfl rfl) ?_
  rw [hm]
  exact (htranslated _).trans ((hbuild _).trans ((hlaunch m).trans (runFrame_eventWait rfl m _ hwait)))

/-- Settles O53: S0 to S7, the table built, the transfer launched, and the event not signalled. -/
theorem asynchronousRequestReachesItsEventWait : Obligations.AsynchronousRequestReachesItsEventWait := by
  unfold Obligations.AsynchronousRequestReachesItsEventWait
  intro s isWrite a b c rest ps phys trest arest hv hs hr hevent ht hall hcovers hphys cmd start es tb
  obtain ⟨u, l, v, hend, hl, hexec⟩ := exec_launched (isWrite := isWrite) hv hs hr hevent ht hall hcovers hphys
  have htb : tableOf s phys l = tb := by rw [tableOf, ← List.length_map entryPair, hl]
  have hbyte : cmdByte isWrite true = cmd := by cases isWrite <;> rfl
  rw [suspend_thread hs.1, htb, hbyte] at hexec
  let u1 := translated s.port.ops trest u
  let w := tableBuilt ps phys l u1
  have vw : View s.port.ops.dev (setUp s ps phys trest arest w.mem) w _ _ _ _ _ := view_tableBuilt v hall ps l
  obtain ⟨htrace, ⟨hdev, hothers⟩, hcmd, hctl, hbm, hblocks⟩ := launched_leaves vw tb cmd (startByte isWrite)
  rw [takeCommand_selectedWith] at hcmd
  rw [takeCommand_startByte] at hbm
  have hsame := vw.same
  have hregs : regs (launched s.port.ops.dev tb cmd (startByte isWrite) w) = (flagged s false).dr := by
    have hport : (launched s.port.ops.dev tb cmd (startByte isWrite) w).port = s.port :=
      (congrArg State.port (launched_eq _ _ _ _ w)).trans hsame.port
    rw [regs, hport, hdev]
    rfl
  have htable : TableAt w.mem phys.toNat es := (show l.map entryPair = es from hl) ▸ tableAt_tableBuilt hend u1
  obtain ⟨hmem, hbuf⟩ := keepsOutside_tableBuilt hend hcovers.1 u1
  refine ⟨_, submitter s isWrite ps tb, hexec, htrace, hsame.calls, hsame.returns, ⟨hsame.backing, hsame.outs,
      hsame.dmaTrace, hsame.log, hsame.faults, hsame.activation, hsame.port, hsame.inputs⟩,
    ⟨hdev.trans (underWay_flagged hevent tb), hothers⟩,
    (congrArg (fun dr : DeviceRegs => State.cmdBlock _ dr.base) hregs).trans hcmd, hctl,
    (congrArg (fun dr : DeviceRegs => State.busMaster _ dr.bm) hregs).trans hbm, hblocks, htable,
    ⟨fun x hx => (hmem x hx).trans (congrArg (Memory.read · x) v.same.mem),
      fun x => (hbuf x).trans (congrArg (Memory.read · x) v.same.buf)⟩,
    hsame.allocs, ?_, rfl, rfl, rfl, fun k hk => ?_⟩
  · show Table.lookup (Table.insert w.threads w.nextTid _) s.nextTid = _
    rw [hsame.nextTid]
    exact Table.lookup_insert_self _ _ _
  · show Table.lookup (Table.insert w.threads w.nextTid _) k = _
    rw [hsame.nextTid, hsame.threads]
    exact Table.lookup_insert_other _ _ hk

end Sys2Proof.Proofs
end

section
/-!
The interrupt completion handler where its IRQ bit is clear, and behind its tests of STATUS: DF, a clean STATUS that
completes a transfer, and a clean STATUS with no transfer under way (spec/46_interrupt_handler.md R302 to R313).
-/
namespace Sys2Proof.Proofs

open Sys2Proof Sys2Proof.Machine Sys2Proof.Statement

/-! ## Not the device's interrupt -/

/-- The state after a handler has selected its device and read BUSSTATUS (R302, R303). -/
def handlerPolled (h : Handle) (s : State) : State :=
  portRead h .w8 busStatusPort (portWrite h .w8 devicePort ((devSelByte (s.dev h).dr.slave).setWidth 32) s)

/-- BUSSTATUS as a handler reads it: the draw with the IRQ bit of its bus-master block (R43, R303). -/
def polledStatus (s : State) : Byte := withFlag (byteAt s.nextAnswer 0) Config.irqBit (engine s).irq

theorem polledStatus_irq (s : State) : (polledStatus s).getLsbD 2 = (engine s).irq := irq_of_busStatus _ _

/-- The value of the read of BUSSTATUS, whatever its IRQ bit is. -/
theorem handler_polledStatus (s : State) :
    portValue s.port.ops.dev .w8 busStatusPort
      (portWrite s.port.ops.dev .w8 devicePort ((devSelByte (regs s).slave).setWidth 32) s) =
      (polledStatus s).setWidth 32 := by
  rw [show busStatusPort = ⟨.busMaster, 2⟩ from rfl, portValue_busStatus, regs, select_eq]
  simp [polledStatus, engine, regs]

/-- A run of the handler that finds the IRQ bit clear (R303). -/
theorem runFrame_handler_declines {s : State} (hirq : (engine s).irq = false) {f : Frame} (hf : f.prog = handlerSteps)
    (hops : f.ops = s.port.ops) :
    runFrame 3 f s = (.returned (.handled false), handlerPolled s.port.ops.dev s) := by
  have hvalue := handler_polledStatus s
  have htest : flag (polledStatus s) Config.irqBit = false := (polledStatus_irq s).trans hirq
  have hsteps : f.prog = .outSelect :: .inp .w8 busStatusPort :: .irqTest :: handlerSteps.drop 3 := hf
  unfold regs at hvalue
  simp [runFrame, frameStep, microStep, hsteps, hops, hvalue, htest, handlerPolled]

/-- The port events of those steps. -/
theorem handlerPolled_trace (s : State) :
    (handlerPolled s.port.ops.dev s).trace = s.trace ++
      [.write .w8 ((regs s).base + 6#16) ((selectByte s).setWidth 32),
        .read .w8 ((regs s).bm + 2#16) ((polledStatus s).setWidth 32)] := by
  have hvalue := handler_polledStatus s
  unfold regs at hvalue
  rw [handlerPolled, portRead_trace, hvalue, select_eq]
  simp [portAddr, windowBase, busStatusPort, regs, selectByte, devSelByte]
  rfl

/-- The command blocks once the device is selected. -/
theorem handlerPolled_cmdBlock (s : State) (k : IoAddr) :
    (handlerPolled s.port.ops.dev s).cmdBlock k =
      (s.setCmdBlock (regs s).base { block s with device := selectByte s }).cmdBlock k := by
  rw [handlerPolled, State.cmdBlock_portRead, select_eq]
  rfl

/-- The registers of the environment outside the command block are not touched by those steps. -/
theorem handlerPolled_env (s : State) :
    (handlerPolled s.port.ops.dev s).env.ctl = s.env.ctl ∧ (handlerPolled s.port.ops.dev s).env.bm = s.env.bm := by
  rw [handlerPolled, portRead_env, select_eq]
  simp [State.record]

/-- Settles O25: the third step tests the IRQ bit, and returns. -/
theorem handlerDeclinesAForeignInterrupt : Obligations.HandlerDeclinesAForeignInterrupt := by
  unfold Obligations.HandlerDeclinesAForeignInterrupt
  intro s hs hirq
  have hrun := runFrame_handler_declines hirq (f := startFrame .irqHandler handlerSteps s.port) rfl rfl
  have ha := accepts_of_delivered hs
  obtain ⟨-, -, -, hslice⟩ := hs
  obtain ⟨hctl, hbm⟩ := handlerPolled_env s
  have hblock := handlerPolled_cmdBlock s
  refine ⟨_, polledStatus s, issue_returns ha hslice hrun, (polledStatus_irq s).trans hirq, handlerPolled_trace s, ?_, ?_, ?_,
    hctl, hbm, fun k hk => ?_, fun k _ => ?_, fun k _ => ?_⟩
  · simp [Returns, handlerPolled]
  · simp [handlerPolled, KeepsBlock, KeepsMemory, KeepsRest, KeepsButCalls]
  · have hregs : regs (handBack s.port.ops.dev .irqHandler (.handled false) (handlerPolled s.port.ops.dev s)) = regs s := by
      simp [regs, handlerPolled]
    rw [block, hregs, State.cmdBlock_handBack, hblock, State.cmdBlock_setCmdBlock_self]
  · exact (hblock k).trans (State.cmdBlock_setCmdBlock_other s _ hk)
  · exact congrArg (fun e => Table.getD devctlReset e k.toNat) hctl
  · exact congrArg (fun e => Table.getD BusMaster.reset e k.toNat) hbm

/-! ## Behind the tests -/

/-- `u` is `s` after steps of the handler of the request's device that read BUSSTATUS and STATUS: they made the events
`evs`, the device's record is `d` and its bus-master block `b`, and nothing else has changed but the DEVICE latch and the
answers taken. -/
structure HandlerLeft (s u : State) (d : Device) (b : BusMaster) (evs : List PortEvent) : Prop where
  trace : u.trace = s.trace ++ evs
  devs : SetsDevice s u d
  busMaster : u.busMaster (regs s).bm = b
  cmdBlock : u.cmdBlock (regs s).base = { block s with device := selectByte s }
  ctl : u.env.ctl = s.env.ctl
  others : KeepsOtherBlocks s u (regs s)
  memory : KeepsMemory s u
  agents : KeepsAgents s u
  returns : u.returns = s.returns
  log : u.log = s.log
  faults : u.faults = s.faults

/-- The events of the handler's reads where the IRQ bit is set (R302 to R304). -/
def handlerReadEvents (s : State) : List PortEvent :=
  [.write .w8 ((regs s).base + 6#16) ((selectByte s).setWidth 32),
    .read .w8 ((regs s).bm + 2#16) ((irqStatus s).setWidth 32), statusRead s (handlerStatus s)]

/-- What the handler's reads leave (R302 to R304). -/
theorem HandlerLeft.reads {s : State} (hirq : (engine s).irq = true) :
    HandlerLeft s (handlerRead s.port.ops.dev s) (s.dev s.port.ops.dev) (engine s) (handlerReadEvents s) := by
  obtain ⟨hdevs, hmem, hagents, hreturns, hlog, hfaults, hblock, hctl, hbm, hothers, -⟩ := handlerRead_keeps s
  exact
    { trace := handlerRead_trace hirq
      devs := ⟨State.dev_congr hdevs _, fun k _ => State.dev_congr hdevs k⟩
      busMaster := congrArg (fun e => Table.getD BusMaster.reset e (regs s).bm.toNat) hbm
      cmdBlock := hblock, ctl := hctl, others := hothers, memory := hmem, agents := hagents, returns := hreturns
      log := hlog, faults := hfaults }

section left

variable {s u : State} {d : Device} {b : BusMaster} {evs : List PortEvent}

/-- A write that replaces the bus-master block of the handler's device. -/
theorem HandlerLeft.set_engine (v : HandlerLeft s u d b evs) (b' : BusMaster) (e : PortEvent) :
    HandlerLeft s ((u.setBusMaster (regs s).bm b').record e) d b' (evs ++ [e]) := by
  obtain ⟨hcmd, hctl, hbm⟩ := v.others
  exact
    { v with
      trace := by simp [State.record, State.setBusMaster, v.trace]
      busMaster := State.busMaster_setBusMaster_self _ _ _
      others := ⟨hcmd, hctl, fun k hk => (State.busMaster_setBusMaster_other u b' hk).trans (hbm k hk)⟩ }

/-- A store to the CurrentTransfer of the handler's device. -/
theorem HandlerLeft.set_ct (v : HandlerLeft s u d b evs) (ct : CurrentTransfer) :
    HandlerLeft s (u.setCt s.port.ops.dev ct) { d with ct := ct } b evs := by
  obtain ⟨hself, hothers⟩ := v.devs
  exact
    { v with
      devs := ⟨by rw [State.dev_setCt_self, hself], fun k hk => (State.dev_setCt_other u ct hk).trans (hothers k hk)⟩ }

/-- BUSCMD stopped (R307). -/
theorem HandlerLeft.stop (v : HandlerLeft s u d b evs) (hd : d.dr = regs s) :
    HandlerLeft s (portWrite s.port.ops.dev .w8 ⟨.busMaster, 0⟩ 0#32 u) d { b with buscmd := 0#8, dma := none }
      (evs ++ [.write .w8 (regs s).bm 0#32]) := by
  obtain ⟨hself, -⟩ := v.devs
  have hw := portWrite_buscmd s.port.ops.dev 0#8 u
  rw [hself, hd, v.busMaster] at hw
  exact hw ▸ v.set_engine _ _

/-- The IRQ bit acknowledged (R310). -/
theorem HandlerLeft.ack (v : HandlerLeft s u d b evs) (hd : d.dr = regs s) :
    HandlerLeft s (portWrite s.port.ops.dev .w8 ⟨.busMaster, 2⟩ 4#32 u) d { b with irq := false }
      (evs ++ [.write .w8 ((regs s).bm + 2#16) 4#32]) := by
  obtain ⟨hself, -⟩ := v.devs
  have hw := portWrite_busStatus s.port.ops.dev 4#8 u
  rw [hself, hd, v.busMaster, show flag 4#8 Config.irqBit = true from rfl, Bool.not_true, Bool.and_false] at hw
  exact hw ▸ v.set_engine _ _

/-- What a fault raised by the handler leaves, its device's record not yet changed (R323, R324). -/
theorem HandlerLeft.raises (v : HandlerLeft s u (s.dev s.port.ops.dev) b evs) (k : Fault) :
    let t := raise s.port.ops.dev .interrupt k u
    t.trace = s.trace ++ evs ∧ t.returns = s.returns ∧ t.log = s.log ∧ EndsHandler s t k ∧ engine t = b ∧
      KeepsMemory s t ∧ block t = { block s with device := selectByte s } ∧ t.env.ctl = s.env.ctl ∧
      KeepsOtherBlocks s t (regs s) ∧ KeepsAgents s t := by
  intro t
  obtain ⟨hself, hothers⟩ := v.devs
  obtain ⟨-, -, -, -, -, -, -, -, -, hport, -⟩ := v.agents
  have hregs : regs t = regs s := by simp [t, regs, hport, hself]
  refine ⟨(raise_trace ..).trans v.trace, (raise_returns ..).trans v.returns, (raise_log ..).trans v.log,
    ⟨?_, ?_, fun x hx => ?_⟩, ?_, ?_, ?_, (congrArg Env.ctl (raise_env ..)).trans v.ctl, ?_, ?_⟩
  · rw [raise_faults, v.faults]
  · rw [dev_raise, if_pos ⟨rfl, rfl⟩, hself]
  · rw [dev_raise, if_neg (fun h => hx h.2), hothers x hx]
  · rw [engine, hregs, State.busMaster_raise, v.busMaster]
  · simpa [t, KeepsMemory] using v.memory
  · rw [block, hregs, State.cmdBlock_raise, v.cmdBlock]
  · simpa [t, KeepsOtherBlocks] using v.others
  · simpa [t, KeepsAgents] using v.agents

end left

/-! ## A device fault -/

/-- A run of the handler that finds DF, whatever ERR is (R305). -/
theorem runFrame_handler_deviceFault {s : State} (hirq : (engine s).irq = true)
    (hdf : (handlerStatus s).getLsbD 5 = true) {f : Frame} (hf : f.prog = handlerSteps) (hops : f.ops = s.port.ops) :
    runFrame 5 f s = (.raised (.deviceFault (handlerStatus s)), handlerRead s.port.ops.dev s) := by
  have htest : flag (handlerStatus s) Config.dfBit = true := hdf
  rw [runFrame_handler_reads hirq (hf.trans rfl) hops 1]
  simp [runFrame, frameStep, microStep, htest]

/-- Settles O27: the handler reads up to its test of STATUS, which raises. -/
theorem handlerFaultsOnDeviceFault : Obligations.HandlerFaultsOnDeviceFault := by
  unfold Obligations.HandlerFaultsOnDeviceFault
  intro s hs hirq hdf
  have hrun := runFrame_handler_deviceFault hirq hdf (f := startFrame .irqHandler handlerSteps s.port) rfl rfl
  have ha := accepts_of_delivered hs
  obtain ⟨hctx, -, -, hslice⟩ := hs
  refine ⟨_, irqStatus s, issue_raises ha hslice hrun, irqStatus_irq s, ?_⟩
  rw [hctx]
  exact (HandlerLeft.reads hirq).raises _

/-! ## A clean STATUS -/

/-- The state after a handler that found a clean STATUS has stopped BUSCMD (R307). -/
def handlerStopped (h : Handle) (s : State) : State := portWrite h .w8 ⟨.busMaster, 0⟩ 0#32 (handlerRead h s)

/-- What the handler leaves once BUSCMD is stopped. -/
theorem HandlerLeft.stopped {s : State} (hirq : (engine s).irq = true) :
    HandlerLeft s (handlerStopped s.port.ops.dev s) (s.dev s.port.ops.dev)
      { engine s with buscmd := 0#8, dma := none } (handlerReadEvents s ++ [.write .w8 (regs s).bm 0#32]) :=
  (HandlerLeft.reads hirq).stop rfl

/-- The frame of a handler before its compare-and-swap (R308). -/
def handlerAtSwap (f : Frame) (status : Byte) : Frame :=
  { f with prog := handlerSteps.drop 6, acc := status.setWidth 32, status := status }

/-- The steps of a handler up to its compare-and-swap (R302 to R307). -/
theorem runFrame_handler_clean {s : State} (hirq : (engine s).irq = true) (hdf : (handlerStatus s).getLsbD 5 = false)
    (herr : (handlerStatus s).getLsbD 0 = false) {f : Frame} (hf : f.prog = handlerSteps) (hops : f.ops = s.port.ops)
    (n : Nat) :
    runFrame (n + 6) f s = runFrame n (handlerAtSwap f (handlerStatus s)) (handlerStopped s.port.ops.dev s) := by
  have htestDf : flag (handlerStatus s) Config.dfBit = false := hdf
  have htestErr : flag (handlerStatus s) Config.errBit = false := herr
  have hsteps : f.prog = .outSelect :: .inp .w8 busStatusPort :: .irqTest :: .inp .w8 statusPort :: .statusTest ::
      .out .w8 ⟨.busMaster, 0⟩ 0#32 :: handlerSteps.drop 6 := hf
  rw [runFrame_handler_reads hirq hsteps hops (n + 2)]
  simp [runFrame, frameStep, microStep, hops, htestDf, htestErr, handlerAtSwap, handlerStopped]

/-! ## A completion without a transfer -/

/-- A run of the handler whose compare-and-swap finds no transfer under way (R308, R313). -/
theorem runFrame_handler_spurious {s : State} (hirq : (engine s).irq = true)
    (hdf : (handlerStatus s).getLsbD 5 = false) (herr : (handlerStatus s).getLsbD 0 = false)
    (hstate : (transfer s).state ≠ .inProgress) {f : Frame} (hf : f.prog = handlerSteps) (hops : f.ops = s.port.ops) :
    runFrame 7 f s = (.raised (.casFailed (transfer s).state), handlerStopped s.port.ops.dev s) := by
  obtain ⟨hself, -⟩ := (HandlerLeft.stopped hirq).devs
  have hct : ((handlerStopped s.port.ops.dev s).dev f.ops.dev).ct = transfer s := by rw [hops, hself]; rfl
  rw [runFrame_handler_clean hirq hdf herr hf hops 1, ← hct]
  rw [← hct] at hstate
  exact runFrame_raised (microStep_complete_raises hstate)

/-- Settles O29: the handler stops BUSCMD, and its compare-and-swap raises. -/
theorem handlerFaultsOnSpuriousCompletion : Obligations.HandlerFaultsOnSpuriousCompletion := by
  unfold Obligations.HandlerFaultsOnSpuriousCompletion
  intro s hs hirq hdf herr hstate
  have hrun := runFrame_handler_spurious hirq hdf herr hstate (f := startFrame .irqHandler handlerSteps s.port) rfl rfl
  have ha := accepts_of_delivered hs
  obtain ⟨hctx, -, -, hslice⟩ := hs
  refine ⟨_, irqStatus s, issue_raises ha hslice hrun, irqStatus_irq s, ?_⟩
  rw [hctx]
  exact (HandlerLeft.stopped hirq).raises _

/-! ## A completion -/

/-- The state after the handler's compare-and-swap, its signal and its acknowledgement (R308 to R310). -/
def handlerCompleted (h : Handle) (s : State) : State :=
  portWrite h .w8 ⟨.busMaster, 2⟩ 4#32 (setEvent h true (storeTsm h .finished (handlerStopped h s)))

/-- A run of the handler whose compare-and-swap finds a transfer under way (R308 to R311). -/
theorem runFrame_handler_completes {s : State} (hirq : (engine s).irq = true)
    (hdf : (handlerStatus s).getLsbD 5 = false) (herr : (handlerStatus s).getLsbD 0 = false)
    (hstate : (transfer s).state = .inProgress) {f : Frame} (hf : f.prog = handlerSteps) (hops : f.ops = s.port.ops) :
    runFrame 10 f s = (.returned (.handled true), handlerCompleted s.port.ops.dev s) := by
  obtain ⟨hself, -⟩ := (HandlerLeft.stopped hirq).devs
  have hswap : ((handlerStopped s.port.ops.dev s).dev f.ops.dev).ct.state = .inProgress := by
    rw [hops, hself]; exact hstate
  have hswapped : frameStep (handlerAtSwap f (handlerStatus s)) (handlerStopped s.port.ops.dev s) = _ :=
    microStep_complete (f := { handlerAtSwap f (handlerStatus s) with prog := handlerSteps.drop 7 }) hswap
  rw [runFrame_handler_clean hirq hdf herr hf hops 4, runFrame_running hswapped, ← hops]
  rfl

/-- What a completed handler leaves (R307 to R310). -/
theorem HandlerLeft.completed {s : State} (hirq : (engine s).irq = true) :
    HandlerLeft s (handlerCompleted s.port.ops.dev s)
      { s.dev s.port.ops.dev with ct := { transfer s with state := .finished, event := true } }
      { engine s with buscmd := 0#8, irq := false, dma := none }
      (handlerReadEvents s ++ [.write .w8 (regs s).bm 0#32, .write .w8 ((regs s).bm + 2#16) 4#32]) := by
  have hstop := HandlerLeft.stopped hirq
  obtain ⟨hself, -⟩ := hstop.devs
  have hsignal := (hstop.set_ct { transfer s with state := .finished }).set_ct
    { transfer s with state := .finished, event := true }
  have hdone := hsignal.ack rfl
  rw [List.append_assoc] at hdone
  rw [handlerCompleted, setEvent, dev_storeTsm_self, storeTsm, hself]
  exact hdone

/-- Settles O26: the handler stops BUSCMD, swaps, signals, acknowledges and returns. -/
theorem handlerCompletesATransfer : Obligations.HandlerCompletesATransfer := by
  unfold Obligations.HandlerCompletesATransfer
  intro s hs hirq hdf herr hstate
  have hrun := runFrame_handler_completes hirq hdf herr hstate (f := startFrame .irqHandler handlerSteps s.port) rfl rfl
  have ha := accepts_of_delivered hs
  obtain ⟨-, -, -, hslice⟩ := hs
  have v := HandlerLeft.completed hirq
  obtain ⟨hself, hothers⟩ := v.devs
  obtain ⟨hbacking, houts, hallocs, hnext, hdma, hcalls, hthreads, htid, hactivation, hport, hinputs⟩ := v.agents
  let t := handBack s.port.ops.dev .irqHandler (.handled true) (handlerCompleted s.port.ops.dev s)
  have hregs : regs t = regs s := by simp [t, regs, hport, hself]
  refine ⟨t, irqStatus s, issue_returns ha hslice hrun, irqStatus_irq s, v.trace, ?_, v.devs, v.memory,
    ⟨⟨hbacking, houts, hallocs, hnext, hdma, v.log, v.faults, hthreads, htid, hactivation, hport, hinputs⟩, hcalls⟩,
    ?_, ?_, v.ctl, v.others⟩
  · exact (handBack_returns ..).trans (congrArg (· ++ _) v.returns)
  · rw [block, hregs, State.cmdBlock_handBack, v.cmdBlock]
  · rw [engine, hregs, State.busMaster_handBack, v.busMaster]

end Sys2Proof.Proofs
end

section
/-!
The interrupt context is not preempted: while an activation is unfinished the port takes no request and no thread is
resumed (spec/60_exceptions.md R331).
-/
namespace Sys2Proof.Proofs

open Sys2Proof Sys2Proof.Machine Sys2Proof.Statement

/-- A turn that would move a thread or start a sequence is refused before it is looked at. -/
theorem unlessInterrupt_of_activation {s : State} {f : Frame} (ha : s.activation = some f)
    (o : Host.Outcome State Fault Refusal) : unlessInterrupt s o = .refused .interruptRunning := by
  simp [unlessInterrupt, ha]

/-- Settles O35: a request and a resumed thread both stand behind the test of the activation, which taking the turn
from the inputs leaves as it was. -/
theorem theInterruptContextIsNotPreempted : Obligations.TheInterruptContextIsNotPreempted := by
  unfold Obligations.TheInterruptContextIsNotPreempted
  intro s f rest ha
  refine ⟨fun r hi => ?call, fun tid n hi => ?resume⟩
  case call =>
    rw [step_turn hi, takeTurn]
    exact unlessInterrupt_of_activation ha _
  case resume =>
    rw [step_turn hi, takeTurn]
    exact unlessInterrupt_of_activation ha _

end Sys2Proof.Proofs
end
